-- ==== Sys2Proof/Word.lean ====
section
/-! DEFINITION. Word types of the GRM-B1A and the plainest arithmetic on them: 64-bit payloads and registers (R65, R118), 32-bit
instruction words (R97), and the reading of a bit range `<hi:lo>` of a natural number. -/

namespace Sys2Proof

/-- A register, slice word or token payload: 64 bits. -/
abbrev Word := BitVec 64

/-- One byte of memory. -/
abbrev Byte := BitVec 8

/-- Bits `<lo+n-1:lo>` of a natural number. -/
def bits (x lo n : Nat) : Nat := x / 2 ^ lo % 2 ^ n

/-- Bit `<k>` of a natural number. -/
def bitAt (x k : Nat) : Bool := x / 2 ^ k % 2 == 1

/-- A Boolean as the number 1 or 0. -/
def b2n (b : Bool) : Nat := if b then 1 else 0

/-- A natural number below `2^n` read as an `n`-bit two's-complement integer. -/
def sgn (x n : Nat) : Int := if 2 ^ (n - 1) ≤ x % 2 ^ n then (x % 2 ^ n : Int) - 2 ^ n else (x % 2 ^ n : Int)

/-- An integer reduced modulo `2^n`. -/
def wrap (x : Int) (n : Nat) : Nat := (x % (2 ^ n : Int)).toNat

end Sys2Proof
end

