-- ==== Sys2Proof/Config.lean ====
section
/-! DEFINITION. Config: what one package fixes and the manual leaves open, and the free values. Every one is opaque, so nothing can be
proved about its value: a claim that holds, holds whatever it is (notes/assumptions 2, 5, 10, 13). -/

namespace Sys2Proof

/-- The n-th free value: a value the manual calls undefined, or does not state (5, 10). -/
opaque Config.freeWord : Nat → Word

/-- The n-th free choice among events that may all come next, where the manual fixes no order (2). -/
opaque Config.pick : Nat → Nat

/-- Torus coordinates of the package and extents of the torus, from which bring-up sets its own at stage 4 (R335, R446) (13). -/
opaque Config.torusX : Nat
opaque Config.torusY : Nat
opaque Config.torusZ : Nat
opaque Config.extentX : Nat
opaque Config.extentY : Nat
opaque Config.extentZ : Nat

/-- Whether the self-test and the training of bring-up stage n succeed (R446) (13). -/
opaque Config.stagePasses : Nat → Bool

/-- Whether physical core n passes self-test at stage 2 (R446, R448) (13). -/
opaque Config.corePasses : Nat → Bool

/-- Digests of the spare map and of the torus configuration, measured into MEAS1 and MEAS2 (R446) (13). -/
opaque Config.bootDigest : Nat → BitVec 384

/-- What the fuses hold (R446): the digest of the root public key and the rollback counter (13). -/
opaque Config.rootDigest : Nat
opaque Config.rollbackFuse : Nat

/-- The bytes of the Ebgokai image of manufacture (R446) (105). -/
opaque Config.factoryLength : Nat
opaque Config.factoryByte : Nat → Byte

/-- What a firmware image says of itself, whose layout the manual does not give (105): its size, by its first 64 bytes; its version; how many
of its first bytes its signature covers; the root public key it carries; its signature. -/
opaque Config.imageSize : List Nat → Nat
opaque Config.imageVersion : List Nat → Nat
opaque Config.imageSigned : List Nat → Nat
opaque Config.imageKeyX : List Nat → Nat
opaque Config.imageKeyY : List Nat → Nat
opaque Config.imageSignR : List Nat → Nat
opaque Config.imageSignS : List Nat → Nat

/-- Affine public keys of the signing keys that Ebgokai holds (R135) (13). -/
opaque Config.signerX : Nat → Nat
opaque Config.signerY : Nat → Nat

/-- The device identity key, the nonce of the n-th attempt to sign a digest, and the certificate's bytes (R451) (13). -/
opaque Config.deviceKey : Nat
opaque Config.deviceNonce : Nat → Nat → Nat
opaque Config.certificate : Nat → Byte

/-- Bytes that an entry of the event log takes in a response less one, and byte `k` of the entry with given fields (R447, R449) (75). -/
opaque Config.eventRoom : Nat
opaque Config.eventByte : List Nat → Nat → Byte

end Sys2Proof
end

