-- ==== Sys2Proof/Syntax.lean ====
section
/-! DEFINITION. Syntax of the GRM-B1A: one constructor of `Instr` per row of the opcode table. The rows with bits are instruction
words of R100 with their fields as typed operands (bit fields the manual numbers stay bit vectors); the others are the steps of the
part that carry no word (chapter 95: host packets, engine steps, links, bring-up), so they have no operands: what they act on stands
in the state. `quotaWrite` is the SWR word of a quota register (R433). PM and LSID, which many formats hold at one place (R100), are
the `Head` of a word and stand beside its `Instr`: firing (R104, R105) and commit (R109, R110) read them, no meaning does. The
constructors that carry operands come first, because the compiler numbers only 245 of them. -/

namespace Sys2Proof

/-- PM (R101): whether and how an instruction is predicated. -/
inductive PM where
  | always | onTrue | onFalse
  deriving DecidableEq, Repr

/-- Operating width of the integer group (R220). -/
inductive Width where
  | w64 | w32 | w16 | w8
  deriving DecidableEq, Repr

/-- Operand format of the floating-point group (R236). -/
inductive FFmt where
  | f64 | f32 | bf16 | f16
  deriving DecidableEq, Repr

/-- Integer format of a conversion (R252): signed or natural, and its width. -/
structure IFmt where
  signed : Bool
  width  : Width
  deriving DecidableEq, Repr

/-- Rounding mode codes 0 to 4 (R66). Code 5 belongs to `CVTSR` alone (R67). -/
inductive RMode where
  | rne | rtz | rdn | rup | rna
  deriving DecidableEq, Repr

/-- Scale of `LEA` (R228). -/
inductive Scale where
  | x1 | x2 | x4 | x8 | x16
  deriving DecidableEq, Repr

/-- SCOPE codes 0 to 5 (R100). -/
inductive Scope where
  | inst | core | clu | twr | pkg | sys
  deriving DecidableEq, Repr

/-- Field chosen by `GETTAG` (R127). -/
inductive TagField where
  | tag | iter | ctx | orig | chan
  deriving DecidableEq, Repr

/-- View chosen by `COORD` (R128). -/
inductive CoordView where
  | rect | abs | pkg
  deriving DecidableEq, Repr

/-- View chosen by `TLGET` (R213). -/
inductive TlView where
  | tl | wp | chk
  deriving DecidableEq, Repr

/-- Operand slot of an instruction (R102, R104). -/
inductive Slot where
  | a | b | c | p
  deriving DecidableEq, Repr

/-- A valid target field (R102). -/
structure Target where
  slot  : Slot
  index : BitVec 6
  deriving DecidableEq, Repr

/-- What the words of most formats share (R100): the predicate mode and the store ID. A format without the field holds `always` or 0. -/
structure Head where
  pm   : PM
  lsid : BitVec 5
  deriving DecidableEq, Repr

/-- The instructions and steps of the opcode table. -/
inductive Instr where
  /-- R123. Sends the committed value and taint of register gN to its targets, waiting while gN is pending. -/
  | read (g : BitVec 5) (t1 : Option Target) (t0 : Option Target)
  /-- R123. Records its token as the value of register gN, which takes effect at commit. -/
  | write (g : BitVec 5)
  /-- R124. Sends argument n of the instance, raising BLK_ARG if n is at or beyond the task's arity. -/
  | arg (g : BitVec 5) (t1 : Option Target) (t0 : Option Target)
  /-- R122. Copies its slot-a token to up to two targets. -/
  | mov (t1 : Option Target) (t0 : Option Target)
  /-- R125. Sends a signed 14-bit immediate, sign-extended to 64 bits. -/
  | const (imm : BitVec 14) (t0 : Option Target)
  /-- R125. Shifts slot a left by 14 and ORs in a raw 14-bit immediate, modulo 2^64. -/
  | consth (imm : BitVec 14) (t0 : Option Target)
  /-- R122. Sends a null token to its targets. -/
  | null (t1 : Option Target) (t0 : Option Target)
  /-- R127. Returns a selected field of the instance's tag or its creating channel. -/
  | gettag (view : TagField) (t1 : Option Target) (t0 : Option Target)
  /-- R128. Returns a rectangle, absolute or package coordinate word of the logical core. -/
  | coord (view : CoordView) (t1 : Option Target) (t0 : Option Target)
  /-- R225. Adds two operands modulo 2^N. -/
  | add (w : Width) (t1 : Option Target) (t0 : Option Target)
  /-- R225. Adds a signed 9-bit immediate modulo 2^N. -/
  | addi (w : Width) (imm : BitVec 9) (t0 : Option Target)
  /-- R225. Subtracts b from a modulo 2^N. -/
  | sub (w : Width) (t1 : Option Target) (t0 : Option Target)
  /-- R225. Multiplies two operands modulo 2^N. -/
  | mul (w : Width) (t1 : Option Target) (t0 : Option Target)
  /-- R225. Multiplies by a signed immediate modulo 2^N. -/
  | muli (w : Width) (imm : BitVec 9) (t0 : Option Target)
  /-- R225. Returns the high half of the signed 2N-bit product. -/
  | mulh (w : Width) (t1 : Option Target) (t0 : Option Target)
  /-- R225. Returns the high half of the natural 2N-bit product. -/
  | mulhn (w : Width) (t1 : Option Target) (t0 : Option Target)
  /-- R225. Computes a times b plus c with a single wrap modulo 2^N. -/
  | madd (w : Width) (t1 : Option Target) (t0 : Option Target)
  /-- R226. Signed division truncating toward zero, with defined results for zero and overflow. -/
  | div (w : Width) (t1 : Option Target) (t0 : Option Target)
  /-- R226. Natural division, all ones for a zero divisor. -/
  | divn (w : Width) (t1 : Option Target) (t0 : Option Target)
  /-- R226. Signed remainder with the sign of the dividend. -/
  | rem (w : Width) (t1 : Option Target) (t0 : Option Target)
  /-- R226. Natural remainder, the dividend for a zero divisor. -/
  | remn (w : Width) (t1 : Option Target) (t0 : Option Target)
  /-- R225. Negates modulo 2^N. -/
  | neg (w : Width) (t1 : Option Target) (t0 : Option Target)
  /-- R225. Returns the absolute value of the signed operand. -/
  | abs (w : Width) (t1 : Option Target) (t0 : Option Target)
  /-- R225. Signed minimum. -/
  | min (w : Width) (t1 : Option Target) (t0 : Option Target)
  /-- R225. Signed maximum. -/
  | max (w : Width) (t1 : Option Target) (t0 : Option Target)
  /-- R225. Natural minimum. -/
  | minn (w : Width) (t1 : Option Target) (t0 : Option Target)
  /-- R225. Natural maximum. -/
  | maxn (w : Width) (t1 : Option Target) (t0 : Option Target)
  /-- R225. Signed saturating addition. -/
  | addsat (w : Width) (t1 : Option Target) (t0 : Option Target)
  /-- R225. Signed saturating subtraction. -/
  | subsat (w : Width) (t1 : Option Target) (t0 : Option Target)
  /-- R227. Bitwise AND. -/
  | and (w : Width) (t1 : Option Target) (t0 : Option Target)
  /-- R227. Bitwise AND with a sign-extended immediate. -/
  | andi (w : Width) (imm : BitVec 9) (t0 : Option Target)
  /-- R227. Bitwise OR. -/
  | or (w : Width) (t1 : Option Target) (t0 : Option Target)
  /-- R227. Bitwise OR with an immediate. -/
  | ori (w : Width) (imm : BitVec 9) (t0 : Option Target)
  /-- R227. Bitwise XOR. -/
  | xor (w : Width) (t1 : Option Target) (t0 : Option Target)
  /-- R227. Bitwise XOR with an immediate. -/
  | xori (w : Width) (imm : BitVec 9) (t0 : Option Target)
  /-- R227. a AND NOT b. -/
  | andn (w : Width) (t1 : Option Target) (t0 : Option Target)
  /-- R227. Bitwise complement. -/
  | not (w : Width) (t1 : Option Target) (t0 : Option Target)
  /-- R227. Logical left shift by a 64-bit count. -/
  | shl (w : Width) (t1 : Option Target) (t0 : Option Target)
  /-- R227. Logical left shift by an immediate in 0 to N-1. -/
  | shli (w : Width) (imm : BitVec 9) (t0 : Option Target)
  /-- R227. Logical right shift. -/
  | shr (w : Width) (t1 : Option Target) (t0 : Option Target)
  /-- R227. Logical right shift by an immediate. -/
  | shri (w : Width) (imm : BitVec 9) (t0 : Option Target)
  /-- R227. Arithmetic right shift. -/
  | sar (w : Width) (t1 : Option Target) (t0 : Option Target)
  /-- R227. Arithmetic right shift by an immediate. -/
  | sari (w : Width) (imm : BitVec 9) (t0 : Option Target)
  /-- R227. Rotate left by the count modulo N. -/
  | rol (w : Width) (t1 : Option Target) (t0 : Option Target)
  /-- R227. Rotate right by the count modulo N. -/
  | ror (w : Width) (t1 : Option Target) (t0 : Option Target)
  /-- R228. Computes a plus b scaled by 1 to 16, without access or check. -/
  | lea (sc : Scale) (t1 : Option Target) (t0 : Option Target)
  /-- R229. Sign-extends the low N bits to 64 bits. -/
  | sext (w : Width) (t1 : Option Target) (t0 : Option Target)
  /-- R229. Zero-extends the low N bits to 64 bits. -/
  | zext (w : Width) (t1 : Option Target) (t0 : Option Target)
  /-- R230. Returns 1 when a equals b. -/
  | teq (w : Width) (t1 : Option Target) (t0 : Option Target)
  /-- R230. Returns 1 when a differs from b. -/
  | tne (w : Width) (t1 : Option Target) (t0 : Option Target)
  /-- R230. Signed less-than compare. -/
  | tlt (w : Width) (t1 : Option Target) (t0 : Option Target)
  /-- R230. Signed less-or-equal compare. -/
  | tle (w : Width) (t1 : Option Target) (t0 : Option Target)
  /-- R230. Natural less-than compare. -/
  | tltn (w : Width) (t1 : Option Target) (t0 : Option Target)
  /-- R230. Natural less-or-equal compare. -/
  | tlen (w : Width) (t1 : Option Target) (t0 : Option Target)
  /-- R230. Compares a with an immediate for equality. -/
  | teqi (w : Width) (imm : BitVec 9) (t0 : Option Target)
  /-- R230. Compares a with an immediate for inequality. -/
  | tnei (w : Width) (imm : BitVec 9) (t0 : Option Target)
  /-- R230. Signed less-than against an immediate. -/
  | tlti (w : Width) (imm : BitVec 9) (t0 : Option Target)
  /-- R230. Signed less-or-equal against an immediate. -/
  | tlei (w : Width) (imm : BitVec 9) (t0 : Option Target)
  /-- R230. Natural less-than against an immediate. -/
  | tltni (w : Width) (imm : BitVec 9) (t0 : Option Target)
  /-- R230. Natural less-or-equal against an immediate. -/
  | tleni (w : Width) (imm : BitVec 9) (t0 : Option Target)
  /-- R231. Returns slot a when bit 0 of slot c is 1, otherwise slot b. -/
  | sel (t1 : Option Target) (t0 : Option Target)
  /-- R232. Counts leading zero bits. -/
  | clz (w : Width) (t1 : Option Target) (t0 : Option Target)
  /-- R232. Counts trailing zero bits. -/
  | ctz (w : Width) (t1 : Option Target) (t0 : Option Target)
  /-- R232. Counts one bits. -/
  | popc (w : Width) (t1 : Option Target) (t0 : Option Target)
  /-- R232. Reverses the N bits. -/
  | brev (w : Width) (t1 : Option Target) (t0 : Option Target)
  /-- R232. Reverses the bytes of the N-bit operand. -/
  | bswap (w : Width) (t1 : Option Target) (t0 : Option Target)
  /-- R233. Extracts an unsigned bit field named by a field word. -/
  | bfx (w : Width) (t1 : Option Target) (t0 : Option Target)
  /-- R233. Extracts a sign-extended bit field. -/
  | bfxs (w : Width) (t1 : Option Target) (t0 : Option Target)
  /-- R233. Inserts the low bits of b into a field of a. -/
  | bfi (w : Width) (t1 : Option Target) (t0 : Option Target)
  /-- R234. Returns bit k of a, or 0 for k at or beyond N. -/
  | bitt (w : Width) (t1 : Option Target) (t0 : Option Target)
  /-- R234. Returns the taint bit of its operand as an untainted 0 or 1. -/
  | taintq (t1 : Option Target) (t0 : Option Target)
  /-- R246. Floating addition rounded once under FPC.RM. -/
  | fadd (f : FFmt) (t1 : Option Target) (t0 : Option Target)
  /-- R246. Floating subtraction rounded once. -/
  | fsub (f : FFmt) (t1 : Option Target) (t0 : Option Target)
  /-- R246. Floating multiplication rounded once. -/
  | fmul (f : FFmt) (t1 : Option Target) (t0 : Option Target)
  /-- R246. Fused multiply-add rounded once. -/
  | fma (f : FFmt) (t1 : Option Target) (t0 : Option Target)
  /-- R246. Computes c minus a times b rounded once. -/
  | fnma (f : FFmt) (t1 : Option Target) (t0 : Option Target)
  /-- R246. Correctly rounded floating division on the iterative divider. -/
  | fdiv (f : FFmt) (t1 : Option Target) (t0 : Option Target)
  /-- R246. Correctly rounded square root on the iterative divider. -/
  | fsqrt (f : FFmt) (t1 : Option Target) (t0 : Option Target)
  /-- R247. IEEE minimumNumber. -/
  | fmin (f : FFmt) (t1 : Option Target) (t0 : Option Target)
  /-- R247. IEEE maximumNumber. -/
  | fmax (f : FFmt) (t1 : Option Target) (t0 : Option Target)
  /-- R247. Clears the sign bit. -/
  | fabs (f : FFmt) (t1 : Option Target) (t0 : Option Target)
  /-- R247. Inverts the sign bit. -/
  | fneg (f : FFmt) (t1 : Option Target) (t0 : Option Target)
  /-- R247. Copies the sign of b onto the magnitude of a. -/
  | fcpys (f : FFmt) (t1 : Option Target) (t0 : Option Target)
  /-- R248. Floating equality compare. -/
  | fteq (f : FFmt) (t1 : Option Target) (t0 : Option Target)
  /-- R248. Floating less-than compare, NV for any NaN. -/
  | ftlt (f : FFmt) (t1 : Option Target) (t0 : Option Target)
  /-- R248. Floating less-or-equal compare, NV for any NaN. -/
  | ftle (f : FFmt) (t1 : Option Target) (t0 : Option Target)
  /-- R248. Returns 1 when either operand is a NaN. -/
  | ftun (f : FFmt) (t1 : Option Target) (t0 : Option Target)
  /-- R249. Returns a one-hot class word. -/
  | fclass (f : FFmt) (t1 : Option Target) (t0 : Option Target)
  /-- R250. Rounds to an integral value in a given mode, optionally raising NX. -/
  | frnd (f : FFmt) (flag : Bool) (mode : RMode) (t0 : Option Target)
  /-- R251. Multiplies by 2^n rounded once. -/
  | fscale (f : FFmt) (t1 : Option Target) (t0 : Option Target)
  /-- R251. Returns floor(log2|x|) as a signed integer. -/
  | fgetexp (f : FFmt) (t1 : Option Target) (t0 : Option Target)
  /-- R253. Converts between floating formats with one rounding. -/
  | cvtff (mode : RMode) (src : FFmt) (dst : FFmt) (t0 : Option Target)
  /-- R254. Converts floating to integer with saturation. -/
  | cvtfi (mode : RMode) (src : FFmt) (dst : IFmt) (t0 : Option Target)
  /-- R255. Converts integer to floating with one rounding. -/
  | cvtif (mode : RMode) (src : IFmt) (dst : FFmt) (t0 : Option Target)
  /-- R256. Stochastically rounds to a narrower format using supplied random bits. -/
  | cvtsr (src : FFmt) (dst : FFmt) (t0 : Option Target)
  /-- R257. Reciprocal rounded to 14 significand bits on the SFU. -/
  | frcpa (single : Bool) (t1 : Option Target) (t0 : Option Target)
  /-- R257. Reciprocal square root rounded to 14 bits. -/
  | frsqa (single : Bool) (t1 : Option Target) (t0 : Option Target)
  /-- R257. 2^x rounded to 22 bits. -/
  | fexp2a (t1 : Option Target) (t0 : Option Target)
  /-- R257. log2 x rounded to 22 bits. -/
  | flog2a (t1 : Option Target) (t0 : Option Target)
  /-- R257. sin of x turns rounded to 22 bits. -/
  | fsina (t1 : Option Target) (t0 : Option Target)
  /-- R257. cos of x turns rounded to 22 bits. -/
  | fcosa (t1 : Option Target) (t0 : Option Target)
  /-- R259. Computes a stateless 64-bit random word from key and counter. -/
  | rand (t1 : Option Target) (t0 : Option Target)
  /-- R192. Loads a sign-extended byte. -/
  | ldS8 (off : BitVec 7) (t0 : Option Target)
  /-- R192. Loads a zero-extended byte. -/
  | ldN8 (off : BitVec 7) (t0 : Option Target)
  /-- R192. Loads a sign-extended halfword. -/
  | ldS16 (off : BitVec 7) (t0 : Option Target)
  /-- R192. Loads a zero-extended halfword. -/
  | ldN16 (off : BitVec 7) (t0 : Option Target)
  /-- R192. Loads a sign-extended word. -/
  | ldS32 (off : BitVec 7) (t0 : Option Target)
  /-- R192. Loads a zero-extended word. -/
  | ldN32 (off : BitVec 7) (t0 : Option Target)
  /-- R192. Loads a doubleword. -/
  | ldD64 (off : BitVec 7) (t0 : Option Target)
  /-- R200. Acquiring load of a sign-extended byte. -/
  | ldaS8 (scope : Scope) (t0 : Option Target)
  /-- R200. Acquiring load of a zero-extended byte. -/
  | ldaN8 (scope : Scope) (t0 : Option Target)
  /-- R200. Acquiring load of a sign-extended halfword. -/
  | ldaS16 (scope : Scope) (t0 : Option Target)
  /-- R200. Acquiring load of a zero-extended halfword. -/
  | ldaN16 (scope : Scope) (t0 : Option Target)
  /-- R200. Acquiring load of a sign-extended word. -/
  | ldaS32 (scope : Scope) (t0 : Option Target)
  /-- R200. Acquiring load of a zero-extended word. -/
  | ldaN32 (scope : Scope) (t0 : Option Target)
  /-- R200. Acquiring load of a doubleword. -/
  | ldaD64 (scope : Scope) (t0 : Option Target)
  /-- R194. Non-temporal load of a sign-extended byte. -/
  | ldntS8 (off : BitVec 7) (t0 : Option Target)
  /-- R194. Non-temporal load of a zero-extended byte. -/
  | ldntN8 (off : BitVec 7) (t0 : Option Target)
  /-- R194. Non-temporal load of a sign-extended halfword. -/
  | ldntS16 (off : BitVec 7) (t0 : Option Target)
  /-- R194. Non-temporal load of a zero-extended halfword. -/
  | ldntN16 (off : BitVec 7) (t0 : Option Target)
  /-- R194. Non-temporal load of a sign-extended word. -/
  | ldntS32 (off : BitVec 7) (t0 : Option Target)
  /-- R194. Non-temporal load of a zero-extended word. -/
  | ldntN32 (off : BitVec 7) (t0 : Option Target)
  /-- R194. Non-temporal load of a doubleword. -/
  | ldntD64 (off : BitVec 7) (t0 : Option Target)
  /-- R193. Stores a byte at commit. -/
  | stN8 (off : BitVec 7)
  /-- R193. Stores a halfword at commit. -/
  | stN16 (off : BitVec 7)
  /-- R193. Stores a word at commit. -/
  | stN32 (off : BitVec 7)
  /-- R193. Stores a doubleword at commit. -/
  | stD64 (off : BitVec 7)
  /-- R201. Releasing store of a byte. -/
  | strN8 (scope : Scope)
  /-- R201. Releasing store of a halfword. -/
  | strN16 (scope : Scope)
  /-- R201. Releasing store of a word. -/
  | strN32 (scope : Scope)
  /-- R201. Releasing store of a doubleword. -/
  | strD64 (scope : Scope)
  /-- R194. Non-temporal store of a byte. -/
  | stntN8 (off : BitVec 7)
  /-- R194. Non-temporal store of a halfword. -/
  | stntN16 (off : BitVec 7)
  /-- R194. Non-temporal store of a word. -/
  | stntN32 (off : BitVec 7)
  /-- R194. Non-temporal store of a doubleword. -/
  | stntD64 (off : BitVec 7)
  /-- R195. Hints a 128-byte line into L2 and the load cache, never faulting. -/
  | pref (off : BitVec 7)
  /-- R198. Atomic add at commit. -/
  | aadd (scope : Scope) (wide : Bool) (ret : Option (BitVec 5))
  /-- R198. Atomic signed minimum. -/
  | amin (scope : Scope) (wide : Bool) (ret : Option (BitVec 5))
  /-- R198. Atomic signed maximum. -/
  | amax (scope : Scope) (wide : Bool) (ret : Option (BitVec 5))
  /-- R198. Atomic natural minimum. -/
  | aminn (scope : Scope) (wide : Bool) (ret : Option (BitVec 5))
  /-- R198. Atomic natural maximum. -/
  | amaxn (scope : Scope) (wide : Bool) (ret : Option (BitVec 5))
  /-- R198. Atomic AND. -/
  | aand (scope : Scope) (wide : Bool) (ret : Option (BitVec 5))
  /-- R198. Atomic OR. -/
  | aor (scope : Scope) (wide : Bool) (ret : Option (BitVec 5))
  /-- R198. Atomic XOR. -/
  | axor (scope : Scope) (wide : Bool) (ret : Option (BitVec 5))
  /-- R198. Atomic exchange. -/
  | axchg (scope : Scope) (wide : Bool) (ret : Option (BitVec 5))
  /-- R198. Atomic compare-and-swap. -/
  | acas (scope : Scope) (wide : Bool) (ret : Option (BitVec 5))
  /-- R198. Atomic increment wrapping to zero at a bound. -/
  | aincw (scope : Scope) (wide : Bool) (ret : Option (BitVec 5))
  /-- R198. Atomic floating add in RNE. -/
  | afadd (scope : Scope) (wide : Bool) (ret : Option (BitVec 5))
  /-- R214. Sequentially consistent atomic add. -/
  | aaddSc (wide : Bool) (ret : Option (BitVec 5))
  /-- R214. Sequentially consistent atomic signed minimum. -/
  | aminSc (wide : Bool) (ret : Option (BitVec 5))
  /-- R214. Sequentially consistent atomic signed maximum. -/
  | amaxSc (wide : Bool) (ret : Option (BitVec 5))
  /-- R214. Sequentially consistent atomic natural minimum. -/
  | aminnSc (wide : Bool) (ret : Option (BitVec 5))
  /-- R214. Sequentially consistent atomic natural maximum. -/
  | amaxnSc (wide : Bool) (ret : Option (BitVec 5))
  /-- R214. Sequentially consistent atomic AND. -/
  | aandSc (wide : Bool) (ret : Option (BitVec 5))
  /-- R214. Sequentially consistent atomic OR. -/
  | aorSc (wide : Bool) (ret : Option (BitVec 5))
  /-- R214. Sequentially consistent atomic XOR. -/
  | axorSc (wide : Bool) (ret : Option (BitVec 5))
  /-- R214. Sequentially consistent atomic exchange. -/
  | axchgSc (wide : Bool) (ret : Option (BitVec 5))
  /-- R214. Sequentially consistent compare-and-swap. -/
  | acasSc (wide : Bool) (ret : Option (BitVec 5))
  /-- R214. Sequentially consistent wrapping increment. -/
  | aincwSc (wide : Bool) (ret : Option (BitVec 5))
  /-- R214. Sequentially consistent atomic floating add. -/
  | afaddSc (wide : Bool) (ret : Option (BitVec 5))
  /-- R202. Waits for earlier accesses and acts as a release and acquire at its scope. -/
  | fence (scope : Scope)
  /-- R211. Holds its output until timeline K reaches n, then acquires. -/
  | waittl (scope : Scope) (tl : BitVec 4) (t0 : Option Target)
  /-- R213. Returns a tainted timeline, write-pointer or bitmap value. -/
  | tlget (view : TlView) (t1 : Option Target) (t0 : Option Target)
  /-- R212. Releases and raises a software timeline to at least v. -/
  | tlsig (scope : Scope) (tl : BitVec 4)
  /-- R385. Branches to a PC-relative block. -/
  | br (off : BitVec 21)
  /-- R385. Branches PC-relative and writes the return block to g30. -/
  | call (off : BitVec 21)
  /-- R386. Ends the instance at commit, optionally freeing its context. -/
  | exit (free : Bool)
  /-- R386. Branches and gives up the block frame at commit. -/
  | yield (off : BitVec 21)
  /-- R387. Takes a fresh context and sends N tokens with its tag at commit. -/
  | spawn (n : BitVec 2) (ret : Option (BitVec 5))
  /-- R388. Sends one token on a route at commit. -/
  | send (route : BitVec 10)
  /-- R388. Sends one token to every core of a sub-rectangle at commit. -/
  | sendm (route : BitVec 10)
  /-- R394. Posts an expected token count on a channel and holds until it has arrived. -/
  | expect (t0 : Option Target)
  /-- R387. Takes a fresh context and returns its tag. -/
  | tagnew (ret : Option (BitVec 5))
  /-- R377. Creates the next speculative iteration of a windowed loop. -/
  | iter (n : BitVec 2)
  /-- R381. Places a rectangle, installs a configuration and sends entry tokens at commit. -/
  | launch (scope : Scope) (trap : Bool) (cores : Bool) (ordered : Bool) (ret : Option (BitVec 5))
  /-- R370. Installs a configuration image in the shadow plane of every core of a region. -/
  | cfgld (dch : BitVec 7) (dn : Bool)
  /-- R371. Requests a plane switch on every core of a region. -/
  | cfgsw (dch : BitVec 7) (dn : Bool)
  /-- R389. Sends an end-of-stream token carrying the route's send count and resets it. -/
  | eos (route : BitVec 10)
  /-- R393. Returns the switch state of its own or a peer core. -/
  | drainq (peer : Bool) (t1 : Option Target) (t0 : Option Target)
  /-- R395. Sets the instance's priority class and aging flag at commit. -/
  | prio (age : Bool) (cls : BitVec 3)
  /-- R153. Announces timetable progress n, waiting or faulting on outstanding entries. -/
  | mark (t0 : Option Target)
  /-- R164. Queues a strided word copy on a copy channel and stream port. -/
  | cpy (port : BitVec 3) (cc : BitVec 2) (ret : Option (BitVec 5))
  /-- R182. Resumes the halted command of a copy channel from its faulting chunk. -/
  | cpyRes (cc : BitVec 2) (ret : Option (BitVec 5))
  /-- R182. Abandons the halted command of a copy channel. -/
  | cpyAbn (cc : BitVec 2) (ret : Option (BitVec 5))
  /-- R167. Queues a copy that converts words into bit planes. -/
  | cpypl (port : BitVec 3) (cc : BitVec 2) (ret : Option (BitVec 5))
  /-- R182. Resumes a halted copy channel via the CPYPL opcode. -/
  | cpyplRes (cc : BitVec 2) (ret : Option (BitVec 5))
  /-- R182. Abandons a halted copy channel via the CPYPL opcode. -/
  | cpyplAbn (cc : BitVec 2) (ret : Option (BitVec 5))
  /-- R169. Queues a copy that converts bit planes back into words. -/
  | cpyun (port : BitVec 3) (cc : BitVec 2) (ret : Option (BitVec 5))
  /-- R182. Resumes a halted copy channel via the CPYUN opcode. -/
  | cpyunRes (cc : BitVec 2) (ret : Option (BitVec 5))
  /-- R182. Abandons a halted copy channel via the CPYUN opcode. -/
  | cpyunAbn (cc : BitVec 2) (ret : Option (BitVec 5))
  /-- R177. Queues a gather of table rows named by index tokens. -/
  | gath (ret : Option (BitVec 5))
  /-- R182. Resumes the slot's halted gather queue. -/
  | gathRes (ret : Option (BitVec 5))
  /-- R182. Abandons the slot's halted gather command. -/
  | gathAbn (ret : Option (BitVec 5))
  /-- R178. Queues a scatter of rows into table rows named by index tokens. -/
  | scat (ret : Option (BitVec 5))
  /-- R182. Resumes the halted gather queue via the SCAT opcode. -/
  | scatRes (ret : Option (BitVec 5))
  /-- R182. Abandons the halted gather command via the SCAT opcode. -/
  | scatAbn (ret : Option (BitVec 5))
  /-- R174. Holds until a copy channel's write pointer passes n, then acquires the bytes below it. -/
  | wpwait (scope : Scope) (peer : Bool) (cp : BitVec 2) (t0 : Option Target)
  /-- R179. Holds until masked gather bitmap chunks are set, then acquires them. -/
  | chkwait (scope : Scope) (word : BitVec 4) (t0 : Option Target)
  /-- R151. Attaches a movement timetable, or detaches with a zero descriptor. -/
  | ttload (dch : BitVec 7) (dn : Bool) (la : BitVec 8)
  /-- R152. Performs one unscheduled FETCH on a region range. -/
  | tfetch (dch : BitVec 7) (dn : Bool) (src : BitVec 4) (dst : BitVec 4)
  /-- R152. Performs one unscheduled EVICT on a region range. -/
  | tevict (dch : BitVec 7) (dn : Bool) (src : BitVec 4) (dst : BitVec 4)
  /-- R154. Returns a tainted residency or timetable state word. -/
  | tres (view : Bool) (t0 : Option Target)
  /-- R290. Queues a bit-serial matrix product of plane operands into a tile. -/
  | mma (dch : BitVec 7) (dn : Bool) (tile : BitVec 3)
  /-- R283. Resumes the halted plane-engine command from its faulting chunk. -/
  | mmaRes (dch : BitVec 7) (dn : Bool)
  /-- R283. Abandons the halted plane-engine command. -/
  | mmaAbn (dch : BitVec 7) (dn : Bool)
  /-- R290. Queues a limb-pair matrix product of AB operands. -/
  | mmal (dch : BitVec 7) (dn : Bool) (tile : BitVec 3)
  /-- R291. Sets a tile's mode and zeroes it. -/
  | accz (dch : BitVec 7) (dn : Bool) (tile : BitVec 3) (mode : BitVec 2)
  /-- R292. Loads a tile from a memory image. -/
  | accld (dch : BitVec 7) (dn : Bool) (tile : BitVec 3) (mode : BitVec 2)
  /-- R298. Drains a tile to words, rounding each element once. -/
  | accst (dch : BitVec 7) (dn : Bool) (tile : BitVec 3) (cz : Bool)
  /-- R310. Resumes the halted drain command. -/
  | accstRes (dch : BitVec 7) (dn : Bool)
  /-- R310. Abandons the halted drain command. -/
  | accstAbn (dch : BitVec 7) (dn : Bool)
  /-- R301. Quantises tile rows into selector-encoded groups written as planes. -/
  | qst (dch : BitVec 7) (dn : Bool) (tile : BitVec 3) (cz : Bool)
  /-- R309. Loads a level table on the drain engine. -/
  | lvlld (dch : BitVec 7) (dn : Bool) (tbl : BitVec 2) (wc : BitVec 2)
  /-- R318. Creates an amplitude state, optionally writing the basis state. -/
  | ainit (dch : BitVec 7) (dn : Bool) (sid : BitVec 3) (keep : Bool)
  /-- R321. Applies a controlled gate, swapping non-local targets into local bits. -/
  | agate (dch : BitVec 7) (dn : Bool) (sid : BitVec 3)
  /-- R330. Resumes the halted amplitude command from its start. -/
  | agateRes (dch : BitVec 7) (dn : Bool)
  /-- R330. Abandons the halted amplitude command. -/
  | agateAbn (dch : BitVec 7) (dn : Bool)
  /-- R323. Forces one exchange of two physical index bits. -/
  | aswap (dch : BitVec 7) (dn : Bool) (sid : BitVec 3)
  /-- R334. Reads the qubit map or sizes of a state. -/
  | amap (view : BitVec 2) (t0 : Option Target)
  /-- R324. Measures a qubit, optionally collapsing the state, and writes a record. -/
  | ameas (dch : BitVec 7) (dn : Bool) (sid : BitVec 3) (col : Bool)
  /-- R333. Ends a state after its earlier commands. -/
  | afree (dch : BitVec 7) (dn : Bool) (sid : BitVec 3)
  /-- R344. Queues a collective over a box of packages. -/
  | coll (dch : BitVec 7) (dn : Bool)
  /-- R349. Resumes the halted collective from its first open segment. -/
  | collRes (dch : BitVec 7) (dn : Bool)
  /-- R349. Abandons the halted collective and fails its peers. -/
  | collAbn (dch : BitVec 7) (dn : Bool)
  /-- R351. Performs a remote reduce-store at most once at the target's home slice. -/
  | cred (dch : BitVec 7) (dn : Bool) (fn : BitVec 4) (wide : Bool)
  /-- R426. Records SYS_TRAP at commit and suspends the instance at the next block. -/
  | trap (code : BitVec 16)
  /-- R429. Reads a system register. -/
  | srd (t1 : Option Target) (t0 : Option Target)
  /-- R429. Writes a system register without a row of its own, on every core of the region where so held. -/
  | swr (reg : BitVec 12)
  /-- R433. Writes a quota or placement register, refused with SYS_QUOTA unless every check holds. -/
  | quotaWrite (reg : BitVec 12)
  /-- R428. Passes slot a on, or raises SYS_BRK when BRKEN is set. -/
  | brk (t1 : Option Target) (t0 : Option Target)
  /-- R441. Pre-empts another partition. -/
  | pswapOut (dch : BitVec 7) (dn : Bool)
  /-- R441. Restores a swapped-out partition. -/
  | pswapIn (dch : BitVec 7) (dn : Bool)
  /-- R441. Pre-empts one partition and restores another on the same cores. -/
  | pswapXchg (dch : BitVec 7) (dn : Bool)
  /-- R434. Returns a tainted 32-bit performance counter. -/
  | perfr (t1 : Option Target) (t0 : Option Target)
  /-- R122. Empty instruction word that never fires and takes no issue slot. -/
  | nop
  /-- R126. Resolves a store ID without any effect. -/
  | nullst
  /-- R385. Branches to the block address in slot a. -/
  | bri
  /-- R385. Branches to slot a and writes the return block to g30. -/
  | calli
  /-- R385. Branches to slot a using the return predictor. -/
  | ret
  /-- R390. Returns a context to its origin core's pool at commit. -/
  | tagfree
  /-- R379. Discards later iterations of the context on every core and sets the squash bound. -/
  | squash
  /-- R353. Enters a collective buffer in the range table at commit. -/
  | crange
  /-- R427. Ends the trap instance and resumes the suspended instance at its block. -/
  | eretRes
  /-- R427. Resumes the suspended instance with g28 set to a value. -/
  | eretRv
  /-- R427. Continues the suspended instance at a given block. -/
  | eretGo
  /-- R427. Ends the suspended instance as by EXIT. -/
  | eretKill
  /-- R241. Writes the FP control field for later blocks, refused whole on bad bits. -/
  | swrFpc
  /-- R434. Clears a performance counter or group at commit. -/
  | pclrClear
  /-- R435. Invalidates the translation of one page under one ASID or global. -/
  | tlbiVa
  /-- R435. Invalidates every non-global translation of an ASID. -/
  | tlbiAsid
  /-- R435. Invalidates every translation of the partition. -/
  | tlbiAll
  /-- R435. Invalidates one page under every ASID. -/
  | tlbiVag
  /-- R436. Removes one mapped block from the block map caches of the region. -/
  | cinvBlk
  /-- R436. Removes every mapped block beginning in a page. -/
  | cinvPg
  /-- R436. Removes every mapped block of the slot. -/
  | cinvAll
  /-- R437. Unwraps and loads a key slot. -/
  | keyldLd
  /-- R437. Unloads a key slot. -/
  | keyldClr
  /-- R358. Host write of PKT bytes 0x38-0x3F submits a launch packet to a command window. -/
  | hostLaunchPacket
  /-- R359. A waiting packet executes as LAUNCH once its channel-126 result slot can be reserved. -/
  | hostPacketExecute
  /-- R357. Host write of 1 to CLR bit 63 clears OVF. -/
  | clrOvf
  /-- R449. Management service 1 creates a partition with its quotas, scopes and keys. -/
  | createPartition
  /-- R449. Management service 2 pre-empts, zeroes, unloads keys and frees a partition. -/
  | endPartition
  /-- R451. Management service 3 returns a signed attestation report. -/
  | attest
  /-- R449. Management service 4 verifies an object's signature and extends MEAS4. -/
  | verifyObject
  /-- R450. Management service 5 extends a partition measurement register. -/
  | extend
  /-- R449. Management service 6 installs a firmware image for the next boot. -/
  | firmwareUpdate
  /-- R457. Management service 7 enables Sumac tracing for a partition. -/
  | sumacControl
  /-- R449. Management service 8 reads and clears event log or Sumac entries. -/
  | readEvents
  /-- R449. A management request finishes and its response and STATUS appear. -/
  | mgmtServiceComplete
  /-- R446. Power-on starts the bring-up sequence with the signature check. -/
  | powerOn
  /-- R446. A bring-up stage finishes and the next begins or the package is left out. -/
  | bootStageComplete
  /-- R121. A token reaching its core is checked and placed in the matching store or gather unit. -/
  | tokenArrival
  /-- R401. A receiving core grants a credit and a queued outbound token leaves its sender. -/
  | creditGrant
  /-- R402. A complete entry is served a resident place and slice and becomes a READY instance. -/
  | instanceForm
  /-- R404. A free block frame goes to the highest-ranked READY instance. -/
  | frameGrant
  /-- R99. A block executed first on a core is fetched, checked and cached. -/
  | blockMap
  /-- R109. A block whose writes, store IDs and branch are all resolved completes. -/
  | blockComplete
  /-- R110. A completed block commits register writes, commit-class actions and its branch. -/
  | blockCommit
  /-- R113. A block that can make no more progress raises BLK_INCOMPLETE. -/
  | blkIncomplete
  /-- R112. A commit-class return value reaches its pending register. -/
  | pendingValueArrival
  /-- R192. A fired load reads memory after its latency and sends the result. -/
  | loadPerform
  /-- R211. A held WAITTL sends its output once the timeline reaches n. -/
  | waittlRelease
  /-- R174. A held WPWAIT sends once the observed write pointer passes n. -/
  | wpwaitRelease
  /-- R179. A held CHKWAIT sends once its masked bitmap bits are set or the command ends. -/
  | chkwaitRelease
  /-- R394. A held EXPECT sends once enough tokens have arrived on the channel. -/
  | expectRelease
  /-- R148. A stalled MARK sends once no entry is outstanding at n. -/
  | markRelease
  /-- R377. A deferred iteration is created when older iterations commit. -/
  | iterDeferredCreate
  /-- R379. All cores acknowledge a squash and the squasher's next block may begin. -/
  | squashAck
  /-- R422. A fault record is written to its place and the channel-127 token sent. -/
  | recordDelivery
  /-- R159. A dispatcher starts the command at its queue head when port and channel are free. -/
  | copyStart
  /-- R167. A unit is written and the write pointer passes it. -/
  | copyUnitDelivered
  /-- R182. A copy chunk faults, halting the channel and writing a record. -/
  | copyFault
  /-- R160. A copy command completes, advancing its timeline and sending DONE. -/
  | copyComplete
  /-- R367. A port binding's copy command enters its queue once an entry is free. -/
  | portBindingIssue
  /-- R172. A branch writes a beat and returns a credit, letting the sender proceed. -/
  | mcastCreditReturn
  /-- R462. A waiting stream takes sp7 once the previous stream ends. -/
  | inboundStreamStart
  /-- R175. The gather unit starts the slot's next queued gather or scatter. -/
  | gatherStart
  /-- R177. A gathered row lands and its bitmap bit may be set. -/
  | gatherRowWrite
  /-- R177. A gather or scatter completes after its last write, advancing tl4. -/
  | gatherComplete
  /-- R290. A plane-engine command starts after earlier tile accesses, checking mode and tiles. -/
  | peCmdStart
  /-- R281. A column group checks a chunk's checksums and adds or replays it. -/
  | peChunkVerify
  /-- R285. A plane-engine command completes, advancing tl5. -/
  | peCmdComplete
  /-- R455. Every P cycles A tokens are added to each column-group bucket. -/
  | heatRefill
  /-- R455. Every 10 microseconds the controller revises A and P. -/
  | thermalRevise
  /-- R455. At the emergency temperature refill stops on the tower and the event is logged. -/
  | thermalEmergency
  /-- R294. The drain starts the slot's next command after the previous completes. -/
  | drainCmdStart
  /-- R310. A drain row's destination is checked and its elements or groups written. -/
  | drainRow
  /-- R79. A waiting LVLLD replaces its table once every holder has completed. -/
  | lvlldReplace
  /-- R295. A drain command completes, advancing tl6 and zeroing for CZ. -/
  | drainCmdComplete
  /-- R147. An eligible timetable entry starts and sets MOVING on its pages. -/
  | ttEntryStart
  /-- R146. A moving entry writes the final page states and completes. -/
  | ttEntryComplete
  /-- R148. A failed entry restores its pages and writes a TT_STATE record. -/
  | ttEntryFail
  /-- R151. A detach copies tier pages home and clears the map area. -/
  | ttDetachComplete
  /-- R327. An amplitude command starts, entering its range and checking pages. -/
  | ampCmdStart
  /-- R326. An amplitude command completes in every part, advancing tl8. -/
  | ampCmdComplete
  /-- R348. A collective segment's result is complete and written. -/
  | collSegment
  /-- R343. A collective completes, advancing tl9. -/
  | collComplete
  /-- R351. A CRED frame is filtered and performed at the target's home slice. -/
  | credPerform
  /-- R351. The target's acknowledgement completes a CRED. -/
  | credAck
  /-- R352. A filter key leaves its slice after its hold time. -/
  | credFilterExpire
  /-- R215. The serialising token reaches an ordering point, which performs queued .sc atomics. -/
  | scTokenVisit
  /-- R342. A device frame is received and checked, or refused with a protocol error. -/
  | linkFrameReceive
  /-- R338. A corrupted frame is resent by link-level retry. -/
  | linkRetry
  /-- R338. A failing lane degrades its port to fewer lanes. -/
  | laneDegrade
  /-- R338. A failed port hands its traffic to the other port of its direction. -/
  | portFailover
  /-- R338. An operation undelivered within 2^24 cycles fails. -/
  | lkUnreach
  /-- R370. Every core of the region has loaded its shadow and the completion is sent. -/
  | cfgldComplete
  /-- R371. A DRAINING core has no active-plane token or instance and enters SWITCHING. -/
  | cfgswDrainEnd
  /-- R371. After 4 cycles of SWITCHING the planes exchange and port bindings start. -/
  | planeExchange
  /-- R459. The last core of the region has switched and the completion is sent. -/
  | cfgswComplete
  /-- R382. A launch with nothing left ends, detaches its timetable and may send DONE. -/
  | launchEnd
  /-- R438. A pre-emption request enters MARK on each core, discarding uncommitted blocks. -/
  | preemptRequest
  /-- R438. A pre-emption marker arrives on an inbound link and is forwarded. -/
  | preemptMarkerArrival
  /-- R438. All markers and restart points are reached and the slot enters SAVE. -/
  | preemptDrainDone
  /-- R442. The slot image is written and the slot goes OUT. -/
  | saveComplete
  /-- R438. A swap-in starts RESTORE of an OUT slot. -/
  | swapIn
  /-- R438. The image is read and the slot returns to RUN. -/
  | restoreComplete
  /-- R441. Every core of the region reaches OUT or RUN and the completion is sent. -/
  | pswapComplete
  /-- R443. Ebgokai retires a core and begins migrating its slots. -/
  | coreRetire
  /-- R443. A slot's image and scratchpad reach the spare and the logical coordinate is remapped. -/
  | migrationComplete
  /-- R444. A detected ECC or parity error is corrected, refetched, poisoned or stops the slot. -/
  | softError
  /-- R406. An aging instance's effective class rises after 4,096 issue cycles without issue. -/
  | agingStep
  /-- R404. A frame holder reaches 4,096 issue cycles while an equal class waits, marking it for recall. -/
  | recallThreshold
  /-- R56. A page-table walk completes, installing a translation and setting A or D. -/
  | translationWalk
  /-- R60. An invalidation completes once engine chunks using old translations finish. -/
  | tlbiComplete
  /-- R437. Every memory controller and the host path use the new key contents. -/
  | keyldComplete
  /-- R151. A TTLOAD with a nonzero descriptor finishes its checks, writes the residency map, attaches the timetable and completes on tl7. -/
  | timetableAttach
  /-- R436. A CINV completes once every core of the region has removed the named blocks, letting the instance's next block begin. -/
  | cinvComplete
  /-- R429. An SWR of a region register completes once it has been checked and applied on every core of the partition's region. -/
  | swrRegionComplete
  /-- R352. The transport resends an unacknowledged frame, within 2^24 cycles of its first transmission. -/
  | transportRetransmission
  deriving DecidableEq, Repr

/-- A decoded word: its head and its instruction. -/
structure Decoded where
  head  : Head
  instr : Instr
  deriving DecidableEq, Repr

end Sys2Proof
end

