-- ==== Sys2Proof/WellFormed.lean ====
section
/-! DEFINITION. WellFormed: the field values an instruction word may hold beyond what the types of `Instr` already rule out. A word
whose fields break one of these is refused at mapping with subcode 5 (R115). -/

namespace Sys2Proof

/-- The operating width in bits (R220). -/
def Width.bits : Width → Nat
  | .w64 => 64 | .w32 => 32 | .w16 => 16 | .w8 => 8

/-- IMM9 of `SHLI`, `SHRI` and `SARI` lies in 0 to N - 1 (R227). -/
def shiftImmOk (w : Width) (imm : BitVec 9) : Bool := imm.toNat < w.bits

/-- `CVTSR` narrows FP64 to FP32, BF16 or FP16, or FP32 to BF16 or FP16 (R252). -/
def cvtsrOk (src dst : FFmt) : Bool :=
  match src, dst with
  | .f64, .f32 | .f64, .bf16 | .f64, .f16 | .f32, .bf16 | .f32, .f16 => true
  | _, _ => false

/-- Ports a `CPY` may name (R158): group words on sp2 and sp3, and sp5, sp6. -/
def cpyPortOk (port : BitVec 3) : Bool := port == 2 || port == 3 || port == 5 || port == 6

/-- Ports a `CPYPL` may name (R158): sp0, sp1, sp5, sp6. -/
def cpyplPortOk (port : BitVec 3) : Bool := port == 0 || port == 1 || port == 5 || port == 6

/-- Ports a `CPYUN` may name (R158): sp5, sp6. -/
def cpyunPortOk (port : BitVec 3) : Bool := port == 5 || port == 6

/-- Tier codes of `TFETCH` and `TEVICT` are 0 to 6 (R150). -/
def tierOk (c : BitVec 4) : Bool := c.toNat < 7

/-- MODE of `ACCZ` and `ACCLD`: 3 is reserved and RESIDUE (2) needs a tile divisible by 4 (R289). -/
def accModeOk (tile : BitVec 3) (mode : BitVec 2) : Bool := mode != 3 && (mode != 2 || tile.toNat % 4 == 0)

/-- System registers whose `SWR` is a quota write of its own (R433): FRBASE and the five quotas. -/
def isQuotaReg (r : BitVec 12) : Bool := r == 0x030 || (0x040 ≤ r.toNat && r.toNat ≤ 0x044)

/-- System register numbers that R430 assigns. -/
def regAssigned (r : BitVec 12) : Bool :=
  let n := r.toNat
  n ≤ 0x001 || (0x010 ≤ n && n ≤ 0x011) || (0x020 ≤ n && n ≤ 0x034) && (n ≤ 0x02F || 0x030 ≤ n)
    || (0x040 ≤ n && n ≤ 0x045) || (0x050 ≤ n && n ≤ 0x052) || (0x060 ≤ n && n ≤ 0x07F) || n == 0x090

/-- The `SWR` words that are none of the rows `SWR_FPC`, `PCLR_CLEAR` and `QUOTA_WRITE` (R425). -/
def swrRegOk (r : BitVec 12) : Bool := regAssigned r && r != 0 && r != 0x090 && !isQuotaReg r

/-- The check itself, one arm per constructor that carries a restricted field, and the rest by name. -/
def Instr.wf : Instr → Bool
  | .arg g _ _ => g.toNat < 4
  | .shli w imm _ => shiftImmOk w imm
  | .shri w imm _ => shiftImmOk w imm
  | .sari w imm _ => shiftImmOk w imm
  | .cvtsr src dst _ => cvtsrOk src dst
  | .tlsig _ tl => 10 ≤ tl.toNat
  | .spawn n _ => n != 3
  | .iter n => n != 3
  | .cpy port _ _ => cpyPortOk port
  | .cpypl port _ _ => cpyplPortOk port
  | .cpyun port _ _ => cpyunPortOk port
  | .ttload _ _ la => la != 0
  | .tfetch _ _ src dst => tierOk src && tierOk dst
  | .tevict _ _ src dst => tierOk src && tierOk dst
  | .accz _ _ tile mode => accModeOk tile mode
  | .accld _ _ tile mode => accModeOk tile mode
  | .lvlld _ _ _ wc => wc != 3
  | .amap view _ => view != 3
  | .cred _ _ fn _ => fn.toNat < 9
  | .swr reg => swrRegOk reg
  | .quotaWrite reg => isQuotaReg reg
  | .read .. | .write .. | .mov .. | .const .. | .consth .. | .null .. | .gettag .. | .coord .. | .add .. | .addi .. | .sub .. 
  | .mul .. | .muli .. | .mulh .. | .mulhn .. | .madd .. | .div .. | .divn .. | .rem .. | .remn .. | .neg .. | .abs .. 
  | .min .. | .max .. | .minn .. | .maxn .. | .addsat .. | .subsat .. | .and .. | .andi .. | .or .. | .ori .. | .xor .. 
  | .xori .. | .andn .. | .not .. | .shl .. | .shr .. | .sar .. | .rol .. | .ror .. | .lea .. | .sext .. | .zext .. | .teq .. 
  | .tne .. | .tlt .. | .tle .. | .tltn .. | .tlen .. | .teqi .. | .tnei .. | .tlti .. | .tlei .. | .tltni .. | .tleni .. 
  | .sel .. | .clz .. | .ctz .. | .popc .. | .brev .. | .bswap .. | .bfx .. | .bfxs .. | .bfi .. | .bitt .. | .taintq .. 
  | .fadd .. | .fsub .. | .fmul .. | .fma .. | .fnma .. | .fdiv .. | .fsqrt .. | .fmin .. | .fmax .. | .fabs .. | .fneg .. 
  | .fcpys .. | .fteq .. | .ftlt .. | .ftle .. | .ftun .. | .fclass .. | .frnd .. | .fscale .. | .fgetexp .. | .cvtff .. 
  | .cvtfi .. | .cvtif .. | .frcpa .. | .frsqa .. | .fexp2a .. | .flog2a .. | .fsina .. | .fcosa .. | .rand .. | .ldS8 .. 
  | .ldN8 .. | .ldS16 .. | .ldN16 .. | .ldS32 .. | .ldN32 .. | .ldD64 .. | .ldaS8 .. | .ldaN8 .. | .ldaS16 .. | .ldaN16 .. 
  | .ldaS32 .. | .ldaN32 .. | .ldaD64 .. | .ldntS8 .. | .ldntN8 .. | .ldntS16 .. | .ldntN16 .. | .ldntS32 .. | .ldntN32 .. 
  | .ldntD64 .. | .stN8 .. | .stN16 .. | .stN32 .. | .stD64 .. | .strN8 .. | .strN16 .. | .strN32 .. | .strD64 .. | .stntN8 .. 
  | .stntN16 .. | .stntN32 .. | .stntD64 .. | .pref .. | .aadd .. | .amin .. | .amax .. | .aminn .. | .amaxn .. | .aand .. 
  | .aor .. | .axor .. | .axchg .. | .acas .. | .aincw .. | .afadd .. | .aaddSc .. | .aminSc .. | .amaxSc .. | .aminnSc .. 
  | .amaxnSc .. | .aandSc .. | .aorSc .. | .axorSc .. | .axchgSc .. | .acasSc .. | .aincwSc .. | .afaddSc .. | .fence .. 
  | .waittl .. | .tlget .. | .br .. | .call .. | .exit .. | .yield .. | .send .. | .sendm .. | .expect .. | .tagnew .. 
  | .launch .. | .cfgld .. | .cfgsw .. | .eos .. | .drainq .. | .prio .. | .mark .. | .cpyRes .. | .cpyAbn .. | .cpyplRes .. 
  | .cpyplAbn .. | .cpyunRes .. | .cpyunAbn .. | .gath .. | .gathRes .. | .gathAbn .. | .scat .. | .scatRes .. | .scatAbn .. 
  | .wpwait .. | .chkwait .. | .tres .. | .mma .. | .mmaRes .. | .mmaAbn .. | .mmal .. | .accst .. | .accstRes .. 
  | .accstAbn .. | .qst .. | .ainit .. | .agate .. | .agateRes .. | .agateAbn .. | .aswap .. | .ameas .. | .afree .. | .coll .. 
  | .collRes .. | .collAbn .. | .trap .. | .srd .. | .brk .. | .pswapOut .. | .pswapIn .. | .pswapXchg .. | .perfr .. | .nop 
  | .nullst | .bri | .calli | .ret | .tagfree | .squash | .crange | .eretRes | .eretRv | .eretGo | .eretKill | .swrFpc 
  | .pclrClear | .tlbiVa | .tlbiAsid | .tlbiAll | .tlbiVag | .cinvBlk | .cinvPg | .cinvAll | .keyldLd | .keyldClr 
  | .hostLaunchPacket | .hostPacketExecute | .clrOvf | .createPartition | .endPartition | .attest | .verifyObject | .extend 
  | .firmwareUpdate | .sumacControl | .readEvents | .mgmtServiceComplete | .powerOn | .bootStageComplete | .tokenArrival 
  | .creditGrant | .instanceForm | .frameGrant | .blockMap | .blockComplete | .blockCommit | .blkIncomplete 
  | .pendingValueArrival | .loadPerform | .waittlRelease | .wpwaitRelease | .chkwaitRelease | .expectRelease | .markRelease 
  | .iterDeferredCreate | .squashAck | .recordDelivery | .copyStart | .copyUnitDelivered | .copyFault | .copyComplete 
  | .portBindingIssue | .mcastCreditReturn | .inboundStreamStart | .gatherStart | .gatherRowWrite | .gatherComplete 
  | .peCmdStart | .peChunkVerify | .peCmdComplete | .heatRefill | .thermalRevise | .thermalEmergency | .drainCmdStart 
  | .drainRow | .lvlldReplace | .drainCmdComplete | .ttEntryStart | .ttEntryComplete | .ttEntryFail | .ttDetachComplete 
  | .ampCmdStart | .ampCmdComplete | .collSegment | .collComplete | .credPerform | .credAck | .credFilterExpire | .scTokenVisit 
  | .linkFrameReceive | .linkRetry | .laneDegrade | .portFailover | .lkUnreach | .cfgldComplete | .cfgswDrainEnd 
  | .planeExchange | .cfgswComplete | .launchEnd | .preemptRequest | .preemptMarkerArrival | .preemptDrainDone | .saveComplete 
  | .swapIn | .restoreComplete | .pswapComplete | .coreRetire | .migrationComplete | .softError | .agingStep | .recallThreshold 
  | .translationWalk | .tlbiComplete | .keyldComplete | .timetableAttach | .cinvComplete | .swrRegionComplete 
  | .transportRetransmission => true

end Sys2Proof
end

