-- ==== Sys2Proof/Decode.lean ====
section
/-! DEFINITION. Decode: from the bits of a word to an instruction or a refusal by name (R97, R100 to R103, R115 to R117), and the encoder
beside it, written from the same formats. -/

namespace Sys2Proof

/-- Why a word is refused, in the terms of R115: subcode 4 (reserved opcode), 5 (reserved field value), 6 (malformed target or
return register, in so far as the word alone shows it), or fewer than four bytes. -/
inductive DecodeError where
  | opcode | field | target | short
  deriving DecidableEq, Repr

/-! Codes of the typed fields. -/

/-- PM (R101). -/
def PM.code : PM → Nat
  | .always => 0 | .onTrue => 1 | .onFalse => 2

/-- M of the integer group (R220). -/
def Width.code : Width → Nat
  | .w64 => 0 | .w32 => 1 | .w16 => 2 | .w8 => 3

/-- M of the floating-point group (R236). -/
def FFmt.code : FFmt → Nat
  | .f64 => 0 | .f32 => 1 | .bf16 => 2 | .f16 => 3

/-- Integer code of a conversion (R252). -/
def IFmt.code (f : IFmt) : Nat := b2n f.signed * 4 + f.width.code

/-- Rounding mode (R66). -/
def RMode.code : RMode → Nat
  | .rne => 0 | .rtz => 1 | .rdn => 2 | .rup => 3 | .rna => 4

/-- Scale of `LEA` (R228). -/
def Scale.code : Scale → Nat
  | .x1 => 0 | .x2 => 1 | .x4 => 2 | .x8 => 3 | .x16 => 4

/-- SCOPE (R100). -/
def Scope.code : Scope → Nat
  | .inst => 0 | .core => 1 | .clu => 2 | .twr => 3 | .pkg => 4 | .sys => 5

/-- M of `GETTAG` (R127). -/
def TagField.code : TagField → Nat
  | .tag => 0 | .iter => 1 | .ctx => 2 | .orig => 3 | .chan => 4

/-- M of `COORD` (R128). -/
def CoordView.code : CoordView → Nat
  | .rect => 0 | .abs => 1 | .pkg => 2

/-- M of `TLGET` (R213). -/
def TlView.code : TlView → Nat
  | .tl => 0 | .wp => 1 | .chk => 2

/-- SLOT of a target (R102). -/
def Slot.code : Slot → Nat
  | .a => 0 | .b => 1 | .c => 2 | .p => 3

/-- A target field (R102): V, SLOT and INDEX, or nine zero bits. -/
def targetCode : Option Target → Nat
  | none => 0
  | some t => 256 + t.slot.code * 64 + t.index.toNat

/-- A return-register field (R103): V and the register number, or nine zero bits. -/
def retCode : Option (BitVec 5) → Nat
  | none => 0
  | some r => 256 + r.toNat

/-! Reading the typed fields. -/

/-- PM; 11 is reserved (R101). -/
def pmAt (w : Nat) : Except DecodeError PM :=
  match bits w 21 2 with
  | 0 => .ok .always | 1 => .ok .onTrue | 2 => .ok .onFalse | _ => .error .field

/-- A width code (R220). -/
def widthOf : Nat → Except DecodeError Width
  | 0 => .ok .w64 | 1 => .ok .w32 | 2 => .ok .w16 | 3 => .ok .w8 | _ => .error .field

/-- A floating format code (R236, R252). -/
def ffmtOf : Nat → Except DecodeError FFmt
  | 0 => .ok .f64 | 1 => .ok .f32 | 2 => .ok .bf16 | 3 => .ok .f16 | _ => .error .field

/-- An integer format code (R252). -/
def ifmtOf : Nat → Except DecodeError IFmt
  | 0 => .ok ⟨false, .w64⟩ | 1 => .ok ⟨false, .w32⟩ | 2 => .ok ⟨false, .w16⟩ | 3 => .ok ⟨false, .w8⟩
  | 4 => .ok ⟨true, .w64⟩ | 5 => .ok ⟨true, .w32⟩ | 6 => .ok ⟨true, .w16⟩ | 7 => .ok ⟨true, .w8⟩ | _ => .error .field

/-- A rounding mode code; 5 to 7 are refused here (R67). -/
def rmodeOf : Nat → Except DecodeError RMode
  | 0 => .ok .rne | 1 => .ok .rtz | 2 => .ok .rdn | 3 => .ok .rup | 4 => .ok .rna | _ => .error .field

/-- A scale code (R228). -/
def scaleOf : Nat → Except DecodeError Scale
  | 0 => .ok .x1 | 1 => .ok .x2 | 2 => .ok .x4 | 3 => .ok .x8 | 4 => .ok .x16 | _ => .error .field

/-- A scope code (R100). -/
def scopeOf : Nat → Except DecodeError Scope
  | 0 => .ok .inst | 1 => .ok .core | 2 => .ok .clu | 3 => .ok .twr | 4 => .ok .pkg | 5 => .ok .sys | _ => .error .field

/-- A tag field code (R127). -/
def tagFieldOf : Nat → Except DecodeError TagField
  | 0 => .ok .tag | 1 => .ok .iter | 2 => .ok .ctx | 3 => .ok .orig | 4 => .ok .chan | _ => .error .field

/-- A coordinate view code (R128). -/
def coordViewOf : Nat → Except DecodeError CoordView
  | 0 => .ok .rect | 1 => .ok .abs | 2 => .ok .pkg | _ => .error .field

/-- A progress view code (R213). -/
def tlViewOf : Nat → Except DecodeError TlView
  | 0 => .ok .tl | 1 => .ok .wp | 2 => .ok .chk | _ => .error .field

/-- A slot code (R102). -/
def slotOf : Nat → Slot
  | 0 => .a | 1 => .b | 2 => .c | _ => .p

/-- The nine bits of a target field (R102): with V = 0 all must be zero. -/
def targetOf (x : Nat) : Except DecodeError (Option Target) :=
  if bits x 8 1 = 1 then .ok (some ⟨slotOf (bits x 6 2), BitVec.ofNat 6 x⟩)
  else if bits x 0 9 = 0 then .ok none else .error .target

/-- The nine bits of a return-register field (R103): with V = 1, `<7:5>` must be 000. -/
def retOf (x : Nat) : Except DecodeError (Option (BitVec 5)) :=
  if bits x 8 1 = 1 then (if bits x 5 3 = 0 then .ok (some (BitVec.ofNat 5 x)) else .error .target)
  else if bits x 0 9 = 0 then .ok none else .error .target

/-- Bits that must hold a fixed value, or the word breaks subcode 5. -/
def fixed (w lo n v : Nat) : Except DecodeError Unit := if bits w lo n = v then .ok () else .error .field

/-! The last act of every arm: the field restrictions (subcode 5) come before the targets (subcode 6). -/

/-- An instruction without target fields. -/
def finish (i : Instr) : Except DecodeError Instr := if i.wf then .ok i else .error .field

/-- An instruction whose T1 and T0 must be zero, or subcode 6 (R123, R384). -/
def finishNoTargets (w : Nat) (i : Instr) : Except DecodeError Instr :=
  if i.wf then (if bits w 0 18 = 0 then .ok i else .error .target) else .error .field

/-- An instruction with T0 alone. -/
def finishT0 (w : Nat) (f : Option Target → Instr) : Except DecodeError Instr :=
  if (f none).wf then (targetOf (bits w 0 9)).bind fun t0 => .ok (f t0) else .error .field

/-- An instruction with T1 and T0. -/
def finishT10 (w : Nat) (f : Option Target → Option Target → Instr) : Except DecodeError Instr :=
  if (f none none).wf then
    (targetOf (bits w 9 9)).bind fun t1 => (targetOf (bits w 0 9)).bind fun t0 => .ok (f t1 t0)
  else .error .field

/-- A commit-class instruction whose T0 names a return register. -/
def finishRet (w : Nat) (f : Option (BitVec 5) → Instr) : Except DecodeError Instr :=
  if (f none).wf then (retOf (bits w 0 9)).bind fun r => .ok (f r) else .error .field

/-! The shapes: decoder and encoder of each arrangement of fields that several instructions share. -/

/-- Shape X of READ, ARG. -/
def decX (x : Nat) (mk : BitVec 5 → Option Target → Option Target → Instr) : Except DecodeError Instr := do
  finishT10 x (mk (BitVec.ofNat 5 (x / 2 ^ 18)))

/-- Word of shape X. -/
def encX (op : Nat) (g : BitVec 5) (t1 : Option Target) (t0 : Option Target) : Nat :=
  op * 2 ^ 23 + g.toNat * 2 ^ 18 + targetCode t1 * 2 ^ 9 + targetCode t0

/-- Shape G of MOV, NULL, SEL, TAINTQ and others. -/
def decG (x : Nat) (mk : Option Target → Option Target → Instr) : Except DecodeError Instr := do
  fixed x 18 3 0
  finishT10 x mk

/-- Word of shape G. -/
def encG (op : Nat) (t1 : Option Target) (t0 : Option Target) : Nat :=
  op * 2 ^ 23 + targetCode t1 * 2 ^ 9 + targetCode t0

/-- Shape C of CONST, CONSTH. -/
def decC (x : Nat) (mk : BitVec 14 → Option Target → Instr) : Except DecodeError Instr := do
  finishT0 x (mk (BitVec.ofNat 14 (x / 2 ^ 9)))

/-- Word of shape C. -/
def encC (op : Nat) (imm : BitVec 14) (t0 : Option Target) : Nat :=
  op * 2 ^ 23 + imm.toNat * 2 ^ 9 + targetCode t0

/-- Shape E of NULLST, TAGFREE, SQUASH, CRANGE and others. -/
def decE (x : Nat) (mk : Instr) : Except DecodeError Instr := do
  fixed x 0 16 0
  finish mk

/-- Word of shape E. -/
def encE (op : Nat)  : Nat :=
  op * 2 ^ 23

/-- Shape GW of ADD, SUB, MUL, MULH and others. -/
def decGW (x : Nat) (mk : Width → Option Target → Option Target → Instr) : Except DecodeError Instr := do
  let w ← widthOf (bits x 18 3)
  finishT10 x (mk w)

/-- Word of shape GW. -/
def encGW (op : Nat) (w : Width) (t1 : Option Target) (t0 : Option Target) : Nat :=
  op * 2 ^ 23 + w.code * 2 ^ 18 + targetCode t1 * 2 ^ 9 + targetCode t0

/-- Shape IW of ADDI, MULI, ANDI, ORI and others. -/
def decIW (x : Nat) (mk : Width → BitVec 9 → Option Target → Instr) : Except DecodeError Instr := do
  let w ← widthOf (bits x 18 3)
  finishT0 x (mk w (BitVec.ofNat 9 (x / 2 ^ 9)))

/-- Word of shape IW. -/
def encIW (op : Nat) (w : Width) (imm : BitVec 9) (t0 : Option Target) : Nat :=
  op * 2 ^ 23 + w.code * 2 ^ 18 + imm.toNat * 2 ^ 9 + targetCode t0

/-- Shape GF of FADD, FSUB, FMUL, FMA and others. -/
def decGF (x : Nat) (mk : FFmt → Option Target → Option Target → Instr) : Except DecodeError Instr := do
  let f ← ffmtOf (bits x 18 3)
  finishT10 x (mk f)

/-- Word of shape GF. -/
def encGF (op : Nat) (f : FFmt) (t1 : Option Target) (t0 : Option Target) : Nat :=
  op * 2 ^ 23 + f.code * 2 ^ 18 + targetCode t1 * 2 ^ 9 + targetCode t0

/-- Shape GB of FRCPA, FRSQA, DRAINQ. -/
def decGB (x : Nat) (mk : Bool → Option Target → Option Target → Instr) : Except DecodeError Instr := do
  fixed x 19 2 0
  finishT10 x (mk (bitAt x 18))

/-- Word of shape GB. -/
def encGB (op : Nat) (single : Bool) (t1 : Option Target) (t0 : Option Target) : Nat :=
  op * 2 ^ 23 + b2n single * 2 ^ 18 + targetCode t1 * 2 ^ 9 + targetCode t0

/-- Shape G1 of FEXP2A, FLOG2A, FSINA, FCOSA. -/
def decG1 (x : Nat) (mk : Option Target → Option Target → Instr) : Except DecodeError Instr := do
  fixed x 18 3 1
  finishT10 x mk

/-- Word of shape G1. -/
def encG1 (op : Nat) (t1 : Option Target) (t0 : Option Target) : Nat :=
  op * 2 ^ 23 + 262144 + targetCode t1 * 2 ^ 9 + targetCode t0

/-- Shape M of LD_S8, LD_N8, LD_S16, LD_N16 and others. -/
def decM (x : Nat) (mk : BitVec 7 → Option Target → Instr) : Except DecodeError Instr := do
  finishT0 x (mk (BitVec.ofNat 7 (x / 2 ^ 9)))

/-- Word of shape M. -/
def encM (op : Nat) (off : BitVec 7) (t0 : Option Target) : Nat :=
  op * 2 ^ 23 + off.toNat * 2 ^ 9 + targetCode t0

/-- Shape AL of LDA_S8, LDA_N8, LDA_S16, LDA_N16 and others. -/
def decAL (x : Nat) (mk : Scope → Option Target → Instr) : Except DecodeError Instr := do
  fixed x 9 4 0
  let scope ← scopeOf (bits x 13 3)
  finishT0 x (mk scope)

/-- Word of shape AL. -/
def encAL (op : Nat) (scope : Scope) (t0 : Option Target) : Nat :=
  op * 2 ^ 23 + scope.code * 2 ^ 13 + targetCode t0

/-- Shape MS of ST_N8, ST_N16, ST_N32, ST_D64 and others. -/
def decMS (x : Nat) (mk : BitVec 7 → Instr) : Except DecodeError Instr := do
  fixed x 0 9 0
  finish (mk (BitVec.ofNat 7 (x / 2 ^ 9)))

/-- Word of shape MS. -/
def encMS (op : Nat) (off : BitVec 7) : Nat :=
  op * 2 ^ 23 + off.toNat * 2 ^ 9

/-- Shape AS of STR_N8, STR_N16, STR_N32, STR_D64 and others. -/
def decAS (x : Nat) (mk : Scope → Instr) : Except DecodeError Instr := do
  fixed x 0 13 0
  let scope ← scopeOf (bits x 13 3)
  finish (mk scope)

/-- Word of shape AS. -/
def encAS (op : Nat) (scope : Scope) : Nat :=
  op * 2 ^ 23 + scope.code * 2 ^ 13

/-- Shape Atom of AADD, AMIN, AMAX, AMINN and others. -/
def decAtom (x : Nat) (mk : Scope → Bool → Option (BitVec 5) → Instr) : Except DecodeError Instr := do
  fixed x 10 3 0
  let scope ← scopeOf (bits x 13 3)
  finishRet x (mk scope (bitAt x 9))

/-- Word of shape Atom. -/
def encAtom (op : Nat) (scope : Scope) (wide : Bool) (ret : Option (BitVec 5)) : Nat :=
  op * 2 ^ 23 + scope.code * 2 ^ 13 + b2n wide * 2 ^ 9 + retCode ret

/-- Shape AtomSc of AADD_SC, AMIN_SC, AMAX_SC, AMINN_SC and others. -/
def decAtomSc (x : Nat) (mk : Bool → Option (BitVec 5) → Instr) : Except DecodeError Instr := do
  fixed x 10 6 32
  finishRet x (mk (bitAt x 9))

/-- Word of shape AtomSc. -/
def encAtomSc (op : Nat) (wide : Bool) (ret : Option (BitVec 5)) : Nat :=
  op * 2 ^ 23 + 32768 + b2n wide * 2 ^ 9 + retCode ret

/-- Shape AW of WAITTL, CHKWAIT. -/
def decAW (x : Nat) (mk : Scope → BitVec 4 → Option Target → Instr) : Except DecodeError Instr := do
  fixed x 16 5 0
  let scope ← scopeOf (bits x 13 3)
  finishT0 x (mk scope (BitVec.ofNat 4 (x / 2 ^ 9)))

/-- Word of shape AW. -/
def encAW (op : Nat) (scope : Scope) (tl : BitVec 4) (t0 : Option Target) : Nat :=
  op * 2 ^ 23 + scope.code * 2 ^ 13 + tl.toNat * 2 ^ 9 + targetCode t0

/-- Shape B of BR, CALL, YIELD. -/
def decB (x : Nat) (mk : BitVec 21 → Instr) : Except DecodeError Instr := do
  finish (mk (BitVec.ofNat 21 (x / 2 ^ 0)))

/-- Word of shape B. -/
def encB (op : Nat) (off : BitVec 21) : Nat :=
  op * 2 ^ 23 + off.toNat

/-- Shape GBr of BRI, CALLI, RET, ERET_RES. -/
def decGBr (x : Nat) (mk : Instr) : Except DecodeError Instr := do
  fixed x 18 3 0
  finishNoTargets x mk

/-- Word of shape GBr. -/
def encGBr (op : Nat)  : Nat :=
  op * 2 ^ 23

/-- Shape ERoute of SEND, SENDM, EOS. -/
def decERoute (x : Nat) (mk : BitVec 10 → Instr) : Except DecodeError Instr := do
  fixed x 0 6 0
  finish (mk (BitVec.ofNat 10 (x / 2 ^ 6)))

/-- Word of shape ERoute. -/
def encERoute (op : Nat) (route : BitVec 10) : Nat :=
  op * 2 ^ 23 + route.toNat * 2 ^ 6

/-- Shape AT of EXPECT, MARK. -/
def decAT (x : Nat) (mk : Option Target → Instr) : Except DecodeError Instr := do
  fixed x 9 12 0
  finishT0 x mk

/-- Word of shape AT. -/
def encAT (op : Nat) (t0 : Option Target) : Nat :=
  op * 2 ^ 23 + targetCode t0

/-- Shape ARet of TAGNEW, GATH, SCAT. -/
def decARet (x : Nat) (mk : Option (BitVec 5) → Instr) : Except DecodeError Instr := do
  fixed x 9 7 0
  finishRet x mk

/-- Word of shape ARet. -/
def encARet (op : Nat) (ret : Option (BitVec 5)) : Nat :=
  op * 2 ^ 23 + retCode ret

/-- Shape EDone of CFGLD, CFGSW, COLL, PSWAP_OUT. -/
def decEDone (x : Nat) (mk : BitVec 7 → Bool → Instr) : Except DecodeError Instr := do
  fixed x 0 8 0
  finish (mk (BitVec.ofNat 7 (x / 2 ^ 9)) (bitAt x 8))

/-- Word of shape EDone. -/
def encEDone (op : Nat) (dch : BitVec 7) (dn : Bool) : Nat :=
  op * 2 ^ 23 + dch.toNat * 2 ^ 9 + b2n dn * 2 ^ 8

/-- Shape Cpy of CPY, CPYPL, CPYUN. -/
def decCpy (x : Nat) (mk : BitVec 3 → BitVec 2 → Option (BitVec 5) → Instr) : Except DecodeError Instr := do
  fixed x 9 2 0
  finishRet x (mk (BitVec.ofNat 3 (x / 2 ^ 13)) (BitVec.ofNat 2 (x / 2 ^ 11)))

/-- Word of shape Cpy. -/
def encCpy (op : Nat) (port : BitVec 3) (cc : BitVec 2) (ret : Option (BitVec 5)) : Nat :=
  op * 2 ^ 23 + port.toNat * 2 ^ 13 + cc.toNat * 2 ^ 11 + retCode ret

/-- Shape CpyRes of CPY_RES, CPYPL_RES, CPYUN_RES. -/
def decCpyRes (x : Nat) (mk : BitVec 2 → Option (BitVec 5) → Instr) : Except DecodeError Instr := do
  fixed x 9 2 1
  fixed x 13 3 0
  finishRet x (mk (BitVec.ofNat 2 (x / 2 ^ 11)))

/-- Word of shape CpyRes. -/
def encCpyRes (op : Nat) (cc : BitVec 2) (ret : Option (BitVec 5)) : Nat :=
  op * 2 ^ 23 + 512 + cc.toNat * 2 ^ 11 + retCode ret

/-- Shape CpyAbn of CPY_ABN, CPYPL_ABN, CPYUN_ABN. -/
def decCpyAbn (x : Nat) (mk : BitVec 2 → Option (BitVec 5) → Instr) : Except DecodeError Instr := do
  fixed x 9 2 2
  fixed x 13 3 0
  finishRet x (mk (BitVec.ofNat 2 (x / 2 ^ 11)))

/-- Word of shape CpyAbn. -/
def encCpyAbn (op : Nat) (cc : BitVec 2) (ret : Option (BitVec 5)) : Nat :=
  op * 2 ^ 23 + 1024 + cc.toNat * 2 ^ 11 + retCode ret

/-- Shape GathRes of GATH_RES, SCAT_RES. -/
def decGathRes (x : Nat) (mk : Option (BitVec 5) → Instr) : Except DecodeError Instr := do
  fixed x 9 7 1
  finishRet x mk

/-- Word of shape GathRes. -/
def encGathRes (op : Nat) (ret : Option (BitVec 5)) : Nat :=
  op * 2 ^ 23 + 512 + retCode ret

/-- Shape GathAbn of GATH_ABN, SCAT_ABN. -/
def decGathAbn (x : Nat) (mk : Option (BitVec 5) → Instr) : Except DecodeError Instr := do
  fixed x 9 7 2
  finishRet x mk

/-- Word of shape GathAbn. -/
def encGathAbn (op : Nat) (ret : Option (BitVec 5)) : Nat :=
  op * 2 ^ 23 + 1024 + retCode ret

/-- Shape Tier of TFETCH, TEVICT. -/
def decTier (x : Nat) (mk : BitVec 7 → Bool → BitVec 4 → BitVec 4 → Instr) : Except DecodeError Instr := do
  finish (mk (BitVec.ofNat 7 (x / 2 ^ 9)) (bitAt x 8) (BitVec.ofNat 4 (x / 2 ^ 4)) (BitVec.ofNat 4 (x / 2 ^ 0)))

/-- Word of shape Tier. -/
def encTier (op : Nat) (dch : BitVec 7) (dn : Bool) (src : BitVec 4) (dst : BitVec 4) : Nat :=
  op * 2 ^ 23 + dch.toNat * 2 ^ 9 + b2n dn * 2 ^ 8 + src.toNat * 2 ^ 4 + dst.toNat

/-- Shape ETile of MMA, MMAL, AGATE, ASWAP and others. -/
def decETile (x : Nat) (mk : BitVec 7 → Bool → BitVec 3 → Instr) : Except DecodeError Instr := do
  fixed x 0 5 0
  finish (mk (BitVec.ofNat 7 (x / 2 ^ 9)) (bitAt x 8) (BitVec.ofNat 3 (x / 2 ^ 5)))

/-- Word of shape ETile. -/
def encETile (op : Nat) (dch : BitVec 7) (dn : Bool) (tile : BitVec 3) : Nat :=
  op * 2 ^ 23 + dch.toNat * 2 ^ 9 + b2n dn * 2 ^ 8 + tile.toNat * 2 ^ 5

/-- Shape EDoneRes of MMA_RES, ACCST_RES, AGATE_RES, COLL_RES and others. -/
def decEDoneRes (x : Nat) (mk : BitVec 7 → Bool → Instr) : Except DecodeError Instr := do
  fixed x 0 8 1
  finish (mk (BitVec.ofNat 7 (x / 2 ^ 9)) (bitAt x 8))

/-- Word of shape EDoneRes. -/
def encEDoneRes (op : Nat) (dch : BitVec 7) (dn : Bool) : Nat :=
  op * 2 ^ 23 + 1 + dch.toNat * 2 ^ 9 + b2n dn * 2 ^ 8

/-- Shape EDoneAbn of MMA_ABN, ACCST_ABN, AGATE_ABN, COLL_ABN and others. -/
def decEDoneAbn (x : Nat) (mk : BitVec 7 → Bool → Instr) : Except DecodeError Instr := do
  fixed x 0 8 2
  finish (mk (BitVec.ofNat 7 (x / 2 ^ 9)) (bitAt x 8))

/-- Word of shape EDoneAbn. -/
def encEDoneAbn (op : Nat) (dch : BitVec 7) (dn : Bool) : Nat :=
  op * 2 ^ 23 + 2 + dch.toNat * 2 ^ 9 + b2n dn * 2 ^ 8

/-- Shape EMode of ACCZ, ACCLD. -/
def decEMode (x : Nat) (mk : BitVec 7 → Bool → BitVec 3 → BitVec 2 → Instr) : Except DecodeError Instr := do
  fixed x 0 2 0
  fixed x 4 1 0
  finish (mk (BitVec.ofNat 7 (x / 2 ^ 9)) (bitAt x 8) (BitVec.ofNat 3 (x / 2 ^ 5)) (BitVec.ofNat 2 (x / 2 ^ 2)))

/-- Word of shape EMode. -/
def encEMode (op : Nat) (dch : BitVec 7) (dn : Bool) (tile : BitVec 3) (mode : BitVec 2) : Nat :=
  op * 2 ^ 23 + dch.toNat * 2 ^ 9 + b2n dn * 2 ^ 8 + tile.toNat * 2 ^ 5 + mode.toNat * 2 ^ 2

/-- Shape EOpt of ACCST, QST, AINIT, AMEAS. -/
def decEOpt (x : Nat) (mk : BitVec 7 → Bool → BitVec 3 → Bool → Instr) : Except DecodeError Instr := do
  fixed x 0 4 0
  finish (mk (BitVec.ofNat 7 (x / 2 ^ 9)) (bitAt x 8) (BitVec.ofNat 3 (x / 2 ^ 5)) (bitAt x 4))

/-- Word of shape EOpt. -/
def encEOpt (op : Nat) (dch : BitVec 7) (dn : Bool) (tile : BitVec 3) (cz : Bool) : Nat :=
  op * 2 ^ 23 + dch.toNat * 2 ^ 9 + b2n dn * 2 ^ 8 + tile.toNat * 2 ^ 5 + b2n cz * 2 ^ 4

/-- Shape EKind1 of TLBI_ASID, CINV_PG, KEYLD_CLR. -/
def decEKind1 (x : Nat) (mk : Instr) : Except DecodeError Instr := do
  fixed x 0 16 1
  finish mk

/-- Word of shape EKind1. -/
def encEKind1 (op : Nat)  : Nat :=
  op * 2 ^ 23 + 1

/-- Shape EKind2 of TLBI_ALL, CINV_ALL. -/
def decEKind2 (x : Nat) (mk : Instr) : Except DecodeError Instr := do
  fixed x 0 16 2
  finish mk

/-- Word of shape EKind2. -/
def encEKind2 (op : Nat)  : Nat :=
  op * 2 ^ 23 + 2

/-- Opcodes 0x000 to 0x03F (R117). -/
def decodePlumbing (x : Nat) : Except DecodeError Instr :=
  match bits x 23 9 with
  | 0x000 => if bits x 0 23 = 0 then .ok .nop else .error .opcode
  | 0x001 => decX x .read
  | 0x002 => finishNoTargets x (.write (BitVec.ofNat 5 (x / 2 ^ 18)))
  | 0x003 => decX x .arg
  | 0x004 => decG x .mov
  | 0x005 => decC x .const
  | 0x006 => decC x .consth
  | 0x007 => decG x .null
  | 0x008 => decE x .nullst
  | 0x009 => do
    let view ← tagFieldOf (bits x 18 3)
    finishT10 x (.gettag view)
  | 0x00A => do
    let view ← coordViewOf (bits x 18 3)
    finishT10 x (.coord view)
  | _ => .error .opcode

/-- Opcodes 0x040 to 0x07F (R117). -/
def decodeInteger (x : Nat) : Except DecodeError Instr :=
  match bits x 23 9 with
  | 0x040 => decGW x .add
  | 0x041 => decIW x .addi
  | 0x042 => decGW x .sub
  | 0x043 => decGW x .mul
  | 0x044 => decIW x .muli
  | 0x045 => decGW x .mulh
  | 0x046 => decGW x .mulhn
  | 0x047 => decGW x .madd
  | 0x048 => decGW x .div
  | 0x049 => decGW x .divn
  | 0x04A => decGW x .rem
  | 0x04B => decGW x .remn
  | 0x04C => decGW x .neg
  | 0x04D => decGW x .abs
  | 0x04E => decGW x .min
  | 0x04F => decGW x .max
  | 0x050 => decGW x .minn
  | 0x051 => decGW x .maxn
  | 0x052 => decGW x .addsat
  | 0x053 => decGW x .subsat
  | 0x054 => decGW x .and
  | 0x055 => decIW x .andi
  | 0x056 => decGW x .or
  | 0x057 => decIW x .ori
  | 0x058 => decGW x .xor
  | 0x059 => decIW x .xori
  | 0x05A => decGW x .andn
  | 0x05B => decGW x .not
  | 0x05C => decGW x .shl
  | 0x05D => decIW x .shli
  | 0x05E => decGW x .shr
  | 0x05F => decIW x .shri
  | 0x060 => decGW x .sar
  | 0x061 => decIW x .sari
  | 0x062 => decGW x .rol
  | 0x063 => decGW x .ror
  | 0x064 => do
    let sc ← scaleOf (bits x 18 3)
    finishT10 x (.lea sc)
  | 0x065 => decGW x .sext
  | 0x066 => decGW x .zext
  | _ => .error .opcode

/-- Opcodes 0x080 to 0x0BF (R117). -/
def decodeCompare (x : Nat) : Except DecodeError Instr :=
  match bits x 23 9 with
  | 0x080 => decGW x .teq
  | 0x081 => decGW x .tne
  | 0x082 => decGW x .tlt
  | 0x083 => decGW x .tle
  | 0x084 => decGW x .tltn
  | 0x085 => decGW x .tlen
  | 0x086 => decIW x .teqi
  | 0x087 => decIW x .tnei
  | 0x088 => decIW x .tlti
  | 0x089 => decIW x .tlei
  | 0x08A => decIW x .tltni
  | 0x08B => decIW x .tleni
  | 0x08C => decG x .sel
  | 0x08D => decGW x .clz
  | 0x08E => decGW x .ctz
  | 0x08F => decGW x .popc
  | 0x090 => decGW x .brev
  | 0x091 => decGW x .bswap
  | 0x092 => decGW x .bfx
  | 0x093 => decGW x .bfxs
  | 0x094 => decGW x .bfi
  | 0x095 => decGW x .bitt
  | 0x096 => decG x .taintq
  | _ => .error .opcode

/-- Opcodes 0x0C0 to 0x0FF (R117). -/
def decodeFloat (x : Nat) : Except DecodeError Instr :=
  match bits x 23 9 with
  | 0x0C0 => decGF x .fadd
  | 0x0C1 => decGF x .fsub
  | 0x0C2 => decGF x .fmul
  | 0x0C3 => decGF x .fma
  | 0x0C4 => decGF x .fnma
  | 0x0C5 => decGF x .fdiv
  | 0x0C6 => decGF x .fsqrt
  | 0x0C7 => decGF x .fmin
  | 0x0C8 => decGF x .fmax
  | 0x0C9 => decGF x .fabs
  | 0x0CA => decGF x .fneg
  | 0x0CB => decGF x .fcpys
  | 0x0CC => decGF x .fteq
  | 0x0CD => decGF x .ftlt
  | 0x0CE => decGF x .ftle
  | 0x0CF => decGF x .ftun
  | 0x0D0 => decGF x .fclass
  | 0x0D1 => do
    fixed x 13 5 0
    let f ← ffmtOf (bits x 18 3)
    let mode ← rmodeOf (bits x 9 3)
    finishT0 x (.frnd f (bitAt x 12) mode)
  | 0x0D2 => decGF x .fscale
  | 0x0D3 => decGF x .fgetexp
  | 0x0D4 => do
    fixed x 18 3 0
    let mode ← rmodeOf (bits x 15 3)
    let src ← ffmtOf (bits x 12 3)
    let dst ← ffmtOf (bits x 9 3)
    finishT0 x (.cvtff mode src dst)
  | 0x0D5 => do
    fixed x 18 3 0
    let mode ← rmodeOf (bits x 15 3)
    let src ← ffmtOf (bits x 12 3)
    let dst ← ifmtOf (bits x 9 3)
    finishT0 x (.cvtfi mode src dst)
  | 0x0D6 => do
    fixed x 18 3 0
    let mode ← rmodeOf (bits x 15 3)
    let src ← ifmtOf (bits x 12 3)
    let dst ← ffmtOf (bits x 9 3)
    finishT0 x (.cvtif mode src dst)
  | 0x0D7 => do
    fixed x 15 6 5
    let src ← ffmtOf (bits x 12 3)
    let dst ← ffmtOf (bits x 9 3)
    finishT0 x (.cvtsr src dst)
  | 0x0D8 => decGB x .frcpa
  | 0x0D9 => decGB x .frsqa
  | 0x0DA => decG1 x .fexp2a
  | 0x0DB => decG1 x .flog2a
  | 0x0DC => decG1 x .fsina
  | 0x0DD => decG1 x .fcosa
  | 0x0DE => decG x .rand
  | _ => .error .opcode

/-- Opcodes 0x100 to 0x13F (R117). -/
def decodeMemory (x : Nat) : Except DecodeError Instr :=
  match bits x 23 9 with
  | 0x100 => decM x .ldS8
  | 0x101 => decM x .ldN8
  | 0x102 => decM x .ldS16
  | 0x103 => decM x .ldN16
  | 0x104 => decM x .ldS32
  | 0x105 => decM x .ldN32
  | 0x106 => decM x .ldD64
  | 0x107 => decAL x .ldaS8
  | 0x108 => decAL x .ldaN8
  | 0x109 => decAL x .ldaS16
  | 0x10A => decAL x .ldaN16
  | 0x10B => decAL x .ldaS32
  | 0x10C => decAL x .ldaN32
  | 0x10D => decAL x .ldaD64
  | 0x10E => decM x .ldntS8
  | 0x10F => decM x .ldntN8
  | 0x110 => decM x .ldntS16
  | 0x111 => decM x .ldntN16
  | 0x112 => decM x .ldntS32
  | 0x113 => decM x .ldntN32
  | 0x114 => decM x .ldntD64
  | 0x115 => decMS x .stN8
  | 0x116 => decMS x .stN16
  | 0x117 => decMS x .stN32
  | 0x118 => decMS x .stD64
  | 0x119 => decAS x .strN8
  | 0x11A => decAS x .strN16
  | 0x11B => decAS x .strN32
  | 0x11C => decAS x .strD64
  | 0x11D => decMS x .stntN8
  | 0x11E => decMS x .stntN16
  | 0x11F => decMS x .stntN32
  | 0x120 => decMS x .stntD64
  | 0x121 => do
    fixed x 0 9 0
    fixed x 16 5 0
    finish (.pref (BitVec.ofNat 7 (x / 2 ^ 9)))
  | 0x122 => decAtom x .aadd
  | 0x123 => decAtom x .amin
  | 0x124 => decAtom x .amax
  | 0x125 => decAtom x .aminn
  | 0x126 => decAtom x .amaxn
  | 0x127 => decAtom x .aand
  | 0x128 => decAtom x .aor
  | 0x129 => decAtom x .axor
  | 0x12A => decAtom x .axchg
  | 0x12B => decAtom x .acas
  | 0x12C => decAtom x .aincw
  | 0x12D => decAtom x .afadd
  | 0x12E => decAtomSc x .aaddSc
  | 0x12F => decAtomSc x .aminSc
  | 0x130 => decAtomSc x .amaxSc
  | 0x131 => decAtomSc x .aminnSc
  | 0x132 => decAtomSc x .amaxnSc
  | 0x133 => decAtomSc x .aandSc
  | 0x134 => decAtomSc x .aorSc
  | 0x135 => decAtomSc x .axorSc
  | 0x136 => decAtomSc x .axchgSc
  | 0x137 => decAtomSc x .acasSc
  | 0x138 => decAtomSc x .aincwSc
  | 0x139 => decAtomSc x .afaddSc
  | 0x13A => decAS x .fence
  | 0x13B => decAW x .waittl
  | 0x13C => do
    let view ← tlViewOf (bits x 18 3)
    finishT10 x (.tlget view)
  | 0x13D => do
    fixed x 0 9 0
    let scope ← scopeOf (bits x 13 3)
    finish (.tlsig scope (BitVec.ofNat 4 (x / 2 ^ 9)))
  | _ => .error .opcode

/-- Opcodes 0x140 to 0x17F (R117). -/
def decodeFlow (x : Nat) : Except DecodeError Instr :=
  match bits x 23 9 with
  | 0x140 => decB x .br
  | 0x141 => decGBr x .bri
  | 0x142 => decB x .call
  | 0x143 => decGBr x .calli
  | 0x144 => decGBr x .ret
  | 0x145 => do
    fixed x 19 2 0
    finishNoTargets x (.exit (bitAt x 18))
  | 0x146 => decB x .yield
  | 0x147 => do
    fixed x 11 5 0
    finishRet x (.spawn (BitVec.ofNat 2 (x / 2 ^ 9)))
  | 0x148 => decERoute x .send
  | 0x149 => decERoute x .sendm
  | 0x14A => decAT x .expect
  | 0x14B => decARet x .tagnew
  | 0x14C => decE x .tagfree
  | 0x14D => do
    fixed x 2 14 0
    finish (.iter (BitVec.ofNat 2 (x / 2 ^ 0)))
  | 0x14E => decE x .squash
  | 0x14F => do
    fixed x 12 1 0
    let scope ← scopeOf (bits x 13 3)
    finishRet x (.launch scope (bitAt x 11) (bitAt x 10) (bitAt x 9))
  | 0x150 => decEDone x .cfgld
  | 0x151 => decEDone x .cfgsw
  | 0x152 => decERoute x .eos
  | 0x153 => decGB x .drainq
  | 0x154 => do
    fixed x 3 1 0
    fixed x 5 11 0
    finish (.prio (bitAt x 4) (BitVec.ofNat 3 (x / 2 ^ 0)))
  | 0x155 => decAT x .mark
  | _ => .error .opcode

/-- Opcodes 0x180 to 0x1BF (R117). -/
def decodeEngine (x : Nat) : Except DecodeError Instr :=
  match bits x 23 9 with
  | 0x180 =>
    match bits x 9 2 with
    | 0 => decCpy x .cpy
    | 1 => decCpyRes x .cpyRes
    | 2 => decCpyAbn x .cpyAbn
    | _ => .error .field
  | 0x181 =>
    match bits x 9 2 with
    | 0 => decCpy x .cpypl
    | 1 => decCpyRes x .cpyplRes
    | 2 => decCpyAbn x .cpyplAbn
    | _ => .error .field
  | 0x182 =>
    match bits x 9 2 with
    | 0 => decCpy x .cpyun
    | 1 => decCpyRes x .cpyunRes
    | 2 => decCpyAbn x .cpyunAbn
    | _ => .error .field
  | 0x183 =>
    match bits x 9 2 with
    | 0 => decARet x .gath
    | 1 => decGathRes x .gathRes
    | 2 => decGathAbn x .gathAbn
    | _ => .error .field
  | 0x184 =>
    match bits x 9 2 with
    | 0 => decARet x .scat
    | 1 => decGathRes x .scatRes
    | 2 => decGathAbn x .scatAbn
    | _ => .error .field
  | 0x185 => do
    fixed x 11 1 0
    fixed x 16 5 0
    let scope ← scopeOf (bits x 13 3)
    finishT0 x (.wpwait scope (bitAt x 12) (BitVec.ofNat 2 (x / 2 ^ 9)))
  | 0x186 => decAW x .chkwait
  | 0x187 => finish (.ttload (BitVec.ofNat 7 (x / 2 ^ 9)) (bitAt x 8) (BitVec.ofNat 8 (x / 2 ^ 0)))
  | 0x188 => decTier x .tfetch
  | 0x189 => decTier x .tevict
  | 0x18A => do
    fixed x 10 11 0
    finishT0 x (.tres (bitAt x 9))
  | 0x18B =>
    match bits x 0 2 with
    | 0 => decETile x .mma
    | 1 => decEDoneRes x .mmaRes
    | 2 => decEDoneAbn x .mmaAbn
    | _ => .error .field
  | 0x18C => decETile x .mmal
  | 0x18D => decEMode x .accz
  | 0x18E => decEMode x .accld
  | 0x18F =>
    match bits x 0 2 with
    | 0 => decEOpt x .accst
    | 1 => decEDoneRes x .accstRes
    | 2 => decEDoneAbn x .accstAbn
    | _ => .error .field
  | 0x190 => decEOpt x .qst
  | 0x191 => do
    fixed x 0 3 0
    fixed x 5 1 0
    finish (.lvlld (BitVec.ofNat 7 (x / 2 ^ 9)) (bitAt x 8) (BitVec.ofNat 2 (x / 2 ^ 6)) (BitVec.ofNat 2 (x / 2 ^ 3)))
  | 0x192 => decEOpt x .ainit
  | 0x193 =>
    match bits x 0 2 with
    | 0 => decETile x .agate
    | 1 => decEDoneRes x .agateRes
    | 2 => decEDoneAbn x .agateAbn
    | _ => .error .field
  | 0x194 => decETile x .aswap
  | 0x195 => do
    fixed x 11 10 0
    finishT0 x (.amap (BitVec.ofNat 2 (x / 2 ^ 9)))
  | 0x196 => decEOpt x .ameas
  | 0x197 => decETile x .afree
  | 0x198 =>
    match bits x 0 2 with
    | 0 => decEDone x .coll
    | 1 => decEDoneRes x .collRes
    | 2 => decEDoneAbn x .collAbn
    | _ => .error .field
  | 0x199 => do
    fixed x 0 3 0
    finish (.cred (BitVec.ofNat 7 (x / 2 ^ 9)) (bitAt x 8) (BitVec.ofNat 4 (x / 2 ^ 4)) (bitAt x 3))
  | 0x19A => decE x .crange
  | _ => .error .opcode

/-- Opcodes 0x1C0 to 0x1FF (R117). -/
def decodeSystem (x : Nat) : Except DecodeError Instr :=
  match bits x 23 9 with
  | 0x1C0 => finish (.trap (BitVec.ofNat 16 (x / 2 ^ 0)))
  | 0x1C1 =>
    match bits x 18 3 with
    | 0 => decGBr x .eretRes
    | 1 => do
      fixed x 18 3 1
      finishNoTargets x .eretRv
    | 2 => do
      fixed x 18 3 2
      finishNoTargets x .eretGo
    | 3 => do
      fixed x 18 3 3
      finishNoTargets x .eretKill
    | _ => .error .field
  | 0x1C2 => decG x .srd
  | 0x1C3 => do
    fixed x 12 4 0
    if bits x 0 12 = 0 then finish .swrFpc
    else if bits x 0 12 = 0x090 then finish .pclrClear
    else if isQuotaReg (BitVec.ofNat 12 x) then finish (.quotaWrite (BitVec.ofNat 12 x))
    else finish (.swr (BitVec.ofNat 12 x))
  | 0x1C4 =>
    match bits x 0 2 with
    | 0 => decE x .tlbiVa
    | 1 => decEKind1 x .tlbiAsid
    | 2 => decEKind2 x .tlbiAll
    | 3 => do
      fixed x 0 16 3
      finish .tlbiVag
    | _ => .error .field
  | 0x1C5 =>
    match bits x 0 2 with
    | 0 => decE x .cinvBlk
    | 1 => decEKind1 x .cinvPg
    | 2 => decEKind2 x .cinvAll
    | _ => .error .field
  | 0x1C6 => decG x .brk
  | 0x1C7 =>
    match bits x 0 2 with
    | 0 => decEDone x .pswapOut
    | 1 => decEDoneRes x .pswapIn
    | 2 => decEDoneAbn x .pswapXchg
    | _ => .error .field
  | 0x1C8 =>
    match bits x 0 16 with
    | 0 => decE x .keyldLd
    | 1 => decEKind1 x .keyldClr
    | _ => .error .field
  | 0x1C9 => decG x .perfr
  | _ => .error .opcode

/-- The instruction of a 32-bit word, by the eighth of the opcode map it lies in (R117). -/
def decodeInstr (x : Nat) : Except DecodeError Instr :=
  match bits x 29 3 with
  | 0 => decodePlumbing x
  | 1 => decodeInteger x
  | 2 => decodeCompare x
  | 3 => decodeFloat x
  | 4 => decodeMemory x
  | 5 => decodeFlow x
  | 6 => decodeEngine x
  | _ => decodeSystem x

/-- Opcodes whose format has no PM field: `NOP`, format X and format C (R100, R122). -/
def lacksPm (op : Nat) : Bool := op ≤ 0x003 || op == 0x005 || op == 0x006

/-- Opcodes whose description gives LSID a meaning (R103): loads and the commit class. -/
def hasLsid (op : Nat) : Bool :=
    op == 0x008 || (0x100 ≤ op && op ≤ 0x120) || (0x122 ≤ op && op ≤ 0x13A) || op == 0x13D || (0x147 ≤ op && op ≤ 0x149) ||
    (0x14B ≤ op && op ≤ 0x152) || op == 0x154 || (0x180 ≤ op && op ≤ 0x184) || (0x187 ≤ op && op ≤ 0x189) || (0x18B ≤ op &&
    op ≤ 0x194) || (0x196 ≤ op && op ≤ 0x19A) || op == 0x1C0 || (0x1C3 ≤ op && op ≤ 0x1C5) || (0x1C7 ≤ op && op ≤ 0x1C8)

/-- The head of a word (R100, R101, R103). -/
def headOf (x : Nat) : Except DecodeError Head := do
  let pm ← if lacksPm (bits x 23 9) then .ok .always else pmAt x
  .ok ⟨pm, if hasLsid (bits x 23 9) then BitVec.ofNat 5 (x / 2 ^ 16) else 0⟩

/-- A 32-bit instruction word, decoded (R97, R100, R117). A reserved opcode comes before a reserved PM (R115). -/
def decodeWord (x : Nat) : Except DecodeError Decoded :=
  match headOf x, decodeInstr x with
  | _, .error .opcode => .error .opcode
  | .error e, _ => .error e
  | .ok _, .error e => .error e
  | .ok h, .ok i => .ok ⟨h, i⟩

/-- The four bytes of a word as memory holds them, little-endian (R97, R20). -/
def wordBytes (w : Nat) : List Byte :=
  [BitVec.ofNat 8 w, BitVec.ofNat 8 (w / 2 ^ 8), BitVec.ofNat 8 (w / 2 ^ 16), BitVec.ofNat 8 (w / 2 ^ 24)]

/-- The word that four bytes hold, the first at the lowest address. -/
def wordOfBytes (b0 b1 b2 b3 : Byte) : Nat := b0.toNat + b1.toNat * 2 ^ 8 + b2.toNat * 2 ^ 16 + b3.toNat * 2 ^ 24

/-- The instruction at the head of a list of bytes, with the bytes after it. -/
def decode : List Byte → Except DecodeError (Decoded × List Byte)
  | b0 :: b1 :: b2 :: b3 :: rest => (decodeWord (wordOfBytes b0 b1 b2 b3)).bind fun i => .ok (i, rest)
  | _ => .error .short

/-- What the decoder reads from an instruction whose bits are `w`, bit 0 the least significant of its only word. -/
def decodeTableWord (_nbits w : Nat) : Option Instr :=
  match decode (wordBytes w) with
  | .ok (d, _) => some d.instr
  | .error _ => none

/-- The word of an instruction (R100, R117) without its head; the steps of the part have none. -/
def encodeInstr : Instr → Option Nat
  | .read g t1 t0 => some (encX 0x001 g t1 t0)
  | .write g => some (0x002 * 2 ^ 23 + g.toNat * 2 ^ 18)
  | .arg g t1 t0 => some (encX 0x003 g t1 t0)
  | .mov t1 t0 => some (encG 0x004 t1 t0)
  | .const imm t0 => some (encC 0x005 imm t0)
  | .consth imm t0 => some (encC 0x006 imm t0)
  | .null t1 t0 => some (encG 0x007 t1 t0)
  | .gettag view t1 t0 => some (0x009 * 2 ^ 23 + view.code * 2 ^ 18 + targetCode t1 * 2 ^ 9 + targetCode t0)
  | .coord view t1 t0 => some (0x00A * 2 ^ 23 + view.code * 2 ^ 18 + targetCode t1 * 2 ^ 9 + targetCode t0)
  | .add w t1 t0 => some (encGW 0x040 w t1 t0)
  | .addi w imm t0 => some (encIW 0x041 w imm t0)
  | .sub w t1 t0 => some (encGW 0x042 w t1 t0)
  | .mul w t1 t0 => some (encGW 0x043 w t1 t0)
  | .muli w imm t0 => some (encIW 0x044 w imm t0)
  | .mulh w t1 t0 => some (encGW 0x045 w t1 t0)
  | .mulhn w t1 t0 => some (encGW 0x046 w t1 t0)
  | .madd w t1 t0 => some (encGW 0x047 w t1 t0)
  | .div w t1 t0 => some (encGW 0x048 w t1 t0)
  | .divn w t1 t0 => some (encGW 0x049 w t1 t0)
  | .rem w t1 t0 => some (encGW 0x04A w t1 t0)
  | .remn w t1 t0 => some (encGW 0x04B w t1 t0)
  | .neg w t1 t0 => some (encGW 0x04C w t1 t0)
  | .abs w t1 t0 => some (encGW 0x04D w t1 t0)
  | .min w t1 t0 => some (encGW 0x04E w t1 t0)
  | .max w t1 t0 => some (encGW 0x04F w t1 t0)
  | .minn w t1 t0 => some (encGW 0x050 w t1 t0)
  | .maxn w t1 t0 => some (encGW 0x051 w t1 t0)
  | .addsat w t1 t0 => some (encGW 0x052 w t1 t0)
  | .subsat w t1 t0 => some (encGW 0x053 w t1 t0)
  | .and w t1 t0 => some (encGW 0x054 w t1 t0)
  | .andi w imm t0 => some (encIW 0x055 w imm t0)
  | .or w t1 t0 => some (encGW 0x056 w t1 t0)
  | .ori w imm t0 => some (encIW 0x057 w imm t0)
  | .xor w t1 t0 => some (encGW 0x058 w t1 t0)
  | .xori w imm t0 => some (encIW 0x059 w imm t0)
  | .andn w t1 t0 => some (encGW 0x05A w t1 t0)
  | .not w t1 t0 => some (encGW 0x05B w t1 t0)
  | .shl w t1 t0 => some (encGW 0x05C w t1 t0)
  | .shli w imm t0 => some (encIW 0x05D w imm t0)
  | .shr w t1 t0 => some (encGW 0x05E w t1 t0)
  | .shri w imm t0 => some (encIW 0x05F w imm t0)
  | .sar w t1 t0 => some (encGW 0x060 w t1 t0)
  | .sari w imm t0 => some (encIW 0x061 w imm t0)
  | .rol w t1 t0 => some (encGW 0x062 w t1 t0)
  | .ror w t1 t0 => some (encGW 0x063 w t1 t0)
  | .lea sc t1 t0 => some (0x064 * 2 ^ 23 + sc.code * 2 ^ 18 + targetCode t1 * 2 ^ 9 + targetCode t0)
  | .sext w t1 t0 => some (encGW 0x065 w t1 t0)
  | .zext w t1 t0 => some (encGW 0x066 w t1 t0)
  | .teq w t1 t0 => some (encGW 0x080 w t1 t0)
  | .tne w t1 t0 => some (encGW 0x081 w t1 t0)
  | .tlt w t1 t0 => some (encGW 0x082 w t1 t0)
  | .tle w t1 t0 => some (encGW 0x083 w t1 t0)
  | .tltn w t1 t0 => some (encGW 0x084 w t1 t0)
  | .tlen w t1 t0 => some (encGW 0x085 w t1 t0)
  | .teqi w imm t0 => some (encIW 0x086 w imm t0)
  | .tnei w imm t0 => some (encIW 0x087 w imm t0)
  | .tlti w imm t0 => some (encIW 0x088 w imm t0)
  | .tlei w imm t0 => some (encIW 0x089 w imm t0)
  | .tltni w imm t0 => some (encIW 0x08A w imm t0)
  | .tleni w imm t0 => some (encIW 0x08B w imm t0)
  | .sel t1 t0 => some (encG 0x08C t1 t0)
  | .clz w t1 t0 => some (encGW 0x08D w t1 t0)
  | .ctz w t1 t0 => some (encGW 0x08E w t1 t0)
  | .popc w t1 t0 => some (encGW 0x08F w t1 t0)
  | .brev w t1 t0 => some (encGW 0x090 w t1 t0)
  | .bswap w t1 t0 => some (encGW 0x091 w t1 t0)
  | .bfx w t1 t0 => some (encGW 0x092 w t1 t0)
  | .bfxs w t1 t0 => some (encGW 0x093 w t1 t0)
  | .bfi w t1 t0 => some (encGW 0x094 w t1 t0)
  | .bitt w t1 t0 => some (encGW 0x095 w t1 t0)
  | .taintq t1 t0 => some (encG 0x096 t1 t0)
  | .fadd f t1 t0 => some (encGF 0x0C0 f t1 t0)
  | .fsub f t1 t0 => some (encGF 0x0C1 f t1 t0)
  | .fmul f t1 t0 => some (encGF 0x0C2 f t1 t0)
  | .fma f t1 t0 => some (encGF 0x0C3 f t1 t0)
  | .fnma f t1 t0 => some (encGF 0x0C4 f t1 t0)
  | .fdiv f t1 t0 => some (encGF 0x0C5 f t1 t0)
  | .fsqrt f t1 t0 => some (encGF 0x0C6 f t1 t0)
  | .fmin f t1 t0 => some (encGF 0x0C7 f t1 t0)
  | .fmax f t1 t0 => some (encGF 0x0C8 f t1 t0)
  | .fabs f t1 t0 => some (encGF 0x0C9 f t1 t0)
  | .fneg f t1 t0 => some (encGF 0x0CA f t1 t0)
  | .fcpys f t1 t0 => some (encGF 0x0CB f t1 t0)
  | .fteq f t1 t0 => some (encGF 0x0CC f t1 t0)
  | .ftlt f t1 t0 => some (encGF 0x0CD f t1 t0)
  | .ftle f t1 t0 => some (encGF 0x0CE f t1 t0)
  | .ftun f t1 t0 => some (encGF 0x0CF f t1 t0)
  | .fclass f t1 t0 => some (encGF 0x0D0 f t1 t0)
  | .frnd f flag mode t0 => some (0x0D1 * 2 ^ 23 + f.code * 2 ^ 18 + b2n flag * 2 ^ 12 + mode.code * 2 ^ 9 + targetCode t0)
  | .fscale f t1 t0 => some (encGF 0x0D2 f t1 t0)
  | .fgetexp f t1 t0 => some (encGF 0x0D3 f t1 t0)
  | .cvtff mode src dst t0 => some (0x0D4 * 2 ^ 23 + mode.code * 2 ^ 15 + src.code * 2 ^ 12 + dst.code * 2 ^ 9 + targetCode t0)
  | .cvtfi mode src dst t0 => some (0x0D5 * 2 ^ 23 + mode.code * 2 ^ 15 + src.code * 2 ^ 12 + dst.code * 2 ^ 9 + targetCode t0)
  | .cvtif mode src dst t0 => some (0x0D6 * 2 ^ 23 + mode.code * 2 ^ 15 + src.code * 2 ^ 12 + dst.code * 2 ^ 9 + targetCode t0)
  | .cvtsr src dst t0 => some (0x0D7 * 2 ^ 23 + 163840 + src.code * 2 ^ 12 + dst.code * 2 ^ 9 + targetCode t0)
  | .frcpa single t1 t0 => some (encGB 0x0D8 single t1 t0)
  | .frsqa single t1 t0 => some (encGB 0x0D9 single t1 t0)
  | .fexp2a t1 t0 => some (encG1 0x0DA t1 t0)
  | .flog2a t1 t0 => some (encG1 0x0DB t1 t0)
  | .fsina t1 t0 => some (encG1 0x0DC t1 t0)
  | .fcosa t1 t0 => some (encG1 0x0DD t1 t0)
  | .rand t1 t0 => some (encG 0x0DE t1 t0)
  | .ldS8 off t0 => some (encM 0x100 off t0)
  | .ldN8 off t0 => some (encM 0x101 off t0)
  | .ldS16 off t0 => some (encM 0x102 off t0)
  | .ldN16 off t0 => some (encM 0x103 off t0)
  | .ldS32 off t0 => some (encM 0x104 off t0)
  | .ldN32 off t0 => some (encM 0x105 off t0)
  | .ldD64 off t0 => some (encM 0x106 off t0)
  | .ldaS8 scope t0 => some (encAL 0x107 scope t0)
  | .ldaN8 scope t0 => some (encAL 0x108 scope t0)
  | .ldaS16 scope t0 => some (encAL 0x109 scope t0)
  | .ldaN16 scope t0 => some (encAL 0x10A scope t0)
  | .ldaS32 scope t0 => some (encAL 0x10B scope t0)
  | .ldaN32 scope t0 => some (encAL 0x10C scope t0)
  | .ldaD64 scope t0 => some (encAL 0x10D scope t0)
  | .ldntS8 off t0 => some (encM 0x10E off t0)
  | .ldntN8 off t0 => some (encM 0x10F off t0)
  | .ldntS16 off t0 => some (encM 0x110 off t0)
  | .ldntN16 off t0 => some (encM 0x111 off t0)
  | .ldntS32 off t0 => some (encM 0x112 off t0)
  | .ldntN32 off t0 => some (encM 0x113 off t0)
  | .ldntD64 off t0 => some (encM 0x114 off t0)
  | .stN8 off => some (encMS 0x115 off)
  | .stN16 off => some (encMS 0x116 off)
  | .stN32 off => some (encMS 0x117 off)
  | .stD64 off => some (encMS 0x118 off)
  | .strN8 scope => some (encAS 0x119 scope)
  | .strN16 scope => some (encAS 0x11A scope)
  | .strN32 scope => some (encAS 0x11B scope)
  | .strD64 scope => some (encAS 0x11C scope)
  | .stntN8 off => some (encMS 0x11D off)
  | .stntN16 off => some (encMS 0x11E off)
  | .stntN32 off => some (encMS 0x11F off)
  | .stntD64 off => some (encMS 0x120 off)
  | .pref off => some (0x121 * 2 ^ 23 + off.toNat * 2 ^ 9)
  | .aadd scope wide ret => some (encAtom 0x122 scope wide ret)
  | .amin scope wide ret => some (encAtom 0x123 scope wide ret)
  | .amax scope wide ret => some (encAtom 0x124 scope wide ret)
  | .aminn scope wide ret => some (encAtom 0x125 scope wide ret)
  | .amaxn scope wide ret => some (encAtom 0x126 scope wide ret)
  | .aand scope wide ret => some (encAtom 0x127 scope wide ret)
  | .aor scope wide ret => some (encAtom 0x128 scope wide ret)
  | .axor scope wide ret => some (encAtom 0x129 scope wide ret)
  | .axchg scope wide ret => some (encAtom 0x12A scope wide ret)
  | .acas scope wide ret => some (encAtom 0x12B scope wide ret)
  | .aincw scope wide ret => some (encAtom 0x12C scope wide ret)
  | .afadd scope wide ret => some (encAtom 0x12D scope wide ret)
  | .aaddSc wide ret => some (encAtomSc 0x12E wide ret)
  | .aminSc wide ret => some (encAtomSc 0x12F wide ret)
  | .amaxSc wide ret => some (encAtomSc 0x130 wide ret)
  | .aminnSc wide ret => some (encAtomSc 0x131 wide ret)
  | .amaxnSc wide ret => some (encAtomSc 0x132 wide ret)
  | .aandSc wide ret => some (encAtomSc 0x133 wide ret)
  | .aorSc wide ret => some (encAtomSc 0x134 wide ret)
  | .axorSc wide ret => some (encAtomSc 0x135 wide ret)
  | .axchgSc wide ret => some (encAtomSc 0x136 wide ret)
  | .acasSc wide ret => some (encAtomSc 0x137 wide ret)
  | .aincwSc wide ret => some (encAtomSc 0x138 wide ret)
  | .afaddSc wide ret => some (encAtomSc 0x139 wide ret)
  | .fence scope => some (encAS 0x13A scope)
  | .waittl scope tl t0 => some (encAW 0x13B scope tl t0)
  | .tlget view t1 t0 => some (0x13C * 2 ^ 23 + view.code * 2 ^ 18 + targetCode t1 * 2 ^ 9 + targetCode t0)
  | .tlsig scope tl => some (0x13D * 2 ^ 23 + scope.code * 2 ^ 13 + tl.toNat * 2 ^ 9)
  | .br off => some (encB 0x140 off)
  | .call off => some (encB 0x142 off)
  | .exit free => some (0x145 * 2 ^ 23 + b2n free * 2 ^ 18)
  | .yield off => some (encB 0x146 off)
  | .spawn n ret => some (0x147 * 2 ^ 23 + n.toNat * 2 ^ 9 + retCode ret)
  | .send route => some (encERoute 0x148 route)
  | .sendm route => some (encERoute 0x149 route)
  | .expect t0 => some (encAT 0x14A t0)
  | .tagnew ret => some (encARet 0x14B ret)
  | .iter n => some (0x14D * 2 ^ 23 + n.toNat)
  | .launch scope trap cores ordered ret => some (0x14F * 2 ^ 23 + scope.code * 2 ^ 13 + b2n trap * 2 ^ 11 + b2n cores * 2 ^ 10 + b2n ordered * 2 ^ 9 + retCode ret)
  | .cfgld dch dn => some (encEDone 0x150 dch dn)
  | .cfgsw dch dn => some (encEDone 0x151 dch dn)
  | .eos route => some (encERoute 0x152 route)
  | .drainq peer t1 t0 => some (encGB 0x153 peer t1 t0)
  | .prio age cls => some (0x154 * 2 ^ 23 + b2n age * 2 ^ 4 + cls.toNat)
  | .mark t0 => some (encAT 0x155 t0)
  | .cpy port cc ret => some (encCpy 0x180 port cc ret)
  | .cpyRes cc ret => some (encCpyRes 0x180 cc ret)
  | .cpyAbn cc ret => some (encCpyAbn 0x180 cc ret)
  | .cpypl port cc ret => some (encCpy 0x181 port cc ret)
  | .cpyplRes cc ret => some (encCpyRes 0x181 cc ret)
  | .cpyplAbn cc ret => some (encCpyAbn 0x181 cc ret)
  | .cpyun port cc ret => some (encCpy 0x182 port cc ret)
  | .cpyunRes cc ret => some (encCpyRes 0x182 cc ret)
  | .cpyunAbn cc ret => some (encCpyAbn 0x182 cc ret)
  | .gath ret => some (encARet 0x183 ret)
  | .gathRes ret => some (encGathRes 0x183 ret)
  | .gathAbn ret => some (encGathAbn 0x183 ret)
  | .scat ret => some (encARet 0x184 ret)
  | .scatRes ret => some (encGathRes 0x184 ret)
  | .scatAbn ret => some (encGathAbn 0x184 ret)
  | .wpwait scope peer cp t0 => some (0x185 * 2 ^ 23 + scope.code * 2 ^ 13 + b2n peer * 2 ^ 12 + cp.toNat * 2 ^ 9 + targetCode t0)
  | .chkwait scope word t0 => some (encAW 0x186 scope word t0)
  | .ttload dch dn la => some (0x187 * 2 ^ 23 + dch.toNat * 2 ^ 9 + b2n dn * 2 ^ 8 + la.toNat)
  | .tfetch dch dn src dst => some (encTier 0x188 dch dn src dst)
  | .tevict dch dn src dst => some (encTier 0x189 dch dn src dst)
  | .tres view t0 => some (0x18A * 2 ^ 23 + b2n view * 2 ^ 9 + targetCode t0)
  | .mma dch dn tile => some (encETile 0x18B dch dn tile)
  | .mmaRes dch dn => some (encEDoneRes 0x18B dch dn)
  | .mmaAbn dch dn => some (encEDoneAbn 0x18B dch dn)
  | .mmal dch dn tile => some (encETile 0x18C dch dn tile)
  | .accz dch dn tile mode => some (encEMode 0x18D dch dn tile mode)
  | .accld dch dn tile mode => some (encEMode 0x18E dch dn tile mode)
  | .accst dch dn tile cz => some (encEOpt 0x18F dch dn tile cz)
  | .accstRes dch dn => some (encEDoneRes 0x18F dch dn)
  | .accstAbn dch dn => some (encEDoneAbn 0x18F dch dn)
  | .qst dch dn tile cz => some (encEOpt 0x190 dch dn tile cz)
  | .lvlld dch dn tbl wc => some (0x191 * 2 ^ 23 + dch.toNat * 2 ^ 9 + b2n dn * 2 ^ 8 + tbl.toNat * 2 ^ 6 + wc.toNat * 2 ^ 3)
  | .ainit dch dn sid keep => some (encEOpt 0x192 dch dn sid keep)
  | .agate dch dn sid => some (encETile 0x193 dch dn sid)
  | .agateRes dch dn => some (encEDoneRes 0x193 dch dn)
  | .agateAbn dch dn => some (encEDoneAbn 0x193 dch dn)
  | .aswap dch dn sid => some (encETile 0x194 dch dn sid)
  | .amap view t0 => some (0x195 * 2 ^ 23 + view.toNat * 2 ^ 9 + targetCode t0)
  | .ameas dch dn sid col => some (encEOpt 0x196 dch dn sid col)
  | .afree dch dn sid => some (encETile 0x197 dch dn sid)
  | .coll dch dn => some (encEDone 0x198 dch dn)
  | .collRes dch dn => some (encEDoneRes 0x198 dch dn)
  | .collAbn dch dn => some (encEDoneAbn 0x198 dch dn)
  | .cred dch dn fn wide => some (0x199 * 2 ^ 23 + dch.toNat * 2 ^ 9 + b2n dn * 2 ^ 8 + fn.toNat * 2 ^ 4 + b2n wide * 2 ^ 3)
  | .trap code => some (0x1C0 * 2 ^ 23 + code.toNat)
  | .srd t1 t0 => some (encG 0x1C2 t1 t0)
  | .swr reg => some (0x1C3 * 2 ^ 23 + reg.toNat)
  | .quotaWrite reg => some (0x1C3 * 2 ^ 23 + reg.toNat)
  | .brk t1 t0 => some (encG 0x1C6 t1 t0)
  | .pswapOut dch dn => some (encEDone 0x1C7 dch dn)
  | .pswapIn dch dn => some (encEDoneRes 0x1C7 dch dn)
  | .pswapXchg dch dn => some (encEDoneAbn 0x1C7 dch dn)
  | .perfr t1 t0 => some (encG 0x1C9 t1 t0)
  | .nop => some 0
  | .nullst => some (encE 0x008)
  | .bri => some (encGBr 0x141)
  | .calli => some (encGBr 0x143)
  | .ret => some (encGBr 0x144)
  | .tagfree => some (encE 0x14C)
  | .squash => some (encE 0x14E)
  | .crange => some (encE 0x19A)
  | .eretRes => some (encGBr 0x1C1)
  | .eretRv => some (0x1C1 * 2 ^ 23 + 262144)
  | .eretGo => some (0x1C1 * 2 ^ 23 + 524288)
  | .eretKill => some (0x1C1 * 2 ^ 23 + 786432)
  | .swrFpc => some (encE 0x1C3)
  | .pclrClear => some (0x1C3 * 2 ^ 23 + 144)
  | .tlbiVa => some (encE 0x1C4)
  | .tlbiAsid => some (encEKind1 0x1C4)
  | .tlbiAll => some (encEKind2 0x1C4)
  | .tlbiVag => some (0x1C4 * 2 ^ 23 + 3)
  | .cinvBlk => some (encE 0x1C5)
  | .cinvPg => some (encEKind1 0x1C5)
  | .cinvAll => some (encEKind2 0x1C5)
  | .keyldLd => some (encE 0x1C8)
  | .keyldClr => some (encEKind1 0x1C8)
  | .hostLaunchPacket | .hostPacketExecute | .clrOvf | .createPartition | .endPartition | .attest | .verifyObject | .extend 
  | .firmwareUpdate | .sumacControl | .readEvents | .mgmtServiceComplete | .powerOn | .bootStageComplete | .tokenArrival 
  | .creditGrant | .instanceForm | .frameGrant | .blockMap | .blockComplete | .blockCommit | .blkIncomplete 
  | .pendingValueArrival | .loadPerform | .waittlRelease | .wpwaitRelease | .chkwaitRelease | .expectRelease | .markRelease 
  | .iterDeferredCreate | .squashAck | .recordDelivery | .copyStart | .copyUnitDelivered | .copyFault | .copyComplete 
  | .portBindingIssue | .mcastCreditReturn | .inboundStreamStart | .gatherStart | .gatherRowWrite | .gatherComplete 
  | .peCmdStart | .peChunkVerify | .peCmdComplete | .heatRefill | .thermalRevise | .thermalEmergency | .drainCmdStart 
  | .drainRow | .lvlldReplace | .drainCmdComplete | .ttEntryStart | .ttEntryComplete | .ttEntryFail | .ttDetachComplete 
  | .ampCmdStart | .ampCmdComplete | .collSegment | .collComplete | .credPerform | .credAck | .credFilterExpire | .scTokenVisit 
  | .linkFrameReceive | .linkRetry | .laneDegrade | .portFailover | .lkUnreach | .cfgldComplete | .cfgswDrainEnd 
  | .planeExchange | .cfgswComplete | .launchEnd | .preemptRequest | .preemptMarkerArrival | .preemptDrainDone | .saveComplete 
  | .swapIn | .restoreComplete | .pswapComplete | .coreRetire | .migrationComplete | .softError | .agingStep | .recallThreshold 
  | .translationWalk | .tlbiComplete | .keyldComplete | .timetableAttach | .cinvComplete | .swrRegionComplete 
  | .transportRetransmission => none

/-- PM at `<22:21>` and LSID at `<20:16>` (R100). -/
def Head.code (h : Head) : Nat := h.pm.code * 2 ^ 21 + h.lsid.toNat * 2 ^ 16

/-- The 32-bit word of a decoded instruction. -/
def encode (d : Decoded) : Option Nat := (encodeInstr d.instr).map (· + d.head.code)

/-- A head that the format of its instruction has room for: PM and LSID only where the opcode has them. -/
def Head.fits (h : Head) (op : Nat) : Bool := (!lacksPm op || h.pm == .always) && (hasLsid op || h.lsid == 0)

/-- A well-formed decoded word: restricted fields hold what they may, and the head fits the format. -/
def Decoded.wf (d : Decoded) : Bool :=
  d.instr.wf && match encodeInstr d.instr with
    | some x => d.head.fits (bits x 23 9)
    | none => false

end Sys2Proof
end

