-- ==== Sys2Proof/Machine/Flags.lean ====
section
/-! DEFINITION. The five sticky exception flags of the FP control field and the field's word (R240, R241): the only flags of the machine.
Every floating instruction answers its result with the flags it contributes to its block's set. -/

namespace Sys2Proof.Machine

/-- The flags NV, DZ, OF, UF and NX of R240. -/
structure FFlags where
  nv  : Bool := false
  dz  : Bool := false
  ovf : Bool := false
  unf : Bool := false
  nx  : Bool := false
  deriving DecidableEq, Repr

/-- No flag. -/
def FFlags.none : FFlags := {}

/-- Flags are ORed, never cleared, by an instruction (R241). -/
def FFlags.or (x y : FFlags) : FFlags :=
  ⟨x.nv || y.nv, x.dz || y.dz, x.ovf || y.ovf, x.unf || y.unf, x.nx || y.nx⟩

/-- Invalid operation alone. -/
def FFlags.invalid : FFlags := { nv := true }

/-- Division by zero alone. -/
def FFlags.divZero : FFlags := { dz := true }

/-- NV when a condition holds. -/
def FFlags.nvIf (b : Bool) : FFlags := { nv := b }

/-- Bits `<4:0>` of FPC (R240). -/
def FFlags.code (x : FFlags) : Nat :=
  b2n x.nv * 16 + b2n x.dz * 8 + b2n x.ovf * 4 + b2n x.unf * 2 + b2n x.nx

/-- The flags of an FPC word. -/
def FFlags.ofWord (x : Nat) : FFlags := ⟨bitAt x 4, bitAt x 3, bitAt x 2, bitAt x 1, bitAt x 0⟩

/-- The FP control field of an instance (R240, R242): rounding mode, flags, taint bit. -/
structure Fpc where
  rm    : RMode := .rne
  flags : FFlags := {}
  taint : Bool := false
  deriving DecidableEq, Repr

/-- FPC as `SRD` reads it (R240). -/
def Fpc.word (f : Fpc) : Nat := f.rm.code * 256 + f.flags.code

/-- FPC after an `SWR` (R240, R241 point 5): a word with a reserved bit or RM 5 to 7 is refused whole. -/
def Fpc.written (f : Fpc) (v : Nat) (taint : Bool) : Fpc :=
  if bits v 5 3 = 0 ∧ v % 2 ^ 64 / 2 ^ 11 = 0 then
    match rmodeOf (bits v 8 3) with
    | .ok m => ⟨m, FFlags.ofWord v, taint⟩
    | .error _ => f
  else f

end Sys2Proof.Machine
end

