-- ==== Sys2Proof/Machine/IntOps.lean ====
section
/-! DEFINITION. Integer, address, compare and bit results (chapter 07) as functions of the operating width `n` and the operand tokens,
read as natural numbers. Every function reads the low `n` bits of its operands (R220, R221) and answers the whole 64-bit result. -/

namespace Sys2Proof.Machine

/-- I of R221: IMM9 as a signed value reduced modulo `2^n`. -/
def immOf (imm : BitVec 9) (n : Nat) : Nat := wrap imm.toInt n

/-- The bits `<n-1:0>` of an operand (R220). -/
def low (n x : Nat) : Nat := x % 2 ^ n

/-- Clamp of R225. -/
def clampInt (v lo hi : Int) : Int := if v < lo then lo else if hi < v then hi else v

/-! R225. -/

def iAdd (n a b : Nat) : Nat := (low n a + low n b) % 2 ^ n
def iSub (n a b : Nat) : Nat := wrap ((low n a : Int) - low n b) n
def iMul (n a b : Nat) : Nat := low n a * low n b % 2 ^ n
def iMadd (n a b c : Nat) : Nat := (low n a * low n b + low n c) % 2 ^ n
/-- `MULH`: floor of the signed product by `2^n`. -/
def iMulh (n a b : Nat) : Nat := wrap ((sgn a n * sgn b n).fdiv (2 ^ n)) n
def iMulhn (n a b : Nat) : Nat := low n a * low n b / 2 ^ n
def iNeg (n a : Nat) : Nat := wrap (-(low n a : Int)) n
def iAbs (n a : Nat) : Nat := (sgn a n).natAbs % 2 ^ n
def iMin (n a b : Nat) : Nat := if sgn a n ≤ sgn b n then low n a else low n b
def iMax (n a b : Nat) : Nat := if sgn b n ≤ sgn a n then low n a else low n b
def iMinn (n a b : Nat) : Nat := if low n a ≤ low n b then low n a else low n b
def iMaxn (n a b : Nat) : Nat := if low n b ≤ low n a then low n a else low n b
def iAddsat (n a b : Nat) : Nat := wrap (clampInt (sgn a n + sgn b n) (-2 ^ (n - 1)) (2 ^ (n - 1) - 1)) n
def iSubsat (n a b : Nat) : Nat := wrap (clampInt (sgn a n - sgn b n) (-2 ^ (n - 1)) (2 ^ (n - 1) - 1)) n

/-! R226: truncation toward zero, the remainder with the dividend's sign, and the fixed results for a zero divisor. -/

def iDiv (n a b : Nat) : Nat := if low n b = 0 then 2 ^ n - 1 else wrap ((sgn a n).tdiv (sgn b n)) n
def iDivn (n a b : Nat) : Nat := if low n b = 0 then 2 ^ n - 1 else low n a / low n b
def iRem (n a b : Nat) : Nat := if low n b = 0 then low n a else wrap ((sgn a n).tmod (sgn b n)) n
def iRemn (n a b : Nat) : Nat := if low n b = 0 then low n a else low n a % low n b

/-! R227. -/

def iAnd (n a b : Nat) : Nat := low n a &&& low n b
def iOr (n a b : Nat) : Nat := low n a ||| low n b
def iXor (n a b : Nat) : Nat := low n a ^^^ low n b
def iNot (n a : Nat) : Nat := 2 ^ n - 1 - low n a
def iAndn (n a b : Nat) : Nat := low n a &&& iNot n b
/-- The shift count `k` is all 64 bits of slot b. -/
def iShl (n a k : Nat) : Nat := if n ≤ k then 0 else low n a * 2 ^ k % 2 ^ n
def iShr (n a k : Nat) : Nat := if n ≤ k then 0 else low n a / 2 ^ k
def iSar (n a k : Nat) : Nat := wrap ((sgn a n).fdiv (2 ^ min k (n - 1))) n
def iRol (n a k : Nat) : Nat := low n a * 2 ^ (k % n) % 2 ^ n + low n a / 2 ^ (n - k % n)
def iRor (n a k : Nat) : Nat := low n a / 2 ^ (k % n) + low n a * 2 ^ (n - k % n) % 2 ^ n

/-- `LEA` (R228): both slots whole, modulo `2^64`. -/
def iLea (s : Scale) (a b : Nat) : Nat := (a + b * 2 ^ s.code) % 2 ^ 64

/-- `SEXT` (R229): 64 bits wide. -/
def iSext (n a : Nat) : Nat := wrap (sgn a n) 64

/-! R230: 1 when the relation holds, else 0. -/

def iTeq (n a b : Nat) : Nat := b2n (low n a == low n b)
def iTne (n a b : Nat) : Nat := b2n (low n a != low n b)
def iTlt (n a b : Nat) : Nat := b2n (sgn a n < sgn b n)
def iTle (n a b : Nat) : Nat := b2n (sgn a n ≤ sgn b n)
def iTltn (n a b : Nat) : Nat := b2n (low n a < low n b)
def iTlen (n a b : Nat) : Nat := b2n (low n a ≤ low n b)

/-- `SEL` (R231). -/
def iSel (a b c : Nat) : Nat := if c % 2 = 1 then a else b

/-! R232. -/

/-- Bits needed for a natural number: 0 for 0. -/
def bitLen (x : Nat) : Nat := if x = 0 then 0 else Nat.log2 x + 1

def iClz (n a : Nat) : Nat := n - bitLen (low n a)

/-- Number of one bits among the low `n`. -/
def popCount : Nat → Nat → Nat
  | 0, _ => 0
  | n + 1, x => x % 2 + popCount n (x / 2)

/-- Zero bits below the lowest one bit, at most `n`. -/
def trailZeros : Nat → Nat → Nat
  | 0, _ => 0
  | n + 1, x => if x % 2 = 1 then 0 else 1 + trailZeros n (x / 2)

/-- The low `n` bits in reverse order. -/
def bitReverse : Nat → Nat → Nat
  | 0, _ => 0
  | n + 1, x => x % 2 * 2 ^ n + bitReverse n (x / 2)

/-- The low `n` bytes in reverse order. -/
def byteReverse : Nat → Nat → Nat
  | 0, _ => 0
  | n + 1, x => x % 256 * 256 ^ n + byteReverse n (x / 256)

def iCtz (n a : Nat) : Nat := trailZeros n (low n a)
def iPopc (n a : Nat) : Nat := popCount n (low n a)
def iBrev (n a : Nat) : Nat := bitReverse n (low n a)
def iBswap (n a : Nat) : Nat := byteReverse (n / 8) (low n a)

/-! R233: the field word names POS at `<5:0>` and LEN at `<14:8>`. -/

/-- Length of the field, cut at bit `n`. -/
def fieldLen (n fw : Nat) : Nat := if n ≤ bits fw 0 6 then 0 else min (bits fw 8 7) (n - bits fw 0 6)
/-- The field of `a`. -/
def fieldOf (n a fw : Nat) : Nat := low n a / 2 ^ bits fw 0 6 % 2 ^ fieldLen n fw

def iBfx (n a fw : Nat) : Nat := fieldOf n a fw
def iBfxs (n a fw : Nat) : Nat := if fieldLen n fw = 0 then 0 else wrap (sgn (fieldOf n a fw) (fieldLen n fw)) n
def iBfi (n a b fw : Nat) : Nat :=
  if fieldLen n fw = 0 then low n a
  else low n a - fieldOf n a fw * 2 ^ bits fw 0 6 + low n b % 2 ^ fieldLen n fw * 2 ^ bits fw 0 6

/-- `BITT` (R234). -/
def iBitt (n a k : Nat) : Nat := if n ≤ k then 0 else low n a / 2 ^ k % 2

end Sys2Proof.Machine
end

