-- ==== Sys2Proof/Machine/Float.lean ====
section
/-! DEFINITION. Binary floating point (R63, R66, R244): values as exact dyadic numbers, one rounding, and the flags it raises. A result
that is not a dyadic number (a quotient, a root, a transcendental) is carried as a long enough dyadic with a last bit that is odd when
something follows, which rounds as the exact value does. -/

namespace Sys2Proof.Machine

/-- A binary format: exponent and fraction widths (R63). -/
structure Fmt where
  ebits : Nat
  frac  : Nat
  deriving DecidableEq, Repr

/-- The four formats of R63. -/
def fmtOf : FFmt → Fmt
  | .f64 => ⟨11, 52⟩ | .f32 => ⟨8, 23⟩ | .bf16 => ⟨8, 7⟩ | .f16 => ⟨5, 10⟩

/-- Significand bits. -/
def Fmt.prec (f : Fmt) : Nat := f.frac + 1
/-- Exponent bias. -/
def Fmt.bias (f : Fmt) : Nat := 2 ^ (f.ebits - 1) - 1
/-- Smallest normal exponent: the emin of R244. -/
def Fmt.emin (f : Fmt) : Int := 1 - f.bias
/-- Total width in bits. -/
def Fmt.width (f : Fmt) : Nat := 1 + f.ebits + f.frac
/-- The all-ones exponent field. -/
def Fmt.emax (f : Fmt) : Nat := 2 ^ f.ebits - 1
/-- Bits of +∞. -/
def Fmt.infBits (f : Fmt) : Nat := f.emax * 2 ^ f.frac
/-- Bits of the largest finite value. -/
def Fmt.maxBits (f : Fmt) : Nat := f.infBits - 1
/-- The sign bit. -/
def Fmt.signBit (f : Fmt) (neg : Bool) : Nat := b2n neg * 2 ^ (f.ebits + f.frac)
/-- The canonical NaN of R63: positive, quiet, zero payload. -/
def Fmt.nan (f : Fmt) : Nat := f.infBits + 2 ^ (f.frac - 1)

/-- A decoded value: NaN (sign, signalling), infinity (sign), or `±m · 2^e` (`m = 0` is a zero). -/
inductive FVal where
  | nan (neg snan : Bool)
  | inf (neg : Bool)
  | fin (neg : Bool) (m : Nat) (e : Int)
  deriving DecidableEq, Repr

/-- Dec of R246: the value of a token's low bits. -/
def Fmt.decode (f : Fmt) (x : Nat) : FVal :=
  let neg := bitAt x (f.ebits + f.frac)
  let ef := bits x f.frac f.ebits
  let m := bits x 0 f.frac
  if ef = f.emax then (if m = 0 then .inf neg else .nan neg (!bitAt m (f.frac - 1)))
  else if ef = 0 then .fin neg m (f.emin - f.frac)
  else .fin neg (2 ^ f.frac + m) (ef - f.bias - f.frac)

def FVal.isNan : FVal → Bool
  | .nan _ _ => true
  | _ => false
def FVal.isSnan : FVal → Bool
  | .nan _ s => s
  | _ => false
def FVal.isInf : FVal → Bool
  | .inf _ => true
  | _ => false
def FVal.isZero : FVal → Bool
  | .fin _ m _ => m == 0
  | _ => false
/-- The sign. -/
def FVal.neg : FVal → Bool
  | .nan n _ => n
  | .inf n => n
  | .fin n _ _ => n
/-- The value with another sign. -/
def FVal.withSign (neg : Bool) : FVal → FVal
  | .nan _ s => .nan neg s
  | .inf _ => .inf neg
  | .fin _ m e => .fin neg m e

/-- An exact signed dyadic `v · 2^e`. -/
structure Dyad where
  v : Int
  e : Int
  deriving DecidableEq, Repr

/-- The exact value of a finite number; 0 for the others. -/
def FVal.dyad : FVal → Dyad
  | .fin n m e => ⟨if n then -(m : Int) else m, e⟩
  | _ => ⟨0, 0⟩

/-- Significand of a dyadic at a smaller exponent. -/
def Dyad.at (d : Dyad) (e : Int) : Int := d.v * 2 ^ (d.e - e).toNat

def Dyad.add (x y : Dyad) : Dyad := let e := min x.e y.e; ⟨x.at e + y.at e, e⟩
def Dyad.neg (x : Dyad) : Dyad := ⟨-x.v, x.e⟩
def Dyad.mul (x y : Dyad) : Dyad := ⟨x.v * y.v, x.e + y.e⟩
/-- Order of two dyadics. -/
def Dyad.lt (x y : Dyad) : Bool := let e := min x.e y.e; x.at e < y.at e
def Dyad.le (x y : Dyad) : Bool := let e := min x.e y.e; x.at e ≤ y.at e
def Dyad.eq (x y : Dyad) : Bool := let e := min x.e y.e; x.at e == y.at e

/-- Whether the kept part `k` goes up, in a rounding mode (R66): `half` tells the dropped part (0 below, 1 at, 2 above the half) and
`any` that something was dropped. -/
def roundsUp (mode : RMode) (neg : Bool) (k half : Nat) (any : Bool) : Bool :=
  match mode with
  | .rne => half == 2 || (half == 1 && k % 2 == 1)
  | .rtz => false
  | .rdn => neg && any
  | .rup => !neg && any
  | .rna => half ≥ 1

/-- `m` divided by `2^s`, rounded in a mode: the kept integer and whether anything was dropped. -/
def roundShift (mode : RMode) (neg : Bool) (m s : Nat) : Nat × Bool :=
  let k := m / 2 ^ s
  let d := m % 2 ^ s
  let half := if s = 0 then 0 else if d < 2 ^ (s - 1) then 0 else if d = 2 ^ (s - 1) then 1 else 2
  (if roundsUp mode neg k half (d != 0) then k + 1 else k, d != 0)

/-- A magnitude `m · 2^e` rounded to at most `p` bits, and not finer than the quantum `2^qmin`: kept integer, its exponent, inexact. -/
def roundMag (mode : RMode) (neg : Bool) (p : Nat) (qmin : Option Int) (m : Nat) (e : Int) : Nat × Int × Bool :=
  let q0 : Int := e + bitLen m - p
  let q : Int := match qmin with
    | some q1 => if q0 < q1 then q1 else q0
    | none => q0
  if q ≤ e then (m * 2 ^ (e - q).toNat, q, false)
  else
    let (k, ix) := roundShift mode neg m (q - e).toNat
    (k, q, ix)

/-- Bits of a magnitude `k · 2^q` that `f` represents exactly (`k < 2^(prec+1)`, q its quantum); not for overflow. -/
def Fmt.pack (f : Fmt) (neg : Bool) (k : Nat) (q : Int) : Nat :=
  f.signBit neg + (if k = 0 then 0
    else if k < 2 ^ f.frac then k
    else (q + f.frac - f.emin).toNat * 2 ^ f.frac + k)

/-- Whether `k · 2^q` lies beyond the largest finite value. -/
def Fmt.beyond (f : Fmt) (k : Nat) (q : Int) : Bool :=
  k != 0 && (f.emin + f.emax - 2 : Int) < q + bitLen k - 1

/-- RoundTo of R244: a nonzero magnitude `m · 2^e` with its sign, in mode `mode`. -/
def Fmt.round (f : Fmt) (mode : RMode) (neg : Bool) (m : Nat) (e : Int) : Nat × FFlags :=
  let (k, q, ix) := roundMag mode neg f.prec (some (f.emin - f.frac)) m e
  if f.beyond k q then
    let toInf := match mode with
      | .rne => true | .rna => true | .rtz => false | .rdn => neg | .rup => !neg
    (f.signBit neg + (if toInf then f.infBits else f.maxBits), { ovf := true, nx := true })
  else
    let (ku, qu, _) := roundMag mode neg f.prec none m e
    let tiny := m != 0 && (qu + bitLen ku - 1 < f.emin)
    (f.pack neg k q, { unf := tiny && ix, nx := ix })

/-- RoundTo of an exact sum (R244): an exact zero takes `zneg` as its sign; one that is not zero and rounds to zero keeps its own
(notes/assumptions 32). -/
def Fmt.roundDyad (f : Fmt) (mode : RMode) (zneg : Bool) (d : Dyad) : Nat × FFlags :=
  if d.v = 0 then (f.signBit zneg, {}) else f.round mode (d.v < 0) d.v.natAbs d.e

/-- Integer square root, bit by bit from bit `n`: the largest `s` with `s² ≤ x` for `x < 2^(2n+2)`. -/
def isqrtFrom : Nat → Nat → Nat → Nat
  | 0, s, x => if (s + 1) * (s + 1) ≤ x then s + 1 else s
  | n + 1, s, x => let t := s + 2 ^ (n + 1); isqrtFrom n (if t * t ≤ x then t else s) x

/-- Integer square root. -/
def isqrt (x : Nat) : Nat := isqrtFrom (bitLen x / 2) 0 x

/-- A quotient of naturals as a dyadic of at least `p` bits whose last bit is odd when the division is inexact. -/
def quotOdd (p a b : Nat) : Nat × Int :=
  let s := p + bitLen b
  let q := a * 2 ^ s / b
  (2 * q + b2n (a * 2 ^ s % b != 0), -(s : Int) - 1)

/-- The square root of `m · 2^e`, likewise. -/
def sqrtOdd (p m : Nat) (e : Int) : Nat × Int :=
  let odd := e % 2 != 0
  let m' := if odd then 2 * m else m
  let e' := if odd then e - 1 else e
  let x := m' * 2 ^ (2 * p)
  let s := isqrt x
  (2 * s + b2n (s * s != x), e' / 2 - p - 1)

/-- A value rounded to an integer in a mode (R250, R254): the magnitude and whether it is inexact. -/
def roundInt (mode : RMode) (neg : Bool) (m : Nat) (e : Int) : Nat × Bool :=
  if 0 ≤ e then (m * 2 ^ e.toNat, false) else roundShift mode neg m (-e).toNat

end Sys2Proof.Machine
end

