-- ==== Sys2Proof/Machine/FloatOps.lean ====
section
/-! DEFINITION. The floating-point, conversion, approximation and random-number results of chapter 08, each a function of its format, the
rounding mode where it has one, and the operand bits. A result is its 64-bit token (R65) and the flags it contributes (R261). -/

namespace Sys2Proof.Machine

/-- The canonical NaN with flags (R245). -/
def nanR (f : Fmt) (fl : FFlags) : Nat × FFlags := (f.nan, fl)

/-- Sign of a rounded sum that is exactly zero (R244, notes/assumptions 32): +0, or −0 under RDN. -/
def zeroSign (mode : RMode) : Bool := mode == .rdn

/-- Whether either operand is a signalling NaN (R245). -/
def snan2 (x y : FVal) : Bool := x.isSnan || y.isSnan

/-- Sum of two decoded values (R246). -/
def addVal (f : Fmt) (m : RMode) (x y : FVal) : Nat × FFlags :=
  if x.isNan || y.isNan then nanR f (.nvIf (snan2 x y))
  else if x.isInf && y.isInf then
    if x.neg == y.neg then (f.signBit x.neg + f.infBits, {}) else nanR f .invalid
  else if x.isInf then (f.signBit x.neg + f.infBits, {})
  else if y.isInf then (f.signBit y.neg + f.infBits, {})
  else f.roundDyad m (zeroSign m) (x.dyad.add y.dyad)

/-- `FADD` and `FSUB` (R246). -/
def fAdd (f : Fmt) (m : RMode) (a b : Nat) : Nat × FFlags := addVal f m (f.decode a) (f.decode b)
def fSub (f : Fmt) (m : RMode) (a b : Nat) : Nat × FFlags :=
  addVal f m (f.decode a) ((f.decode b).withSign (!(f.decode b).neg))

/-- `FMUL` (R246). -/
def fMul (f : Fmt) (m : RMode) (a b : Nat) : Nat × FFlags :=
  let x := f.decode a
  let y := f.decode b
  let s := x.neg != y.neg
  if (x.isZero && y.isInf) || (x.isInf && y.isZero) then nanR f .invalid
  else if x.isNan || y.isNan then nanR f (.nvIf (snan2 x y))
  else if x.isInf || y.isInf then (f.signBit s + f.infBits, {})
  else f.roundDyad m s (x.dyad.mul y.dyad)

/-- The fused forms (R246): `±(x · y) + z`, the product negated by `FNMA`. -/
def fFused (f : Fmt) (m : RMode) (negProd : Bool) (a b c : Nat) : Nat × FFlags :=
  let x := f.decode a
  let y := f.decode b
  let z := f.decode c
  let s := (x.neg != y.neg) != negProd
  let nv := x.isSnan || y.isSnan || z.isSnan
  if (x.isZero && y.isInf) || (x.isInf && y.isZero) then nanR f .invalid
  else if x.isNan || y.isNan || z.isNan then nanR f (.nvIf nv)
  else if x.isInf || y.isInf then
    if z.isInf && z.neg != s then nanR f .invalid else (f.signBit s + f.infBits, {})
  else if z.isInf then (f.signBit z.neg + f.infBits, {})
  else
    let p := x.dyad.mul y.dyad
    f.roundDyad m (zeroSign m) ((if negProd then p.neg else p).add z.dyad)

def fMa (f : Fmt) (m : RMode) (a b c : Nat) : Nat × FFlags := fFused f m false a b c
def fNma (f : Fmt) (m : RMode) (a b c : Nat) : Nat × FFlags := fFused f m true a b c

/-- `FDIV` (R246). -/
def fDiv (f : Fmt) (m : RMode) (a b : Nat) : Nat × FFlags :=
  let x := f.decode a
  let y := f.decode b
  let s := x.neg != y.neg
  if x.isNan || y.isNan then nanR f (.nvIf (snan2 x y))
  else if (x.isZero && y.isZero) || (x.isInf && y.isInf) then nanR f .invalid
  else if x.isInf then (f.signBit s + f.infBits, {})
  else if y.isInf || x.isZero then (f.signBit s, {})
  else if y.isZero then (f.signBit s + f.infBits, .divZero)
  else
    let (q, e) := quotOdd (2 * f.prec + 4) x.dyad.v.natAbs y.dyad.v.natAbs
    f.round m s q (e + x.dyad.e - y.dyad.e)

/-- `FSQRT` (R246): the root of −0 is −0. -/
def fSqrt (f : Fmt) (m : RMode) (a : Nat) : Nat × FFlags :=
  let x := f.decode a
  if x.isNan then nanR f (.nvIf x.isSnan)
  else if x.isZero then (f.signBit x.neg, {})
  else if x.neg then nanR f .invalid
  else if x.isInf then (f.infBits, {})
  else
    let (s, e) := sqrtOdd (f.prec + 4) x.dyad.v.natAbs x.dyad.e
    f.round m false s e

/-- x < y on non-NaN values, −0 equal to +0. -/
def ltVal (x y : FVal) : Bool :=
  match x, y with
  | .inf nx, .inf ny => nx && !ny
  | .inf nx, _ => nx
  | _, .inf ny => !ny
  | _, _ => x.dyad.lt y.dyad

/-- x = y on non-NaN values. -/
def eqVal (x y : FVal) : Bool :=
  match x, y with
  | .inf nx, .inf ny => nx == ny
  | .inf _, _ => false
  | _, .inf _ => false
  | _, _ => x.dyad.eq y.dyad

/-- The low bits of a token in a format. -/
def Fmt.low (f : Fmt) (x : Nat) : Nat := x % 2 ^ f.width

/-- `FMIN` and `FMAX` (R247): minimumNumber and maximumNumber, −0 below +0. -/
def fMinMax (f : Fmt) (wantMax : Bool) (a b : Nat) : Nat × FFlags :=
  let x := f.decode a
  let y := f.decode b
  let fl := FFlags.nvIf (snan2 x y)
  if x.isNan && y.isNan then (f.nan, fl)
  else if x.isNan then (f.low b, fl)
  else if y.isNan then (f.low a, fl)
  else
    let aLess := ltVal x y || (eqVal x y && x.neg && !y.neg)
    (if aLess != wantMax then f.low a else f.low b, fl)

/-- `FABS`, `FNEG`, `FCPYS` (R247) change only the sign bit. -/
def fAbs (f : Fmt) (a : Nat) : Nat := a % 2 ^ (f.width - 1)
def fNeg (f : Fmt) (a : Nat) : Nat := f.low a ^^^ 2 ^ (f.width - 1)
def fCpys (f : Fmt) (a b : Nat) : Nat := a % 2 ^ (f.width - 1) + b2n (bitAt b (f.width - 1)) * 2 ^ (f.width - 1)

/-! The compares of R248. -/

def fTeq (f : Fmt) (a b : Nat) : Nat × FFlags :=
  let x := f.decode a
  let y := f.decode b
  (b2n (!x.isNan && !y.isNan && eqVal x y), .nvIf (snan2 x y))
def fTlt (f : Fmt) (a b : Nat) : Nat × FFlags :=
  let x := f.decode a
  let y := f.decode b
  (b2n (!x.isNan && !y.isNan && ltVal x y), .nvIf (x.isNan || y.isNan))
def fTle (f : Fmt) (a b : Nat) : Nat × FFlags :=
  let x := f.decode a
  let y := f.decode b
  (b2n (!x.isNan && !y.isNan && (ltVal x y || eqVal x y)), .nvIf (x.isNan || y.isNan))
def fTun (f : Fmt) (a b : Nat) : Nat × FFlags :=
  let x := f.decode a
  let y := f.decode b
  (b2n (x.isNan || y.isNan), .nvIf (snan2 x y))

/-- `FCLASS` (R249): one hot. -/
def fClass (f : Fmt) (a : Nat) : Nat :=
  match f.decode a with
  | .nan _ s => if s then 2 ^ 8 else 2 ^ 9
  | .inf n => if n then 1 else 2 ^ 7
  | .fin n m _ =>
    if m = 0 then (if n then 2 ^ 3 else 2 ^ 4)
    else if m < 2 ^ f.frac then (if n then 2 ^ 2 else 2 ^ 5)
    else (if n then 2 else 2 ^ 6)

/-- `FRND` (R250). -/
def fRnd (f : Fmt) (mode : RMode) (x1 : Bool) (a : Nat) : Nat × FFlags :=
  match f.decode a with
  | .nan _ s => nanR f (.nvIf s)
  | .inf _ => (f.low a, {})
  | .fin n m e =>
    if m = 0 then (f.low a, {})
    else
      let (k, ix) := roundInt mode n m e
      (if k = 0 then f.signBit n else (f.round .rne n k 0).1, { nx := x1 && ix })

/-- `FSCALE` (R251): `b` is the whole slot b as a signed integer. Beyond ±2^16 the result only overflows or vanishes. -/
def fScale (f : Fmt) (m : RMode) (a b : Nat) : Nat × FFlags :=
  match f.decode a with
  | .nan _ s => nanR f (.nvIf s)
  | .inf _ => (f.low a, {})
  | .fin n k e =>
    if k = 0 then (f.low a, {}) else f.round m n k (e + clampInt (sgn b 64) (-2 ^ 16) (2 ^ 16))

/-- `FGETEXP` (R251). -/
def fGetexp (f : Fmt) (a : Nat) : Nat × FFlags :=
  match f.decode a with
  | .nan _ _ => (2 ^ 63, .invalid)
  | .inf _ => (2 ^ 63 - 1, .invalid)
  | .fin _ m e => if m = 0 then (2 ^ 63, .invalid) else (wrap (e + bitLen m - 1) 64, {})

/-! Conversions (R252 to R255). -/

/-- `CVTFF` (R253). -/
def cvtFF (src dst : Fmt) (mode : RMode) (a : Nat) : Nat × FFlags :=
  match src.decode a with
  | .nan n s => (dst.signBit n + dst.nan, .nvIf s)
  | .inf n => (dst.signBit n + dst.infBits, {})
  | .fin n m e => if m = 0 then (dst.signBit n, {}) else dst.round mode n m e

/-- Bounds of an integer format. -/
def ifmtLo (i : IFmt) : Int := if i.signed then -2 ^ (i.width.bits - 1) else 0
def ifmtHi (i : IFmt) : Int := if i.signed then 2 ^ (i.width.bits - 1) - 1 else 2 ^ i.width.bits - 1

/-- `CVTFI` (R254). -/
def cvtFI (src : Fmt) (dst : IFmt) (mode : RMode) (a : Nat) : Nat × FFlags :=
  match src.decode a with
  | .nan _ _ => (0, .invalid)
  | .inf n => (wrap (if n then ifmtLo dst else ifmtHi dst) dst.width.bits, .invalid)
  | .fin n m e =>
    let (k, ix) := roundInt mode n m e
    let v : Int := if n then -(k : Int) else k
    if v < ifmtLo dst ∨ ifmtHi dst < v then (wrap (clampInt v (ifmtLo dst) (ifmtHi dst)) dst.width.bits, .invalid)
    else (wrap v dst.width.bits, { nx := ix })

/-- The integer that a token holds in an integer format. -/
def ifmtValue (i : IFmt) (a : Nat) : Int := if i.signed then sgn a i.width.bits else low i.width.bits a

/-- `CVTIF` (R255). -/
def cvtIF (src : IFmt) (dst : Fmt) (mode : RMode) (a : Nat) : Nat × FFlags :=
  dst.roundDyad mode false ⟨ifmtValue src a, 0⟩

/-- `CVTSR` (R256): the magnitude rounded up by the fraction that the low random bits name. -/
def cvtSR (src dst : Fmt) (a b : Nat) : Nat × FFlags :=
  match src.decode a with
  | .nan n s => (dst.signBit n + dst.nan, .nvIf s)
  | .inf n => (dst.signBit n + dst.infBits, {})
  | .fin n m e =>
    if m = 0 then (dst.signBit n, {})
    else
      let d := src.frac - dst.frac
      let ex := e + bitLen m - 1
      let top : Int := dst.emin + dst.emax - 2
      let exq : Int := if ex < dst.emin then dst.emin else if top < ex then top else ex
      let u : Int := exq - dst.frac          -- the spacing of DST is 2^u
      -- |x| + q · 2^(u-d), in units of 2^(min e (u-d))
      let g := min e (u - d)
      let sum := m * 2 ^ (e - g).toNat + b % 2 ^ d * 2 ^ (u - d - g).toNat
      let k := sum / 2 ^ (u - g).toNat
      let maxK := 2 ^ dst.prec - 1
      let past := dst.beyond k u
      let same := !past && k * 2 ^ (u - g).toNat == m * 2 ^ (e - g).toNat
      (if past then dst.signBit n + dst.pack false maxK (top - dst.frac) else dst.signBit n + dst.pack false k u,
        { ovf := past, nx := !same, unf := !same && (ex < dst.emin) })

/-! Approximations (R257, R258). -/

/-- A magnitude `m · 2^e` rounded with RNE to `p` bits within the exponent range of `f`; beyond the largest finite value it is ±∞. -/
def Fmt.reduced (f : Fmt) (p : Nat) (neg : Bool) (m : Nat) (e : Int) : Nat :=
  let (k, q, _) := roundMag .rne neg p (some (f.emin - p + 1)) m e
  if f.beyond k q then f.signBit neg + f.infBits
  else if k = 0 then f.signBit neg
  else (f.round .rne neg k q).1

/-- `FRCPA`. -/
def fRcpa (f : Fmt) (a : Nat) : Nat × FFlags :=
  match f.decode a with
  | .nan _ s => nanR f (.nvIf s)
  | .inf n => (f.signBit n, {})
  | .fin n m e =>
    if m = 0 then (f.signBit n + f.infBits, .divZero)
    else
      let (q, s) := quotOdd 80 1 m
      (f.reduced 14 n q (s - e), {})

/-- `FRSQA`. -/
def fRsqa (f : Fmt) (a : Nat) : Nat × FFlags :=
  match f.decode a with
  | .nan _ s => nanR f (.nvIf s)
  | .inf n => if n then nanR f .invalid else (0, {})
  | .fin n m e =>
    if m = 0 then (f.signBit n + f.infBits, .divZero)
    else if n then nanR f .invalid
    else
      let odd := e % 2 != 0
      let m' := if odd then 2 * m else m
      let e' := if odd then e - 1 else e
      let k := 2 ^ (2 * (bitLen m' + 40))
      let s := isqrt (k / m')
      (f.reduced 14 false (2 * s + b2n (s * s * m' != k)) (-(e' / 2) - (bitLen m' + 40 : Nat) - 1), {})

/-- Product of the constants 2^(2^-i) for the set bits of a fraction, in fixed point with 192 fraction bits: `f` holds the fraction's
`n` bits, the most significant first; `c` is the constant of the present bit. -/
def exp2Frac : Nat → Nat → Nat → Nat → Nat
  | 0, _, _, acc => acc
  | n + 1, f, c, acc =>
    exp2Frac n f (isqrt (c * 2 ^ 192)) (if f / 2 ^ n % 2 = 1 then acc * c / 2 ^ 192 else acc)

/-- `FEXP2A`: 2^x. A magnitude below 2^-40 gives 1, one of 2^10 or more only overflows or vanishes. -/
def fExp2a (a : Nat) : Nat × FFlags :=
  let f := fmtOf .f32
  match f.decode a with
  | .nan _ s => nanR f (.nvIf s)
  | .inf n => (if n then 0 else f.infBits, {})
  | .fin n m e =>
    if m = 0 ∨ e + bitLen m < -40 then (f.bias * 2 ^ f.frac, {})
    else if 10 < e + bitLen m then (if n then 0 else f.infBits, {})
    else
      -- x in units of 2^-64
      let v : Int := (if n then -(m : Int) else m) * 2 ^ (e + 64).toNat
      let ip := v.fdiv (2 ^ 64)
      let fr := (v.fmod (2 ^ 64)).toNat
      let c := isqrt (2 ^ 385)
      let r := exp2Frac 64 fr c (2 ^ 192)
      (f.reduced 22 false (2 * r + b2n (fr != 0)) (ip - 193), {})

/-- Fraction bits of log2 of `y / 2^300` in [1, 2), by repeated squaring, `n` of them. -/
def log2Frac : Nat → Nat → Nat → Nat
  | 0, _, acc => acc
  | n + 1, y, acc =>
    let s := y * y / 2 ^ 300
    if 2 ^ 301 ≤ s then log2Frac n (s / 2) (2 * acc + 1) else log2Frac n s (2 * acc)

/-- `FLOG2A`: log2 x. -/
def fLog2a (a : Nat) : Nat × FFlags :=
  let f := fmtOf .f32
  match f.decode a with
  | .nan _ s => nanR f (.nvIf s)
  | .inf n => if n then nanR f .invalid else (f.infBits, {})
  | .fin n m e =>
    if m = 0 then (f.signBit true + f.infBits, .divZero)
    else if n then nanR f .invalid
    else
      let l := bitLen m - 1
      let exact := m == 2 ^ l
      let fr := if exact then 0 else log2Frac 100 (m * 2 ^ (300 - l)) 0
      let v : Int := (e + l) * 2 ^ 100 + fr
      if v = 0 ∧ exact then (0, {})
      else if 0 ≤ v then (f.reduced 22 false (2 * v.natAbs + b2n (!exact)) (-101), {})
      else (f.reduced 22 true (if exact then 2 * v.natAbs else 2 * v.natAbs - 1) (-101), {})

/-- 2π in fixed point with 252 fraction bits. -/
def twoPi : Nat := 0x3243F6A8885A308D313198A2E03707344A4093822299F31D0082EFA98EC4E6C89 / 2 ^ 3

/-- Alternating series 1 − u/(k(k+1)) (1 − u/((k+2)(k+3)) (…)) in fixed point with 252 fraction bits. -/
def sinSeries : Nat → Nat → Nat → Nat
  | 0, _, _ => 2 ^ 252
  | n + 1, k, u => 2 ^ 252 - u * sinSeries n (k + 2) u / 2 ^ 252 / (k * (k + 1))

/-- |sin| or |cos| of 2π t, for a nonzero t = m · 2^e of at most an eighth of a turn: an odd-ended dyadic. -/
def sinTurn (m : Nat) (e : Int) : Nat × Int :=
  let th := if e < -300 then 0 else if e < 0 then m * twoPi / 2 ^ (-e).toNat else m * twoPi
  let u := th * th / 2 ^ 252
  (2 * (m * twoPi * sinSeries 30 2 u / 2 ^ 252) + 1, e - 253)
def cosTurn (m : Nat) (e : Int) : Nat × Int :=
  let th := if e < -300 then 0 else if e < 0 then m * twoPi / 2 ^ (-e).toNat else m * twoPi
  let u := th * th / 2 ^ 252
  if u = 0 then (2 ^ 100 - 1, -100) else (2 * sinSeries 30 1 u + 1, -253)

/-- sin 2πx for `x` in turns, `quarter` turns added (1 for the cosine): FP32 bits. -/
def sinCos (cosine : Bool) (n : Bool) (m : Nat) (e : Int) : Nat :=
  let f := fmtOf .f32
  let one := f.bias * 2 ^ f.frac
  if 0 ≤ e then (if cosine then one else f.signBit n)
  else
    let s := (-e).toNat + 3              -- units: m · 2^3 eighths scaled; s fraction bits of |x|
    let x := m * 2 ^ 3
    let fr := x % 2 ^ s                  -- the fraction of a turn, with s bits
    let oct := fr * 8 / 2 ^ s            -- eighth of a turn, 0 to 7
    let r := fr * 8 % 2 ^ s              -- rest of the eighth, times 8
    let up := oct % 2 = 1
    let d := if up then 2 ^ s - r else r -- distance to the nearest quarter turn, in eighths
    let q := (oct + (if up then 1 else 0)) / 2   -- nearest quarter turn, 0 to 4
    let ph := (q + b2n cosine) % 4       -- the function is ±sin or ±cos of the signed distance
    -- signed distance: negative when we look back from the quarter turn
    let back := up
    if d = 0 then
      if ph % 2 = 1 then f.signBit (if cosine then ph == 3 else (ph == 3) != n) + one
      else if cosine then 0 else f.signBit n
    else
      let useCos := ph % 2 = 1
      let (v, ve) := if useCos then cosTurn d (-(s : Int) - 3) else sinTurn d (-(s : Int) - 3)
      let neg0 := if useCos then ph == 3 else (ph == 2) != back
      f.reduced 22 (if cosine then neg0 else neg0 != n) v ve

/-- `FSINA` and `FCOSA`. -/
def fSina (a : Nat) : Nat × FFlags :=
  let f := fmtOf .f32
  match f.decode a with
  | .nan _ s => nanR f (.nvIf s)
  | .inf _ => nanR f .invalid
  | .fin n m e => (if m = 0 then f.signBit n else sinCos false n m e, {})
def fCosa (a : Nat) : Nat × FFlags :=
  let f := fmtOf .f32
  match f.decode a with
  | .nan _ s => nanR f (.nvIf s)
  | .inf _ => nanR f .invalid
  | .fin n m e => (if m = 0 then f.bias * 2 ^ f.frac else sinCos true n m e, {})

/-- `RAND` (R259). -/
def randWord (k c : Nat) : Nat :=
  let z0 := (c + k * 0x9E3779B97F4A7C15) % 2 ^ 64
  let z1 := (z0 ^^^ (z0 / 2 ^ 30)) * 0xBF58476D1CE4E5B9 % 2 ^ 64
  let z2 := (z1 ^^^ (z1 / 2 ^ 27)) * 0x94D049BB133111EB % 2 ^ 64
  z2 ^^^ (z2 / 2 ^ 31)

end Sys2Proof.Machine
end

