-- ==== Sys2Proof/Machine/Formats.lean ====
section
/-! DEFINITION. Operand formats of chapter 02: selector-encoded groups (R71 to R79), aligned groups (R80 to R82), group words and S20
scales (R83 to R86), the accumulator element (R89 to R93), and the conversions of the copy path (R94 to R96). -/

namespace Sys2Proof.Machine

/-! ### Selector-encoded groups -/

/-- A level table (R77): `2^w` signed levels and the grid exponent G. -/
structure LevelTable where
  levels : List Int
  g      : Int
  deriving DecidableEq, Repr

/-- The expanded plane count P(w) (R68). -/
def expandedPlanes (w : Nat) : Nat := if w = 4 then 5 else if w = 6 then 10 else 12

/-- Selectors reserved at a width (R75). -/
def selReserved (sel w : Nat) : Bool := (sel == 2 && w == 4) || (sel == 3 && w == 8)

/-- Lattice integer, residue and grid exponent of a code (R72); `tab` is the level table its selector names, if any. -/
def lattice (tab : Option LevelTable) (c s w : Nat) : Int × Nat × Int :=
  let neg := bitAt c (w - 1)
  let signed := fun (m : Nat) => if neg then -(m : Int) else (m : Int)
  match s with
  | 0 => (sgn c w, 0, 0)
  | 1 | 2 =>
    let mb := w - 1 - (s + 1)
    let e := bits c mb (s + 1)
    let m := bits c 0 mb
    (signed (if e = 0 then m else (2 ^ mb + m) * 2 ^ (e - 1)), 0, mb)
  | 3 =>
    let k := bits c 0 (w - 1)
    if k = 0 then (0, 0, 0) else (signed (2 ^ ((k - 1) / 4)), (k - 1) % 4, 0)
  | _ => match tab with
    | some t => (t.levels.getD c 0, 0, t.g)
    | none => (0, 0, 0)

/-- The residue constants C_r in 1.63 fixed point (R91). -/
def residueConst : Nat → Nat
  | 0 => 0x8000000000000000
  | 1 => 0x9837F0518DB8A96F
  | 2 => 0xB504F333F9DE6484
  | _ => 0xD744FCCAD69D6AF4

/-- Check of a level-table image (R78): the failing offset of the first check that fails, or the table. -/
def parseLevels (w : Nat) (img : List Nat) : Nat ⊕ LevelTable :=
  let lim : Int := 2 ^ (expandedPlanes w - 1)
  let lv := (List.range (2 ^ w)).map fun c => sgn (img.getD (2 * c) 0 + img.getD (2 * c + 1) 0 * 256) 16
  match (List.range (2 ^ w)).find? fun c => let l := lv.getD c 0; !(-lim ≤ l && l < lim) with
  | some c => .inl (2 * c)
  | none =>
    match ((List.range 7).map (2 ^ (w + 1) + 1 + ·)).find? fun o => img.getD o 0 != 0 with
    | some o => .inl o
    | none =>
      if lv.any (0 < ·) && lv.any (· < 0) then .inr ⟨lv, sgn (img.getD (2 ^ (w + 1)) 0) 8⟩
      else .inl (2 ^ (w + 1) + 8)

/-- Bytes of a level-table image (R78). -/
def levelImageLen (w : Nat) : Nat := 2 ^ (w + 1) + 8

/-! ### Group words and scales -/

/-- Kind of the tensor a group word belongs to. -/
inductive GKind where
  | sb (w : Nat)
  | ab (n : Nat)
  deriving DecidableEq, Repr

/-- Width of Eg (R80). -/
def egBits (n : Nat) : Nat := if n = 64 then 11 else 8

/-- SCALE, SEL, SEQ of a group word (R83). -/
def gwScale (g : Nat) : Nat := bits g 0 20
def gwSel (g : Nat) : Nat := bits g 20 3
def gwSeq (g : Nat) : Nat := bits g 24 6

/-- A group word as every producer writes it (R83): even parity in `<23:0>`, SEQ the group index modulo 64. -/
def mkGroupWord (idx sel scale : Nat) : Nat :=
  let body := sel % 8 * 2 ^ 20 + scale % 2 ^ 20
  idx % 64 * 2 ^ 24 + popCount 23 body % 2 * 2 ^ 23 + body

/-- The checks of a consumer (R84): the cause code of the first that fails. `loaded` tells whether level table `t` is loaded. -/
def groupWordFault (k : GKind) (loaded : Nat → Bool) (idx g : Nat) : Option Nat :=
  if popCount 24 g % 2 = 1 then some 0x40
  else if bits g 30 2 ≠ 0 then some 0x42
  else match k with
    | .ab n =>
      if gwSel g ≠ 0 ∨ gwScale g / 2 ^ egBits n ≠ 0 then some 0x42
      else if gwSeq g ≠ idx % 64 then some 0x41 else none
    | .sb w =>
      if gwSeq g ≠ idx % 64 then some 0x41
      else if selReserved (gwSel g) w then some 0x43
      else if 4 ≤ gwSel g ∧ !loaded (gwSel g - 4) then some 0x44 else none

/-- An S20 scale (R85): `none` is the NaN scale; else the significand and the exponent used, value M · 2^(exp − 127 − 12). -/
def s20 (x : Nat) : Option (Nat × Nat) :=
  let e := bits x 12 8
  let f := bits x 0 12
  if e = 255 then none else if e = 0 then some (f, 1) else some (4096 + f, e)

/-! ### Aligned groups -/

/-- Bias of Eg (R80). -/
def abBias (n : Nat) : Nat := if n = 64 then 1023 else 127
/-- The Eg of a NaN group (R80). -/
def abNan (n : Nat) : Nat := if n = 64 then 2047 else 255

/-- Value of an element of an aligned group (R80). -/
def abValue (n eg a : Nat) : FVal :=
  if eg = abNan n then .nan false false
  else .fin (sgn a n < 0) (sgn a n).natAbs ((eg : Int) - abBias n - (n - 2 : Nat))

/-- ExpField of R82: of a value in FP32 (AB16, AB32) or FP64 (AB64); a subnormal counts 1, a zero 0. -/
def expField (n : Nat) (x : FVal) : Nat :=
  match x with
  | .fin _ m e => if m = 0 then 0 else max 1 (e + bitLen m - 1 + abBias n : Int).toNat
  | _ => 0

/-- One element of a group at a shared exponent (R82). -/
def abElem (n eg : Nat) (x : FVal) : Int :=
  match x with
  | .fin neg m e =>
    let k := (roundInt .rne neg m (e + (n - 2 : Nat) - (eg - abBias n : Int))).1
    if neg then -(k : Int) else k
  | _ => 0

/-- AbConvert of R82: Eg and the elements, as n-bit codes. -/
def abConvert (n : Nat) (xs : List FVal) : Nat × List Nat :=
  if xs.any (fun x => x.isNan || x.isInf) then (abNan n, xs.map fun _ => 0)
  else
    let eg := xs.foldl (fun e x => max e (expField n x)) 0
    let as := xs.map (abElem n eg)
    if as.any (· = 2 ^ (n - 1)) then
      if eg + 1 < abNan n then (eg + 1, xs.map fun x => wrap (abElem n (eg + 1) x) n)
      else (eg, as.map fun a => if a = 2 ^ (n - 1) then 2 ^ (n - 1) - 1 else wrap a n)
    else (eg, as.map fun a => wrap a n)

/-! ### Conversions of the copy path -/

/-- Element formats of the copy path: words (R63, R64), INTn planes (R69), ABn groups (R80), SBw codes (R71). -/
inductive EFmt where
  | fp (f : FFmt)
  | int (i : IFmt)
  | plane (n : Nat)
  | ab (n : Nat)
  | sb (w : Nat)
  deriving DecidableEq, Repr

/-- Width in bits of one element. -/
def EFmt.bits : EFmt → Nat
  | .fp f => (fmtOf f).width
  | .int i => i.width.bits
  | .plane n => n
  | .ab n => n
  | .sb w => w

/-- Whether the format is an integer one (R96). -/
def EFmt.isInt : EFmt → Bool
  | .int _ => true
  | .plane _ => true
  | _ => false

/-- Value(x) of R96; `eg` is the Eg of the element's group where there is one. -/
def EFmt.value (f : EFmt) (eg x : Nat) : FVal :=
  match f with
  | .fp g => (fmtOf g).decode x
  | .int i => .fin (ifmtValue i x < 0) (ifmtValue i x).natAbs 0
  | .plane n => .fin (sgn x n < 0) (sgn x n).natAbs 0
  | .ab n => abValue n eg x
  | .sb w => .fin (sgn x w < 0) (sgn x w).natAbs 0

/-- A converted element with what the channel counts (R95): saturated, was a NaN. -/
structure Converted where
  code : Nat
  sat  : Bool := false
  nan  : Bool := false
  deriving DecidableEq, Repr

/-- The second branch of R96: pairs that round once. -/
def roundsOnce (src dst : EFmt) : Bool :=
  match src, dst with
  | .fp .f64, .fp .f64 | .fp .f64, .ab 64 | .ab 64, .fp .f64 => true
  | .int ⟨_, .w64⟩, .fp .f64 | .fp .f64, .int ⟨_, .w64⟩ => true
  | _, .fp .f32 => true
  | _, _ => false

/-- A value rounded to FP32 in RNE (R96), still as a value. -/
def toF32 (v : FVal) : FVal :=
  match v with
  | .fin n m e => if m = 0 then v else (fmtOf .f32).decode ((fmtOf .f32).round .rne n m e).1
  | _ => v

/-- The value that reaches the last rounding of R96. -/
def convertStage (src dst : EFmt) (v : FVal) : FVal :=
  if (src.isInt && dst.isInt) || roundsOnce src dst then v else toF32 v

/-- Saturation to an integer range (R95): NaN converts to 0. -/
def convertInt (signed : Bool) (n : Nat) (mode : RMode) (v : FVal) : Converted :=
  let lo : Int := if signed then -2 ^ (n - 1) else 0
  let hi : Int := if signed then 2 ^ (n - 1) - 1 else 2 ^ n - 1
  match v with
  | .nan _ _ => { code := 0, nan := true }
  | .inf neg => { code := wrap (if neg then lo else hi) n, sat := true }
  | .fin neg m e =>
    let k : Int := (roundInt mode neg m e).1
    let x := if neg then -k else k
    { code := wrap (clampInt x lo hi) n, sat := decide (x < lo ∨ hi < x) }

/-- The last rounding of R96 for a destination that is not an aligned group. -/
def convertLast (dst : EFmt) (mode : RMode) (v : FVal) : Converted :=
  match dst with
  | .fp f =>
    match v with
    | .nan _ _ => { code := (fmtOf f).nan, nan := true }
    | .inf n => { code := (fmtOf f).signBit n + (fmtOf f).infBits }
    | .fin n m e =>
      if m = 0 then { code := (fmtOf f).signBit n } else { code := ((fmtOf f).round mode n m e).1 }
  | .int i => convertInt i.signed i.width.bits mode v
  | .plane n => convertInt true n mode v
  | .ab n => convertInt true n mode v
  | .sb w => convertInt true w mode v

/-- CopyConvert of R96 for one element. -/
def copyConvert (src dst : EFmt) (mode : RMode) (eg x : Nat) : Converted :=
  convertLast dst mode (convertStage src dst (src.value eg x))

/-! ### The accumulator element -/

/-- An A80 element (R89): significand, exponent, and the saturation flag. `nan` stands for the exponent 0x8000. -/
structure A80 where
  nan : Bool := false
  s   : Int := 0
  e   : Int := 0
  sat : Bool := false
  deriving DecidableEq, Repr

/-- The canonical zero (R89). -/
def A80.zero : A80 := {}

/-- The 128-bit image of an element (R93): the device writes S = 0 in a NaN. -/
def A80.image (x : A80) : Nat :=
  (if x.nan then 0x8000 * 2 ^ 64 else wrap x.s 64 + wrap x.e 16 * 2 ^ 64) + b2n x.sat * 2 ^ 80

/-- An element read from its image (R93); `none` when a reserved bit is set. -/
def A80.ofImage (x : Nat) : Option A80 :=
  if x / 2 ^ 81 % 2 ^ 47 ≠ 0 then none
  else if bits x 64 16 = 0x8000 then some { nan := true, sat := bitAt x 80 }
  else some { s := sgn (bits x 0 64) 64, e := sgn (bits x 64 16) 16, sat := bitAt x 80 }

end Sys2Proof.Machine
end

