-- ==== Sys2Proof/Machine/Records.lean ====
section
/-! DEFINITION. The record types of which the machine's state is made: tokens, frames, instances, configurations, engine commands,
slots, partitions, cores. Plain data only: every collection is a list, every key a natural number. -/

namespace Sys2Proof.Machine

/-! ### Tokens and faults -/

/-- A token inside a block (R107): null, or a payload with its taint bit. -/
inductive Tok where
  | null
  | val (v : Word) (taint : Bool)
  deriving DecidableEq, Repr

/-- A general register (R30, R112): value, taint bit, and how many return values it still awaits (0 or 1). -/
structure Reg where
  v     : Word := 0
  taint : Bool := false
  pend  : Bool := false
  deriving DecidableEq, Repr

/-- A token between instances (R118): its header word, its payload, the partition and core it goes to, the core it comes from, the
inbound link code of R372, and whether it uses a place reserved for it (R400). -/
structure Token where
  hdr     : Word
  payload : Word
  pid     : Nat := 0
  dst     : Nat := 0
  src     : Nat := 0
  link    : Nat := 0
  resv    : Bool := false
  deriving DecidableEq, Repr

/-- What a fault record says beside LIN and SEQ (R419). -/
structure FaultRec where
  cause : Nat
  sub   : Nat := 0
  eng   : Bool := false
  src   : Nat := 0
  index : Nat := 0
  tl    : Nat := 0
  handle : Nat := 0
  block : Nat := 0
  addr  : Nat := 0
  num   : Nat := 0
  chunk : Nat := 0
  info0 : Nat := 0
  info1 : Nat := 0
  chan  : Nat := 0
  tag   : Nat := 0
  taint : Bool := false
  deriving DecidableEq, Repr

/-- A fault that an access or a check meets, before it becomes a record: cause, SUB, ADDR, INFO0, INFO1 (R61, R420). -/
structure AFault where
  cause : Nat
  sub   : Nat := 0
  addr  : Nat := 0
  info0 : Nat := 0
  info1 : Nat := 0
  deriving DecidableEq, Repr

/-! ### Memory -/

/-- Memory: the listed bytes by location in rising order (no listed byte equals what an unlisted one reads as, 0), the tainted and the
poisoned 64-byte lines, and the key mark (`KeySlot.mark`) under which a line of DRAM, of another package or of host memory was last
written where it is not plaintext (R452); `wrote` lists the writes of the step at hand (R287). -/
structure Mem where
  cells  : List Host.Cell := []
  taint  : List Nat := []
  poison : List Nat := []
  keyed  : List (Nat × Nat) := []
  wrote  : List (Nat × Nat) := []
  deriving DecidableEq, Repr

/-- What kind of memory a place is in. -/
inductive Home where
  | window | dram | remote | host
  deriving DecidableEq, Repr

/-- Where an access goes: its location, the kind of memory, the key mark of its line and the key slot that gave it (0 for plaintext, R54),
whether a load cache may hold it, the tier a tier-managed page was found at. -/
structure Place where
  loc   : Nat
  home  : Home := .window
  key   : Nat := 0
  kid   : Nat := 0
  cacheable : Bool := false
  tier  : Option Nat := none
  deriving DecidableEq, Repr

/-! ### Block execution -/

/-- The slots of one instruction in a block execution (R104, R106): the first token of each with the cycle in which it arrives (R108), and
whether the instruction has fired. -/
structure Cell where
  a : Option Tok := none
  b : Option Tok := none
  c : Option Tok := none
  p : Option Tok := none
  ca : Nat := 0
  cb : Nat := 0
  cc : Nat := 0
  cp : Nat := 0
  fired : Bool := false
  deriving DecidableEq, Repr

/-- A load that has fired and not yet been performed (R111, R192). -/
structure Load where
  idx   : Nat
  lsid  : Nat
  ea    : Nat
  taint : Bool
  deriving DecidableEq, Repr

/-- A held wait (class W, R116): its instruction and the token it sends when released. -/
structure Wait where
  idx   : Nat
  n     : Word
  taint : Bool
  deriving DecidableEq, Repr

/-- A commit-class instruction that has fired with its operands (R109, R110); `null` when a data token was null, so that it performs
nothing (R107). `place` is where the check at commit found that its store or atomic goes (R193, notes/assumptions 96). -/
structure Act where
  lsid  : Nat
  idx   : Nat
  ops   : List Tok := []
  ptaint : Bool := false
  null  : Bool := false
  place : Option Place := none
  deriving DecidableEq, Repr

/-- The branch a block has taken (R109, R385): its instruction, the next block, and the taint of its operand. -/
structure Branch where
  idx    : Nat
  target : Word := 0
  op     : Tok := .null
  op2    : Tok := .null
  taint  : Bool := false
  deriving DecidableEq, Repr

/-- One block execution (R104 to R114): the decoded copy it runs, its tokens, and what it has recorded for commit. `seen` keeps what its
loads read from memory: store ID, location and bytes (R186). `now` counts the cycles of its issue, `last` is the cycle of the last firing,
and what is being sent arrives in cycle `arrival` (R108); `clash` lists the tokens that will reach a filled slot: cycle and receiver (R106);
`div` is the cycle from which the divider is free (R226, R260). -/
structure Frame where
  addr     : Nat
  hdr      : Nat
  words    : List Nat
  cells    : List Cell
  loads    : List Load := []
  waits    : List Wait := []
  writes   : List (Nat × Tok) := []
  resolved : List Nat := []
  acts     : List Act := []
  branch   : Option Branch := none
  flags    : FFlags := {}
  fpTaint  : Bool := false
  marks    : List Nat := []
  seen     : List (Nat × Nat × List Byte) := []
  now      : Nat := 0
  last     : Nat := 0
  arrival  : Nat := 0
  clash    : List (Nat × Nat) := []
  div      : Nat := 0
  deriving DecidableEq, Repr

/-- States of an instance (R402, R422). A committing instance has its remaining commit-class actions still to perform. -/
inductive IState where
  | ready
  | running
  | complete
  | committing
  | suspended
  | ended
  deriving DecidableEq, Repr

/-- Why an instance's next block may not yet begin: an operation of its last block is still under way (R202, R379, R425). -/
inductive Hold where
  | fence
  | op (n : Nat)
  deriving DecidableEq, Repr

/-- An iteration whose creation is deferred (R377). -/
structure Deferred where
  args  : List Tok
  atCommit : Bool
  deriving DecidableEq, Repr

/-- An instance (R374): what woke it, its registers, and where it stands. -/
structure Inst where
  iid   : Nat
  core  : Nat
  pid   : Nat
  lid   : Nat := 0
  chan  : Nat := 0
  tag   : Nat := 0
  plane : Nat := 0
  args  : List Tok := []
  regs  : Vector Reg 32 := Vector.replicate 32 {}
  fpc   : Fpc := {}
  slice : Nat := 1
  block : Nat := 0
  entry : Nat := 0
  cls   : Nat := 0
  aging : Bool := false
  age   : Nat := 0
  steps : Nat := 0
  recalled : Bool := false
  state : IState := .ready
  frame : Option Frame := none
  creator : Option Nat := none
  deferred : List Deferred := []
  held  : Option FaultRec := none
  handle : Nat := 0
  holds : List Hold := []
  brkOff : Bool := false
  wasBrk : Bool := false
  recPlace : Option Nat := none
  deriving DecidableEq, Repr

/-! ### Configuration -/

/-- A channel entry (R365). -/
structure Handler where
  chan   : Nat
  entry  : Nat
  accept : Nat
  slice  : Nat
  prio   : Nat
  age    : Bool
  um     : Bool
  arity  : Nat
  deriving DecidableEq, Repr

/-- One configuration plane (R369): handlers, routes (words of R366, relocated), port bindings (words of R367). -/
structure CfgPlane where
  handlers : List Handler := []
  routes   : List Nat := []
  ports    : List (List Nat) := []
  deriving DecidableEq, Repr

/-- State of a configuration switch on a core (R371). -/
inductive Switch where
  | active | draining | switching
  deriving DecidableEq, Repr

/-- ARR, CONS and the posts of a channel (R394); a post is its instance, its instruction and its count. -/
structure ChanCount where
  chan  : Nat
  arr   : Nat := 0
  cons  : Nat := 0
  posts : List (Nat × Nat × Nat) := []
  deriving DecidableEq, Repr

/-- The configuration of a slot on a core: planes, active plane number, armed flag, switch state, EOS and channel counters. -/
structure CfgSt where
  p0     : CfgPlane := {}
  p1     : CfgPlane := {}
  act    : Nat := 0
  armed  : Bool := false
  sw     : Switch := .active
  eos    : List (Nat × Nat) := []
  chans  : List ChanCount := []
  deriving DecidableEq, Repr

/-- A matching entry (R373): the tokens of each operand slot, oldest first, and whether a slot held two at once. -/
structure Entry where
  chan  : Nat
  tag   : Nat
  plane : Nat
  slots : List (List (Word × Bool)) := [[], [], [], []]
  twice : Bool := false
  done  : Option Nat := none
  deriving DecidableEq, Repr

/-- Matching store of a slot (R400): entries in order of creation, tokens held for the shadow plane, places reserved for DONE tokens,
index tokens that wait for a gather, and the number the next entry to become complete will get. -/
structure Matching where
  entries  : List Entry := []
  held     : List Token := []
  reserved : Nat := 0
  index    : List Token := []
  nextDone : Nat := 0
  deriving DecidableEq, Repr

/-! ### Engine commands -/

/-- The engine commands and configuration commands. -/
inductive CmdOp where
  | cpy | cpypl | cpyun | gath | scat
  | mma | mmal | accz | accld
  | accst | qst | lvlld
  | ttload | tfetch | tevict
  | ainit | agate | aswap | ameas | afree
  | coll | cred | crange
  | cfgld | cfgsw | pswap
  deriving DecidableEq, Repr

/-- Who issued a command: what its DONE token and its fault record name (R160, R419), and the rectangle its addresses are taken in. -/
structure Issuer where
  iid   : Nat := 0
  core  : Nat := 0
  pid   : Nat := 0
  lid   : Nat := 0
  chan  : Nat := 0
  tag   : Nat := 0
  block : Nat := 0
  index : Nat := 0
  none  : Bool := false
  deriving DecidableEq, Repr

/-! ### What the plane engine holds of a chunk -/

/-- What a group contributes beside its elements (R268): NaN, zero, or a significand M and an exponent X, with its selector and table. -/
structure GInfo where
  isNan  : Bool := false
  zero : Bool := false
  m    : Nat := 1
  x    : Int := 0
  sel  : Nat := 0
  tab  : Option LevelTable := none
  deriving DecidableEq, Repr

/-- Everything a chunk needs: the codes of both sides, the groups by K index then row, the taint. -/
structure ChunkData where
  rowsA : List (List Nat) := []
  rowsB : List (List Nat) := []
  grpA  : List (List GInfo) := []
  grpB  : List (List GInfo) := []
  taint : Bool := false
  deriving DecidableEq, Repr

/-- A beat of a multicast (R172, R463): the first unit it belongs to, how many units end with it, and its bytes by address with their taint. -/
structure Beat where
  unit   : Nat
  ends   : Nat
  writes : List (Nat × List Byte × Bool)
  deriving DecidableEq, Repr

/-- A command of an engine queue: its operands, the descriptor words read at acceptance, how far it has come, and the failure it is
halted by, if any. `err` is a failure met at acceptance, raised when the command's turn comes; `done`
tells that a collective command is over and waits for those before it. `pos` counts the units, chunks, rows or
segments done; `parts` the progress of its branches or column groups; `buf` the beats a multicast has sent and not written everywhere,
`todo` those it has read and not sent, `bpos` how many of `buf` each branch has written; `counted` the units whose elements SATC and NANC
have counted; `cover` the destination lines a copy has begun to write, with the bytes written and the taint that feeds them (R164). Of a
plane command `extra` is each column group's next chunk, `parts` the steps it has made in that chunk, `held` the chunks read and not added
(R276, R282). -/
structure Cmd where
  op    : CmdOp
  num   : Nat := 0
  sel   : Nat := 0
  flag  : Bool := false
  port  : Nat := 0
  a     : Word := 0
  b     : Word := 0
  c     : Word := 0
  taint : Bool := false
  dn    : Bool := false
  dch   : Nat := 0
  who   : Issuer := {}
  desc  : List Nat := []
  desc2 : List Nat := []
  len   : Nat := 0
  w0    : Nat := 0
  started : Bool := false
  pos   : Nat := 0
  parts : List Nat := []
  extra : List Nat := []
  buf   : List Beat := []
  todo  : List Beat := []
  bpos  : List Nat := []
  counted : Nat := 0
  held  : List (Nat × ChunkData) := []
  cover : List (Nat × Nat × Bool) := []
  err   : Option AFault := none
  done  : Bool := false
  fail  : Option FaultRec := none
  onlyAbandon : Bool := false
  deriving DecidableEq, Repr

/-- The queue of one engine context (R210): its commands, the oldest first, whether it is halted, and the numbers given. -/
structure EngineQ where
  cmds   : List Cmd := []
  halted : Bool := false
  given  : Nat := 0
  deriving DecidableEq, Repr

/-- A copy channel's own state (R156, R160, R170): WP, the end value of its last command, SATC and NANC. -/
structure CopyCh where
  wp    : Nat := 0
  wend  : Nat := 0
  satc  : Nat := 0
  nanc  : Nat := 0
  deriving DecidableEq, Repr

/-- A tile of the accumulator (R90, R263): its mode, scales, taint and elements (four lanes in residue mode), and its poisoned 64-byte lines
by number, 160 to a tile slot (R90, R444). -/
structure Tile where
  idx    : Nat
  mode   : Nat := 0
  scale  : Option Nat := none
  taint  : Bool := false
  elems  : List A80 := []
  poison : List Nat := []
  deriving DecidableEq, Repr

/-- A live amplitude state of a core (R315): precision (0 FP64, 1 FP32), local, tower and package bits, base address, this package's index
in its box, the physical bit of each qubit, the commands issued on it (R325), its taint (R328). -/
structure AmpSt where
  sid    : Nat
  prec   : Nat := 0
  loc    : Nat := 0
  tb     : Nat := 0
  pb     : Nat := 0
  base   : Nat := 0
  box    : Nat := 0
  map    : List Nat := []
  count  : Nat := 0
  taint  : Bool := false
  deriving DecidableEq, Repr

/-- Records of a slot (R418, R419): next record number, places still allocated with their records' numbers, records that wait, next
handle. -/
structure Recs where
  next   : Nat := 0
  used   : List (Nat × Nat) := []
  wait   : List (Nat × FaultRec) := []
  handle : Nat := 1
  deriving DecidableEq, Repr

/-- States of a slot under pre-emption (R438). -/
inductive PState where
  | run | mark | drain | save | out | restore
  deriving DecidableEq, Repr

/-- An item of the outbound token queue (R401): the tokens of one sending instruction that still await credits. -/
structure OutItem where
  tokens : List Token
  deriving DecidableEq, Repr

/-- A partition's slot on one core: everything the partition image holds (R396, R440). `marks` are the sides by which pre-emption markers
have come (R438); `image` tells where its image lies while it is out (R442): 1 the shadow store, 2 the save area; `waited` the counters whose
waits have occurred since they were last read (R411). -/
structure Slot where
  core   : Nat
  pid    : Nat
  cfg    : CfgSt := {}
  mat    : Matching := {}
  ctx    : List Nat := []
  bounds : List (Nat × Nat) := []
  tls    : Vector Word 16 := Vector.replicate 16 0
  engs   : Vector EngineQ 10 := Vector.replicate 10 {}
  cps    : Vector CopyCh 4 := Vector.replicate 4 {}
  bitmap : List Nat := []
  tiles  : List Tile := []
  tables : List (Nat × LevelTable) := []
  tabTaint : List Nat := []
  amps   : List AmpSt := []
  recs   : Recs := {}
  outq   : List OutItem := []
  counts : List (Nat × Nat) := []
  pstate : PState := .run
  marks  : List Nat := []
  stop   : Option Nat := none
  nextAge : Nat := 0
  image  : Nat := 0
  waited : List Nat := []
  deriving DecidableEq, Repr

/-! ### Partitions, cores, the package -/

/-- What owns an entry of the range table (R216): a launch's residency map, a collective of a core by its number (0 while the `COLL` that
is to own it has yet to be accepted, R353), an amplitude state of a core. -/
inductive RangeOwner where
  | map (lid : Nat)
  | coll (core num : Nat)
  | amp (core sid : Nat)
  deriving DecidableEq, Repr

/-- A range-table entry (R216): its number, its owner, and the physical ranges it covers. -/
structure RangeEntry where
  num   : Nat
  owner : RangeOwner
  va    : Nat := 0
  len   : Nat := 0
  spans : List (Nat × Nat) := []
  deriving DecidableEq, Repr

/-- A region of a timetable (R139). -/
structure Region where
  vbase : Nat
  home  : Nat
  npg   : Nat
  t0str : Nat
  t0off : Nat
  t2off : Nat
  t2twr : Nat
  t1off : Nat
  deriving DecidableEq, Repr

/-- A timetable entry (R144) and where it stands: 0 not started, 1 in flight, 2 complete, 3 failed. -/
structure TtEntry where
  region : Nat
  src    : Nat
  dst    : Nat
  action : Nat
  marker : Nat
  length : Nat
  offset : Nat
  stage  : Nat := 0
  deriving DecidableEq, Repr

/-- An attached timetable (R147, R151). `before` keeps, for each entry (first number 0) and command (its core + 1) in flight, the state
bytes of its pages as they were before it started (R146). -/
structure Timetable where
  regions : List Region
  entries : List TtEntry
  mapBase : Nat
  la      : Nat
  before  : List (Nat × Nat × List Nat) := []
  deriving DecidableEq, Repr

/-- A launch (R381, R382). -/
structure Launch where
  lid    : Nat
  ox     : Nat
  oy     : Nat
  lw     : Nat
  lh     : Nat
  ordered : Bool := false
  cores  : Bool := false
  trap   : Bool := false
  ninst  : Nat := 0
  resSlice : Nat := 0
  nt     : Bool := false
  nch    : Nat := 0
  who    : Issuer := {}
  host   : Option Nat := none
  m      : Nat := 0
  tt     : Option Timetable := none
  misses : Nat := 0
  ending : Bool := false
  deriving DecidableEq, Repr

/-- An operation of the system chapter still under way (R425, R429, R435 to R437, R379, R441). -/
inductive PendKind where
  | swr (reg : Nat) (v : Word) (taint : Bool)
  | tlbi (kind : Nat) (va asid : Nat)
  | cinv (kind : Nat) (addr : Nat)
  | key (id : Nat) (content : Option Nat)
  | squash (orig ctx iter : Nat)
  | pswap (out inn : Option Nat) (dn : Bool) (dch : Nat)
  deriving DecidableEq, Repr

/-- A pending operation with its number and its issuer. -/
structure Pend where
  n    : Nat
  kind : PendKind
  who  : Issuer := {}
  deriving DecidableEq, Repr

/-- A communicator (R346): number, owner core, how many collectives it has carried. -/
structure Comm where
  id    : Nat
  owner : Nat
  count : Nat := 0
  deriving DecidableEq, Repr

/-- A partition (R362, R432): what its creation gave it, its registers by number with their taint bits, and what it has under way. -/
structure Part where
  pid    : Nat
  part   : Nat := 0
  slot   : Nat := 0
  ox     : Nat := 0
  oy     : Nat := 0
  w      : Nat := 1
  h      : Nat := 1
  mgr    : Bool := false
  wrapKey : Nat := 0
  regs   : List (Nat × Word) := []
  rtaint : List Nat := []
  ranges : List RangeEntry := []
  launches : List Launch := []
  nextLid : Nat := 0
  cfgq   : List Cmd := []
  pends  : List Pend := []
  nextPend : Nat := 0
  comms  : List Comm := []
  meas   : List (Nat × Nat) := []
  deriving DecidableEq, Repr

/-- A line of a core's load cache (R41): its physical line number (128 bytes), its bytes, the taints of its two halves, the key mark it was
read under, and the instances that it may not serve because they have acquired since (R208). -/
structure CacheLine where
  line  : Nat
  bytes : List Byte
  taint : List Bool
  key   : Nat := 0
  stale : List Nat := []
  deriving DecidableEq, Repr

/-- A mapped block (R99). -/
structure Mapped where
  pid   : Nat
  addr  : Nat
  hdr   : Nat
  words : List Nat
  deriving DecidableEq, Repr

/-- A waiting or running inbound stream at sp7 (R462): the copy command that sends it. -/
structure Inbound where
  core : Nat
  pid  : Nat
  cp   : Nat
  num  : Nat
  deriving DecidableEq, Repr

/-- A core: its clock count, load cache, block map cache, the copy commands that wait at each port (port, partition, channel, number), the
port bindings that wait for an entry, its inbound streams, its heat buckets with A and P, the column groups that stall on an empty bucket
(R278), the slot that each column group and the drain served last (R279, R294), checksum mismatches to come, corrected errors,
whether it is to be retired, and the spare that its slots are moving to (R443). -/
structure Core where
  id     : Nat
  phys   : Nat := 0
  cycle  : Nat := 0
  lcache : List CacheLine := []
  blocks : List Mapped := []
  portq  : List (Nat × Nat × Nat × Nat) := []
  binds  : List (Nat × Cmd) := []
  sp7    : List Inbound := []
  sp7run : Option Inbound := none
  heat   : List Nat := [64, 64, 64, 64]
  refill : Nat := 64
  period : Nat := 64
  stalled : List Nat := []
  peLast : List Nat := [3, 3, 3, 3]
  drLast : Nat := 3
  mism   : List Nat := []
  errs   : Nat := 0
  retire : Bool := false
  spare  : Option Nat := none
  deriving DecidableEq, Repr

/-- A tower: corrected errors of its DRAM, link retries (R434), and the spare cores in use by their physical numbers (R448). -/
structure Tower where
  id      : Nat
  dramErrs : Nat := 0
  retries : Nat := 0
  spares  : List Nat := []
  deriving DecidableEq, Repr

/-- Where a translation is cached (R57): the micro-TLB of a core, the TLB of a cluster, the walk cache of a tower. -/
inductive TlbLevel where
  | micro (core : Nat)
  | cluster (id : Nat)
  | walk (tower : Nat)
  deriving DecidableEq, Repr

/-- A cached translation (R57): where it is cached, partition, address space (absent when global), page base and size, the entry and where
it lies. In a walk cache the entry is a level-3 or level-2 pointer, and the base and size are those of the range below it. -/
structure Tlb where
  level : TlbLevel
  pid   : Nat
  asid  : Option Nat
  base  : Nat
  size  : Nat
  entry : Nat
  at_   : Nat
  deriving DecidableEq, Repr

/-- A queued `.sc` atomic (R215): its ordering point, what it does, and the place that its check found. -/
structure ScOp where
  point : Nat
  iid   : Nat
  idx   : Nat
  word  : Nat
  ops   : List Tok
  taint : Bool
  loc   : Nat
  place : Option Place := none
  deriving DecidableEq, Repr

/-- A return value on its way to its register (R112). -/
structure PendVal where
  iid   : Nat
  reg   : Nat
  v     : Word
  taint : Bool
  deriving DecidableEq, Repr

/-- A loaded key slot (R437, R452): its number, and the data key and tweak key as one number of 512 bits. -/
structure KeySlot where
  id      : Nat
  content : Nat
  deriving DecidableEq, Repr

/-- A frame of a `CRED` that the transport has sent again, or of another package (R351, R352): its partition, filter key, operation, width,
value, taint, its location, and the key it is under: the slot that must hold it (R453), or another package's key mark. -/
structure CredOp where
  pid   : Nat
  key   : List Nat
  fn    : Nat
  wide  : Bool
  v     : Word
  taint : Bool
  loc   : Nat
  mkey  : Nat
  kid   : Nat := 0
  deriving DecidableEq, Repr

/-- What another package contributes to a command that spans packages (R325, R346): the key that pairs it with a command here, whether its
command failed there, the words that paired commands must agree in, its data, and the taint of each (R340, R348), false where not listed. -/
structure Contrib where
  key   : List Nat
  failed : Bool := false
  agree : List Nat := []
  words : List Nat := []
  taints : List Bool := []
  deriving DecidableEq, Repr

end Sys2Proof.Machine
end

