-- ==== Sys2Proof/Machine/State.lean ====
section
/-! DEFINITION. State of the GRM-B1A package as plain data, its reset, and the ways a step can stop.

`chip` is the part the device instructions act on; `sys` is what only the host, Ebgokai and the management controller touch. `focus`
names what the step at hand is about, `turn` the step that must come next if one is due, `oracle` and `freeCtr` settle choices the
manual leaves open, and `inputs` holds what the outside world will still do (notes/assumptions 2 and 6). -/

namespace Sys2Proof.Machine

/-- Phase of an instruction (notes/assumptions 8): it fires (R104), a fired load is performed (R192), a commit-class or branch action
is performed at commit (R110). -/
inductive Phase where
  | fire | perform | commit
  deriving DecidableEq, Repr

/-- What a step is about: a core and partition, an instance and instruction, a phase, and two numbers an event may need. -/
structure Focus where
  core  : Nat := 0
  pid   : Nat := 0
  iid   : Nat := 0
  idx   : Nat := 0
  phase : Phase := .fire
  n     : Nat := 0
  k     : Nat := 0
  deriving DecidableEq, Repr

/-- A step that may come next: the instruction at a focus, or an event of the opcode table. -/
inductive Sel where
  | word (f : Focus)
  | event (i : Instr) (f : Focus)
  deriving DecidableEq, Repr

/-- Where a soft error strikes (R444). -/
inductive SoftPlace where
  | sram (core loc : Nat) (fatal : Bool)
  | dram (loc : Nat) (fatal : Bool)
  | clean (core : Nat)
  | slot (core pid : Nat) (fatal : Bool)
  | acc (core pid tile line : Nat) (fatal : Bool)
  deriving DecidableEq, Repr

/-- What service 1 asks for (R449): region, slot, quota registers, QSCOPE, MGR, the key slots of KASSIGN, PART, wrap key. -/
structure NewPart where
  ox      : Nat
  oy      : Nat
  w       : Nat
  h       : Nat
  slot    : Nat
  quotas  : List (Nat × Word)
  qscope  : Nat
  mgr     : Bool
  keys    : List Nat
  part    : Nat
  wrapKey : Nat
  deriving DecidableEq, Repr

/-- A management request by its service (R449). The manual names the fields of each and gives their places in the 256 bytes of none, so a
request stands here by its fields (notes/assumptions 18). -/
inductive Request where
  | create (p : NewPart)
  | endPart (pid : Nat)
  | attest (pid nonce : Nat)
  | verify (pid addr : Nat)
  | extend (pid index digest : Nat)
  | firmware (addr : Nat)
  | sumac (tower pid mask : Nat) (enable : Bool)
  | events (count : Nat)
  | trace (tower pid count : Nat)
  | other (code : Nat)
  deriving DecidableEq, Repr

/-- An event-log entry (R447): code, physical and logical core, partition, CYCLE. -/
structure LogEntry where
  code : Nat
  phys : Nat := 0
  core : Nat := 0
  pid  : Nat := 0
  cyc  : Nat := 0
  deriving DecidableEq, Repr

/-- A management response (R449): PIDR, bytes of a report or certificate, entries of the log, words of Sumac entries. -/
inductive Response where
  | none
  | pidr (v : Nat)
  | bytes (l : List Nat)
  | log (l : List LogEntry)
  | trace (l : List (List Nat))
  deriving DecidableEq, Repr

/-- The AtomicOps that PCIe carries (R356): FetchAdd, Swap, CAS. -/
inductive HostOp where
  | fetchAdd | swap | cas
  deriving DecidableEq, Repr

/-- What the outside world does next (notes/assumptions 6). -/
inductive Input where
  | hostPacket (window : Nat) (words : List Word)
  | hostWord (window k : Nat) (v : Word)
  | hostClr (window : Nat)
  | hostAtomic (window k : Nat) (op : HostOp) (wide : Bool) (v w : Word)
  | hostWrite (addr : Nat) (bytes : List Byte)
  | place (loc : Nat) (bytes : List Byte)
  | mgmt (dx dy dz : Nat) (r : Request)
  | answer (code : Nat) (r : Response)
  | powerOn
  | frame (src core addr : Nat) (words : List Nat)
  | cred (ext : List Nat) (r : CredOp)
  | refused (f : Focus)
  | contrib (c : Contrib)
  | linkRetry (tower : Nat)
  | laneDegrade (port : Nat)
  | portFail (port : Nat)
  | unreach (f : Focus)
  | soft (p : SoftPlace)
  | mismatch (core group : Nat)
  | evictLine (core line : Nat)
  | evictBlock (core pid addr : Nat)
  | evictTlb (n : Nat)
  | thermal (core a p : Nat)
  | emergency (tower : Nat)
  | retire (core : Nat)
  | preempt (pid : Nat)
  | swapIn (pid : Nat)
  deriving DecidableEq, Repr

/-- A Sumac entry (R457): tower, recording core, CYCLE, event, partition, linear index, the two data words. -/
structure SumacEntry where
  tower : Nat
  core  : Nat := 0
  cyc   : Nat := 0
  ev    : Nat
  pid   : Nat
  lin   : Nat
  d2    : Nat := 0
  d3    : Nat := 0
  deriving DecidableEq, Repr

/-- The chip: partitions, slots, instances, cores, towers, memory, and what is in flight between them. `waiting` holds the tokens of other
packages that have no credit yet (R401). -/
structure Chip where
  parts   : List Part := []
  slots   : List Slot := []
  insts   : List Inst := []
  nextIid : Nat := 1
  cores   : List Core := []
  towers  : List Tower := []
  mem     : Mem := {}
  free    : Nat := 0
  l2first : List Nat := []
  tlb     : List Tlb := []
  scq     : List ScOp := []
  scAt    : Nat := 0
  flights : List Token := []
  waiting : List Token := []
  vals    : List PendVal := []
  creds   : List CredOp := []
  credSeen : List (List Nat) := []
  contribs : List Contrib := []
  keys    : List KeySlot := []
  tx      : Nat := 0
  ty      : Nat := 0
  tz      : Nat := 0
  ex      : Nat := 32
  ey      : Nat := 32
  ez      : Nat := 16
  lanes   : List Nat := [8, 8, 8, 8, 8, 8, 8, 8, 8, 8, 8, 8]
  logq    : List LogEntry := []
  sumacq  : List SumacEntry := []
  deriving DecidableEq, Repr

/-- A command window (R357): owner, PKT bytes by words, packets waiting, OVF, HSEQ and RESULT. -/
structure Window where
  id     : Nat
  pid    : Option Nat := none
  pkt    : List Word := []
  wait   : List (List Word) := []
  ovf    : Bool := false
  hseq   : Nat := 0
  result : Word := 0
  deriving DecidableEq, Repr

/-- The management window (R449): the request at hand, STATUS's busy, `<62>` and result code, the response, and the outcome of a service
that is over and has still to appear. -/
structure Mgmt where
  request  : Option Request := none
  busy     : Bool := false
  lost     : Bool := false
  result   : Nat := 0
  response : Response := .none
  outcome  : Option (Nat × Response) := none
  deriving DecidableEq, Repr

/-- A tower's Sumac buffer (R457). -/
structure Sumac where
  tower   : Nat
  entries : List SumacEntry := []
  lost    : Nat := 0
  masks   : List (Nat × Nat) := []
  deriving DecidableEq, Repr

/-- What the host, Ebgokai and the management controller hold: bring-up stages done, measurements (R450), the firmware version that runs, the
rollback counter, the firmware image an update has installed, the event log and the Sumac buffers. -/
structure Sys where
  stage   : Nat := 0
  powered : Bool := false
  failed  : Bool := false
  windows : List Window := []
  mgmt    : Mgmt := {}
  meas    : List (Nat × Nat) := []
  version : Nat := 0
  fuse    : Nat := 0
  update  : Option (List Nat) := none
  log     : List LogEntry := []
  logLost : Nat := 0
  sumac   : List Sumac := []
  deriving DecidableEq, Repr

/-- The machine's state. -/
structure State where
  chip    : Chip := {}
  sys     : Sys := {}
  focus   : Focus := {}
  turn    : Option Sel := none
  oracle  : List Nat := []
  freeCtr : Nat := 0
  inputs  : List Input := []
  deriving DecidableEq, Repr

/-- The machine at power-on (R446): nothing brought up, no partition, no instance, memory with nothing listed. Values the manual does
not give are those of the assumption log (2, 3, 5, 12). -/
def State.reset : State := {}

/-- Why a step stops without a next state. -/
inductive Fault where
  /-- Raised by `step` when the forced step names an instruction of an instance that has no block at hand. No run reaches it: whatever
  sets `turn` has just met that instance and block. Safe. -/
  | noBlock
  deriving DecidableEq, Repr

/-- Why a step has no meaning. -/
inductive Refusal where
  /-- Answered by `exec` for an instruction whose meaning is not written. Safe. -/
  | notModelled (mnemonic : String)
  /-- Answered by `step` when the word at hand does not decode. Mapping (R115) refuses such a block before it runs, so no run reaches
  it. Safe. -/
  | undecodable
  deriving DecidableEq, Repr

/-! ### The canonical form of memory -/

/-- Locations strictly rise and no listed byte is 0, which is what an unlisted one reads as (notes/assumptions 3). -/
def cellsOk : List Host.Cell → Bool
  | [] => true
  | [c] => c.2 != 0
  | c :: d :: t => c.2 != 0 && c.1 < d.1 && cellsOk (d :: t)

/-- The canonical form of memory. -/
abbrev Mem.wf (m : Mem) : Bool := cellsOk m.cells

end Sys2Proof.Machine
end

