-- ==== Sys2Proof/Machine/Aes.lean ====
section
/-! DEFINITION. AES-256 and AES-256-XTS (R437, R452). The manual names them; their constants are those of FIPS 197 and IEEE 1619
(notes/assumptions 17). Bytes are numbers below 256. -/

namespace Sys2Proof.Machine.Crypto

/-- The big-endian number of a list of bytes. -/
def beNat (l : List Nat) : Nat := l.foldl (fun n b => n * 256 + b) 0

/-- The `n` low bytes of a number, the highest first. -/
def beBytes (n x : Nat) : List Nat := (List.range n).map fun k => x / 256 ^ (n - 1 - k) % 256

/-! ### AES-256 -/

/-- Product in the field of AES. -/
def gfMul (a b : Nat) : Nat :=
  ((List.range 8).foldl (fun (x : Nat × Nat) k =>
    (if bitAt b k then x.1 ^^^ x.2 else x.1, if 128 ≤ x.2 then (x.2 * 2 % 256) ^^^ 0x1B else x.2 * 2)) (0, a)).1

/-- Power in the field, by squaring. -/
def gfPow : Nat → Nat → Nat → Nat
  | 0, _, _ => 1
  | n + 1, a, e => let r := gfPow n (gfMul a a) (e / 2); if e % 2 = 1 then gfMul a r else r

/-- Rotation of a byte to the left. -/
def rol8 (x n : Nat) : Nat := (x * 2 ^ n + x / 2 ^ (8 - n)) % 256

/-- The S-box. -/
def subByte (x : Nat) : Nat :=
  let b := gfPow 8 x 254
  (((b ^^^ rol8 b 1) ^^^ (rol8 b 2 ^^^ rol8 b 3)) ^^^ rol8 b 4) ^^^ 0x63

/-- The inverse S-box. -/
def invSubByte (y : Nat) : Nat := gfPow 8 (((rol8 y 1 ^^^ rol8 y 3) ^^^ rol8 y 6) ^^^ 0x05) 254

/-- XOR of lists of bytes. -/
def xorBytes (a b : List Nat) : List Nat := (a.zip b).map fun x => x.1 ^^^ x.2

/-- The words of the key schedule, newest first; `n` more words after the first eight. -/
def expandKey : Nat → List (List Nat) → List (List Nat)
  | 0, w => w
  | n + 1, w =>
    let i := w.length
    let t := w.getD 0 []
    let t := if i % 8 = 0 then xorBytes ((t.drop 1 ++ t.take 1).map subByte) [gfPow 8 2 (i / 8 - 1), 0, 0, 0]
             else if i % 8 = 4 then t.map subByte else t
    expandKey n (xorBytes (w.getD 7 []) t :: w)

/-- The fifteen round keys of a 32-byte key. -/
def roundKeys (key : List Nat) : List (List Nat) :=
  let w := (expandKey 52 ((List.range 8).map fun k => (key.drop (4 * k)).take 4).reverse).reverse
  (List.range 15).map fun r => ((w.drop (4 * r)).take 4).flatten

/-- The row shift of a state, column by column. -/
def shiftRows (s : List Nat) : List Nat := (List.range 16).map fun k => s.getD ((k + 4 * (k % 4)) % 16) 0

/-- The column mix. -/
def mixColumns (s : List Nat) : List Nat :=
  (List.range 16).map fun k =>
    let at_ := fun j => s.getD (k / 4 * 4 + (k + j) % 4) 0
    (gfMul 2 (at_ 0) ^^^ gfMul 3 (at_ 1)) ^^^ (at_ 2 ^^^ at_ 3)

/-- AES-256 encryption of one block under round keys. -/
def encryptBlock (rk : List (List Nat)) (block : List Nat) : List Nat :=
  let key := fun r => rk.getD r []
  let s := ((List.range 13).foldl (fun s k =>
    xorBytes (mixColumns (shiftRows (s.map subByte))) (key (k + 1))) (xorBytes block (key 0)))
  xorBytes (shiftRows (s.map subByte)) (key 14)

/-- The inverse row shift of a state, column by column. -/
def invShiftRows (s : List Nat) : List Nat := (List.range 16).map fun k => s.getD ((k + 16 - 4 * (k % 4)) % 16) 0

/-- The inverse column mix. -/
def invMixColumns (s : List Nat) : List Nat :=
  (List.range 16).map fun k =>
    let at_ := fun j => s.getD (k / 4 * 4 + (k + j) % 4) 0
    (gfMul 14 (at_ 0) ^^^ gfMul 11 (at_ 1)) ^^^ (gfMul 13 (at_ 2) ^^^ gfMul 9 (at_ 3))

/-- AES-256 decryption of one block under round keys. -/
def decryptBlock (rk : List (List Nat)) (block : List Nat) : List Nat :=
  let key := fun r => rk.getD r []
  let s := ((List.range 13).foldl (fun s k =>
    invMixColumns (xorBytes ((invShiftRows s).map invSubByte) (key (13 - k)))) (xorBytes block (key 14)))
  xorBytes ((invShiftRows s).map invSubByte) (key 0)

/-! ### XTS -/

/-- The `n` low bytes of a number, the lowest first. -/
def lowBytes (n x : Nat) : List Nat := (List.range n).map fun k => x / 256 ^ k % 256

/-- The next tweak of a data unit: the product with the field's generator. -/
def nextTweak (t : List Nat) : List Nat :=
  let x := t.foldr (fun b n => b + 256 * n) 0
  lowBytes 16 (if 2 ^ 127 ≤ x then ((x * 2) % 2 ^ 128) ^^^ 0x87 else x * 2)

/-- XTS over the blocks of a data unit, by a block cipher and the tweak of its first block. -/
def xtsBlocks (f : List Nat → List Nat) : Nat → List Nat → List Nat → List Nat
  | 0, _, _ => []
  | n + 1, t, d => xorBytes (f (xorBytes (d.take 16) t)) t ++ xtsBlocks f n (nextTweak t) (d.drop 16)

/-- AES-256-XTS of a 64-byte line (R452): `key` is the data key and the tweak key as one number, the data key's bytes first, `unit` the
line's address shifted right by 6. -/
def xts (encrypt : Bool) (key unit : Nat) (line : List Nat) : List Nat :=
  let k := beBytes 64 key
  let rk := roundKeys (k.take 32)
  xtsBlocks (if encrypt then encryptBlock rk else decryptBlock rk) 4 (encryptBlock (roundKeys (k.drop 32)) (lowBytes 16 unit)) line

end Sys2Proof.Machine.Crypto
end

