-- ==== Sys2Proof/Machine/Ops.lean ====
section
/-! DEFINITION. The named operations over the chip's records, its memory, and its instances' blocks, with the taking of an exception
(R114, R418 to R424) and the return from one (R427). Every lookup is total: a record that is not there reads as its creation value. -/

namespace Sys2Proof.Machine

/-! ### Lists as stores -/

/-- Replace the first element that satisfies `p`, or add one at the end. -/
def upsert (p : α → Bool) (x : α) : List α → List α
  | [] => [x]
  | y :: t => if p y then x :: t else y :: upsert p x t

/-- Change every element that satisfies `p`. -/
def mapIf (p : α → Bool) (f : α → α) (l : List α) : List α := l.map fun x => if p x then f x else x

/-- A number's value in an association list, 0 where absent. -/
def lookupNat (l : List (Nat × Nat)) (k : Nat) : Nat := ((l.find? fun x => x.1 == k).map Prod.snd).getD 0

/-- Set a number's value in an association list. -/
def setNat (l : List (Nat × Nat)) (k v : Nat) : List (Nat × Nat) := upsert (fun x => x.1 == k) (k, v) l

/-- Add a number to a set of numbers. -/
def addNat (l : List Nat) (k : Nat) : List Nat := if l.contains k then l else l ++ [k]

/-- Saturating 32-bit counter (R411). -/
def satAdd32 (x d : Nat) : Nat := min (x + d) (2 ^ 32 - 1)

/-! ### Coordinates (R4 to R7, R128, R363) -/

/-- Mesh coordinates of a logical core. -/
def coreX (core : Nat) : Nat := core % 32
def coreY (core : Nat) : Nat := core / 32 % 32
/-- Core at mesh coordinates. -/
def coreAt (x y : Nat) : Nat := y * 32 + x
/-- Tower of a core (R4): towers are the 16 × 16 quadrants. -/
def towerOf (core : Nat) : Nat := coreX core / 16 + 2 * (coreY core / 16)
/-- Cluster of a core and its member index in it (R6). -/
def clusterOf (core : Nat) : Nat := coreX core / 4 + 8 * (coreY core / 4)
def memberOf (core : Nat) : Nat := coreX core % 4 + 4 * (coreY core % 4)
/-- The core that is member `m` of a core's cluster. -/
def clusterMember (core m : Nat) : Nat := coreAt (coreX core / 4 * 4 + m % 4) (coreY core / 4 * 4 + m / 4)

/-! ### Lookups and updates of the chip -/

def Chip.part (c : Chip) (pid : Nat) : Part := (c.parts.find? fun p => p.pid == pid).getD { pid := pid }
def Chip.hasPart (c : Chip) (pid : Nat) : Bool := c.parts.any fun p => p.pid == pid
def Chip.setPart (c : Chip) (p : Part) : Chip := { c with parts := upsert (fun q => q.pid == p.pid) p c.parts }

def Chip.slot (c : Chip) (core pid : Nat) : Slot :=
  (c.slots.find? fun s => s.core == core && s.pid == pid).getD { core := core, pid := pid }
def Chip.setSlot (c : Chip) (s : Slot) : Chip :=
  { c with slots := upsert (fun t => t.core == s.core && t.pid == s.pid) s c.slots }
def Chip.modSlot (c : Chip) (core pid : Nat) (f : Slot → Slot) : Chip := c.setSlot (f (c.slot core pid))

def Chip.inst? (c : Chip) (iid : Nat) : Option Inst := c.insts.find? fun i => i.iid == iid
def Chip.inst (c : Chip) (iid : Nat) : Inst := (c.inst? iid).getD { iid := iid, core := 0, pid := 0 }
def Chip.setInst (c : Chip) (i : Inst) : Chip := { c with insts := mapIf (fun j => j.iid == i.iid) (fun _ => i) c.insts }
def Chip.modInst (c : Chip) (iid : Nat) (f : Inst → Inst) : Chip := { c with insts := mapIf (fun j => j.iid == iid) f c.insts }
def Chip.dropInst (c : Chip) (iid : Nat) : Chip := { c with insts := c.insts.filter fun j => j.iid != iid }

/-- First physical core of a logical core's mesh row (R448): 17 to a row, 16 rows to a tower. -/
def rowBase (core : Nat) : Nat := towerOf core * 272 + coreY core % 16 * 17
/-- Physical cores of a row that passed self-test, the lowest first. -/
def rowPassed (core : Nat) : List Nat := ((List.range 17).map (rowBase core + ·)).filter Config.corePasses
/-- Physical core of a logical core at bring-up (R448). -/
def physHome (core : Nat) : Nat := (rowPassed core).getD (coreX core % 16) (rowBase core)

def Chip.coreSt (c : Chip) (id : Nat) : Core := (c.cores.find? fun k => k.id == id).getD { id := id, phys := physHome id }
def Chip.setCore (c : Chip) (k : Core) : Chip := { c with cores := upsert (fun j => j.id == k.id) k c.cores }
def Chip.modCore (c : Chip) (id : Nat) (f : Core → Core) : Chip := c.setCore (f (c.coreSt id))

def Chip.tower (c : Chip) (id : Nat) : Tower := (c.towers.find? fun t => t.id == id).getD { id := id }
def Chip.setTower (c : Chip) (t : Tower) : Chip := { c with towers := upsert (fun u => u.id == t.id) t c.towers }

/-- The next free value, and the chip with the counter moved on. -/
def Chip.fresh (c : Chip) : Word × Chip := (Config.freeWord c.free, { c with free := c.free + 1 })

/-- CYCLE of a core's clock (R432, R456): it has gone on by an amount the model leaves free, and never goes back (notes/assumptions 5). -/
def Chip.readCycle (c : Chip) (core : Nat) : Nat × Chip :=
  let (w, c) := c.fresh
  let k := (c.coreSt core).cycle
  let v := min (k + 1 + w.toNat % (2 ^ 64 - 1 - k)) (2 ^ 64 - 1)
  (v, c.modCore core fun k => { k with cycle := v })

/-- Value at creation of a partition's register (R432): TSLICE 1 and 1, QSCOPE all package, the others 0. -/
def regCreated (n : Nat) : Word :=
  if n = 0x033 then 0x101 else if n = 0x045 then 0x444444 else 0

def Part.reg (p : Part) (n : Nat) : Nat := ((p.regs.find? fun x => x.1 == n).map Prod.snd |>.getD (regCreated n)).toNat
def Part.setReg (p : Part) (n : Nat) (v : Word) (taint : Bool) : Part :=
  { p with
    regs := upsert (fun x => x.1 == n) (n, v) p.regs
    rtaint := if taint then addNat p.rtaint n else p.rtaint.filter (· != n) }

/-- Cores of a rectangle. -/
def rectCores (ox oy w h : Nat) : List Nat :=
  (List.range h).flatMap fun dy => (List.range w).map fun dx => coreAt (ox + dx) (oy + dy)

def Part.cores (p : Part) : List Nat := rectCores p.ox p.oy p.w p.h
def Launch.coreList (l : Launch) : List Nat := rectCores l.ox l.oy (2 ^ l.lw) (2 ^ l.lh)
def Launch.holds (l : Launch) (core : Nat) : Bool :=
  l.ox ≤ coreX core && coreX core < l.ox + 2 ^ l.lw && l.oy ≤ coreY core && coreY core < l.oy + 2 ^ l.lh

/-- The launch that runs in a partition's slot on a core (R362, R474). -/
def Part.launchAt (p : Part) (core : Nat) : Option Launch := p.launches.find? fun l => l.holds core
/-- A launch by its number. -/
def Part.launch (p : Part) (lid : Nat) : Option Launch := p.launches.find? fun l => l.lid == lid
def Part.setLaunch (p : Part) (l : Launch) : Part := { p with launches := mapIf (fun m => m.lid == l.lid) (fun _ => l) p.launches }

/-- The rectangle an instance's relative addresses are taken in: its launch's, or for channels 126 and 127 that of the launch on its
core (R474), or its core alone. Origin and sizes. -/
def Chip.rect (c : Chip) (pid core : Nat) : Nat × Nat × Nat × Nat :=
  match (c.part pid).launchAt core with
  | some l => (l.ox, l.oy, 2 ^ l.lw, 2 ^ l.lh)
  | none => (coreX core, coreY core, 1, 1)

/-- LIN of a core in a partition (R128). -/
def Chip.lin (c : Chip) (pid core : Nat) : Nat :=
  let (ox, oy, w, _) := c.rect pid core
  (coreY core - oy) * w + (coreX core - ox)

/-- The core at linear index `lin` of the rectangle on a core. -/
def Chip.coreOfLin (c : Chip) (pid core lin : Nat) : Option Nat :=
  let (ox, oy, w, h) := c.rect pid core
  if lin < w * h then some (coreAt (ox + lin % w) (oy + lin / w)) else none

/-! ### Bytes of memory -/

/-- Byte at a location; an unlisted one reads 0 (notes/assumptions 3). -/
def getCell (a : Nat) : List Host.Cell → Byte
  | [] => 0
  | (x, v) :: t => if x = a then v else getCell a t

/-- Store a byte, keeping the canonical form. -/
def setCell (a : Nat) (b : Byte) : List Host.Cell → List Host.Cell
  | [] => if b = 0 then [] else [(a, b)]
  | (x, v) :: t =>
    if a < x then (if b = 0 then (x, v) :: t else (a, b) :: (x, v) :: t)
    else if a = x then (if b = 0 then t else (a, b) :: t)
    else (x, v) :: setCell a b t

/-- The byte at a location. -/
def Mem.get (m : Mem) (a : Nat) : Byte := getCell a m.cells
/-- Memory with one byte stored. -/
def Mem.set (m : Mem) (a : Nat) (b : Byte) : Mem := { m with cells := setCell a b m.cells }

/-- `n` bytes from a location, the lowest first. -/
def Mem.bytes (m : Mem) (a : Nat) : Nat → List Byte
  | 0 => []
  | n + 1 => m.get a :: m.bytes (a + 1) n

/-- The little-endian number that a list of bytes holds (R20). -/
def leNat : List Byte → Nat
  | [] => 0
  | b :: t => b.toNat + 256 * leNat t

/-- The `n` low bytes of a number, the lowest first (R20). -/
def leBytes : Nat → Nat → List Byte
  | 0, _ => []
  | n + 1, x => BitVec.ofNat 8 x :: leBytes n (x / 256)

/-- The little-endian number at a location. -/
def Mem.read (m : Mem) (a n : Nat) : Nat := leNat (m.bytes a n)

/-- Store bytes from a location upward. -/
def Mem.setBytes (m : Mem) (a : Nat) : List Byte → Mem
  | [] => m
  | b :: t => (m.set a b).setBytes (a + 1) t

/-- Store the low `n` bytes of a number. -/
def Mem.write (m : Mem) (a n v : Nat) : Mem := m.setBytes a (leBytes n v)

/-- The 64-byte lines that `n` bytes from `a` touch. -/
def linesOf (a n : Nat) : List Nat := if n = 0 then [] else (List.range ((a + n - 1) / 64 - a / 64 + 1)).map (a / 64 + ·)

/-- OR of the taints of the lines that bytes touch (R218). -/
def Mem.tainted (m : Mem) (a n : Nat) : Bool := (linesOf a n).any fun l => m.taint.contains l
/-- Taint the lines that bytes touch. -/
def Mem.addTaint (m : Mem) (a n : Nat) (t : Bool) : Mem :=
  if t then { m with taint := (linesOf a n).foldl addNat m.taint } else m
/-- Clear the taint of the whole lines among the bytes, as an engine write of untainted data does (R218). -/
def Mem.engineTaint (m : Mem) (a n : Nat) (t : Bool) : Mem :=
  if t then m.addTaint a n true
  else { m with taint := m.taint.filter fun l => !(a ≤ l * 64 && l * 64 + 64 ≤ a + n) }
/-- The lowest poisoned line that bytes touch. -/
def Mem.poisoned (m : Mem) (a n : Nat) : Option Nat := (linesOf a n).find? fun l => m.poison.contains l
/-- Poisoned lines that bytes touch only in part: a write to them raises MC_POISON (R445). -/
def Mem.poisonedPart (m : Mem) (a n : Nat) : Option Nat :=
  (linesOf a n).find? fun l => m.poison.contains l && !(a ≤ l * 64 && l * 64 + 64 ≤ a + n)
/-- A write that covers a whole line clears its poison (R445). -/
def Mem.clearPoison (m : Mem) (a n : Nat) : Mem :=
  { m with poison := m.poison.filter fun l => !(a ≤ l * 64 && l * 64 + 64 ≤ a + n) }
/-- Zero `n` bytes, with their taint and poison (R31, R449). -/
def Mem.zero (m : Mem) (a n : Nat) : Mem :=
  { m with
    cells := m.cells.filter fun x => !(a ≤ x.1 && x.1 < a + n)
    taint := m.taint.filter fun l => !(a ≤ l * 64 && l * 64 < a + n)
    poison := m.poison.filter fun l => !(a ≤ l * 64 && l * 64 < a + n) }

/-! ### Locations: one number names every byte the package or its peers hold -/

/-- Physical scratchpad byte `p` of a core: own scratchpad at 0 to 2 MiB − 1, cluster contribution at 2 to 3 MiB − 1 (R32, R37). -/
def locCore (core p : Nat) : Nat := 2 ^ 48 + core * 2 ^ 22 + p
/-- Byte `o` of tower `t`'s scratchpad (R39). -/
def locTower (t o : Nat) : Nat := 2 ^ 52 + t * 2 ^ 27 + o
/-- Byte `o` of an instance's slice (R29). -/
def locSlice (iid o : Nat) : Nat := 2 ^ 56 + iid * 2 ^ 12 + o
/-- Host memory (R44). -/
def locHost (addr : Nat) : Nat := 2 ^ 110 + addr
/-- Physical address in another package (R44). -/
def locRemote (x y z pa : Nat) : Nat := 2 ^ 100 + ((z * 32 + y) * 32 + x) * 2 ^ 48 + pa
/-- Local DRAM lies at its physical address (R43). -/
def isDram (loc : Nat) : Bool := loc < 2 ^ 39 && loc % 2 ^ 37 < 0x1800000000

/-- The physical address of a location in its own memory, for a record (R420): of DRAM the address itself; of a scratchpad, a slice,
another package's DRAM or host memory the place within it. -/
def physAddr (loc : Nat) : Nat :=
  if loc < 2 ^ 48 then loc
  else if loc < 2 ^ 52 then (loc - 2 ^ 48) % 2 ^ 22
  else if loc < 2 ^ 56 then (loc - 2 ^ 52) % 2 ^ 27
  else if loc < 2 ^ 100 then (loc - 2 ^ 56) % 2 ^ 12
  else if loc < 2 ^ 110 then (loc - 2 ^ 100) % 2 ^ 48
  else loc - 2 ^ 110

/-- Whether a location's line is encrypted at rest (R54, R452): DRAM here and in other packages, and host memory. -/
def isKeyed (loc : Nat) : Bool := isDram loc || 2 ^ 100 ≤ loc

/-- The mark of a line of host memory that the host has written: its bytes are as the host wrote them. -/
def hostMark : Nat := 2 ^ 513

/-- A line of host memory through the bridge (R452): encrypted or decrypted under a key mark, under which 0 is plaintext. -/
def bridge (encrypt : Bool) (key l : Nat) (bs : List Byte) : List Byte :=
  if key = 0 then bs else (Crypto.xts encrypt (key - 1) (l - 2 ^ 104) (bs.map BitVec.toNat)).map (BitVec.ofNat 8)

/-- The bytes of a line as they read under a key mark (R452): none, undefined, where it was last written under another key. -/
def Mem.lineAs (m : Mem) (l key : Nat) : Option (List Byte) :=
  let mark := lookupNat m.keyed l
  let bs := m.bytes (l * 64) 64
  if mark == key then some bs else if mark == hostMark then some (bridge false key l bs) else none

/-- The bytes of a line of host memory as the host sees them: encrypted where the bridge encrypted it (R452). -/
def Mem.hostLine (m : Mem) (l : Nat) : List Byte :=
  let mark := lookupNat m.keyed l
  let bs := m.bytes (l * 64) 64
  if mark == hostMark then bs else bridge true mark l bs

/-- A write is noted until the step ends (R287). -/
def Mem.note (m : Mem) (a n : Nat) : Mem := { m with wrote := m.wrote ++ [(a, n)] }

/-- Store bytes under a key mark (R452): of a line last written under another key the other bytes become free values. -/
def Chip.putBytes (c : Chip) (loc key : Nat) (bs : List Byte) : Chip :=
  if isKeyed loc then
    let lines := linesOf loc bs.length
    let stale := lines.filter fun l => lookupNat c.mem.keyed l != key
    let c := stale.foldl (fun c l =>
      let old := c.mem.lineAs l key
      let (m, n) := ((List.range 64).foldl (fun (m, n) k =>
        let a := l * 64 + k
        if loc ≤ a && a < loc + bs.length then (m, n)
        else match old with
          | some bs => (m.set a (bs.getD k 0), n)
          | none => (m.set a (BitVec.ofNat 8 (Config.freeWord n).toNat), n + 1))
        (c.mem, c.free))
      { c with
        mem := { m with keyed := if key = 0 then m.keyed.filter (fun x => x.1 != l) else setNat m.keyed l key }
        free := n }) c
    { c with mem := (c.mem.setBytes loc bs).note loc bs.length }
  else { c with mem := (c.mem.setBytes loc bs).note loc bs.length }

/-- Read bytes under a key mark (R452): those of a line written under another key are free values. -/
def Chip.takeBytes (c : Chip) (loc key n : Nat) : List Byte × Chip :=
  if isKeyed loc && (linesOf loc n).any (fun l => lookupNat c.mem.keyed l != key) then
    let free := fun l => (List.range 64).map fun k => BitVec.ofNat 8 (Config.freeWord (c.free + (l * 64 + k - loc))).toNat
    ((((linesOf loc n).flatMap fun l => (c.mem.lineAs l key).getD (free l)).drop (loc % 64)).take n, { c with free := c.free + n })
  else (c.mem.bytes loc n, c)

/-- The host writes its memory: a line that lies there under a key keeps its other bytes as they stand encrypted (R452). -/
def Chip.hostPut (c : Chip) (addr : Nat) (bs : List Byte) : Chip :=
  let loc := locHost addr
  let m := (linesOf loc bs.length).foldl (fun (m : Mem) l =>
    let m := m.setBytes (l * 64) (m.hostLine l)
    { m with keyed := setNat m.keyed l hostMark }) c.mem
  { c with mem := (m.setBytes loc bs).note loc bs.length }

/-! ### Load caches (R41) -/

/-- Every line of a core's load cache goes. -/
def Chip.dropLines (c : Chip) (core : Nat) : Chip := c.modCore core fun k => { k with lcache := [] }

/-- No line that a core's load cache holds now serves an instance any more (R196, R208). -/
def Chip.staleFor (c : Chip) (core iid : Nat) : Chip :=
  if (c.coreSt core).lcache.isEmpty then c
  else c.modCore core fun k => { k with lcache := k.lcache.map fun l => { l with stale := addNat l.stale iid } }

/-- A line of a core's load cache goes: a fresher read of it by the same core comes before every later one (R208). -/
def Chip.dropLine (c : Chip) (core loc : Nat) : Chip :=
  if (c.coreSt core).lcache.isEmpty then c
  else c.modCore core fun k => { k with lcache := k.lcache.filter fun l => l.line != loc / 128 }

/-- A write of the same core reaches the copy it holds (R41). -/
def Chip.updateLine (c : Chip) (core loc : Nat) (bs : List Byte) (taint : Bool) : Chip :=
  c.modCore core fun k => { k with lcache := k.lcache.map fun l =>
    if l.line == loc / 128 then
      { l with
        bytes := (List.range 128).map fun j =>
          let a := l.line * 128 + j
          if loc ≤ a && a < loc + bs.length then bs.getD (a - loc) 0 else l.bytes.getD j 0
        taint := (List.range 2).map fun j => l.taint.getD j false || (taint && j == loc / 64 % 2) }
    else l }

/-! ### Counters and logs -/

/-- Add to a counter of R434, by group × 256 + index. -/
def Slot.bump (s : Slot) (sel d : Nat) : Slot := { s with counts := setNat s.counts sel (satAdd32 (lookupNat s.counts sel) d) }
/-- A counter of R434. -/
def Slot.counter (s : Slot) (sel : Nat) : Nat := lookupNat s.counts sel

/-- Report an event to Ebgokai's log (R447); the core's clock is read as the entry is made. -/
def Chip.report (c : Chip) (code core pid : Nat) : Chip :=
  { c with logq := c.logq ++ [{ code, phys := (c.coreSt core).phys, core, pid }] }

/-- Record an event for Sumac (R457). -/
def Chip.trace (c : Chip) (ev core pid d2 d3 : Nat) : Chip :=
  { c with sumacq := c.sumacq ++ [{ tower := towerOf core, core, ev, pid, lin := c.lin pid core, d2, d3 }] }

/-- An event of a core is one of every partition that has a slot there (R447, notes/assumptions 15). -/
def Chip.reportCore (c : Chip) (code core : Nat) : Chip :=
  match (c.slots.filter fun s => s.core == core).map (·.pid) with
  | [] => c.report code core 0
  | l => l.foldl (fun c pid => c.report code core pid) c

/-- Event codes of the log (R447): the manual names the events and numbers none (notes/assumptions 15). -/
def evSoft : Nat := 1
def evStop : Nat := 2
def evDouble : Nat := 3
def evRetire : Nat := 4
def evMigrate : Nat := 5
def evLane : Nat := 6
def evThermal : Nat := 7
def evBringUp : Nat := 8

/-! ### Instances -/

/-- Privilege (R416): an instance created on channel 126 or 127 is a supervisor. -/
def Inst.supervisor (i : Inst) : Bool := i.chan ≥ 126

/-- Whether an instance is speculative (R377): the block that created it has not committed. -/
def Inst.speculative (i : Inst) : Bool := i.creator.isSome

/-- The issuer that a command of an instance names (R419). -/
def Inst.issuer (i : Inst) (idx : Nat) : Issuer :=
  { iid := i.iid, core := i.core, pid := i.pid, lid := i.lid, chan := i.chan, tag := i.tag, block := i.block, index := idx }

/-- Next age of a slot (R405), and the slot with the counter moved on. -/
def Chip.takeAge (c : Chip) (core pid : Nat) : Nat × Chip :=
  ((c.slot core pid).nextAge, c.modSlot core pid fun s => { s with nextAge := s.nextAge + 1 })

/-- An instance that has issued starts its aging anew (R406). -/
def Inst.issued (i : Inst) : Inst := { i with steps := 0 }

/-- An instance becomes READY with a new age and no frame (R402, R405); its aging goes on (R406). -/
def Chip.rejoin (c : Chip) (iid : Nat) : Chip :=
  let i := c.inst iid
  let (age, c) := c.takeAge i.core i.pid
  c.modInst iid fun i => { i with state := .ready, frame := none, age, recalled := false }

/-- Iterations that an instance's uncommitted blocks created, and theirs in turn (R378); `n` bounds the depth. -/
def Chip.descendants (c : Chip) : Nat → List Nat → List Nat
  | 0, _ => []
  | n + 1, l =>
    let next := (c.insts.filter fun i => match i.creator with
      | some p => l.contains p
      | none => false).map (·.iid)
    if next.isEmpty then [] else next ++ c.descendants n next

/-- Release the posts an instance's block made (R394). -/
def Chip.unpost (c : Chip) (i : Inst) : Chip :=
  c.modSlot i.core i.pid fun s => { s with cfg := { s.cfg with chans := s.cfg.chans.map fun h =>
    { h with posts := h.posts.filter fun p => p.1 != i.iid } } }

/-- Remove an instance for good: its posts, its record place (R418), its slice once its pending values have come (R112). -/
def Chip.endInst (c : Chip) (iid : Nat) : Chip :=
  match c.inst? iid with
  | none => c
  | some i =>
    let c := c.unpost i
    let c := match i.recPlace with
      | some q => c.modSlot i.core i.pid fun s => { s with recs := { s.recs with used := s.recs.used.filter fun u => u.1 != q } }
      | none => c
    if i.regs.toList.all fun r => !r.pend then
      { c.dropInst iid with mem := c.mem.zero (locSlice iid 0) (2 ^ 12) }
    else c.modInst iid fun i => { i with state := .ended, frame := none, recPlace := none }

/-- Discard descendants of a discarded or squashed block (R378). -/
def Chip.dropChildren (c : Chip) (iid : Nat) : Chip :=
  ((c.descendants c.insts.length [iid]).foldl (fun c k => c.endInst k) c).modInst iid fun i => { i with deferred := [] }

/-- Discard the block of an instance (R114): posts and speculative iterations go with it, and so does the disarming of `BRK` (R427),
which lasts one execution. The instance executes the block again from the start, mapped again if it has to be (R99, R436). -/
def Chip.discardBlock (c : Chip) (iid : Nat) : Chip :=
  let c := c.unpost (c.inst iid)
  (c.dropChildren iid).modInst iid fun i => { i with frame := none, brkOff := false }

/-! ### Taking an exception (R114, R418 to R424) -/

/-- Whether records of a slot can be delivered (R424): FRBASE.V set and TRAPENT bound. -/
def Part.canTrap (p : Part) : Bool := p.reg 0x030 % 2 == 1 && p.reg 0x031 != 0

/-- Stop a slot on a core (R424, R444), and report an event of a code: the first cause stays. -/
def Chip.stopWith (c : Chip) (code core pid cause : Nat) : Chip :=
  (c.modSlot core pid fun s => { s with stop := some (s.stop.getD cause) }).report code core pid

/-- A double fault stops the slot (R424). -/
def Chip.stopSlot (c : Chip) (core pid cause : Nat) : Chip := c.stopWith evDouble core pid cause

/-- A fault that poison causes is logged (R447). -/
def Chip.logPoison (c : Chip) (core pid cause : Nat) : Chip := if cause = 0x0A then c.report evSoft core pid else c

/-- Queue a record (R418): it gets the slot's next number and waits for its place. A record that can never be delivered is a double
fault (R424). -/
def Chip.queueRecord (c : Chip) (core pid : Nat) (r : FaultRec) : Chip :=
  let c := c.logPoison core pid r.cause
  if (c.part pid).canTrap then
    (c.modSlot core pid fun s => { s with recs := { s.recs with
      next := s.recs.next + 1
      wait := s.recs.wait ++ [(s.recs.next, r)] } }).trace 1 core pid r.cause (c.slot core pid).recs.next
  else c.stopSlot core pid r.cause

/-- The next handle of a slot (R419): ascending, never 0, modulo 2^32. -/
def nextHandle (h : Nat) : Nat := if (h + 1) % 2 ^ 32 = 0 then 1 else (h + 1) % 2 ^ 32

/-- An instance's block has been discarded with a fault that is not held: the instance is suspended and its record queued (R422). A
fault of a supervisor instance is a double fault (R424). -/
def Chip.deliver (c : Chip) (iid : Nat) (r : FaultRec) : Chip :=
  let i := c.inst iid
  if i.supervisor then
    ((c.logPoison i.core i.pid r.cause).stopSlot i.core i.pid r.cause).modInst iid fun i => { i with state := .suspended, handle := 0 }
  else
    let h := (c.slot i.core i.pid).recs.handle
    let c := c.modSlot i.core i.pid fun s => { s with recs := { s.recs with handle := nextHandle h } }
    let c := c.modInst iid fun i => { i with state := .suspended, handle := h, wasBrk := r.cause == 0x02 }
    c.queueRecord i.core i.pid { r with handle := h, chan := i.chan, tag := i.tag }

/-- The record of an instruction's fault (R419). -/
def Inst.faultRec (i : Inst) (idx : Nat) (f : AFault) : FaultRec :=
  { cause := f.cause, sub := f.sub, addr := f.addr, info0 := f.info0, info1 := f.info1, index := idx, block := i.block,
    chan := i.chan, tag := i.tag }

/-- TAKING AN EXCEPTION: an instruction of an instance's block faults. The block is discarded whole (R114); a speculative instance
holds the fault (R378); any other is suspended and its record queued (R422). -/
def Chip.takeFault (c : Chip) (iid idx : Nat) (f : AFault) : Chip :=
  let i := c.inst iid
  let r := i.faultRec idx f
  let c := c.discardBlock iid
  if i.speculative then c.modInst iid fun i => { i with held := some r, state := .suspended, handle := 0 }
  else c.deliver iid r

/-- THE RETURN FROM AN EXCEPTION (R427): the suspended instance of a handle continues at a block, as READY with a new age (R405), and
acquires the `ERET` (R41). -/
def Chip.resume (c : Chip) (iid block : Nat) (value : Option (Word × Bool)) : Chip :=
  let c := c.modInst iid fun i => { i with
    block := block, handle := 0, frame := none, brkOff := i.wasBrk, wasBrk := false
    regs := match value with
      | some (v, t) => i.regs.set 28 { v := v, taint := t, pend := false } (by decide)
      | none => i.regs }
  (c.rejoin iid).dropLines (c.inst iid).core

/-- The instance a handle names in a slot (R427). -/
def Chip.byHandle (c : Chip) (core pid h : Nat) : Option Inst :=
  c.insts.find? fun i => i.core == core && i.pid == pid && i.state == .suspended && i.handle == h && i.held.isNone

/-! ### Engines' faults (R423, R477) -/

/-- The record of an engine's fault (R419): ENG 1, HANDLE 0, the issuing block, channel and tag; zero without an issuer. -/
def engineRec (who : Issuer) (src tl num chunk : Nat) (f : AFault) : FaultRec :=
  { cause := f.cause, sub := f.sub, addr := f.addr, info0 := f.info0, info1 := f.info1, eng := true, src, tl, num := num % 2 ^ 32,
    chunk, index := if who.none then 0 else who.index, block := if who.none then 0 else who.block,
    chan := if who.none then 0 else who.chan, tag := if who.none then 0 else who.tag }

/-- Header of a DONE token (R120, R376). -/
def mkHdr (plane : Nat) (taint : Bool) (fmt slot chan tag : Nat) : Word :=
  BitVec.ofNat 64 (plane % 2 * 2 ^ 61 + b2n taint * 2 ^ 60 + fmt % 8 * 2 ^ 57 + slot % 4 * 2 ^ 55 + chan % 128 * 2 ^ 48 + tag % 2 ^ 48)

/-- Payload of a DONE token (R120). -/
def donePayload (err : Bool) (src tl value : Nat) : Word :=
  BitVec.ofNat 64 (b2n err * 2 ^ 63 + src % 8 * 2 ^ 60 + tl % 16 * 2 ^ 56 + value % 2 ^ 48)

/-- Fields of a token header (R118). -/
def hdrPlane (h : Word) : Nat := bits h.toNat 61 1
def hdrTaint (h : Word) : Bool := bitAt h.toNat 60
def hdrFmt (h : Word) : Nat := bits h.toNat 57 3
def hdrSlot (h : Word) : Nat := bits h.toNat 55 2
def hdrChan (h : Word) : Nat := bits h.toNat 48 7
def hdrTag (h : Word) : Nat := bits h.toNat 0 48

/-- A DONE token of a plane sets out for the issuing core (R376); its place was reserved when the command was accepted (R400). -/
def Chip.sendDoneIn (c : Chip) (plane : Nat) (who : Issuer) (dn : Bool) (dch : Nat) (payload : Word) : Chip :=
  if dn then
    { c with flights := c.flights ++ [{
      hdr := mkHdr plane false 5 0 dch who.tag
      payload, pid := who.pid, dst := who.core, src := who.core, resv := true }] }
  else c

/-- A DONE token sets out under the active plane of the issuing core (R376). -/
def Chip.sendDone (c : Chip) (who : Issuer) (dn : Bool) (dch : Nat) (payload : Word) : Chip :=
  c.sendDoneIn (c.slot who.core who.pid).cfg.act who dn dch payload

/-- Timeline `k` of a slot reaches `v` (R210): it never decreases. -/
def Slot.advance (s : Slot) (k v : Nat) : Slot :=
  { s with tls := s.tls.setIfInBounds k (BitVec.ofNat 64 (max (s.tls.getD k 0).toNat v)) }

/-- Timeline value of a slot. -/
def Slot.tl (s : Slot) (k : Nat) : Nat := (s.tls.getD k 0).toNat

/-- Queue of engine context `k`. -/
def Slot.eng (s : Slot) (k : Nat) : EngineQ := s.engs.getD k {}
def Slot.setEng (s : Slot) (k : Nat) (q : EngineQ) : Slot := { s with engs := s.engs.setIfInBounds k q }
def Slot.modEng (s : Slot) (k : Nat) (f : EngineQ → EngineQ) : Slot := s.setEng k (f (s.eng k))
def Slot.cp (s : Slot) (n : Nat) : CopyCh := s.cps.getD n {}
def Slot.setCp (s : Slot) (n : Nat) (x : CopyCh) : Slot := { s with cps := s.cps.setIfInBounds n x }

/-- A reservation in the matching store (R400). -/
def Slot.reserve (s : Slot) (dn : Bool) : Slot := if dn then { s with mat := { s.mat with reserved := s.mat.reserved + 1 } } else s

/-- SRC code of an engine context in DONE tokens and records (R120): timelines 0 to 3 copy, 4 gather, 5 plane, 6 drain, 7 tier,
8 amplitude, 9 collective. -/
def srcOf (tl : Nat) : Nat := if tl < 4 then 0 else tl - 3

/-- An engine fault (R423): record, DONE with ERR, the queue halted with the command at its head marked. -/
def Chip.haltEngine (c : Chip) (core pid tl : Nat) (cmd : Cmd) (chunk : Nat) (f : AFault) (onlyAbandon : Bool) : Chip :=
  let r := engineRec cmd.who (srcOf tl) tl cmd.num chunk f
  let c := c.modSlot core pid fun s => s.modEng tl fun q =>
    { q with halted := true, cmds := mapIf (fun x => x.num == cmd.num) (fun x => { x with fail := some r, onlyAbandon := onlyAbandon }) q.cmds }
  let c := c.sendDone cmd.who cmd.dn cmd.dch (donePayload true (srcOf tl) tl cmd.num)
  c.queueRecord core pid r

/-- An error completion that halts nothing (R423): record and DONE with ERR. -/
def Chip.errorDone (c : Chip) (who : Issuer) (src tl num : Nat) (dn : Bool) (dch value : Nat) (f : AFault) : Chip :=
  (c.sendDone who dn dch (donePayload true src tl value)).queueRecord who.core who.pid (engineRec who src tl num 0 f)

/-- A normal completion of an engine command: the timeline advances to its number, the command leaves, DONE is sent (R160, R210). -/
def Chip.completeCmd (c : Chip) (core pid tl : Nat) (cmd : Cmd) : Chip :=
  let c := c.modSlot core pid fun s =>
    (s.advance tl cmd.num).modEng tl fun q => { q with cmds := q.cmds.filter fun x => x.num != cmd.num }
  c.sendDone cmd.who cmd.dn cmd.dch (donePayload false (srcOf tl) tl cmd.num)

end Sys2Proof.Machine
end

