-- ==== Sys2Proof/Machine/Access.lean ====
section
/-! DEFINITION. How an address reaches a byte: the windows and ranges of R47, translation (R50 to R60), node windows (R43 to R45), keys
(R54), residency (R142), the range table (R216, R217), poison (R445), in that order; then reads and writes at the place found. An
access that breaks a rule answers the fault of R61. -/

namespace Sys2Proof.Machine

/-- Kind of an access. -/
inductive AKind where
  | read | write | atomic | fetch
  deriving DecidableEq, Repr

/-- Who accesses: partition, core, the instance whose slice the slice window is, and the range entries it owns (R216);
the virtual 64-byte lines that its command writes whole (R445). -/
structure Actor where
  pid   : Nat
  core  : Nat
  iid   : Nat := 0
  owner : Option RangeOwner := none
  whole : List Nat := []
  deriving DecidableEq, Repr

/-- The actor that an instance is. -/
def Inst.actor (i : Inst) : Actor := { pid := i.pid, core := i.core, iid := i.iid }

/-- Mark codes 0 and 1 of a walk: no fault. -/
def okF (x : α) : Except AFault α := .ok x
/-- An address fault. -/
def adF (cause va : Nat) : AFault := { cause, addr := va }
/-- A translation fault: level and entry (R61). -/
def xlF (cause level va entry : Nat) : AFault := { cause, sub := level, addr := va, info0 := entry }

/-! ### Page walks -/

/-- Fields of an entry (R51, R52). -/
def peV (e : Nat) : Bool := bitAt e 0
def peRD (e : Nat) : Bool := bitAt e 1
def peWR (e : Nat) : Bool := bitAt e 2
def peCode (e : Nat) : Bool := bitAt e 3
def peG (e : Nat) : Bool := bitAt e 4
def peA (e : Nat) : Bool := bitAt e 5
def peD (e : Nat) : Bool := bitAt e 6
def peTM (e : Nat) : Bool := bitAt e 7
def peNC (e : Nat) : Bool := bitAt e 8
def peKey (e : Nat) : Nat := bits e 48 11
def peFrame (e : Nat) : Nat := bits e 12 36 * 4096
/-- A leaf has one of RD, WR, CODE (R52). -/
def peLeaf (e : Nat) : Bool := bits e 1 3 != 0
/-- Reserved bits of a leaf (R52). -/
def leafRsv (e : Nat) : Bool := bits e 59 5 != 0 || bits e 9 3 != 0
/-- Reserved bits of a pointer entry at a level (R51). -/
def ptrRsv (level e : Nat) : Bool :=
  bits e 48 16 != 0 || bitAt e 7 || bitAt e 4 || (level != 1 && bitAt e 6) || (!(level == 1 && bitAt e 6) && bits e 8 4 != 0)
/-- Address of the next table (R51). -/
def ptrNext (e : Nat) : Nat := bits e 12 36 * 4096 + bits e 8 4 * 256

/-- Page size of a leaf at a level; `p64` tells the 64 KiB granule. -/
def pageSize (level : Nat) (p64 : Bool) : Nat :=
  match level with
  | 2 => 2 ^ 30
  | 1 => 2 ^ 21
  | _ => if p64 then 2 ^ 16 else 2 ^ 12

/-- Byte offset of the entry that a virtual address selects in a table (R50). -/
def walkIndex (level va : Nat) (p64 : Bool) : Nat :=
  8 * match level with
  | 3 => bits va 39 13
  | 2 => bits va 30 9
  | 1 => bits va 21 9
  | _ => if p64 then bits va 16 5 else bits va 12 9

/-- A finished walk: the leaf, where it lies, the page's base and size, and the pointers on the way: level, place and entry of each. -/
structure Walked where
  entry : Nat
  at_   : Nat
  base  : Nat
  size  : Nat
  path  : List (Nat × Nat × Nat)
  deriving DecidableEq, Repr

/-- One level of a walk and those below it: `fuel` is the level (3 to 0), `table` the table's address. -/
def walkFrom (m : Mem) (free va : Nat) : Nat → Nat → Bool → List (Nat × Nat × Nat) → Except AFault Walked
  | level, table, p64, path =>
    if !isDram table then .error (xlF 0x2A level va 0) else
    let at_ := table + walkIndex level va p64
    -- the walker reads under the plaintext key (R50)
    let e := if lookupNat m.keyed (at_ / 64) = 0 then m.read at_ 8 else (Config.freeWord (free + level)).toNat
    if (m.poisoned at_ 8).isSome then .error { cause := 0x0A, addr := va, info0 := at_ } else
    if !peV e then .error (xlF 0x28 level va e) else
    if peLeaf e then
      let size := pageSize level p64
      if level == 3 || leafRsv e || (peWR e && !peRD e) || peFrame e % size != 0 then .error (xlF 0x2A level va e)
      else .ok { entry := e, at_, base := va / size * size, size, path }
    else if ptrRsv level e then .error (xlF 0x2A level va e)
    else match level with
      | 0 => .error (xlF 0x2A 0 va e)
      | l + 1 =>
        if isDram (ptrNext e) then walkFrom m free va l (ptrNext e) (l == 0 && bitAt e 6) (path ++ [(l + 1, at_, e)])
        else .error (xlF 0x2A level va e)

/-- Level a page size belongs to, for a fault on a cached translation. -/
def levelOf (size : Nat) : Nat := if size = 2 ^ 30 then 2 else if size = 2 ^ 21 then 1 else 0

/-- Set a bit of a page-table entry in memory (R56). -/
def Mem.setEntryBit (m : Mem) (at_ k : Nat) : Mem :=
  let e := m.read at_ 8
  if bitAt e k then m else m.write at_ 8 (e + 2 ^ k)

/-- Whether a translation cached at a level serves an address (R57). -/
def Tlb.serves (t : Tlb) (level : TlbLevel) (pid asid va : Nat) : Bool :=
  t.level == level && t.pid == pid && (t.asid == none || t.asid == some asid) && t.base ≤ va && va < t.base + t.size

/-- Whether two cached translations are copies of one. -/
def Tlb.same (t u : Tlb) : Bool := { t with level := u.level } == u

/-- Entries of a structure (R57). -/
def TlbLevel.room : TlbLevel → Nat
  | .micro _ => 64
  | .cluster _ => 2048
  | .walk _ => 256

/-- Drop the first element that satisfies `p`. -/
def dropFirst (p : α → Bool) : List α → List α
  | [] => []
  | x :: t => if p x then t else x :: dropFirst p t

/-- A translation enters a structure, whose oldest goes when it is full. -/
def tlbAdd (l : List Tlb) (t : Tlb) : List Tlb :=
  let l := l.filter (· != t)
  (if (l.filter fun u => u.level == t.level).length < t.level.room then l else dropFirst (fun u => u.level == t.level) l) ++ [t]

/-- Where a walk begins (R57): below the lowest pointer that the walk cache of the requester's tower holds for the address, else at the
root. Level and table. -/
def Chip.walkStart (c : Chip) (core pid asid va : Nat) : Nat × Nat :=
  let at_ := fun size => c.tlb.find? fun t => t.serves (.walk (towerOf core)) pid asid va && t.size == size
  match at_ (2 ^ 30) with
  | some t => (1, ptrNext t.entry)
  | none => match at_ (2 ^ 39) with
    | some t => (2, ptrNext t.entry)
    | none => (3, (c.part pid).reg 0x010)

/-- The pointers of a walk as the walk cache keeps them: those of levels 3 and 2. -/
def Walked.pointers (w : Walked) (tower pid asid va : Nat) : List Tlb :=
  (w.path.filter fun x => 2 ≤ x.1).map fun x =>
    let size := if x.1 = 3 then 2 ^ 39 else 2 ^ 30
    { level := .walk tower, pid, asid := some asid, base := va / size * size, size, entry := x.2.2, at_ := x.2.1 }

/-- Translate for a core: its micro-TLB, its cluster's TLB, or a walk that installs the translation in both and sets A on its entries
(R56, R57). -/
def Chip.translate (c : Chip) (core pid va : Nat) : Except AFault Tlb × Chip :=
  let asid := (c.part pid).reg 0x011
  match c.tlb.find? fun t => t.serves (.micro core) pid asid va with
  | some t => (.ok t, c)
  | none =>
    match c.tlb.find? fun t => t.serves (.cluster (clusterOf core)) pid asid va with
    | some t => (.ok { t with level := .micro core }, { c with tlb := tlbAdd c.tlb { t with level := .micro core } })
    | none =>
      let free := c.free
      let c := if c.mem.keyed.isEmpty then c else { c with free := c.free + 4 }
      let (level, table) := c.walkStart core pid asid va
      match walkFrom c.mem free va level table false [] with
      | .error f => (.error f, c)
      | .ok w =>
        let t : Tlb := { level := .micro core, pid, asid := if peG w.entry then none else some asid, base := w.base, size := w.size,
                         entry := w.entry, at_ := w.at_ }
        (.ok t, { c with
          tlb := ((w.pointers (towerOf core) pid asid va) ++ [{ t with level := .cluster (clusterOf core) }, t]).foldl tlbAdd c.tlb
          mem := (w.path.map (·.2.1) ++ [w.at_]).foldl (fun m a => m.setEntryBit a 5) c.mem })

/-- An entry with A set. -/
def withA (e : Nat) : Nat := if peA e then e else e + 32

/-- Whether the compare-and-swap that sets D finds the entry of a cached translation as the walker left it, with A set (R56). What the
walker reads of a line under another key is undefined, and it is taken as unchanged (notes/assumptions 28). -/
def Chip.unchanged (c : Chip) (t : Tlb) : Bool :=
  lookupNat c.mem.keyed (t.at_ / 64) != 0 || c.mem.read t.at_ 8 == withA t.entry

/-- D is set in an entry and in every cached copy of it (R56), unless it is set. -/
def Chip.setDirty (c : Chip) (t : Tlb) : Chip :=
  if peD t.entry then c
  else { c with
    mem := c.mem.setEntryBit t.at_ 6
    tlb := mapIf (fun u => u.same t) (fun u => { u with entry := u.entry + 64 }) c.tlb }

/-- What a walk that starts over from level 3 forgets (R56): whatever is cached of the partition's address, in every structure. -/
def Chip.forgetWalk (c : Chip) (pid va : Nat) : Chip :=
  { c with tlb := c.tlb.filter fun u => !(u.pid == pid && u.base ≤ va && va < u.base + u.size) }

/-! ### Physical places -/

/-- Place of a physical address of this package for a partition (R43 to R45, R54), or the fault. A target address in another package that is
not in its DRAM, so also one in a node window of that package, is a hole as seen from here (notes/assumptions 102). -/
def Chip.physical (c : Chip) (pid va pa key level entry : Nat) (nc : Bool) : Except AFault Place :=
  if pa / 2 ^ 47 % 2 = 1 then
    let nwt := (c.part pid).reg (0x020 + bits pa 43 4)
    let base := bits nwt 36 21
    let target := base * 2 ^ 43 + pa % 2 ^ 43
    let host := bitAt nwt 62
    let x := bits nwt 9 5
    let y := bits nwt 4 5
    let z := bits nwt 0 4
    if !bitAt nwt 63 || bits nwt 57 5 != 0 || bits nwt 14 22 != 0 then .error (xlF 0x2C level va entry)
    else if host then
      if x != 0 || y != 0 || z != 0 then .error (xlF 0x2C level va entry)
      else .ok { loc := locHost (target % 2 ^ 64), home := .host, key := key }
    else if base / 2 ^ 5 != 0 then .error (xlF 0x2C level va entry)
    else if x == c.tx && y == c.ty && z == c.tz then .error (xlF 0x2C level va entry)
    else if isDram (target % 2 ^ 48) then .ok { loc := locRemote x y z (target % 2 ^ 48), home := .remote, key := key }
    else .error (xlF 0x2B level va entry)
  else if isDram pa then .ok { loc := pa, home := .dram, key := key, cacheable := !nc }
  else .error (xlF 0x2B level va entry)

/-- Whether a key slot is assigned to a partition (R432). -/
def Part.hasKey (p : Part) (id : Nat) : Bool := bitAt (p.reg (0x060 + id / 64)) (id % 64)

/-- The mark that a line written under a key slot carries (R452): the keys alone decide what can read it back. -/
def KeySlot.mark (k : KeySlot) : Nat := k.content + 1

/-- The key mark of a page's KEY (R54), 0 for plaintext, or none when the slot is not loaded or not the partition's. -/
def Chip.keyVersion (c : Chip) (pid id : Nat) : Option Nat :=
  if id = 0 then some 0
  else if (c.part pid).hasKey id then (c.keys.find? fun k => k.id == id).map KeySlot.mark else none

/-- Own-scratchpad offset `o` of a core in a slot (R32). -/
def Part.spad (p : Part) (core o : Nat) : Option Nat :=
  let q := p.reg 0x040
  if o < bits q 32 6 * 2 ^ 16 then some (locCore core (bits q 0 5 * 2 ^ 16 + o)) else none

/-- Cluster offset `a` as seen from a core (R37, R38). -/
def Part.cluster (p : Part) (core a : Nat) : Option Nat :=
  let q := p.reg 0x041
  if a < bits q 32 5 * 2 ^ 20 then
    some (locCore (clusterMember core (a / 2 ^ 7 % 16)) (2 ^ 21 + bits q 0 4 * 2 ^ 16 + (a / 2 ^ 11 * 2 ^ 7 + a % 2 ^ 7)))
  else none

/-- Tower-scratchpad offset `o` of tower `t` (R39). -/
def Part.towerPad (p : Part) (t o : Nat) : Option Nat :=
  let q := p.reg 0x042
  if o < bits q 32 8 * 2 ^ 20 then some (locTower t (bits q 0 7 * 2 ^ 20 + o)) else none

/-! ### Residency (R141, R142) -/

/-- Index and region that cover a virtual address. -/
def findRegion (rs : List Region) (va : Nat) : Option (Nat × Region) :=
  (rs.zipIdx.find? fun r => r.1.vbase ≤ va && va < r.1.vbase + r.1.npg * 4096).map fun r => (r.2, r.1)

/-- The n-th byte of a list of physical spans. -/
def spanByte : List (Nat × Nat) → Nat → Option Nat
  | [], _ => none
  | (a, len) :: t, n => if n < len then some (a + n) else spanByte t (n - len)

/-- Byte of the map area that holds a page's state: regions lie one after the other (R141). -/
def mapOffset (rs : List Region) (q page : Nat) : Nat := ((rs.take q).map (·.npg)).foldl (· + ·) 0 + page

/-- Location of a page's state byte: the map area's physical places are those its range entry holds. -/
def Part.stateLoc (p : Part) (l : Launch) (tt : Timetable) (q page : Nat) : Option Nat :=
  match p.ranges.find? fun r => r.owner == .map l.lid with
  | some r => spanByte r.spans (mapOffset tt.regions q page)
  | none => none

/-- Place of byte `b` of a region at tier 0, 1 or 2, as seen from a core (R140). -/
def Part.tierPlace (p : Part) (l : Launch) (core : Nat) (r : Region) (tier b : Nat) : Option Nat :=
  match tier with
  | 0 =>
    let i := b / 2 ^ r.t0str
    let n := 2 ^ l.lw * 2 ^ l.lh
    let lin := i % n
    p.spad (coreAt (l.ox + lin % 2 ^ l.lw) (l.oy + lin / 2 ^ l.lw)) (r.t0off + i / n * 2 ^ r.t0str + b % 2 ^ r.t0str)
  | 1 => p.cluster core (r.t1off + b)
  | _ => p.towerPad r.t2twr (r.t2off * 4096 + b)

/-- A residency fault (R143, R420). -/
def resF (cause va q st : Nat) : AFault := { cause, addr := va, info0 := q + st * 2 ^ 16 }

/-- The fault of an access to a poisoned line at a location (R445, R420): MC_POISON. -/
def poisonF (va l : Nat) : AFault := { cause := 0x0A, addr := va, info0 := physAddr l }

/-- Where an access to a tier-managed page goes (R142): its home place, or a copy. The check reads the page's state byte, so it raises
MC_POISON where the byte's line is poisoned (R445). -/
def Chip.residency (c : Chip) (x : Actor) (k : AKind) (va : Nat) (home : Place) : Except AFault Place :=
  let p := c.part x.pid
  match p.launchAt x.core with
  | none => .error (resF 0x32 va 0 0)
  | some l =>
    match l.tt with
    | none => .error (resF 0x32 va 0 0)
    | some tt =>
      match findRegion tt.regions va with
      | none => .error (resF 0x32 va 0 0)
      | some (q, r) =>
        match p.stateLoc l tt q ((va - r.vbase) / 4096) with
        | none => .error (resF 0x32 va 0 0)
        | some sl =>
          let st := (c.mem.get sl).toNat
          let tier := st % 8
          let wr := k == .write || k == .atomic
          if (c.mem.poisoned sl 1).isSome then .error (poisonF va sl)
          else if bitAt st 5 then .error (resF 0x31 va q st)
          else if bitAt st 4 && wr then .error (resF 0x30 va q st)
          else if tier ≥ 3 then .ok { home with tier := some tier }
          else if tier == 1 && wr then .error (resF 0x33 va q st)
          else match p.tierPlace l x.core r tier (va - r.vbase) with
            | some loc => .ok { loc := loc, home := .window, tier := some tier }
            | none => .error (adF 0x21 va)

/-! ### The range table (R216, R217) -/

/-- Whether a range entry covers any of `n` bytes at a location. -/
def RangeEntry.covers (r : RangeEntry) (loc n : Nat) : Bool := r.spans.any fun s => s.1 < loc + n && loc < s.1 + s.2

/-- Whether an entry refuses an access: a residency map only writes, the others everything but their owner's. -/
def RangeEntry.refuses (r : RangeEntry) (x : Actor) (k : AKind) (loc n : Nat) : Bool :=
  r.covers loc n && x.owner != some r.owner &&
    match r.owner with
    | .map _ => k == .write || k == .atomic
    | _ => true

/-- The refusing entry with the lowest number. -/
def lowestRefusing (l : List RangeEntry) (x : Actor) (k : AKind) (loc n : Nat) : Option RangeEntry :=
  (l.filter fun r => r.refuses x k loc n).foldl (fun b r => match b with
    | none => some r
    | some s => if r.num < s.num then some r else some s) none

/-- Offset in a list of spans of the first of `n` bytes at a location that lies in them, with its location. -/
def spanOffset : List (Nat × Nat) → Nat → Nat → Option (Nat × Nat)
  | [], _, _ => none
  | (a, len) :: t, loc, n =>
    if a < loc + n && loc < a + len then some (max loc a - a, max loc a)
    else (spanOffset t loc n).map fun x => (x.1 + len, x.2)

/-- Region whose map holds byte `o` of the map area (R141). -/
def mapRegion : List Region → Nat → Nat
  | [], _ => 0
  | r :: t, o => if o < r.npg then 0 else mapRegion t (o - r.npg) + 1

/-- The fault of a refusing entry (R216, R420, R475). A residency map's carries the fields of the residency causes (R143): the region
whose map the access meets first, by the place of the byte in the map area of the entry's own launch, and that state byte. -/
def rangeF (c : Chip) (r : RangeEntry) (x : Actor) (va loc n : Nat) : AFault :=
  match r.owner with
  | .map lid =>
    match (c.part x.pid).launch lid, spanOffset r.spans loc n with
    | some l, some (o, a) => resF 0x34 va (mapRegion ((l.tt.map (·.regions)).getD []) o) (c.mem.get a).toNat
    | _, _ => resF 0x34 va 0 (c.mem.get loc).toNat
  | _ => { cause := 0x51, addr := va, info0 := r.num }

/-! ### From an address to a place -/

/-- Whether an address lies in a window of R47. -/
def inWindow (va : Nat) : Bool :=
  let o := va % 2 ^ 40
  match va / 2 ^ 40 with
  | 0xFFFF80 => o < 4096
  | 0xFFFF81 => o < 2 ^ 21
  | 0xFFFF82 => o < 2 ^ 31
  | 0xFFFF83 => o < 2 ^ 24
  | 0xFFFF84 => o < 2 ^ 30 && o % 2 ^ 28 < 2 ^ 27
  | _ => false

/-- A window address (R47), or `none` for the paged range; `size` bytes are accessed. -/
def Chip.window (c : Chip) (x : Actor) (k : AKind) (va : Nat) : Except AFault Place :=
  let p := c.part x.pid
  let o := va % 2 ^ 40
  let quota : Option Nat → Except AFault Place := fun l => match l with
    | some loc => .ok { loc := loc }
    | none => .error (adF 0x21 va)
  if va / 2 ^ 40 = 0xFFFF80 then
    if o ≥ 4096 then .error (adF 0x20 va)
    else match c.inst? x.iid with
      | none => .error (adF 0x21 va)
      | some i =>
        if o ≥ i.slice * 256 then .error (adF 0x21 va)
        else if o < 256 && (k == .write || k == .atomic) then .error (adF 0x24 va)
        else .ok { loc := locSlice i.iid o }
  else if va / 2 ^ 40 = 0xFFFF81 then
    if o ≥ 2 ^ 21 then .error (adF 0x20 va) else quota (p.spad x.core o)
  else if va / 2 ^ 40 = 0xFFFF82 then
    if o ≥ 2 ^ 31 then .error (adF 0x20 va)
    else
      let dx := bits o 21 5
      let dy := bits o 26 5
      let (ox, oy, w, h) := c.rect x.pid x.core
      if dx ≥ w || dy ≥ h then .error (adF 0x22 va) else quota (p.spad (coreAt (ox + dx) (oy + dy)) (o % 2 ^ 21))
  else if va / 2 ^ 40 = 0xFFFF83 then
    if o ≥ 2 ^ 24 then .error (adF 0x20 va) else quota (p.cluster x.core o)
  else if va / 2 ^ 40 = 0xFFFF84 then
    if o ≥ 2 ^ 30 || o % 2 ^ 28 ≥ 2 ^ 27 then .error (adF 0x20 va) else quota (p.towerPad (o / 2 ^ 28) (o % 2 ^ 28))
  else .error (adF 0x20 va)

/-- Permission of a leaf (R53). -/
def permits (k : AKind) (e : Nat) : Bool :=
  match k with
  | .read => peRD e
  | .write => peWR e
  | .atomic => peRD e && peWR e
  | .fetch => peCode e

/-- Where the leaf of a translation leads: permission, physical place, key. -/
def Chip.leafPlace (c : Chip) (pid : Nat) (k : AKind) (va : Nat) (t : Tlb) : Except AFault Place :=
  let lv := levelOf t.size
  if !permits k t.entry then .error (xlF 0x29 lv va t.entry)
  else match c.physical pid va (peFrame t.entry + (va - t.base)) 0 lv t.entry (peNC t.entry) with
    | .error f => .error f
    | .ok pl => match c.keyVersion pid (peKey t.entry) with
      | none => .error (xlF 0x2D lv va t.entry)
      | some key => .ok { pl with key := key, kid := peKey t.entry }

/-- Translate for a core and check the leaf; an access that writes sets D (R56): only one that is refused nowhere sets it. Where the entry
has changed since it was cached, the walk starts over from level 3; nothing else acts before D is set in what that walk finds. To set D
reads the entry, so a poisoned line of the page table raises MC_POISON (R445). -/
def Chip.translated (c : Chip) (core pid : Nat) (setD : Bool) (va : Nat) (check : Chip → Tlb → Except AFault Place) :
    Except AFault Place × Chip :=
  match c.translate core pid va with
  | (.error f, c) => (.error f, c)
  | (.ok t, c) =>
    match check c t with
    | .error f => (.error f, c)
    | .ok pl =>
      if !setD || peD t.entry then (.ok pl, c)
      else if (c.mem.poisoned t.at_ 8).isSome then (.error (poisonF va t.at_), c)
      else if c.unchanged t then (.ok pl, c.setDirty t)
      else
        match (c.forgetWalk pid va).translate core pid va with
        | (.error f, c) => (.error f, c)
        | (.ok t, c) =>
          match check c t with
          | .error f => (.error f, c)
          | .ok pl => (.ok pl, c.setDirty t)

/-- A paged access: translation, permission, physical place, key, residency, D. -/
def Chip.paged (c : Chip) (x : Actor) (k : AKind) (setD : Bool) (va : Nat) : Except AFault Place × Chip :=
  c.translated x.core x.pid setD va fun c t =>
    match c.leafPlace x.pid k va t with
    | .error f => .error f
    | .ok pl => if peTM t.entry then c.residency x k va pl else .ok pl

/-- CheckAccess of R192 for `n` bytes within one page or window piece, but for poison: where the access goes, or the fault. `setD` for
an access that writes (R56). -/
def Chip.reach (c : Chip) (x : Actor) (k : AKind) (setD : Bool) (va n : Nat) : Except AFault Place × Chip :=
  let (r, c) := if va < 2 ^ 52 then c.paged x k setD va else (c.window x k va, c)
  match r with
  | .error f => (.error f, c)
  | .ok pl =>
    match lowestRefusing (c.part x.pid).ranges x k pl.loc n with
    | some e => (.error (rangeF c e x va pl.loc n), c)
    | none => (.ok pl, c)

/-- CheckAccess of R192 for `n` bytes within one page or window piece: where the access goes, or the fault. A write that covers a poisoned
line, alone or with the rest of its command (`whole`), may go there (R445). -/
def Chip.resolve (c : Chip) (x : Actor) (k : AKind) (setD : Bool) (va n : Nat) : Except AFault Place × Chip :=
  match c.reach x k setD va n with
  | (.error f, c) => (.error f, c)
  | (.ok pl, c) =>
    let poison := if k == .write then if x.whole.contains (va / 64) then none else c.mem.poisonedPart pl.loc n
      else c.mem.poisoned pl.loc n
    match poison with
    | some l => let at_ := max pl.loc (l * 64); (.error (poisonF (va + (at_ - pl.loc)) at_), c)
    | none => (.ok pl, c)

/-- An instruction's access of 1, 2, 4 or 8 bytes: alignment first (R48). -/
def Chip.access (c : Chip) (x : Actor) (k : AKind) (setD : Bool) (va n : Nat) : Except AFault Place × Chip :=
  if va % n ≠ 0 then (.error (adF 0x23 va), c) else c.resolve x k setD va n

/-! ### Reading and writing at a place -/

/-- Register `g` of an instance as slice bytes (R30). -/
def Inst.regWord (i : Inst) (g : Nat) : Nat := ((i.regs.toList.getD g {}).v).toNat
def Inst.regTaint (i : Inst) (g : Nat) : Bool := (i.regs.toList.getD g {}).taint

/-- The fault of a read, or of a write, which is of part of a line, of a register whose line of the slice is poisoned (R30, R445). -/
def Chip.regPoison (c : Chip) (iid g : Nat) : Option AFault :=
  (c.mem.poisoned (locSlice iid (8 * g)) 8).map fun _ => { cause := 0x0A, addr := 0xFFFF80 * 2 ^ 40 + 8 * g, info0 := 8 * g }

/-- Whether a location is a register byte of a slice. -/
def isRegLoc (loc : Nat) : Bool := 2 ^ 56 ≤ loc && loc < 2 ^ 100 && loc % 2 ^ 12 < 256

/-- `n` bytes at a place from memory itself, as a number, with their taint. -/
def Chip.readPlace (c : Chip) (pl : Place) (n : Nat) : Nat × Bool × Chip :=
  if isRegLoc pl.loc then
    let i := c.inst ((pl.loc - 2 ^ 56) / 2 ^ 12)
    let o := pl.loc % 2 ^ 12
    (bits (i.regWord (o / 8)) (o % 8 * 8) (8 * n), i.regTaint (o / 8), c)
  else
    let (bs, c) := c.takeBytes pl.loc pl.key n
    (leNat bs, c.mem.tainted pl.loc n, c)

/-- Whether a line of a load cache serves an instance's load from a place. -/
def CacheLine.serves (l : CacheLine) (iid : Nat) (pl : Place) : Bool := l.line == pl.loc / 128 && l.key == pl.key && !l.stale.contains iid

/-- A plain load's read: the core's load cache may serve it, and takes the line in (R41, R196) unless some of it is poisoned (R445);
`alloc` is off for `LDNT` (R194). A load that reads memory itself, through a mapping that is not cacheable too, comes before the core's
later loads of the line, so the line goes (R208). -/
def Chip.readCached (c : Chip) (core iid : Nat) (pl : Place) (n : Nat) (alloc : Bool) : Nat × Bool × Chip :=
  if pl.cacheable && pl.tier.getD 3 ≥ 3 then
    match (c.coreSt core).lcache.find? fun l => l.serves iid pl with
    | some l => (leNat ((l.bytes.drop (pl.loc % 128)).take n), l.taint.getD (pl.loc / 64 % 2) false, c)
    | none =>
      let (v, t, c) := (c.dropLine core pl.loc).readPlace pl n
      let a := pl.loc / 128 * 128
      if alloc && (c.mem.poisoned a 128).isNone then
        let (bs, c) := c.takeBytes a pl.key 128
        (v, t, c.modCore core fun k =>
          let l : CacheLine := { line := pl.loc / 128, bytes := bs, taint := [c.mem.tainted a 64, c.mem.tainted (a + 64) 64], key := pl.key }
          { k with lcache := (k.lcache ++ [l]).drop (k.lcache.length + 1 - 512) })
      else (v, t, c)
  else (c.dropLine core pl.loc).readPlace pl n

/-- A write of `n` bytes by an instruction: the line's taint only grows (R218), and the writing core's cached copy follows (R41). -/
def Chip.writePlace (c : Chip) (core : Nat) (pl : Place) (n v : Nat) (taint : Bool) : Chip :=
  let c := c.putBytes pl.loc pl.key (leBytes n v)
  let c := { c with mem := c.mem.addTaint pl.loc n taint }
  if pl.home == .dram then c.updateLine core pl.loc (leBytes n v) taint else c

/-- Pieces of a range of virtual addresses that lie within 64-byte lines: an engine accesses line by line (R218). -/
def pieces (va n : Nat) : List (Nat × Nat) :=
  (linesOf va n).map fun l =>
    let s := max va (l * 64)
    let e := min (va + n) (l * 64 + 64)
    (s, e - s)

/-- An engine's read of `n` bytes: its bytes and taint, or the fault of the lowest piece. -/
def Chip.engineRead (c : Chip) (x : Actor) (va n : Nat) : Except AFault (List Byte × Bool) × Chip :=
  (pieces va n).foldl (fun (r, c) (a, k) =>
    match r with
    | .error f => (.error f, c)
    | .ok (bs, t) =>
      match c.resolve x .read false a k with
      | (.error f, c) => (.error f, c)
      | (.ok pl, c) =>
        if isRegLoc pl.loc then
          let i := c.inst ((pl.loc - 2 ^ 56) / 2 ^ 12)
          let o := pl.loc % 2 ^ 12
          let b := (List.range k).map fun j => BitVec.ofNat 8 (i.regWord ((o + j) / 8) / 256 ^ ((o + j) % 8))
          (.ok (bs ++ b, t || (List.range k).any fun j => i.regTaint ((o + j) / 8)), c)
        else
          let (b, c) := c.takeBytes pl.loc pl.key k
          (.ok (bs ++ b, t || c.mem.tainted pl.loc k), c)) (.ok ([], false), c)

/-- The places of an engine's write of `n` bytes, each with its first byte's offset and length, or the fault of the lowest piece. -/
def Chip.enginePlaces (c : Chip) (x : Actor) (va n : Nat) : Except AFault (List (Place × Nat × Nat)) × Chip :=
  (pieces va n).foldl (fun (r, c) (a, k) =>
    match r with
    | .error f => (.error f, c)
    | .ok ps =>
      match c.resolve x .write true a k with
      | (.error f, c) => (.error f, c)
      | (.ok pl, c) => (.ok (ps ++ [(pl, a - va, k)]), c)) (.ok [], c)

/-- Write bytes at places found: whole lines take the data's taint, parts add it; whole lines lose their poison (R218, R445).
No load cache follows an engine's write (R41). -/
def Chip.putPlaces (c : Chip) (ps : List (Place × Nat × Nat)) (bs : List Byte) (taint : Bool) : Chip :=
  ps.foldl (fun c (pl, o, k) =>
    let b := (bs.drop o).take k
    let c := c.putBytes pl.loc pl.key b
    { c with mem := (c.mem.engineTaint pl.loc k taint).clearPoison pl.loc k }) c

/-- An engine's write of bytes at a virtual address: all of it, or the fault and nothing. -/
def Chip.engineWrite (c : Chip) (x : Actor) (va : Nat) (bs : List Byte) (taint : Bool) : Except AFault Unit × Chip :=
  match c.enginePlaces x va bs.length with
  | (.error f, c) => (.error f, c)
  | (.ok ps, c) => (.ok (), c.putPlaces ps bs taint)

/-- 64-bit words of a descriptor or image at a virtual address. -/
def Chip.readWords (c : Chip) (x : Actor) (va n : Nat) : Except AFault (List Nat) × Chip :=
  match c.engineRead x va (8 * n) with
  | (.error f, c) => (.error f, c)
  | (.ok (bs, _), c) => (.ok ((List.range n).map fun k => leNat ((bs.drop (8 * k)).take 8)), c)

/-- The blocks of `2 ^ g` bytes of a virtual range: where each begins and how much of it lies in the range. -/
def blocksOf (g va n : Nat) : List (Nat × Nat) :=
  if n = 0 then [] else (List.range ((va + n - 1) / 2 ^ g - va / 2 ^ g + 1)).map fun k =>
    let b := (va / 2 ^ g + k) * 2 ^ g
    (max va b, min (va + n) (b + 2 ^ g) - max va b)

/-- Where a byte of a virtual range lies, without a check of the range table. -/
def Chip.placed (c : Chip) (x : Actor) (k : AKind) (va : Nat) : Except AFault Place × Chip :=
  if va < 2 ^ 52 then c.paged x k false va else (c.window x k va, c)

/-- Physical spans of a virtual range, for a range entry, without checks of the range table: pieces of at most 4 KiB of a page, of 128 bytes
in a window or a tier-1 copy, where each may lie in another member of the cluster (R37). -/
def Chip.spans (c : Chip) (x : Actor) (k : AKind) (va n : Nat) : Except AFault (List (Nat × Nat)) × Chip :=
  let add := fun (r : Except AFault (List (Nat × Nat)) × Chip) (b : Nat × Nat) => match r with
    | (.error f, c) => (.error f, c)
    | (.ok l, c) => match c.placed x k b.1 with
      | (.error f, c) => (.error f, c)
      | (.ok pl, c) => (.ok (l ++ [(pl.loc, b.2)]), c)
  (blocksOf 12 va n).foldl (fun r b => match r with
    | (.error f, c) => (.error f, c)
    | (.ok l, c) => match c.placed x k b.1 with
      | (.error f, c) => (.error f, c)
      | (.ok pl, c) =>
        if b.1 < 2 ^ 52 && pl.tier != some 1 then (.ok (l ++ [(pl.loc, b.2)]), c)
        else (blocksOf 7 b.1 b.2).foldl add (.ok l, c)) (.ok [], c)

end Sys2Proof.Machine
end

