-- ==== Sys2Proof/Machine/Operands.lean ====
section
/-! DEFINITION. The operand forms of an instruction word and its life in a block: the slots it has (R104, R115), its class (R116), firing,
predicates and nulls (R104 to R108), sending results (R106), and the shapes that the meanings are built on: class T, L, W, C, B at
firing, a load at its performance, and a commit-class or branch action at commit (R109 to R111). -/

namespace Sys2Proof.Machine

/-! ### Facts of a word -/

/-- Opcode of a word. -/
def opOf (w : Nat) : Nat := bits w 23 9

/-- Data slots of the opcodes from 0x000 (R122). -/
def plumbingSlots : List Nat := [0, 0, 1, 0, 1, 0, 1, 0, 0, 0, 0]
/-- Data slots of the opcodes from 0x040 (R225 to R229). -/
def integerSlots : List Nat :=
  [2, 1, 2, 2, 1, 2, 2, 3, 2, 2, 2, 2, 1, 1, 2, 2, 2, 2, 2, 2, 2, 1, 2, 1, 2, 1, 2, 1, 2, 1, 2, 1, 2, 1, 2, 2, 2, 1, 1]
/-- Data slots of the opcodes from 0x080 (R230 to R234). -/
def compareSlots : List Nat := [2, 2, 2, 2, 2, 2, 1, 1, 1, 1, 1, 1, 3, 1, 1, 1, 1, 1, 2, 2, 3, 2, 1]
/-- Data slots of the opcodes from 0x0C0 (R246 to R259). -/
def floatSlots : List Nat :=
  [2, 2, 2, 3, 3, 2, 1, 2, 2, 1, 1, 2, 2, 2, 2, 2, 1, 1, 2, 1, 1, 1, 1, 2, 1, 1, 1, 1, 1, 1, 2]

/-- Data slots of the opcodes from 0x100 (R190, R197, R202, R211 to R213). -/
def memorySlots (op : Nat) : Nat :=
  if op ≤ 0x114 || op = 0x121 then 1
  else if op ≤ 0x120 then 2
  else if op = 0x12B || op = 0x137 then 3
  else if op ≤ 0x139 then 2
  else if op = 0x13A then 0
  else if op ≤ 0x13D then 1 else 0

/-- Data slots of the opcodes from 0x140 (R153, R384). -/
def flowSlots (op w : Nat) : Nat :=
  match op with
  | 0x141 | 0x143 | 0x144 | 0x14A | 0x14C | 0x151 | 0x152 | 0x155 => 1
  | 0x147 => 1 + min (bits w 9 2) 2
  | 0x148 | 0x150 => 2
  | 0x149 | 0x14F => 3
  | 0x14D => min (bits w 0 2 + 1) 3
  | 0x153 => if bits w 18 3 = 1 then 1 else 0
  | _ => 0

/-- Data slots of the opcodes from 0x180 (R150, R154, R180, R288, R312, R332, R354); resume and abandon forms have none. -/
def engineSlots (op w : Nat) : Nat :=
  match op with
  | 0x180 | 0x181 | 0x182 | 0x183 | 0x184 => if bits w 9 2 = 0 then 3 else 0
  | 0x185 => if bitAt w 12 then 2 else 1
  | 0x186 | 0x188 | 0x189 | 0x19A => 2
  | 0x187 | 0x18E | 0x191 | 0x192 | 0x194 | 0x195 => 1
  | 0x18A => if bits w 9 4 = 0 then 1 else 0
  | 0x18B | 0x18C => if bits w 0 2 = 0 then 3 else 0
  | 0x18F | 0x190 | 0x193 | 0x198 => if bits w 0 2 = 0 then 1 else 0
  | 0x196 => if bitAt w 4 then 3 else 2
  | 0x199 => 3
  | _ => 0

/-- Data slots of the opcodes from 0x1C0 (R425, R427, R435 to R437). -/
def systemSlots (op w : Nat) : Nat :=
  match op with
  | 0x1C0 | 0x1C2 | 0x1C3 | 0x1C6 | 0x1C9 => 1
  | 0x1C1 => if bits w 18 3 = 1 || bits w 18 3 = 2 then 2 else 1
  | 0x1C4 => match bits w 0 2 with | 0 => 2 | 2 => 0 | _ => 1
  | 0x1C5 => if bits w 0 2 = 2 then 0 else 1
  | 0x1C7 => if bits w 0 2 = 2 then 2 else 1
  | 0x1C8 => if bitAt w 0 then 1 else 2
  | _ => 0

/-- How many data slots a word has (R104): a, then b, then c. A reserved opcode has none (R102). A value of a field that the instruction
does not define counts as its nearest defined one does: the model's choice (notes/assumptions 91). -/
def slotCount (w : Nat) : Nat :=
  let op := opOf w
  if op < 0x040 then plumbingSlots.getD op 0
  else if op < 0x080 then integerSlots.getD (op - 0x040) 0
  else if op < 0x0C0 then compareSlots.getD (op - 0x080) 0
  else if op < 0x100 then floatSlots.getD (op - 0x0C0) 0
  else if op < 0x140 then memorySlots op
  else if op < 0x180 then flowSlots op w
  else if op < 0x1C0 then engineSlots op w
  else systemSlots op w

/-- Whether a word's format has a PM field (R100): formats C and X have none. -/
def hasPm (w : Nat) : Bool :=
  let op := opOf w
  !(op == 0x001 || op == 0x002 || op == 0x003 || op == 0x005 || op == 0x006)

/-- PM of a word, 0 where the format has none (R101). -/
def pmOf (w : Nat) : Nat := if hasPm w then bits w 21 2 else 0

/-- Store-ID field of a word (R103). -/
def lsidOf (w : Nat) : Nat := bits w 16 5

/-- Classes (R116). -/
inductive Cls where
  | nop | write | T | L | W | C | B
  deriving DecidableEq, Repr

/-- Class of a word's opcode (R117). -/
def classOf (w : Nat) : Cls :=
  let op := opOf w
  if op = 0x000 then .nop
  else if op = 0x002 then .write
  else if op = 0x008 then .C
  else if op < 0x100 then .T
  else if op ≤ 0x114 || op = 0x121 then .L
  else if op = 0x13B || op = 0x14A || op = 0x155 || op = 0x185 || op = 0x186 then .W
  else if op = 0x13C || op = 0x153 || op = 0x18A || op = 0x195 || op = 0x1C2 || op = 0x1C6 || op = 0x1C9 then .T
  else if (0x140 ≤ op && op ≤ 0x146) || op = 0x1C1 then .B
  else .C

/-- Engine commands: the class-C instructions of 0x180 to 0x1BF (R117). -/
def isEngineCmd (w : Nat) : Bool := 0x180 ≤ opOf w && opOf w ≤ 0x1BF && classOf w == .C

/-- Result latencies of the opcodes from 0x080 (R222). -/
def compareLatency (op : Nat) : Nat := if 0x092 ≤ op && op ≤ 0x094 then 2 else 1

/-- Result latencies of the opcodes from 0x0C0 (R237); `m` is the M field. -/
def floatLatency (op m : Nat) : Nat :=
  if op ≤ 0x0C4 then 4
  else if op ≤ 0x0C6 then [30, 16].getD m 10
  else if op ≤ 0x0D0 || op = 0x0D3 then 1
  else if op ≤ 0x0D7 then 2
  else if op = 0x0DE then 6 else 10

/-- Cycles from an instruction's issue to the arrival of its result (R108, R122, R154, R213, R222, R237, R334, R393, R425). -/
def latencyOf (w : Nat) : Nat :=
  let op := opOf w
  if op < 0x043 then 1
  else if op < 0x080 then (if op ≤ 0x044 then 3 else if op ≤ 0x047 then 4 else if op ≤ 0x04B then 4 + 32 / 2 ^ bits w 18 2 else 1)
  else if op < 0x0C0 then compareLatency op
  else if op < 0x100 then floatLatency op (bits w 18 3)
  else match op with
    | 0x13C => 2
    | 0x153 | 0x195 | 0x1C2 | 0x1C9 => 4
    | 0x18A => 20
    | _ => 1

/-- Instruction word `k` of a frame. -/
def Frame.word (f : Frame) (k : Nat) : Nat := f.words.getD k 0
/-- Slots of instruction `k`. -/
def Frame.cell (f : Frame) (k : Nat) : Cell := f.cells.getD k {}
def Frame.setCell (f : Frame) (k : Nat) (c : Cell) : Frame := { f with cells := f.cells.set k c }

/-! ### Predicates and readiness -/

/-- Whether a predicate token makes an instruction fire (R101, R105, R107): a null one does not. -/
def pmMatches (pm : Nat) : Tok → Bool
  | .null => false
  | .val v _ => if pm = 1 then v.toNat % 2 == 1 else v.toNat % 2 == 0

/-- The predicate has arrived and does not match: the instruction never fires (R105). -/
def predFailed (w : Nat) (c : Cell) : Bool :=
  pmOf w != 0 && match c.p with
    | some t => !pmMatches (pmOf w) t
    | none => false

/-- The predicate matches, or there is none. -/
def predOk (w : Nat) (c : Cell) : Bool :=
  pmOf w == 0 || match c.p with
    | some t => pmMatches (pmOf w) t
    | none => false

/-- The first `n` data slots are filled. -/
def dataFull (n : Nat) (c : Cell) : Bool := (n < 1 || c.a.isSome) && (n < 2 || c.b.isSome) && (n < 3 || c.c.isSome)

/-- Whether instruction `k` may fire (R104). -/
def Frame.ready (f : Frame) (k : Nat) : Bool :=
  k < f.words.length && !(f.cell k).fired && classOf (f.word k) != .nop && predOk (f.word k) (f.cell k)
    && dataFull (slotCount (f.word k)) (f.cell k)

/-- A `READ` of a pending register waits (R112). -/
def Inst.canFire (i : Inst) (f : Frame) (k : Nat) : Bool :=
  f.ready k && !(opOf (f.word k) == 0x001 && (i.regs.toList.getD (bits (f.word k) 18 5) {}).pend)

/-- Data tokens of instruction `k` in slot order. -/
def Frame.data (f : Frame) (k : Nat) : List Tok :=
  let c := f.cell k
  ([c.a, c.b, c.c].take (slotCount (f.word k))).map fun t => t.getD .null

/-- Taint of the predicate token of instruction `k`. -/
def Frame.predTaint (f : Frame) (k : Nat) : Bool :=
  pmOf (f.word k) != 0 && match (f.cell k).p with
    | some (.val _ t) => t
    | _ => false

/-- Whether instruction `k` fires on a null data token (R107), and so takes no issue slot. -/
def Frame.onNull (f : Frame) (k : Nat) : Bool := (f.data k).contains .null

/-- Whether instruction `k` takes an issue slot when it fires (R107, R108). -/
def Frame.takesSlot (f : Frame) (k : Nat) : Bool :=
  !f.onNull k && opOf (f.word k) != 0x002 && opOf (f.word k) != 0x008

/-- The cycle by which the tokens of an instruction have arrived. -/
def Cell.due (c : Cell) : Nat := max (max c.ca c.cb) (max c.cc c.cp)

/-- Whether an instruction uses its lane's divider (R226, R260): the integer divisions, `FDIV`, `FSQRT`. -/
def divides (w : Nat) : Bool := (0x048 ≤ opOf w && opOf w ≤ 0x04B) || opOf w == 0x0C5 || opOf w == 0x0C6

/-- The cycle in which instruction `k` may fire (R107, R108): once its tokens have arrived and, if it takes an issue slot, one is free, and
the divider too where it divides (R226, R260). -/
def Frame.fireTime (f : Frame) (k : Nat) : Nat :=
  if f.takesSlot k then max (max f.now (f.cell k).due) (if divides (f.word k) then f.div else 0) else (f.cell k).due

/-- Instruction `k` fires (R104, R107, R108): an issue takes one cycle, and a result arrives after the instruction's latency. A division
holds the divider for its latency less 4 (R226, R260). -/
def Frame.issue (f : Frame) (k : Nat) : Frame :=
  let t := f.fireTime k
  { f.setCell k { f.cell k with fired := true } with
    now := if f.takesSlot k then t + 1 else max f.now t
    last := t
    arrival := t + if f.onNull k then 1 else latencyOf (f.word k)
    div := if f.takesSlot k && divides (f.word k) then t + latencyOf (f.word k) - 4 else f.div }

/-- What is sent now arrives now: the result of a load or of a held wait. -/
def Frame.async (f : Frame) : Frame := { f with arrival := f.now }

/-! ### Operands -/

/-- The operands of an instruction: values and taints of slots a, b, c, and the taint of slot p; an absent slot holds 0, untainted. -/
structure Operands where
  a  : Word := 0
  b  : Word := 0
  c  : Word := 0
  ta : Bool := false
  tb : Bool := false
  tc : Bool := false
  tp : Bool := false
  deriving DecidableEq, Repr

def Tok.value : Tok → Word
  | .null => 0
  | .val v _ => v
def Tok.tainted : Tok → Bool
  | .null => false
  | .val _ t => t

/-- Operands from data tokens and the taint of the predicate. -/
def operandsOf (l : List Tok) (tp : Bool) : Operands :=
  let t := fun k => l.getD k .null
  { a := (t 0).value, b := (t 1).value, c := (t 2).value,
    ta := (t 0).tainted, tb := (t 1).tainted, tc := (t 2).tainted, tp := tp }

/-- OR of the taints of every token consumed (R106). -/
def Operands.taint (o : Operands) : Bool := o.ta || o.tb || o.tc || o.tp

/-! ### Sending -/

/-- The token in a slot of a cell. -/
def Cell.at (c : Cell) : Sys2Proof.Slot → Option Tok
  | .a => c.a | .b => c.b | .c => c.c | .p => c.p
/-- The cycle in which the token of a slot arrives. -/
def Cell.when (c : Cell) : Sys2Proof.Slot → Nat
  | .a => c.ca | .b => c.cb | .c => c.cc | .p => c.cp
/-- A cell with a slot filled by a token that arrives in cycle `n`. -/
def Cell.fill (c : Cell) (t : Tok) (n : Nat) : Sys2Proof.Slot → Cell
  | .a => { c with a := some t, ca := n } | .b => { c with b := some t, cb := n }
  | .c => { c with c := some t, cc := n } | .p => { c with p := some t, cp := n }

/-- What would reach filled slots, less what instruction `k` discards once its predicate has failed (R105). -/
def Frame.discard (f : Frame) (k : Nat) : Frame :=
  if predFailed (f.word k) (f.cell k) then
    { f with clash := f.clash.filter fun x => x.2 != k || decide (x.1 < (f.cell k).cp) }
  else f

/-- Send one token (R105, R106, R108). It is discarded where the receiver's predicate fails by its arrival; of two tokens for one slot the one
that arrives first fills it, and the other will reach a filled slot. -/
def Frame.send (f : Frame) (g : Target) (t : Tok) : Frame :=
  let k := g.index.toNat
  let c := f.cell k
  if predFailed (f.word k) c && decide (c.cp ≤ f.arrival) then f
  else if (c.at g.slot).isNone then (f.setCell k (c.fill t f.arrival g.slot)).discard k
  else
    let f' := { f with clash := f.clash ++ [(max f.arrival (c.when g.slot), k)] }
    (if f.arrival < c.when g.slot then f'.setCell k (c.fill t f.arrival g.slot) else f').discard k

/-- Send a token to every valid target. -/
def Frame.sendAll (f : Frame) (gs : List (Option Target)) (t : Tok) : Frame :=
  gs.foldl (fun f g => match g with
    | none => f
    | some g => f.send g t) f

/-- Smallest element of a list of numbers. -/
def leastOf : List Nat → Option Nat
  | [] => none
  | a :: t => match leastOf t with
    | none => some a
    | some b => some (min a b)

/-- Set an instance's frame. -/
def Chip.setFrame (c : Chip) (iid : Nat) (f : Frame) : Chip := c.modInst iid fun i => { i with frame := some f }

/-- An instruction's result goes to its targets. -/
def Chip.sendTo (c : Chip) (iid : Nat) (gs : List (Option Target)) (t : Tok) : Chip :=
  match (c.inst iid).frame with
  | none => c
  | some f => c.setFrame iid (f.sendAll gs t)

/-! ### Firing -/

/-- Whether a block execution has completed (R109): its writes, its store IDs, its branch. -/
def Frame.isDone (f : Frame) : Bool :=
  f.writes.length == bits f.hdr 11 5 && (List.range (bits f.hdr 6 5)).all (fun n => f.resolved.contains n) && f.branch.isSome

/-- The receiver at which `BLK_SLOT_TWICE` is due (R106, R113): the first token that reaches a filled slot does so by the cycle in which the
block completes and before any instruction can fire; of one cycle what has the lowest index comes first. That the record names the receiver
is the model's choice (notes/assumptions 99). -/
def Inst.clashDue (i : Inst) (f : Frame) : Option Nat :=
  match leastOf (f.clash.map Prod.fst) with
  | none => none
  | some t =>
    match leastOf ((f.clash.filter fun x => x.1 == t).map Prod.snd) with
    | none => none
    | some n =>
      if (f.isDone && decide (f.last < t)) || (List.range f.words.length).any fun k =>
          i.canFire f k && (decide (f.fireTime k < t) || (f.fireTime k == t && decide (k < n))) then none
      else some n

/-- Fire the instruction at a focus if it may fire (R104): `k` gets the chip with the instruction marked as fired, the instance, its
frame and index. An instruction that may not fire changes nothing. Where a token has reached a filled slot the block faults instead (R106). -/
def Chip.fire (c : Chip) (fo : Focus) (k : Chip → Inst → Frame → Chip) : Chip :=
  match c.inst? fo.iid with
  | none => c
  | some i =>
    match i.frame with
    | none => c
    | some f =>
      if i.state != .running then c
      else if let some n := i.clashDue f then c.takeFault i.iid n { cause := 0x11 }
      else if i.canFire f fo.idx then
        let i := if f.takesSlot fo.idx then i.issued else i
        let f := f.issue fo.idx
        let i := { i with frame := some f }
        k (c.setInst i) i f
      else c

/-- A result: its value and taint, or the fault that the instruction raises. -/
abbrev Res := Except AFault (Word × Bool)

/-- Class T (R116): compute and send; null where an operand is null (R107). -/
def Chip.fireT (c : Chip) (fo : Focus) (gs : List (Option Target)) (g : Chip → Inst → Frame → Operands → Res × Chip) : Chip :=
  c.fire fo fun c i f =>
    if f.onNull fo.idx then c.sendTo i.iid gs .null
    else match g c i f (operandsOf (f.data fo.idx) (f.predTaint fo.idx)) with
      | (.ok (v, t), c) => c.sendTo i.iid gs (.val v t)
      | (.error e, c) => c.takeFault i.iid fo.idx e

/-- Class T without side effect: the result's taint is the OR of the operands' (R106). -/
def Chip.firePure (c : Chip) (fo : Focus) (gs : List (Option Target)) (g : Operands → Word) : Chip :=
  c.fireT fo gs fun c _ _ o => (.ok (g o, o.taint), c)

/-- Class T on numbers: values of a, b, c to the value of the result (R220). -/
def Chip.fireNat (c : Chip) (fo : Focus) (gs : List (Option Target)) (g : Nat → Nat → Nat → Nat) : Chip :=
  c.firePure fo gs fun o => BitVec.ofNat 64 (g o.a.toNat o.b.toNat o.c.toNat)

/-- Class T of the floating-point group: the flags join the block's set, with the taint of the result (R241, R242). -/
def Chip.fireFloat (c : Chip) (fo : Focus) (gs : List (Option Target)) (g : RMode → Nat → Nat → Nat → Nat × FFlags) : Chip :=
  c.fire fo fun c i f =>
    let o := operandsOf (f.data fo.idx) (f.predTaint fo.idx)
    let f := { f with fpTaint := f.fpTaint || o.taint }
    if f.onNull fo.idx then (c.setFrame i.iid f).sendTo i.iid gs .null
    else
      let (v, x) := g i.fpc.rm o.a.toNat o.b.toNat o.c.toNat
      (c.setFrame i.iid { f with flags := f.flags.or x }).sendTo i.iid gs (.val (BitVec.ofNat 64 v) o.taint)

/-- A commit-class instruction that fires resolves its store ID (R109): a second resolution faults. -/
def Chip.resolveId (c : Chip) (iid idx : Nat) (f : Frame) (act : Option Act) : Chip :=
  let n := lsidOf (f.word idx)
  if f.resolved.contains n then c.takeFault iid idx { cause := 0x12 }
  else c.setFrame iid { f with resolved := f.resolved ++ [n], acts := f.acts ++ act.toList }

/-- Class C at firing (R107, R109, R116): its operands are kept for commit. `check` gives a fault it raises as it fires (R417). -/
def Chip.fireC (c : Chip) (fo : Focus) (check : Inst → Option AFault := fun _ => none) : Chip :=
  c.fire fo fun c i f =>
    match check i with
    | some e => c.takeFault i.iid fo.idx e
    | none =>
      c.resolveId i.iid fo.idx f (some { lsid := lsidOf (f.word fo.idx), idx := fo.idx, ops := f.data fo.idx,
                                         ptaint := f.predTaint fo.idx, null := f.onNull fo.idx })

/-- Class B at firing (R107, R109): a null operand and a second branch fault. `check` gives a fault raised before all else (R417). -/
def Chip.fireB (c : Chip) (fo : Focus) (g : Inst → Frame → Operands → Except AFault Branch)
    (check : Inst → Option AFault := fun _ => none) : Chip :=
  c.fire fo fun c i f =>
    if let some e := check i then c.takeFault i.iid fo.idx e
    else if f.onNull fo.idx then c.takeFault i.iid fo.idx { cause := 0x14 }
    else if f.branch.isSome then c.takeFault i.iid fo.idx { cause := 0x13 }
    else match g i f (operandsOf (f.data fo.idx) (f.predTaint fo.idx)) with
      | .error e => c.takeFault i.iid fo.idx e
      | .ok b => c.setFrame i.iid { f with branch := some b }

/-- Class L at firing (R111): the load waits for its lower store IDs. `ea` is the effective address (R191). -/
def Chip.fireL (c : Chip) (fo : Focus) (gs : List (Option Target)) (ea : Word → Nat) : Chip :=
  c.fire fo fun c i f =>
    if f.onNull fo.idx then c.sendTo i.iid gs .null
    else
      let o := operandsOf (f.data fo.idx) (f.predTaint fo.idx)
      c.setFrame i.iid { f with
        loads := f.loads ++ [{ idx := fo.idx, lsid := lsidOf (f.word fo.idx), ea := ea o.a, taint := o.taint }] }

/-- Class W at firing (R116): the instruction holds its output. `g` answers the value to send and its taint, and any change of the
chip, or a fault. -/
def Chip.fireW (c : Chip) (fo : Focus) (gs : List (Option Target)) (g : Chip → Inst → Operands → Res × Chip) : Chip :=
  c.fire fo fun c i f =>
    if f.onNull fo.idx then c.sendTo i.iid gs .null
    else match g c i (operandsOf (f.data fo.idx) (f.predTaint fo.idx)) with
      | (.error e, c) => c.takeFault i.iid fo.idx e
      | (.ok (v, t), c) =>
        c.modInst i.iid fun i => { i with frame := i.frame.map fun f =>
          { f with waits := f.waits ++ [{ idx := fo.idx, n := v, taint := t }] } }

/-- A held wait is released (R116): it leaves the frame and its token is sent. -/
def Chip.release (c : Chip) (iid : Nat) (w : Wait) (gs : List (Option Target)) : Chip :=
  (c.modInst iid fun i => { i with frame := i.frame.map fun f => { f.async with waits := f.waits.filter fun x => x.idx != w.idx } }).sendTo
    iid gs (.val w.n w.taint)

/-- Whether a `.sc` atomic of a partition waits for the token. Until it is performed nothing changes what the block's accesses were checked
against (R217, notes/assumptions 96). -/
def Chip.scWaits (c : Chip) (pid : Nat) : Bool := c.scq.any fun q => (c.inst q.iid).pid == pid

/-- Target of a word's T0 field (R102). -/
def t0Of (w : Nat) : Option Target := match targetOf (bits w 0 9) with
  | .ok t => t
  | .error _ => none

/-- The wait at a focus, with its word. -/
def Chip.waitAt (c : Chip) (fo : Focus) : Option (Inst × Wait × Nat) :=
  match c.inst? fo.iid with
  | none => none
  | some i =>
    match i.frame with
    | none => none
    | some f => if i.state == .running then (f.waits.find? fun w => w.idx == fo.idx).map fun w => (i, w, f.word w.idx) else none

/-- Release scope of the engine context of timeline `k` (R185, R432): the tier engine's is package. -/
def Part.ctxScope (p : Part) (k : Nat) : Nat :=
  let q := p.reg 0x045
  if k < 4 then bits q 0 3 else if k = 4 then bits q 4 3 else if k = 5 then bits q 8 3 else if k = 6 then bits q 12 3
  else if k = 7 then 4 else if k = 8 then bits q 16 3 else bits q 20 3

/-- A fault of a wait's scope (R219, R420). -/
def scopeF (k scope ctx : Nat) : AFault := { cause := 0x50, sub := k, info0 := scope, info1 := ctx }

/-! ### The shapes of a meaning -/

/-- A meaning's next state. -/
abbrev Out := Host.Outcome State Fault Refusal

/-- A meaning that changes the chip alone. -/
def onChip (f : Chip → Focus → Chip) (s : State) : Out := .next { s with chip := f s.chip s.focus }

/-- The turn that follows an action (R110): the next action in store-ID order, then the branch. -/
def nextTurn (fo : Focus) (f : Frame) : Option Sel :=
  match f.acts with
  | a :: _ => some (.word { fo with idx := a.idx, phase := .commit })
  | [] => f.branch.map fun b => .word { fo with idx := b.idx, phase := .commit }

/-- The action of the committing block at a focus. -/
def Chip.actAt (c : Chip) (fo : Focus) : Option (Inst × Frame × Act) :=
  match c.inst? fo.iid with
  | none => none
  | some i =>
    match i.frame with
    | none => none
    | some f =>
      if i.state == .committing then (f.acts.find? fun a => a.idx == fo.idx).map fun a => (i, f, a) else none

/-- An action at commit (R110): performed unless an operand was null (R107), then the next one's turn comes. -/
def performAct (g : Chip → Inst → Act → Operands → Chip) (s : State) : State :=
  match s.chip.actAt s.focus with
  | none => s
  | some (i, f, a) =>
    let f := { f with acts := f.acts.filter fun x => x.idx != a.idx }
    let c := s.chip.setFrame i.iid f
    let c := if a.null then c else g c i a (operandsOf a.ops a.ptaint)
    { s with chip := c, turn := nextTurn s.focus f }

/-- A class-C meaning: `check` at firing, `act` at commit. -/
def classC (act : Chip → Inst → Act → Operands → Chip) (s : State) (check : Inst → Option AFault := fun _ => none) : Out :=
  match s.focus.phase with
  | .commit => .next (performAct act s)
  | _ => onChip (fun c fo => c.fireC fo check) s

/-- A branch at commit (R110, R385): `g` moves the instance. -/
def performBranch (g : Chip → Inst → Frame → Branch → Chip) (s : State) : State :=
  match s.chip.inst? s.focus.iid with
  | none => s
  | some i =>
    match i.frame with
    | none => s
    | some f =>
      match f.branch with
      | none => s
      | some b => if i.state == .committing then { s with chip := g s.chip i f b, turn := none } else s

/-- A class-B meaning: `fire` at firing, `go` at commit. -/
def classB (fire : Inst → Frame → Operands → Except AFault Branch) (go : Chip → Inst → Frame → Branch → Chip) (s : State)
    (check : Inst → Option AFault := fun _ => none) : Out :=
  match s.focus.phase with
  | .commit => .next (performBranch go s)
  | _ => onChip (fun c fo => c.fireB fo fire check) s

/-- The load at a focus. -/
def Chip.loadAt (c : Chip) (fo : Focus) : Option (Inst × Frame × Load) :=
  match c.inst? fo.iid with
  | none => none
  | some i =>
    match i.frame with
    | none => none
    | some f => if i.state == .running then (f.loads.find? fun l => l.idx == fo.idx).map fun l => (i, f, l) else none

/-- A return register becomes pending at commit (R112). -/
def Chip.setPending (c : Chip) (iid g : Nat) : Chip :=
  c.modInst iid fun i => { i with regs := i.regs.set (g % 32) { (i.regs.toList.getD (g % 32) {}) with pend := true } (Nat.mod_lt _ (by decide)) }

/-- An action's return value sets out for its register (R112). -/
def Chip.returnVal (c : Chip) (iid : Nat) (ret : Option (BitVec 5)) (v : Word) (taint : Bool) : Chip :=
  match ret with
  | none => c
  | some g => { c.setPending iid g.toNat with vals := c.vals ++ [{ iid, reg := g.toNat, v, taint }] }

/-- A block begins its execution on its decoded copy (R99, R404): the instance runs, holds no block yet, and awaits no operation. -/
def Chip.begin (c : Chip) (iid : Nat) : Chip :=
  let i := c.inst iid
  if i.state == .running && i.frame.isNone && i.holds.isEmpty then
    match (c.coreSt i.core).blocks.find? fun b => b.pid == i.pid && b.addr == i.block with
    | some b => c.setFrame iid { addr := b.addr, hdr := b.hdr, words := b.words, cells := b.words.map fun _ => {} }
    | none => c
  else c

/-- A core's wait for an operation of its instance ends (R202, R379, R425). -/
def Chip.unhold (c : Chip) (iid n : Nat) : Chip :=
  (c.modInst iid fun i => { i with holds := i.holds.filter fun h => h != .op n }).begin iid

/-- An acquire of an instance drops its core's load cache; at instance scope the lines stay for the other instances (R41, R196, R208). -/
def Chip.acquire (c : Chip) (core iid scope : Nat) : Chip := if scope = 0 then c.staleFor core iid else c.dropLines core

end Sys2Proof.Machine
end

