-- ==== Sys2Proof/Machine/LoadStore.lean ====
section
/-! DEFINITION. Meanings of the loads and stores (R190 to R196): effective addresses, same-block forwarding (R111), the performance of a
load, the check and the performance of a store. -/

namespace Sys2Proof.Machine

/-- Effective address of format M (R191): base plus the signed offset in units of the access size. -/
def eaM (size : Nat) (off : BitVec 7) (a : Word) : Nat := wrap (a.toNat + off.toInt * size) 64

/-- Effective address of format A (R191). -/
def eaA (a : Word) : Nat := a.toNat

/-! ### Stores as a block holds them -/

/-- A store a block holds: effective address, size, data, taint. -/
structure StoreOp where
  ea    : Nat
  size  : Nat
  data  : Nat
  taint : Bool
  deriving DecidableEq, Repr

/-- The store that an action is (R190), or none: opcodes 0x115 to 0x120 in the order of R117. -/
def storeOf (w : Nat) (a : Act) : Option StoreOp :=
  let op := opOf w
  if a.null || op < 0x115 || 0x120 < op then none
  else
    let o := operandsOf a.ops a.ptaint
    let size := 2 ^ ((op - 0x115) % 4)
    let ea := if 0x119 ≤ op && op ≤ 0x11C then eaA o.a else eaM size (BitVec.ofNat 7 (w / 2 ^ 9)) o.a
    some { ea, size, data := o.b.toNat % 2 ^ (8 * size), taint := o.taint }

/-- Actions in ascending store ID (R110). -/
def insertAct (a : Act) : List Act → List Act
  | [] => [a]
  | b :: t => if a.lsid ≤ b.lsid then a :: b :: t else b :: insertAct a t
def sortActs : List Act → List Act
  | [] => []
  | a :: t => insertAct a (sortActs t)

/-- Stores of the block below a store ID, with where they go: the ones a load may take bytes from (R111). -/
def Chip.storesBelow (c : Chip) (i : Inst) (f : Frame) (lsid : Nat) : List (StoreOp × Nat) :=
  (sortActs (f.acts.filter fun a => a.lsid < lsid)).filterMap fun a =>
    match storeOf (f.word a.idx) a with
    | none => none
    | some st => match (c.access i.actor .write false st.ea st.size).1 with
      | .ok pl => some (st, pl.loc)
      | .error _ => none

/-- Lay a store's bytes over those read from a location. -/
def overlay (loc : Nat) (bs : List Byte) (st : StoreOp) (sloc : Nat) : List Byte :=
  bs.zipIdx.map fun (b, k) =>
    let a := loc + k
    if sloc ≤ a && a < sloc + st.size then BitVec.ofNat 8 (st.data / 256 ^ (a - sloc)) else b

/-- Whether a store writes any of `n` bytes at a location. -/
def StoreOp.meets (st : StoreOp) (sloc loc n : Nat) : Bool := sloc < loc + n && loc < sloc + st.size

/-- A byte string after every store below it, and the taints they bring (R111, R218). -/
def forward (loc n : Nat) (v : Nat) (t : Bool) (l : List (StoreOp × Nat)) : Nat × Bool :=
  let bs := l.foldl (fun bs x => overlay loc bs x.1 x.2) (leBytes n v)
  (leNat bs, t || l.any fun x => x.1.meets x.2 loc n && x.1.taint)

/-- How a load reads: its size, whether it sign-extends, whether it takes a line into the load cache, and for an acquire its scope. -/
structure LoadForm where
  size    : Nat
  signed  : Bool
  alloc   : Bool := true
  acquire : Option Nat := none
  nt      : Bool := false
  deriving DecidableEq, Repr

/-- The value a load delivers from the bytes read (R192). -/
def LoadForm.extend (m : LoadForm) (v : Nat) : Nat := if m.signed then wrap (sgn v (8 * m.size)) 64 else v

/-- Non-temporal accesses mark their L2 line as the first to be replaced (R194). -/
def Chip.markFirst (c : Chip) (pl : Place) (nt : Bool) : Chip :=
  if nt && pl.home == .dram then { c with l2first := addNat c.l2first (pl.loc / 128) } else c

/-- The bytes a load gets from memory: an acquire drops the load cache (R41, R200) and reads past it. -/
def Chip.loadBytes (c : Chip) (core iid : Nat) (pl : Place) (m : LoadForm) : Nat × Bool × Chip :=
  match m.acquire with
  | some scope => ((c.acquire core iid scope).dropLine core pl.loc).readPlace pl m.size
  | none => c.readCached core iid pl m.size m.alloc

/-- Whether a load of a higher store ID that is already performed read other bytes at a location than memory holds now (R186, R208). -/
def Frame.outrun (f : Frame) (lsid loc : Nat) (bs : List Byte) : Bool :=
  f.seen.any fun (k, a, old) => lsid < k && bs.zipIdx.any fun (b, j) =>
    decide (a ≤ loc + j) && decide (loc + j < a + old.length) && old.getD (loc + j - a) 0 != b

/-- A load is performed (R192): checked, read, forwarded, sent. Loads of one location are ordered by store ID (R186, R208): a block in which
a load of a higher store ID has read older bytes runs again (notes/assumptions 97). -/
def Chip.performLoad (c : Chip) (fo : Focus) (gs : List (Option Target)) (m : LoadForm) : Chip :=
  match c.loadAt fo with
  | none => c
  | some (i, f, l) =>
    let c := c.setFrame i.iid { f with loads := f.loads.filter fun x => x.idx != l.idx }
    match c.access i.actor .read false l.ea m.size with
    | (.error e, c) => c.takeFault i.iid l.idx e
    | (.ok pl, c) =>
      let below := c.storesBelow i f l.lsid
      let (v, t, c) := c.loadBytes i.core i.iid pl m
      let bs := leBytes m.size v
      if f.outrun l.lsid pl.loc bs then c.discardBlock i.iid
      else
        let (v, t) := forward pl.loc m.size v t below
        let c := c.modInst i.iid fun i => { i with frame := i.frame.map fun f => { f.async with seen := f.seen ++ [(l.lsid, pl.loc, bs)] } }
        (c.markFirst pl m.nt).sendTo i.iid gs (.val (BitVec.ofNat 64 (m.extend v)) (t || l.taint))

/-- A load's meaning: it fires and waits for its lower store IDs (R111), then it is performed. -/
def loadMeaning (t0 : Option Target) (ea : Word → Nat) (m : LoadForm) (s : State) : Out :=
  match s.focus.phase with
  | .perform => onChip (fun c fo => c.performLoad fo [t0] m) s
  | _ => onChip (fun c fo => c.fireL fo [t0] ea) s

/-- A store at commit (R193): D is set, the bytes are written, the line's taint grows (R218). Its checks were made before; where the
address no longer leads there, the place that they found takes the store (notes/assumptions 96). -/
def Chip.performStore (c : Chip) (i : Inst) (ea size : Nat) (v : Word) (taint nt : Bool) (kept : Option Place := none) : Chip :=
  let put := fun (c : Chip) (pl : Place) => (c.writePlace i.core pl size (v.toNat % 2 ^ (8 * size)) taint).markFirst pl nt
  match c.access i.actor .write true ea size with
  | (.ok pl, c) => put c pl
  | (.error _, _) => match kept with
    | some pl => put c pl
    | none => c

/-- A store's meaning. -/
def storeMeaning (size : Nat) (ea : Word → Nat) (nt : Bool) (s : State) : Out :=
  classC (fun c i a o => c.performStore i (ea o.a) size o.b o.taint nt a.place) s

/-- R195. Prefetch at its firing: into the load cache when the access would be plain, cacheable and free of range entries. -/
def Chip.prefetch (c : Chip) (i : Inst) (ea : Nat) : Chip :=
  if ea < 2 ^ 52 then
    match c.resolve i.actor .read false (ea / 128 * 128) 128 with
    | (.error _, _) => c
    | (.ok pl, c') =>
      if pl.home == .dram && pl.cacheable && pl.tier.getD 3 ≥ 3
          && (c'.part i.pid).ranges.all (fun r => !r.covers pl.loc 128) then
        (c'.readCached i.core i.iid { pl with loc := pl.loc / 128 * 128 } 8 true).2.2
      else c
  else c

/-- R192. Loads a sign-extended byte. -/
def execLdS8 (off : BitVec 7) (t0 : Option Target) (s : State) : Out :=
  loadMeaning t0 (eaM 1 off) { size := 1, signed := true } s

/-- R192. Loads a zero-extended byte. -/
def execLdN8 (off : BitVec 7) (t0 : Option Target) (s : State) : Out :=
  loadMeaning t0 (eaM 1 off) { size := 1, signed := false } s

/-- R192. Loads a sign-extended halfword. -/
def execLdS16 (off : BitVec 7) (t0 : Option Target) (s : State) : Out :=
  loadMeaning t0 (eaM 2 off) { size := 2, signed := true } s

/-- R192. Loads a zero-extended halfword. -/
def execLdN16 (off : BitVec 7) (t0 : Option Target) (s : State) : Out :=
  loadMeaning t0 (eaM 2 off) { size := 2, signed := false } s

/-- R192. Loads a sign-extended word. -/
def execLdS32 (off : BitVec 7) (t0 : Option Target) (s : State) : Out :=
  loadMeaning t0 (eaM 4 off) { size := 4, signed := true } s

/-- R192. Loads a zero-extended word. -/
def execLdN32 (off : BitVec 7) (t0 : Option Target) (s : State) : Out :=
  loadMeaning t0 (eaM 4 off) { size := 4, signed := false } s

/-- R192. Loads a doubleword. -/
def execLdD64 (off : BitVec 7) (t0 : Option Target) (s : State) : Out :=
  loadMeaning t0 (eaM 8 off) { size := 8, signed := false } s

/-- R200. Acquiring load of a sign-extended byte. -/
def execLdaS8 (scope : Scope) (t0 : Option Target) (s : State) : Out :=
  loadMeaning t0 eaA { size := 1, signed := true, acquire := some scope.code } s

/-- R200. Acquiring load of a zero-extended byte. -/
def execLdaN8 (scope : Scope) (t0 : Option Target) (s : State) : Out :=
  loadMeaning t0 eaA { size := 1, signed := false, acquire := some scope.code } s

/-- R200. Acquiring load of a sign-extended halfword. -/
def execLdaS16 (scope : Scope) (t0 : Option Target) (s : State) : Out :=
  loadMeaning t0 eaA { size := 2, signed := true, acquire := some scope.code } s

/-- R200. Acquiring load of a zero-extended halfword. -/
def execLdaN16 (scope : Scope) (t0 : Option Target) (s : State) : Out :=
  loadMeaning t0 eaA { size := 2, signed := false, acquire := some scope.code } s

/-- R200. Acquiring load of a sign-extended word. -/
def execLdaS32 (scope : Scope) (t0 : Option Target) (s : State) : Out :=
  loadMeaning t0 eaA { size := 4, signed := true, acquire := some scope.code } s

/-- R200. Acquiring load of a zero-extended word. -/
def execLdaN32 (scope : Scope) (t0 : Option Target) (s : State) : Out :=
  loadMeaning t0 eaA { size := 4, signed := false, acquire := some scope.code } s

/-- R200. Acquiring load of a doubleword. -/
def execLdaD64 (scope : Scope) (t0 : Option Target) (s : State) : Out :=
  loadMeaning t0 eaA { size := 8, signed := false, acquire := some scope.code } s

/-- R194. Non-temporal load of a sign-extended byte. -/
def execLdntS8 (off : BitVec 7) (t0 : Option Target) (s : State) : Out :=
  loadMeaning t0 (eaM 1 off) { size := 1, signed := true, alloc := false, nt := true } s

/-- R194. Non-temporal load of a zero-extended byte. -/
def execLdntN8 (off : BitVec 7) (t0 : Option Target) (s : State) : Out :=
  loadMeaning t0 (eaM 1 off) { size := 1, signed := false, alloc := false, nt := true } s

/-- R194. Non-temporal load of a sign-extended halfword. -/
def execLdntS16 (off : BitVec 7) (t0 : Option Target) (s : State) : Out :=
  loadMeaning t0 (eaM 2 off) { size := 2, signed := true, alloc := false, nt := true } s

/-- R194. Non-temporal load of a zero-extended halfword. -/
def execLdntN16 (off : BitVec 7) (t0 : Option Target) (s : State) : Out :=
  loadMeaning t0 (eaM 2 off) { size := 2, signed := false, alloc := false, nt := true } s

/-- R194. Non-temporal load of a sign-extended word. -/
def execLdntS32 (off : BitVec 7) (t0 : Option Target) (s : State) : Out :=
  loadMeaning t0 (eaM 4 off) { size := 4, signed := true, alloc := false, nt := true } s

/-- R194. Non-temporal load of a zero-extended word. -/
def execLdntN32 (off : BitVec 7) (t0 : Option Target) (s : State) : Out :=
  loadMeaning t0 (eaM 4 off) { size := 4, signed := false, alloc := false, nt := true } s

/-- R194. Non-temporal load of a doubleword. -/
def execLdntD64 (off : BitVec 7) (t0 : Option Target) (s : State) : Out :=
  loadMeaning t0 (eaM 8 off) { size := 8, signed := false, alloc := false, nt := true } s

/-- R193. Stores a byte at commit. -/
def execStN8 (off : BitVec 7) (s : State) : Out :=
  storeMeaning 1 (eaM 1 off) false s

/-- R193. Stores a halfword at commit. -/
def execStN16 (off : BitVec 7) (s : State) : Out :=
  storeMeaning 2 (eaM 2 off) false s

/-- R193. Stores a word at commit. -/
def execStN32 (off : BitVec 7) (s : State) : Out :=
  storeMeaning 4 (eaM 4 off) false s

/-- R193. Stores a doubleword at commit. -/
def execStD64 (off : BitVec 7) (s : State) : Out :=
  storeMeaning 8 (eaM 8 off) false s

/-- R201. Releasing store of a byte. -/
def execStrN8 (_scope : Scope) (s : State) : Out :=
  storeMeaning 1 eaA false s

/-- R201. Releasing store of a halfword. -/
def execStrN16 (_scope : Scope) (s : State) : Out :=
  storeMeaning 2 eaA false s

/-- R201. Releasing store of a word. -/
def execStrN32 (_scope : Scope) (s : State) : Out :=
  storeMeaning 4 eaA false s

/-- R201. Releasing store of a doubleword. -/
def execStrD64 (_scope : Scope) (s : State) : Out :=
  storeMeaning 8 eaA false s

/-- R194. Non-temporal store of a byte. -/
def execStntN8 (off : BitVec 7) (s : State) : Out :=
  storeMeaning 1 (eaM 1 off) true s

/-- R194. Non-temporal store of a halfword. -/
def execStntN16 (off : BitVec 7) (s : State) : Out :=
  storeMeaning 2 (eaM 2 off) true s

/-- R194. Non-temporal store of a word. -/
def execStntN32 (off : BitVec 7) (s : State) : Out :=
  storeMeaning 4 (eaM 4 off) true s

/-- R194. Non-temporal store of a doubleword. -/
def execStntD64 (off : BitVec 7) (s : State) : Out :=
  storeMeaning 8 (eaM 8 off) true s

/-- R195. Hints a 128-byte line into L2 and the load cache, never faulting. -/
def execPref (off : BitVec 7) (s : State) : Out :=
  onChip (fun c fo => c.fire fo fun c i f =>
    if f.onNull fo.idx then c
    else c.prefetch i (eaM 128 off (operandsOf (f.data fo.idx) (f.predTaint fo.idx)).a)) s

end Sys2Proof.Machine
end

