-- ==== Sys2Proof/Machine/Tokens.lean ====
section
/-! DEFINITION. Tokens between instances: occupancy and back-pressure (R400, R401), arrival (R121, R372), matching (R373), the birth of
an instance (R374, R402, R403), the granting of frames (R404, R405), the granting of credits (R401), and the ranking they share. -/

namespace Sys2Proof.Machine

/-! ### Configuration planes -/

/-- Plane `k` of a slot. -/
def CfgSt.plane (g : CfgSt) (k : Nat) : CfgPlane := if k % 2 = 0 then g.p0 else g.p1
def CfgSt.setPlane (g : CfgSt) (k : Nat) (p : CfgPlane) : CfgSt := if k % 2 = 0 then { g with p0 := p } else { g with p1 := p }
/-- The active plane and the shadow (R369). -/
def CfgSt.active (g : CfgSt) : CfgPlane := g.plane g.act
def CfgSt.shadow (g : CfgSt) : CfgPlane := g.plane (1 - g.act)

/-- The handler of a channel: an entry of the plane, or the tasks of channels 126 and 127 that the supervisor binds (R359, R365, R399,
R422, R432). -/
def Chip.handler (c : Chip) (core pid plane chan : Nat) : Option Handler :=
  let p := c.part pid
  if chan = 127 then
    if p.reg 0x031 = 0 then none
    else some { chan, entry := p.reg 0x031, accept := 2 ^ 4, slice := bits (p.reg 0x033) 0 5, prio := 7, age := false, um := false, arity := 1 }
  else if chan = 126 then
    if p.reg 0x032 = 0 then none
    else some { chan, entry := p.reg 0x032, accept := 2 ^ 1, slice := bits (p.reg 0x033) 8 5, prio := 6, age := false, um := false, arity := 1 }
  else ((c.slot core pid).cfg.plane plane).handlers.find? fun h => h.chan == chan

/-! ### Quotas and occupancy -/

/-- Quotas of QSCHED (R398, R432). -/
def Part.msQuota (p : Part) : Nat := bits (p.reg 0x044) 0 14
def Part.frameQuota (p : Part) : Nat := bits (p.reg 0x044) 16 8
def Part.placeQuota (p : Part) : Nat := bits (p.reg 0x044) 32 11
def Part.sliceQuota (p : Part) : Nat := bits (p.reg 0x044) 48 12

/-- Sum of a list of numbers. -/
def sumNat (l : List Nat) : Nat := l.foldl (· + ·) 0

/-- Tokens that wait in an entry. -/
def Entry.size (e : Entry) : Nat := sumNat (e.slots.map List.length)

/-- Occupancy of a slot's matching store (R400); channel-127 tokens have their own reserve (R399). -/
def Slot.occupancy (s : Slot) : Nat :=
  sumNat ((s.mat.entries.filter fun e => e.chan != 127).map Entry.size) + s.mat.held.length + s.mat.index.length + s.mat.reserved

/-- The threshold T of R401. -/
def pressureAt (q : Nat) : Nat := (7 * q + 7) / 8

/-- Whether back-pressure is applied to a slot (R401). -/
def Chip.pressed (c : Chip) (core pid : Nat) : Bool := pressureAt (c.part pid).msQuota ≤ (c.slot core pid).occupancy

/-- Channel-127 tokens that a slot holds or has on the way to it (R399). -/
def Chip.trapTokens (c : Chip) (core pid : Nat) : Nat :=
  sumNat (((c.slot core pid).mat.entries.filter fun e => e.chan == 127).map Entry.size)
    + (c.flights.filter fun t => t.dst == core && t.pid == pid && hdrChan t.hdr == 127).length

/-- Tokens that have a credit and have not arrived (R401); those of channel 127 need none (R399). -/
def Chip.inFlight (c : Chip) (core pid : Nat) : Nat :=
  (c.flights.filter fun t => t.dst == core && t.pid == pid && !t.resv && hdrChan t.hdr != 127).length

/-! ### Sending -/

/-- Inbound link code (R372, R461): local; the side by which routing x first, then y (R337) brings the token in; another tower. -/
def linkCode (src dst : Nat) : Nat :=
  if src = dst then 0
  else if towerOf src ≠ towerOf dst then 5
  else if coreY src ≠ coreY dst then (if coreY dst < coreY src then 3 else 4)
  else if coreX dst < coreX src then 1 else 2

/-- The tokens of one sending instruction leave (R401): the local ones by the core's own path, the others through the outbound queue. -/
def Chip.sendTokens (c : Chip) (core pid : Nat) (ts : List Token) : Chip :=
  let ts := ts.map fun t => { t with pid, src := core, link := linkCode core t.dst }
  let far := ts.filter fun t => t.dst != core
  let c := { c with flights := c.flights ++ ts.filter fun t => t.dst == core }
  if far.isEmpty then c else c.modSlot core pid fun s => { s with outq := s.outq ++ [{ tokens := far }] }

/-! ### Arrival -/

/-- A token fault at the receiving core (R461): it suspends no instance. -/
def Chip.tokenFault (c : Chip) (t : Token) (cause : Nat) : Chip :=
  c.queueRecord t.dst t.pid { cause, sub := t.link, info0 := t.hdr.toNat, info1 := t.payload.toNat, taint := hdrTaint t.hdr }

/-- Whether a tag lies beyond the squash bound of its context (R379). -/
def Slot.squashed (s : Slot) (tag : Nat) : Bool :=
  match s.bounds.find? fun b => b.1 == tag / 2 ^ 26 with
  | some b => b.2 < tag % 2 ^ 26
  | none => false

/-- Index channel, count and table rows of a gather or scatter (R175). -/
def Cmd.ich (q : Cmd) : Nat := bits (q.desc.getD 2 0) 24 7
def Cmd.positions (q : Cmd) : Nat := bits (q.desc.getD 2 0) 0 24
def Cmd.nrows (q : Cmd) : Nat := bits (q.desc.getD 0 0) 32 32

/-- Position and table row of an index token (R176). -/
def Token.position (t : Token) : Nat := bits t.payload.toNat 40 24
def Token.row (t : Token) : Nat := bits t.payload.toNat 0 40

/-- Whether a token is an index of a command (R176): INT, its position below COUNT, its row below NROWS. -/
def Cmd.takesIndex (q : Cmd) (t : Token) : Bool :=
  hdrChan t.hdr == q.ich && hdrFmt t.hdr == 1 && decide (t.position < q.positions) && decide (t.row < q.nrows)

/-- Whether a command of the gather queue binds a channel (R176): its descriptor was good, and it still wants indices. -/
def Cmd.binds (q : Cmd) (chan : Nat) : Bool := !q.onlyAbandon && q.ich == chan && q.pos < q.positions

/-- The commands that still want indices, each with how many, after one more index token: the first of them takes it if it is an index of
its (R176). -/
def takeIndex (l : List (Cmd × Nat)) (t : Token) : List (Cmd × Nat) :=
  match l with
  | [] => []
  | (q, n) :: r => if !q.takesIndex t then l else if n ≤ 1 then r else (q, n - 1) :: r

/-- Whether a channel is bound to a gather command for one more token (R176): the indices waiting, which its commands take in turn, are not
all that are wanted. -/
def Slot.gatherBound (s : Slot) (chan : Nat) : Bool :=
  let l := ((s.eng 4).cmds.filter fun q => q.binds chan).map fun q => (q, q.positions - q.pos)
  !((s.mat.index.filter fun t => hdrChan t.hdr == chan).foldl takeIndex l).isEmpty

/-- Put a token into a slot of an entry (R373). -/
def Entry.put (e : Entry) (k : Nat) (v : Word) (taint : Bool) : Entry :=
  let l := e.slots.getD k [] ++ [(v, taint)]
  { e with slots := e.slots.set k l, twice := e.twice || 2 ≤ l.length }

/-- Whether every slot up to an arity is full. -/
def Entry.full (e : Entry) (arity : Nat) : Bool := (List.range arity).all fun k => !(e.slots.getD k []).isEmpty

/-- An entry that has become complete gets its place in the order of completion (R403). -/
def Matching.mark (m : Matching) (e : Entry) (arity : Nat) : Matching × Entry :=
  if e.done.isNone && e.full arity then ({ m with nextDone := m.nextDone + 1 }, { e with done := some m.nextDone }) else (m, e)

/-- Replace the first entry that satisfies `p`, or add one at the end. -/
def Matching.place (m : Matching) (p : Entry → Bool) (new : Entry) (arity k : Nat) (v : Word) (taint : Bool) : Matching :=
  match m.entries.find? p with
  | some e =>
    let (m, e) := m.mark (e.put k v taint) arity
    { m with entries := upsert p e m.entries }
  | none =>
    let (m, e) := m.mark (new.put k v taint) arity
    { m with entries := m.entries ++ [e] }

/-- A token enters the matching store of its plane (R373), and ARR counts it (R394). -/
def Slot.accept (s : Slot) (h : Handler) (t : Token) : Slot :=
  let plane := hdrPlane t.hdr
  let tag := hdrTag t.hdr
  let k := hdrSlot t.hdr
  let p := fun (e : Entry) => e.chan == h.chan && e.plane == plane &&
    (if h.um then e.done.isNone && (e.slots.getD k []).isEmpty else e.tag == tag)
  let mat := s.mat.place p { chan := h.chan, tag, plane } h.arity k t.payload (hdrTaint t.hdr)
  { s with mat }

/-- ARR of a channel of the active plane (R394). -/
def Slot.countArr (s : Slot) (chan : Nat) : Slot :=
  let old := (s.cfg.chans.find? fun x => x.chan == chan).getD { chan }
  { s with cfg := { s.cfg with chans := upsert (fun x => x.chan == chan) { old with arr := old.arr + 1 } s.cfg.chans } }

/-- Whether R121's fourth check refuses a token: a reserved header bit, a slot beyond the arity, a format not accepted. -/
def Handler.refuses (h : Handler) (t : Token) : Bool :=
  bits t.hdr.toNat 62 2 != 0 || h.arity ≤ hdrSlot t.hdr || !bitAt h.accept (hdrFmt t.hdr)

/-- Formats of an index channel (R176): INT indices and EOS. -/
def indexRefuses (t : Token) : Bool := bits t.hdr.toNat 62 2 != 0 || !(hdrFmt t.hdr == 1 || hdrFmt t.hdr == 6)

/-- A reservation has been used (R400). -/
def Chip.useReserved (c : Chip) (t : Token) : Chip :=
  if t.resv then c.modSlot t.dst t.pid fun s => { s with mat := { s.mat with reserved := s.mat.reserved - 1 } } else c

/-- R121. A token that reaches its core: plane, squash bound, channel, format, in that order; then it waits in the matching store, for
the gather unit, whatever its plane (R176), or for the exchange of the planes. With no task bound to channel 126 a host packet's result token
is dropped (R359); any other token of a channel without an entry is a fault (R397). -/
def Chip.arrive (c : Chip) (t : Token) : Chip :=
  let c := c.useReserved t
  let s := c.slot t.dst t.pid
  let plane := hdrPlane t.hdr
  let own := plane == s.cfg.act
  let wait := !own && s.cfg.sw != .active && s.cfg.armed
  if !own && !wait then c.tokenFault t 0x78
  else if s.squashed (hdrTag t.hdr) then c
  else
    let chan := hdrChan t.hdr
    if chan < 126 && s.gatherBound chan then
      if indexRefuses t then c.tokenFault t 0x18
      else c.modSlot t.dst t.pid fun s =>
        let s := { s with mat := { s.mat with index := s.mat.index ++ [t] } }
        if own then s.countArr chan else s
    else match c.handler t.dst t.pid plane chan with
      | none => if chan = 126 && t.link = 7 then c else c.tokenFault t 0x79
      | some h =>
        if h.refuses t then c.tokenFault t 0x18
        else if wait then c.modSlot t.dst t.pid fun s => { s with mat := { s.mat with held := s.mat.held ++ [t] } }
        else c.modSlot t.dst t.pid fun s => (s.accept h t).countArr chan

/-- Whether the token at a place of the flights may arrive: it is the oldest of its sender for its receiver (R341), the store has room
unless it has a place reserved or uses that of channel 127, and the receiver's slot is not away (R438). -/
def Chip.mayArrive (c : Chip) (k : Nat) : Bool :=
  match c.flights[k]? with
  | none => false
  | some t =>
    let s := c.slot t.dst t.pid
    ((c.flights.take k).all fun u => !(u.src == t.src && u.dst == t.dst && u.pid == t.pid)) &&
      (t.resv || hdrChan t.hdr == 127 || s.occupancy < (c.part t.pid).msQuota) && (s.pstate == .run || s.pstate == .drain)

/-- R121, R341. The token at place `n` of those in flight arrives. -/
def execTokenArrival (s : State) : Out :=
  onChip (fun c fo =>
    match c.flights[fo.n]? with
    | none => c
    | some t =>
      if c.mayArrive fo.n then { c with flights := c.flights.eraseIdx fo.n }.arrive t else c) s

/-! ### The ranking (R403, R405, R406) -/

/-- Effective class of an instance (R406): `steps` counts the aging steps since it last issued. -/
def Inst.effClass (i : Inst) : Nat := if i.aging then min 7 (i.cls + i.steps) else i.cls

/-- Keys of an ORDERED launch (R405): ITER, ORIG, CTX, channel. -/
def orderKey (tag chan : Nat) : List Nat := [tag % 2 ^ 26, bits tag 38 10, bits tag 26 12, chan]

/-- Lexicographic order on lists of numbers. -/
def lexLt : List Nat → List Nat → Bool
  | [], [] => false
  | [], _ => true
  | _ :: _, [] => false
  | a :: s, b :: t => if a < b then true else if a = b then lexLt s t else false

/-- Whether the launch on a core is ORDERED. -/
def Chip.ordered (c : Chip) (core pid : Nat) : Bool :=
  match (c.part pid).launchAt core with
  | some l => l.ordered
  | none => false

/-- Key of an instance: the smallest comes first. -/
def Chip.rankKey (c : Chip) (i : Inst) : List Nat :=
  [7 - i.effClass] ++ (if c.ordered i.core i.pid then orderKey i.tag i.chan else []) ++ [i.age]

/-- The element with the smallest key. -/
def firstBy (key : α → List Nat) : List α → Option α
  | [] => none
  | x :: t =>
    match firstBy key t with
    | none => some x
    | some y => if lexLt (key y) (key x) then some y else some x

/-! ### Birth of an instance -/

/-- Instances of a slot on a core. -/
def Chip.slotInsts (c : Chip) (core pid : Nat) : List Inst := c.insts.filter fun i => i.core == core && i.pid == pid

/-- Whether a place and a slice of `sz` units are free for an instance (R402), those of a CO-RESIDENT launch kept for its own (R413). -/
def Chip.roomFor (c : Chip) (core pid chan sz : Nat) : Bool :=
  let p := c.part pid
  let l := c.slotInsts core pid
  let own := l.filter fun i => i.chan < 126
  let others := l.filter fun i => i.chan ≥ 126
  let live := fun (x : List Inst) => (x.filter fun i => i.state != .ended).length
  let size := fun (x : List Inst) => sumNat (x.map (·.slice))
  let (n, sl) := match p.launchAt core with
    | some k => if k.cores then (k.ninst, k.resSlice) else (0, 0)
    | none => (0, 0)
  let mine := if chan < 126 then 1 else 0
  live others + (1 - mine) + max n (live own + mine) ≤ p.placeQuota &&
    size others + (1 - mine) * sz + max sl (size own + mine * sz) ≤ p.sliceQuota

/-- Key of a complete entry (R403). -/
def Chip.entryKey (c : Chip) (core pid : Nat) (e : Entry) : List Nat :=
  let cls := match c.handler core pid e.plane e.chan with
    | some h => h.prio
    | none => 0
  [7 - cls] ++ (if c.ordered core pid then orderKey e.tag e.chan else []) ++ [e.done.getD 0]

/-- The complete entry of those on certain channels that is served next (R403). -/
def Chip.nextEntry (c : Chip) (core pid : Nat) (p : Nat → Bool := fun _ => true) : Option Entry :=
  firstBy (c.entryKey core pid) ((c.slot core pid).mat.entries.filter fun e => e.done.isSome && p e.chan)

/-- Whether the launch on a core is CO-RESIDENT (R413). -/
def Chip.coResident (c : Chip) (core pid : Nat) : Bool :=
  match (c.part pid).launchAt core with
  | some l => l.cores
  | none => false

/-- Place of a record in its area, from the payload of its token (R418, R422). -/
def Part.placeOf (p : Part) (payload : Word) : Nat :=
  (payload.toNat - 0xFFFF81 * 2 ^ 40 - bits (p.reg 0x030) 12 9 * 4096) / 64 % 64

/-- R373, R374. The entry gives its oldest token of each slot to a new instance, READY with a new age. -/
def Chip.formInst (c : Chip) (core pid : Nat) (e : Entry) (h : Handler) : Chip :=
  let spoiled := e.twice || h.um
  let args := (List.range h.arity).map fun k =>
    match e.slots.getD k [] with
    | (v, t) :: _ => Tok.val v (t || spoiled)
    | [] => .null
  let rest := { e with slots := e.slots.map (·.drop 1), done := none }
  let c := c.modSlot core pid fun s =>
    let (m, rest) := s.mat.mark rest h.arity
    let es := m.entries.filter fun x => x.done != e.done
    { s with mat := { m with entries := if rest.size = 0 then es else es ++ [rest] } }
  let (age, c) := c.takeAge core pid
  let p := c.part pid
  let lid := match p.launchAt core with
    | some l => l.lid
    | none => 0
  let i : Inst := {
    iid := c.nextIid, core, pid, lid, chan := h.chan, tag := e.tag, plane := e.plane, args, slice := h.slice, block := h.entry,
    entry := h.entry, cls := h.prio, aging := h.age, age,
    recPlace := if h.chan = 127 then some (p.placeOf (args.getD 0 .null).value) else none }
  ({ c with insts := c.insts ++ [i], nextIid := c.nextIid + 1 }).dropLines core

/-- An entry that may become an instance, with its handler: there is a place and a slice for it (R402). -/
def Chip.withRoom (c : Chip) (core pid : Nat) (e : Entry) : Option (Entry × Handler) :=
  match c.handler core pid e.plane e.chan with
  | none => none
  | some h => if c.roomFor core pid h.chan h.slice then some (e, h) else none

/-- The entry served next, if it may become an instance. Where the launch is CO-RESIDENT, one that waits for a place or a slice holds back
none of the others' side: the launch's own entries have places reserved, those of channels 126 and 127 take none of them (R413). -/
def Chip.formReady (c : Chip) (core pid : Nat) : Option (Entry × Handler) :=
  if (c.slot core pid).pstate == .run then
    match c.nextEntry core pid with
    | none => none
    | some e => (c.withRoom core pid e).or (if c.coResident core pid then
        (c.nextEntry core pid fun k => decide (126 ≤ k) != decide (126 ≤ e.chan)).bind (c.withRoom core pid) else none)
  else none

/-- R402, R403. The highest-ranked complete entry of the slot becomes an instance; it acquires its tokens' senders (R204). -/
def execInstanceForm (s : State) : Out :=
  onChip (fun c fo =>
    match c.formReady fo.core fo.pid with
    | none => c
    | some (e, h) => c.formInst fo.core fo.pid e h) s

/-! ### Frames -/

/-- Whether an instance holds a frame (R402). -/
def Inst.holdsFrame (i : Inst) : Bool := i.state != .ready && i.state != .ended

/-- Frames a slot has free for channels 0 to 126 (R399): the one kept for channel 127 is apart, and an instance of that channel beyond the
first holds one of the others. -/
def Chip.freeFrames (c : Chip) (core pid : Nat) : Nat :=
  let held := (c.slotInsts core pid).filter Inst.holdsFrame
  let traps := (held.filter fun i => i.chan == 127).length
  (c.part pid).frameQuota - 1 - (held.length - traps) - (traps - 1)

/-- Frames a slot has free for channel 127. -/
def Chip.freeTrapFrames (c : Chip) (core pid : Nat) : Nat :=
  (c.part pid).frameQuota - ((c.slotInsts core pid).filter Inst.holdsFrame).length

/-- Whether a frame may go to a READY instance (R399, R404). -/
def Chip.mayHaveFrame (c : Chip) (i : Inst) : Bool :=
  if i.chan = 127 then 0 < c.freeTrapFrames i.core i.pid
  else
    let free := c.freeFrames i.core i.pid
    let waiting := (c.slotInsts i.core i.pid).any fun j => j.state == .ready && !j.speculative
    0 < free && (!i.speculative || 2 ≤ free || !waiting)

/-- The READY instance to which the slot's next frame goes (R404). -/
def Chip.nextForFrame (c : Chip) (core pid : Nat) : Option Inst :=
  let s := c.slot core pid
  if s.pstate == .run && s.stop.isNone then
    firstBy c.rankKey ((c.slotInsts core pid).filter fun i => i.state == .ready && c.mayHaveFrame i)
  else none

/-- R404. The highest-ranked READY instance of the slot gets a free frame and begins its block if the core has it mapped (R99). A grant
counts as an issue (R406). -/
def execFrameGrant (s : State) : Out :=
  onChip (fun c fo =>
    match c.nextForFrame fo.core fo.pid with
    | none => c
    | some i => ((c.modInst i.iid fun i => ({ i with state := .running }).issued).begin i.iid)) s

/-- R406. An aging instance that has gone 4,096 issue cycles without issuing rises one class. -/
def Chip.mayAge (c : Chip) (iid : Nat) : Bool :=
  match c.inst? iid with
  | none => false
  | some i => i.aging && i.effClass < 7 && i.state != .ended

/-- R406. See `Chip.mayAge`; promotions are counted (R411). -/
def execAgingStep (s : State) : Out :=
  onChip (fun c fo =>
    if c.mayAge fo.iid then
      let i := c.inst fo.iid
      (c.modInst fo.iid fun i => { i with steps := i.steps + 1 }).modSlot i.core i.pid fun s => s.bump (0x0A * 256 + 28) 1
    else c) s

/-- Whether a holder of a frame may be recalled (R404): a READY instance of its slot with equal or higher effective class waits. -/
def Chip.mayRecall (c : Chip) (iid : Nat) : Bool :=
  match c.inst? iid with
  | none => false
  | some i => i.holdsFrame && !i.recalled &&
    ((c.slotInsts i.core i.pid).any fun j => j.state == .ready && i.effClass ≤ j.effClass)

/-- R404. A holder past 4,096 issue cycles is to return its frame at its next commit. -/
def execRecallThreshold (s : State) : Out :=
  onChip (fun c fo => if c.mayRecall fo.iid then c.modInst fo.iid fun i => { i with recalled := true } else c) s

end Sys2Proof.Machine
end

