-- ==== Sys2Proof/Machine/Tasks.lean ====
section
/-! DEFINITION. Meanings of the branches, the token and tag instructions, the loops, `EXPECT`, `DRAINQ` and `PRIO` (R377 to R379, R384 to
R395), with the events that belong to them. Each class-C instruction has its check (made before commit, R193) beside its effect. -/

namespace Sys2Proof.Machine

/-! ### Branches (R385, R386) -/

/-- Address that OFF21 names (R385). -/
def branchTarget (block : Nat) (off : BitVec 21) : Nat := wrap (block + off.toInt * 8) 64

/-- Size of a block in bytes (R97). -/
def blockSize (hdr : Nat) : Nat := (4 + 4 * (bits hdr 0 6 + 1) + 7) / 8 * 8

/-- The branch of an offset form. -/
def branchRel (idx : Nat) (off : BitVec 21) (i : Inst) (_f : Frame) (o : Operands) : Except AFault Branch :=
  .ok { idx, target := BitVec.ofNat 64 (branchTarget i.block off), taint := o.taint }

/-- The branch of an address form: a value that is not a multiple of 8 faults as it fires. -/
def branchAbs (idx : Nat) (_i : Inst) (_f : Frame) (o : Operands) : Except AFault Branch :=
  if o.a.toNat % 8 ≠ 0 then .error (adF 0x23 o.a.toNat) else .ok { idx, target := o.a, op := .val o.a o.ta, taint := o.taint }

/-- Iterations that a block created stop being speculative as it commits; faults they held are raised (R377, R378). -/
def Chip.releaseChildren (c : Chip) (iid : Nat) : Chip :=
  (c.insts.filter fun j => j.creator == some iid).foldl (fun c j =>
    let c := c.modInst j.iid fun j => { j with creator := none, held := none }
    match j.held with
    | some r => c.deliver j.iid r
    | none => c) c

/-- W of a block (R98, R377). -/
def loopWindow (hdr : Nat) : Nat := bits hdr 19 3 + 1

/-- The next iteration of an instance (R377): the same core and channel, tag + 1, its creator's rounding mode (R242). -/
def Chip.createIter (c : Chip) (iid : Nat) (args : List Tok) : Chip :=
  let i := c.inst iid
  let (age, c) := c.takeAge i.core i.pid
  let h := (c.handler i.core i.pid i.plane i.chan).getD
    { chan := i.chan, entry := i.entry, accept := 255, slice := i.slice, prio := i.cls, age := i.aging, um := false, arity := args.length }
  let j : Inst := {
    iid := c.nextIid, core := i.core, pid := i.pid, lid := i.lid, chan := i.chan, tag := i.tag + 1, plane := i.plane, args
    fpc := { rm := i.fpc.rm, taint := i.fpc.taint }
    slice := h.slice, block := h.entry, entry := h.entry, cls := h.prio, aging := h.age, age, creator := some iid }
  { c with insts := c.insts ++ [j], nextIid := c.nextIid + 1 }

/-- Whether another iteration may be created now: no more than W of the context uncommitted, and a place and a slice free (R377). -/
def Chip.iterRoom (c : Chip) (i : Inst) (hdr : Nat) : Bool :=
  let spec := (c.slotInsts i.core i.pid).filter fun j => j.speculative && j.tag / 2 ^ 26 == i.tag / 2 ^ 26
  spec.length + 2 ≤ loopWindow hdr && c.roomFor i.core i.pid i.chan i.slice

/-- Deferred iterations are created at the creating block's commit at the latest (R377). -/
def Chip.createDeferred (c : Chip) (iid : Nat) : Chip :=
  let l := (c.inst iid).deferred
  l.foldl (fun c d => c.createIter iid d.args) (c.modInst iid fun i => { i with deferred := [] })

/-- What ends every commit (R110, R377): deferred iterations are created, and the block's iterations stop being speculative. -/
def Chip.closeCommit (c : Chip) (iid : Nat) : Chip := (c.createDeferred iid).releaseChildren iid

/-- The instance moves to its next block (R110): suspended after a `TRAP` (R426), READY after `YIELD` or a recall (R386, R404), else it
keeps its frame. -/
def Chip.moveTo (c : Chip) (i : Inst) (target : Nat) (yield : Bool) : Chip :=
  let c := c.closeCommit i.iid
  let c := c.modInst i.iid fun j => { j with block := target, frame := none, state := if j.handle ≠ 0 then .suspended else .running }
  if i.handle ≠ 0 then c
  else if yield then c.rejoin i.iid
  else if i.recalled then (c.rejoin i.iid).modSlot i.core i.pid fun s => s.bump (0x0A * 256 + 27) 1
  else c.begin i.iid

/-- A branch that goes to the block it names. -/
def goBranch (yield : Bool) (c : Chip) (i : Inst) (_f : Frame) (b : Branch) : Chip := c.moveTo i b.target.toNat yield

/-- R385. Names block address + OFF21 × 8. -/
def execBr (off : BitVec 21) (s : State) : Out := classB (branchRel s.focus.idx off) (goBranch false) s

/-- R385. Names the address in slot a. -/
def execBri (s : State) : Out := classB (branchAbs s.focus.idx) (goBranch false) s

/-- R385. As `BR`; the commit also writes g30 (R110), which `BLOCK_COMMIT` does. -/
def execCall (off : BitVec 21) (s : State) : Out := classB (branchRel s.focus.idx off) (goBranch false) s

/-- R385. As `BRI`, with g30. -/
def execCalli (s : State) : Out := classB (branchAbs s.focus.idx) (goBranch false) s

/-- R385. As `BRI`. -/
def execRet (s : State) : Out := classB (branchAbs s.focus.idx) (goBranch false) s

/-- R386. As `BR`, but the instance gives up its frame. -/
def execYield (off : BitVec 21) (s : State) : Out := classB (branchRel s.focus.idx off) (goBranch true) s

/-! ### Tags and contexts (R375, R387, R390) -/

/-- Core of a linear index of an instance's rectangle. -/
def Chip.origCore (c : Chip) (i : Inst) (tag : Nat) : Option Nat := c.coreOfLin i.pid i.core (tag / 2 ^ 38)

/-- R390. Why `TAGFREE` refuses a tag: context 0, an origin outside the rectangle, nonzero bits above the tag. -/
def Chip.checkTagfree (c : Chip) (i : Inst) (v : Nat) : Option AFault :=
  if v / 2 ^ 48 ≠ 0 || bits v 26 12 = 0 || (c.origCore i v).isNone then some { cause := 0x7B } else none

/-- A context in use returns to its pool, and its squash bound goes on every core of the launch (R390); a free one is left alone. -/
def Chip.freeCtx (c : Chip) (i : Inst) (v : Nat) : Chip :=
  match c.origCore i v with
  | none => c
  | some k =>
    if !(c.slot k i.pid).ctx.contains (bits v 26 12) then c
    else
      let (ox, oy, w, h) := c.rect i.pid i.core
      let mine := fun (s : Slot) => s.pid == i.pid && (rectCores ox oy w h).contains s.core
      let c := c.modSlot k i.pid fun s => { s with ctx := s.ctx.filter (· != bits v 26 12) }
      { c with slots := mapIf mine (fun s => { s with bounds := s.bounds.filter fun b => b.1 != v / 2 ^ 26 % 2 ^ 22 }) c.slots }

/-- R386. Ends the instance at commit; `.free` returns its context. -/
def execExit (free : Bool) (s : State) : Out :=
  classB (fun _ _ o => .ok { idx := s.focus.idx, taint := o.taint }) (fun c i _ _ =>
    let c := c.closeCommit i.iid
    let c := if free then c.freeCtx i i.tag else c
    c.endInst i.iid) s

/-- The lowest free context of a core's pool (R375), or none. -/
def Slot.freeCtx (s : Slot) : Option Nat := ((List.range 4095).map (· + 1)).find? fun k => !s.ctx.contains k

/-- A fresh context of the issuing core, its tag, and the chip with it taken (R375). -/
def Chip.takeCtx (c : Chip) (i : Inst) : Option Nat × Chip :=
  match (c.slot i.core i.pid).freeCtx with
  | none => (none, c)
  | some k => (some (c.lin i.pid i.core * 2 ^ 38 + k * 2 ^ 26), c.modSlot i.core i.pid fun s => { s with ctx := s.ctx ++ [k] })

/-- What a return register receives in place of a value the device refuses to give. -/
def allOnes : Word := 0xFFFFFFFFFFFFFFFF

/-! ### Sending (R387 to R389) -/

/-- A token from an instance's core. -/
def Chip.mkToken (c : Chip) (i : Inst) (dst fmt slot chan tag : Nat) (v : Word) (taint : Bool) : Token :=
  { hdr := mkHdr (c.slot i.core i.pid).cfg.act taint fmt slot chan tag, payload := v, pid := i.pid, dst, src := i.core }

/-- Destination of a `SPAWN` (R387): core, format, channel; none where the word is refused. -/
def Chip.spawnDest (c : Chip) (i : Inst) (w : Nat) : Option (Nat × Nat × Nat) :=
  let (ox, oy, rw, rh) := c.rect i.pid i.core
  let dx := bits w 16 5
  let dy := bits w 24 5
  let self := bitAt w 15
  if bits w 29 35 ≠ 0 || bits w 21 3 ≠ 0 || bits w 7 5 ≠ 0 || bits w 0 7 ≥ 126 then none
  else if self then (if dx = 0 && dy = 0 then some (i.core, bits w 12 3, bits w 0 7) else none)
  else if dx < rw && dy < rh then some (coreAt (ox + dx) (oy + dy), bits w 12 3, bits w 0 7) else none

/-- A route of the active plane as the sending core uses it (R366): destination core if it lies in the rectangle, format, slot, channel. -/
def Chip.routeOf (c : Chip) (i : Inst) (r : Nat) : Option (Option Nat × Nat × Nat × Nat) :=
  match (c.slot i.core i.pid).cfg.active.routes[r]? with
  | none => none
  | some e =>
    let (ox, oy, rw, rh) := c.rect i.pid i.core
    let x : Int := if bitAt e 31 then coreX i.core + sgn (bits e 19 6) 6 else bits e 19 6
    let y : Int := if bitAt e 31 then coreY i.core + sgn (bits e 25 6) 6 else bits e 25 6
    let ok := (ox : Int) ≤ x && x < ox + rw && (oy : Int) ≤ y && y < oy + rh
    some (if ok then some (coreAt x.toNat y.toNat) else none, bits e 16 3, bits e 14 2, bits e 7 7)

/-- Cores of a sub-rectangle word (R363), or none where it is refused. -/
def Chip.subRect (c : Chip) (i : Inst) (w : Nat) : Option (List Nat) :=
  let (ox, oy, rw, rh) := c.rect i.pid i.core
  let lw := bits w 16 3
  let lh := bits w 20 3
  let dx := bits w 0 5
  let dy := bits w 8 5
  if bits w 23 41 ≠ 0 || bitAt w 19 || bits w 13 3 ≠ 0 || bits w 5 3 ≠ 0 || 5 < lw || 5 < lh then none
  else if dx % 2 ^ lw ≠ 0 || dy % 2 ^ lh ≠ 0 || rw < dx + 2 ^ lw || rh < dy + 2 ^ lh then none
  else some (rectCores (ox + dx) (oy + dy) (2 ^ lw) (2 ^ lh))

/-- A refused destination. -/
def destF : AFault := { cause := 0x7A }

/-- R387. Check of `SPAWN`. -/
def Chip.checkSpawn (c : Chip) (i : Inst) (a : Nat) : Option AFault := if (c.spawnDest i a).isNone then some destF else none

/-- R388, R389. Check of `SEND` and `EOS`: the route, its destination, the tag. -/
def Chip.checkSend (c : Chip) (i : Inst) (r tag : Nat) : Option AFault :=
  match c.routeOf i r with
  | some (some _, _) => if tag / 2 ^ 48 = 0 then none else some destF
  | _ => some destF

/-- R388. Check of `SENDM`: the route, the tag, the sub-rectangle. -/
def Chip.checkSendm (c : Chip) (i : Inst) (r tag w : Nat) : Option AFault :=
  if (c.routeOf i r).isNone || tag / 2 ^ 48 ≠ 0 || (c.subRect i w).isNone then some destF else none

/-- R387. A fresh context, one token for each of N slots, the tag returned; an empty pool returns all ones and sends nothing. -/
def execSpawn (n : BitVec 2) (ret : Option (BitVec 5)) (s : State) : Out :=
  classC (fun c i _ o =>
    match c.spawnDest i o.a.toNat with
    | none => c
    | some (dst, fmt, chan) =>
      match c.takeCtx i with
      | (none, c) => c.returnVal i.iid ret allOnes o.taint
      | (some tag, c) =>
        let ts := (List.range (min n.toNat 2)).map fun k => c.mkToken i dst fmt k chan tag (if k = 0 then o.b else o.c) o.taint
        (c.sendTokens i.core i.pid ts).returnVal i.iid ret (BitVec.ofNat 64 tag) o.taint) s

/-- Count a route's `SEND` tokens (R389). -/
def Slot.countSend (s : Slot) (r : Nat) : Slot :=
  { s with cfg := { s.cfg with eos := setNat s.cfg.eos r ((lookupNat s.cfg.eos r + 1) % 2 ^ 64) } }

/-- R388. One token on the route. -/
def execSend (route : BitVec 10) (s : State) : Out :=
  classC (fun c i _ o =>
    match c.routeOf i route.toNat with
    | some (some dst, fmt, slot, chan) =>
      (c.sendTokens i.core i.pid [c.mkToken i dst fmt slot chan (o.b.toNat % 2 ^ 48) o.a o.taint]).modSlot i.core i.pid
        fun s => s.countSend route.toNat
    | _ => c) s

/-- R388. The same token to every core of a sub-rectangle. -/
def execSendm (route : BitVec 10) (s : State) : Out :=
  classC (fun c i _ o =>
    match c.routeOf i route.toNat, c.subRect i o.c.toNat with
    | some (_, fmt, slot, chan), some cores =>
      c.sendTokens i.core i.pid (cores.map fun dst => c.mkToken i dst fmt slot chan (o.b.toNat % 2 ^ 48) o.a o.taint)
    | _, _ => c) s

/-- R389. The count of the route's tokens, which starts anew. -/
def execEos (route : BitVec 10) (s : State) : Out :=
  classC (fun c i _ o =>
    match c.routeOf i route.toNat with
    | some (some dst, _, slot, chan) =>
      let n := lookupNat (c.slot i.core i.pid).cfg.eos route.toNat
      (c.sendTokens i.core i.pid [c.mkToken i dst 6 slot chan (o.a.toNat % 2 ^ 48) (BitVec.ofNat 64 n) o.taint]).modSlot i.core i.pid
        fun s => { s with cfg := { s.cfg with eos := setNat s.cfg.eos route.toNat 0 } }
    | _ => c) s

/-- R387. A fresh context, its tag returned. -/
def execTagnew (ret : Option (BitVec 5)) (s : State) : Out :=
  classC (fun c i _ o =>
    match c.takeCtx i with
    | (none, c) => c.returnVal i.iid ret allOnes o.taint
    | (some tag, c) => c.returnVal i.iid ret (BitVec.ofNat 64 tag) o.taint) s

/-- R390. The context of tag a is free. -/
def execTagfree (s : State) : Out := classC (fun c i _ o => c.freeCtx i o.a.toNat) s

/-! ### Expectations and priority (R394, R395) -/

/-- Counters of a channel (R394). -/
def CfgSt.chan (g : CfgSt) (k : Nat) : ChanCount := (g.chans.find? fun x => x.chan == k).getD { chan := k }
def CfgSt.setChan (g : CfgSt) (x : ChanCount) : CfgSt := { g with chans := upsert (fun y => y.chan == x.chan) x g.chans }

/-- Sum of n over posts. -/
def postSum (l : List (Nat × Nat × Nat)) : Nat := sumNat (l.map fun p => p.2.2)

/-- Whether a request is refused whole (R394). -/
def CfgSt.refusesExpect (g : CfgSt) (a : Nat) : Bool :=
  let n := bits a 16 16
  n = 0 || bits a 7 9 != 0 || a / 2 ^ 32 != 0 || 65535 < postSum (g.chan (bits a 0 7)).posts + n

/-- R394. Posts n on a channel and holds n; a refused request answers all ones at once. -/
def execExpect (t0 : Option Target) (s : State) : Out :=
  onChip (fun c fo => c.fire fo fun c i f =>
    if f.onNull fo.idx then c.sendTo i.iid [t0] .null
    else
      let o := operandsOf (f.data fo.idx) (f.predTaint fo.idx)
      let g := (c.slot i.core i.pid).cfg
      if g.refusesExpect o.a.toNat then c.sendTo i.iid [t0] (.val allOnes o.taint)
      else
        let x := g.chan (bits o.a.toNat 0 7)
        let n := bits o.a.toNat 16 16
        let c := c.modSlot i.core i.pid fun s =>
          { s with cfg := s.cfg.setChan { x with posts := x.posts ++ [(i.iid, fo.idx, n)] } }
        c.modInst i.iid fun i => { i with frame := i.frame.map fun f =>
          { f with waits := f.waits ++ [{ idx := fo.idx, n := BitVec.ofNat 64 n, taint := o.taint }] } }) s

/-- Sum of the posts up to and including that of an instruction, if it has posted (R394). -/
def postedThrough (iid idx : Nat) : List (Nat × Nat × Nat) → Option Nat
  | [] => none
  | p :: t => if p.1 = iid && p.2.1 = idx then some p.2.2 else (postedThrough iid idx t).map (· + p.2.2)

/-- Whether a held `EXPECT` may go on: ARR ≥ CONS + the posts through its own. -/
def Chip.expectDone (c : Chip) (i : Inst) (w : Wait) (word : Nat) : Bool :=
  opOf word == 0x14A && (c.slot i.core i.pid).cfg.chans.any fun x =>
    match postedThrough i.iid w.idx x.posts with
    | some n => x.cons + n ≤ x.arr
    | none => false

/-- R394. Enough tokens have arrived: n is sent. -/
def execExpectRelease (s : State) : Out :=
  onChip (fun c fo => match c.waitAt fo with
    | none => c
    | some (i, w, word) => if c.expectDone i w word then c.release i.iid w [t0Of word] else c) s

/-- CONS at commit (R394): the posts of a committing block are consumed and leave the queue; those of its dropped waits only leave. -/
def Slot.commitPosts (s : Slot) (iid : Nat) (held : List Nat) : Slot :=
  { s with cfg := { s.cfg with chans := s.cfg.chans.map fun x =>
    let mine := x.posts.filter fun p => p.1 == iid && !held.contains p.2.1
    { x with cons := x.cons + postSum mine, posts := x.posts.filter fun p => p.1 != iid } } }

/-- R395. Sets the priority class and the aging flag. -/
def execPrio (age : Bool) (cls : BitVec 3) (s : State) : Out :=
  classC (fun c i _ _ => c.modInst i.iid fun i => { i with cls := cls.toNat, aging := age }) s

/-! ### Reading a core's switch state (R393) -/

/-- Code of a switch state (R393). -/
def Switch.code : Switch → Nat
  | .active => 0 | .draining => 1 | .switching => 2

/-- Tokens of the active plane that a core holds or has on the way to it. -/
def Chip.planeTokens (c : Chip) (core pid : Nat) : Nat :=
  let s := c.slot core pid
  sumNat ((s.mat.entries.filter fun e => e.plane == s.cfg.act).map Entry.size)
    + (s.mat.index.filter fun t => hdrPlane t.hdr == s.cfg.act).length
    + (c.flights.filter fun t => t.dst == core && t.pid == pid && hdrPlane t.hdr == s.cfg.act).length

/-- Instances of the active plane. -/
def Chip.planeInsts (c : Chip) (core pid : Nat) : Nat :=
  ((c.slotInsts core pid).filter fun i => i.plane == (c.slot core pid).cfg.act && i.state != .ended).length

/-- The word that `DRAINQ` reads (R393). -/
def Chip.drainWord (c : Chip) (core pid : Nat) : Nat :=
  let g := (c.slot core pid).cfg
  min (c.planeInsts core pid) 65535 * 2 ^ 48 + min (c.planeTokens core pid) 65535 * 2 ^ 32 + g.act * 16 + b2n g.armed * 8 + g.sw.code

/-- R393. The switch state of a core, tainted. -/
def execDrainq (peer : Bool) (t1 t0 : Option Target) (s : State) : Out :=
  onChip (fun c fo => c.fireT fo [t1, t0] fun c i _ o =>
    let (ox, oy, rw, rh) := c.rect i.pid i.core
    let dx := bits o.a.toNat 0 5
    let dy := bits o.a.toNat 8 5
    if peer && (rw ≤ dx || rh ≤ dy) then (.error { cause := 0x22 }, c)
    else (.ok (BitVec.ofNat 64 (c.drainWord (if peer then coreAt (ox + dx) (oy + dy) else i.core) i.pid), true), c)) s

/-! ### Loops (R377 to R379, R391) -/

/-- Whether a block holds an `SWR` of FPC (R242). -/
def Frame.writesFpc (f : Frame) : Bool := f.words.any fun w => opOf w == 0x1C3 && bits w 0 12 == 0

/-- R377, R391. Creates the next iteration as it fires, or at commit where the block writes FPC, or later where the window is full. -/
def execIter (_n : BitVec 2) (s : State) : Out :=
  onChip (fun c fo => c.fire fo fun c i f =>
    if f.onNull fo.idx then c.resolveId i.iid fo.idx f none
    else
      let args := f.data fo.idx
      if !bitAt f.hdr 18 || args.length ≠ i.args.length || i.tag % 2 ^ 26 = 2 ^ 26 - 1 then c.takeFault i.iid fo.idx { cause := 0x7B }
      else if f.resolved.contains (lsidOf (f.word fo.idx)) then c.takeFault i.iid fo.idx { cause := 0x12 }
      else
        let c := c.resolveId i.iid fo.idx f none
        if f.writesFpc then c.modInst i.iid fun i => { i with deferred := i.deferred ++ [{ args, atCommit := true }] }
        else if c.iterRoom i f.hdr then c.createIter i.iid args
        else c.modInst i.iid fun i => { i with deferred := i.deferred ++ [{ args, atCommit := false }] }) s

/-- The deferred iteration of an instance that may be created before its creator commits. -/
def Chip.mayCreateDeferred (c : Chip) (iid : Nat) : Option (Inst × Deferred) :=
  match c.inst? iid with
  | none => none
  | some i =>
    match i.frame, i.deferred.find? fun d => !d.atCommit with
    | some f, some d => if c.iterRoom i f.hdr then some (i, d) else none
    | _, _ => none

/-- R377. Older iterations have committed: the deferred one is created. -/
def execIterDeferredCreate (s : State) : Out :=
  onChip (fun c fo => match c.mayCreateDeferred fo.iid with
    | none => c
    | some (i, d) => (c.modInst i.iid fun i => { i with deferred := i.deferred.erase d }).createIter i.iid d.args) s

/-- Whether a tag belongs to a context and lies beyond an iteration. -/
def beyond (key iter tag : Nat) : Bool := tag / 2 ^ 26 == key && iter < tag % 2 ^ 26

/-- A slot after a squash (R379): no token of the iterations beyond, and the bound recorded. -/
def Slot.squash (s : Slot) (key iter : Nat) : Slot :=
  let old := (s.bounds.find? fun b => b.1 == key).map Prod.snd
  { s with
    bounds := setNat s.bounds key (match old with | some b => min b iter | none => iter)
    mat := { s.mat with
      entries := s.mat.entries.filter fun e => !beyond key iter e.tag
      held := s.mat.held.filter fun t => !beyond key iter (hdrTag t.hdr) } }

/-- An operation of a block is under way: the issuer's next block waits for it (R202, R379, R425). -/
def Chip.addPend (c : Chip) (i : Inst) (kind : PendKind) (idx : Nat) : Chip :=
  let p := c.part i.pid
  (c.setPart { p with pends := p.pends ++ [{ n := p.nextPend, kind, who := i.issuer idx }], nextPend := p.nextPend + 1 }).modInst i.iid
    fun i => { i with holds := i.holds ++ [.op p.nextPend] }

/-- The operation of a partition with a number. -/
def Chip.pendAt (c : Chip) (pid n : Nat) : Option Pend := (c.part pid).pends.find? fun q => q.n == n

/-- An operation is over: its issuer may go on. -/
def Chip.endPend (c : Chip) (pid : Nat) (q : Pend) : Chip :=
  let p := c.part pid
  (c.setPart { p with pends := p.pends.filter fun x => x.n != q.n }).unhold q.who.iid q.n

/-- R379. Discards the issuer's later iterations on every core of the launch rectangle, one still to be created among them, and bounds the
context. -/
def execSquash (s : State) : Out :=
  classC (fun c i a _ =>
    let key := i.tag / 2 ^ 26
    let iter := i.tag % 2 ^ 26
    let (ox, oy, w, h) := c.rect i.pid i.core
    let cores := rectCores ox oy w h
    let gone := (c.insts.filter fun j => j.pid == i.pid && cores.contains j.core && beyond key iter j.tag).map (·.iid)
    let c := gone.foldl (fun c k => c.endInst k) c
    let c := { c with scq := c.scq.filter fun q => !gone.contains q.iid }
    let c := c.modInst i.iid fun i => { i with deferred := [] }
    let c := cores.foldl (fun c k => c.modSlot k i.pid fun s => s.squash key iter) c
    c.addPend i (.squash (key / 2 ^ 12) (key % 2 ^ 12) iter) a.idx) s

/-- R379. Every core has acknowledged: the squashing instance's next block may begin. -/
def execSquashAck (s : State) : Out :=
  onChip (fun c fo => match c.pendAt fo.pid fo.n with
    | some q => match q.kind with
      | .squash _ _ _ => c.endPend fo.pid q
      | _ => c
    | none => c) s

end Sys2Proof.Machine
end

