-- ==== Sys2Proof/Machine/Engines.lean ====
section
/-! DEFINITION. What the engine contexts share (R210, R423, R476, R477): acceptance of a command at commit, its place in a queue, the
DONE and return values of resume and abandon, and the rectangle a command's issuer acts for. -/

namespace Sys2Proof.Machine

/-! ### What a block has still to perform -/

/-- The instruction of an action. -/
def Frame.instrOf (f : Frame) (idx : Nat) : Option Instr :=
  match decodeWord (f.word idx) with
  | .ok d => some d.instr
  | .error _ => none

/-- Port of a start form of a copy (R159). -/
def copyPort : Instr → Option Nat
  | .cpy p _ _ => some p.toNat
  | .cpypl p _ _ => some p.toNat
  | .cpyun p _ _ => some p.toNat
  | _ => none

/-- The engine context whose bounded queue a command enters, and the queue's entries for a slot (R175, R279, R294, R326, R343). -/
def engineQueue : Instr → Option (Nat × Nat)
  | .gath _ => some (4, 4)
  | .scat _ => some (4, 4)
  | .mma _ _ _ => some (5, 8)
  | .mmal _ _ _ => some (5, 8)
  | .accz _ _ _ _ => some (5, 8)
  | .accld _ _ _ _ => some (5, 8)
  | .accst _ _ _ _ => some (6, 8)
  | .qst _ _ _ _ => some (6, 8)
  | .lvlld _ _ _ _ => some (6, 8)
  | .ainit _ _ _ _ => some (8, 8)
  | .agate _ _ _ => some (8, 8)
  | .aswap _ _ _ => some (8, 8)
  | .ameas _ _ _ _ => some (8, 8)
  | .afree _ _ _ => some (8, 8)
  | .coll _ _ => some (9, 8)
  | .cred _ _ _ _ => some (9, 8)
  | _ => none

/-- An action that will be performed, with its instruction and operands. -/
structure Doing where
  act : Act
  ins : Instr
  ops : Operands
  deriving DecidableEq, Repr

/-- The actions of a frame that will be performed (R107), in store-ID order (R110). -/
def Frame.doings (f : Frame) : List Doing :=
  (sortActs f.acts).filterMap fun a =>
    if a.null then none else (f.instrOf a.idx).map fun d => { act := a, ins := d, ops := operandsOf a.ops a.ptaint }

/-- The actions that the committing blocks of a slot have still to perform: what those take of a queue or a store is reserved for them (R159,
R279, R400). -/
def Chip.underCommit (c : Chip) (core pid : Nat) : List (Inst × Doing) :=
  (c.slotInsts core pid).flatMap fun i => match i.frame with
    | some f => if i.state == .committing then f.doings.map fun d => (i, d) else []
    | none => []

/-- How many of them satisfy `p`. -/
def Chip.dueOf (c : Chip) (core pid : Nat) (p : Instr → Bool) : Nat := ((c.underCommit core pid).filter fun x => p x.2.ins).length

/-! ### Commands and queues -/

/-- A command of an instance, before it has a number. -/
def Inst.cmd (i : Inst) (op : CmdOp) (idx : Nat) (o : Operands) (dn : Bool) (dch : Nat) : Cmd :=
  { op, a := o.a, b := o.b, c := o.c, taint := o.taint, dn, dch, who := i.issuer idx }

/-- The command at a number in the queue of an engine context. -/
def Slot.cmd? (s : Slot) (k num : Nat) : Option Cmd := (s.eng k).cmds.find? fun q => q.num == num

/-- Change a command in the queue of an engine context. -/
def Slot.modCmd (s : Slot) (k num : Nat) (f : Cmd → Cmd) : Slot :=
  s.modEng k fun q => { q with cmds := mapIf (fun x => x.num == num) f q.cmds }

/-- A command enters the queue of engine context `k` with the next number (R210, R458), its DONE token's place reserved (R400). -/
def Chip.accept (c : Chip) (core pid k : Nat) (q : Cmd) : Nat × Chip :=
  let num := ((c.slot core pid).eng k).given + 1
  (num, c.modSlot core pid fun s =>
    (s.modEng k fun e => { e with given := num, cmds := e.cmds ++ [{ q with num }] }).reserve q.dn)

/-- The oldest command of an engine context. -/
def Slot.headCmd (s : Slot) (k : Nat) : Option Cmd := (s.eng k).cmds.head?

/-- Whether an engine context may start or go on with commands: not halted, and its slot runs (R438). -/
def Slot.engRuns (s : Slot) (k : Nat) : Bool := !(s.eng k).halted && s.pstate == .run

/-- An event of an engine that acts only while its slot runs on the focus's core (R438). -/
def whileRuns (f : Chip → Focus → Chip) (c : Chip) (fo : Focus) : Chip := if (c.slot fo.core fo.pid).pstate == .run then f c fo else c

/-- The actor that an engine command is: its issuer's slice, its core and partition (R29), and the range entries it owns. -/
def Cmd.actor (q : Cmd) (core pid : Nat) (owner : Option RangeOwner := none) : Actor := { pid, core, iid := q.who.iid, owner }

/-- A halted command runs again (R477). -/
def Slot.unhalt (s : Slot) (k num : Nat) : Slot :=
  (s.modEng k fun e => { e with halted := false }).modCmd k num fun q => { q with fail := none }

/-- The command that halts an engine context, if it is halted. -/
def Slot.haltedCmd (s : Slot) (k : Nat) : Option (Cmd × FaultRec) :=
  if (s.eng k).halted then (s.eng k).cmds.findSome? fun q => q.fail.map fun r => (q, r) else none

/-- A resume of a command that may only be abandoned (R477): the same fault again, the queue still halted. -/
def Chip.faultAgain (c : Chip) (core pid k : Nat) (q : Cmd) (r : FaultRec) : Chip :=
  let c := if q.dn then c.modSlot core pid fun s => s.reserve true else c
  (c.sendDone q.who q.dn q.dch (donePayload true (srcOf k) k q.num)).queueRecord core pid r

/-- A command that has sent a DONE with ERR keeps a place for the one to come (R400, R477). -/
def Chip.reserveAgain (c : Chip) (core pid : Nat) (q : Cmd) : Chip := c.modSlot core pid fun s => s.reserve q.dn

/-- Lowest free number of the range table (R216), or none when 64 are in use. -/
def Part.freeRange (p : Part) : Option Nat := ((List.range 64).map (· + 1)).find? fun n => !p.ranges.any fun r => r.num == n

/-- A range entry is created (R216). -/
def Part.addRange (p : Part) (num : Nat) (owner : RangeOwner) (va len : Nat) (spans : List (Nat × Nat)) : Part :=
  { p with ranges := p.ranges ++ [{ num, owner, va, len, spans }] }

/-- The range entries of an owner are removed. -/
def Part.dropRange (p : Part) (owner : RangeOwner) : Part := { p with ranges := p.ranges.filter fun r => r.owner != owner }

/-- Change a partition. -/
def Chip.modPart (c : Chip) (pid : Nat) (f : Part → Part) : Chip := c.setPart (f (c.part pid))

/-- Change the launch that runs on a core. -/
def Chip.modLaunchAt (c : Chip) (core pid : Nat) (f : Launch → Launch) : Chip :=
  match (c.part pid).launchAt core with
  | some l => c.modPart pid fun p => p.setLaunch (f l)
  | none => c

/-- A descriptor failure (R163, R420): the word, its address, the lowest bit of the field. -/
def descF (cause va word bit : Nat) : AFault := { cause, sub := word, addr := va, info0 := bit }

/-- A failure that names an instruction operand (R420). -/
def operandF (cause slot : Nat) : AFault := { cause, sub := 0xFF, info0 := slot }

/-- The first failing check of a list: each is whether it fails, the descriptor word, the field's lowest bit. -/
def firstFail (l : List (Bool × Nat × Nat)) : Option (Nat × Nat) := (l.find? fun x => x.1).map fun x => x.2

/-- Words of a descriptor, which is 8-byte aligned (R476). -/
def Chip.readDesc (c : Chip) (x : Actor) (va n : Nat) : Except AFault (List Nat) × Chip :=
  if va % 8 ≠ 0 then (.error (adF 0x23 va), c) else c.readWords x va n

/-- Words of a descriptor with the taint of its lines. -/
def Chip.readDescT (c : Chip) (x : Actor) (va n : Nat) : Except AFault (List Nat × Bool) × Chip :=
  if va % 8 ≠ 0 then (.error (adF 0x23 va), c)
  else match c.engineRead x va (8 * n) with
    | (.error f, c) => (.error f, c)
    | (.ok (bs, t), c) => (.ok ((List.range n).map fun k => leNat ((bs.drop (8 * k)).take 8), t), c)

/-- A resume or abandon whose own DN and DCH answer for a queue that is not halted (R283, R310, R330, R349, R477): DONE carries the
timeline's value. -/
def Chip.notHalted (c : Chip) (i : Inst) (idx k : Nat) (dn : Bool) (dch : Nat) : Chip :=
  let v := (c.slot i.core i.pid).tl k
  (c.modSlot i.core i.pid fun s => s.reserve dn).sendDone (i.issuer idx) dn dch (donePayload false (srcOf k) k v)

/-- Resume of a halted context whose completions go out under the halted command's DN and DCH. -/
def Chip.resumeQueue (c : Chip) (i : Inst) (idx k : Nat) (dn : Bool) (dch : Nat) : Chip :=
  match (c.slot i.core i.pid).haltedCmd k with
  | none => c.notHalted i idx k dn dch
  | some (q, r) =>
    if q.onlyAbandon then c.faultAgain i.core i.pid k q r
    else (c.reserveAgain i.core i.pid q).modSlot i.core i.pid fun s => s.unhalt k q.num

/-- Abandon of a halted context: the command ends, its number is reached, DONE is sent. -/
def Chip.abandonQueue (c : Chip) (i : Inst) (idx k : Nat) (dn : Bool) (dch : Nat) : Chip :=
  match (c.slot i.core i.pid).haltedCmd k with
  | none => c.notHalted i idx k dn dch
  | some (q, _) =>
    ((c.reserveAgain i.core i.pid q).modSlot i.core i.pid fun s => s.unhalt k q.num).completeCmd i.core i.pid k q

/-- Whether two cores lie in one domain of a scope (R100, R185). -/
def sameDomain (scope a b : Nat) : Bool :=
  match scope with
  | 0 | 1 => a == b
  | 2 => clusterOf a == clusterOf b
  | 3 => towerOf a == towerOf b
  | _ => true

/-- A resume or abandon returns a timeline value to its register (R182). -/
def wordOf (n : Nat) : Word := BitVec.ofNat 64 n

end Sys2Proof.Machine
end

