-- ==== Sys2Proof/Machine/Amp.lean ====
section
/-! DEFINITION. The amplitude engine (R315 to R334): states and their index maps, `AINIT`, `AGATE`, `ASWAP`, `AMEAS`, `AFREE`, `AMAP`, and
the two events that carry a command out. A command is checked whole at its start and takes effect whole at its completion. What the
other packages of a state's box send comes as contributions (notes/assumptions 6). -/

namespace Sys2Proof.Machine

/-! ### States (R315 to R319) -/

/-- A live state of a slot. -/
def Slot.amp? (s : Slot) (sid : Nat) : Option AmpSt := s.amps.find? fun a => a.sid == sid
def Slot.setAmp (s : Slot) (a : AmpSt) : Slot := { s with amps := upsert (fun x => x.sid == a.sid) a s.amps }

/-- Qubits of a state, bytes of an amplitude, amplitudes and bytes held in this package (R315, R317). -/
def AmpSt.n (a : AmpSt) : Nat := a.loc + a.tb + a.pb
def AmpSt.size (a : AmpSt) : Nat := if a.prec = 1 then 8 else 16
def AmpSt.held (a : AmpSt) : Nat := 2 ^ (a.loc + a.tb)
def AmpSt.bytes (a : AmpSt) : Nat := a.held * a.size
/-- The element format of a state. -/
def AmpSt.fmt (a : AmpSt) : Fmt := fmtOf (if a.prec = 1 then .f32 else .f64)
/-- Phys(q) of R319, and the qubit that a physical bit holds. -/
def AmpSt.phys (a : AmpSt) (q : Nat) : Nat := a.map.getD q 0
def AmpSt.qubit (a : AmpSt) (p : Nat) : Nat := a.map.findIdx (· == p)
/-- Bit `p` of the full index of amplitude `i` of this package (R317). -/
def AmpSt.bit (a : AmpSt) (p i : Nat) : Bool := if p < a.loc + a.tb then bitAt i p else bitAt a.box (p - (a.loc + a.tb))

/-- Fields of a state descriptor (R316) that name its box, and the offset of this package in one dimension, if it lies inside. -/
def boxOffset (origin lg extent here : Nat) : Option Nat :=
  if origin % 2 ^ lg == 0 && origin + 2 ^ lg ≤ extent && origin ≤ here && here < origin + 2 ^ lg then some (here - origin) else none

/-- Index of this package in a box (R317). -/
def Chip.boxIndex (c : Chip) (lx ly lz ox oy oz : Nat) : Option Nat :=
  match boxOffset ox lx c.ex c.tx, boxOffset oy ly c.ey c.ty, boxOffset oz lz c.ez c.tz with
  | some x, some y, some z => some (x + y * 2 ^ lx + z * 2 ^ (lx + ly))
  | _, _, _ => none

/-- The state that a descriptor describes, or the first failing field (R315, R316, R318). -/
def Chip.ampDesc (c : Chip) (sid : Nat) (w : List Nat) : Except (Nat × Nat) AmpSt :=
  let w0 := w.getD 0 0
  let w1 := w.getD 1 0
  let w2 := w.getD 2 0
  let lz := bits w1 24 3
  let ly := bits w1 21 3
  let lx := bits w1 18 3
  let tb := bits w1 16 2
  let prec := bits w1 13 1
  let l := bits w1 0 6
  match firstFail [
    (2 ^ 52 ≤ w0 || w0 % 4096 != 0, 0, 0), (bits w1 27 37 != 0, 1, 27), (4 < lz, 1, 24), (5 < ly, 1, 21), (5 < lx, 1, 18),
    (tb == 3, 1, 16), (bits w1 14 2 % 2 ^ tb != 0, 1, 14), (bits w1 6 7 != 0, 1, 6),
    (l < 8 || 32 + prec < l || 34 + prec < l + tb, 1, 0), (bits w2 14 50 != 0, 2, 14),
    ((boxOffset (bits w2 9 5) lx c.ex c.tx).isNone, 2, 9), ((boxOffset (bits w2 4 5) ly c.ey c.ty).isNone, 2, 4),
    ((boxOffset (bits w2 0 4) lz c.ez c.tz).isNone, 2, 0)] with
  | some f => .error f
  | none => .ok {
      sid, prec, loc := l, tb, pb := lx + ly + lz, base := w0
      box := (c.boxIndex lx ly lz (bits w2 9 5) (bits w2 4 5) (bits w2 0 4)).getD 0
      map := List.range (l + tb + (lx + ly + lz)) }

/-! ### Acceptance (R316, R320, R326) -/

/-- A command of an instance that names a state. -/
def Inst.ampCmd (i : Inst) (op : CmdOp) (idx : Nat) (o : Operands) (dn : Bool) (dch : BitVec 7) (sid : BitVec 3) (opt : Bool) : Cmd :=
  { i.cmd op idx o dn dch.toNat with sel := sid.toNat, flag := opt }

/-- A command whose descriptor of `n` words is read at acceptance. -/
def Chip.acceptAmpDesc (c : Chip) (core pid : Nat) (q : Cmd) (n : Nat) : Chip :=
  let (r, c) := c.readDescT (q.actor core pid) q.a.toNat n
  let q := match r with
    | .error f => { q with err := some f, onlyAbandon := true }
    | .ok (w, t) =>
      let q := { q with desc := w, taint := q.taint || t }
      if q.op == .ainit then match c.ampDesc q.sel w with
        | .error (k, b) => { q with err := some (descF 0x68 q.a.toNat k b), onlyAbandon := true }
        | .ok _ => q
      else q
  (c.accept core pid 8 q).2

/-- R318. Queues the creation of a state. -/
def execAinit (dch : BitVec 7) (dn : Bool) (sid : BitVec 3) (keep : Bool) (s : State) : Out :=
  classC (fun c i a o => c.acceptAmpDesc i.core i.pid (i.ampCmd .ainit a.idx o dn dch sid keep) 3) s

/-- R321. Queues a gate. -/
def execAgate (dch : BitVec 7) (dn : Bool) (sid : BitVec 3) (s : State) : Out :=
  classC (fun c i a o => c.acceptAmpDesc i.core i.pid (i.ampCmd .agate a.idx o dn dch sid false) 2) s

/-- R323. Queues an exchange of two qubits' places. -/
def execAswap (dch : BitVec 7) (dn : Bool) (sid : BitVec 3) (s : State) : Out :=
  classC (fun c i a o => (c.accept i.core i.pid 8 (i.ampCmd .aswap a.idx o dn dch sid false)).2) s

/-- R324. Queues a measurement. -/
def execAmeas (dch : BitVec 7) (dn : Bool) (sid : BitVec 3) (col : Bool) (s : State) : Out :=
  classC (fun c i a o => (c.accept i.core i.pid 8 (i.ampCmd .ameas a.idx o dn dch sid col)).2) s

/-- R333. Queues the end of a state. -/
def execAfree (dch : BitVec 7) (dn : Bool) (sid : BitVec 3) (s : State) : Out :=
  classC (fun c i a o => (c.accept i.core i.pid 8 (i.ampCmd .afree a.idx o dn dch sid false)).2) s

/-- A command that has been issued on a live state counts in its pairing (R325). -/
def Slot.countAmp (s : Slot) (sid : Nat) : Slot :=
  { s with amps := mapIf (fun a => a.sid == sid) (fun a => { a with count := a.count + 1 }) s.amps }

/-- R330. Resumes the halted command from its start. -/
def execAgateRes (dch : BitVec 7) (dn : Bool) (s : State) : Out :=
  classC (fun c i a _ => c.resumeQueue i a.idx 8 dn dch.toNat) s

/-- R330. Ends the halted command; the state, its map and memory stay as they were. -/
def execAgateAbn (dch : BitVec 7) (dn : Bool) (s : State) : Out :=
  classC (fun c i a _ =>
    let h := (c.slot i.core i.pid).haltedCmd 8
    let c := c.abandonQueue i a.idx 8 dn dch.toNat
    match h with
    | some (q, _) => c.modSlot i.core i.pid fun s => s.countAmp q.sel
    | none => c) s

/-- The word of R334 for a view; all ones when the state is not live or the index lies beyond it. -/
def ampView (view x : Nat) : Option AmpSt → Nat
  | none => 2 ^ 64 - 1
  | some a =>
    if view = 2 then 2 ^ 63 + a.prec * 2 ^ 24 + a.n * 2 ^ 16 + a.pb * 2 ^ 12 + a.tb * 2 ^ 8 + a.loc
    else if a.n ≤ x then 2 ^ 64 - 1
    else if view = 0 then a.phys x else a.qubit x

/-- R334. Reads a state's map: tainted while a command on the state has been accepted and has not completed. -/
def execAmap (view : BitVec 2) (t0 : Option Target) (s : State) : Out :=
  onChip (fun c fo => c.fireT fo [t0] fun c i _ o =>
    let s := c.slot i.core i.pid
    let sid := bits o.a.toNat 8 3
    let busy := (s.eng 8).cmds.any fun q => q.sel == sid
    (.ok (BitVec.ofNat 64 (ampView view.toNat (bits o.a.toNat 0 6) (s.amp? sid)), o.taint || busy), c)) s

/-! ### Start (R318, R327) -/

/-- Fields of a gate descriptor (R320). -/
def Cmd.gtNctl (q : Cmd) : Nat := bits (q.desc.getD 1 0) 59 3
def Cmd.gtK (q : Cmd) : Nat := bits (q.desc.getD 1 0) 56 3
def Cmd.gtCpol (q : Cmd) : Nat := bits (q.desc.getD 1 0) 53 3
def Cmd.gtCq (q : Cmd) (j : Nat) : Nat := bits (q.desc.getD 1 0) (30 + 6 * j) 6
def Cmd.gtQ (q : Cmd) (j : Nat) : Nat := bits (q.desc.getD 1 0) (6 * j) 6
/-- Target and control qubits. -/
def Cmd.targets (q : Cmd) : List Nat := (List.range q.gtK).map q.gtQ
def Cmd.controls (q : Cmd) : List Nat := (List.range q.gtNctl).map q.gtCq

/-- The checks of a gate descriptor in table order (R320): a repeated qubit fails at the later of its fields. -/
def gateBad (a : AmpSt) (q : Cmd) : Option (Nat × Nat) :=
  let w1 := q.desc.getD 1 0
  let fields := ([2, 1, 0].map fun j => (q.gtCq j, decide (j < q.gtNctl), 30 + 6 * j)) ++
    ([4, 3, 2, 1, 0].map fun j => (q.gtQ j, decide (j < q.gtK), 6 * j))
  let checks := fields.zipIdx.map fun ((v, used, lo), k) =>
    (if used then a.n ≤ v || (fields.take k).any fun (u, on, _) => on && u == v else v != 0, 1, lo)
  firstFail ([
    (q.desc.getD 0 0 % a.size != 0, 0, 0), (bits w1 62 2 != 0, 1, 62), (3 < q.gtNctl, 1, 59), (q.gtK == 0 || 5 < q.gtK, 1, 56),
    (q.gtCpol / 2 ^ q.gtNctl != 0, 1, 53), (bits w1 48 5 != 0, 1, 48)] ++ checks)

/-- What a start refuses from the command and its state alone: the state live or not, then the operands (R318, R320, R323, R324). -/
def ampBad (st : Option AmpSt) (q : Cmd) : Option AFault :=
  match q.op, st with
  | .ainit, some _ => some { cause := 0x69 }
  | .ainit, none => none
  | _, none => some { cause := 0x69 }
  | .agate, some a => (gateBad a q).map fun (k, b) => descF 0x68 q.a.toNat k b
  | .aswap, some a =>
    let v := q.a.toNat
    let x := bits v 0 6
    let y := bits v 8 6
    if bits v 6 2 != 0 || bits v 14 50 != 0 || a.n ≤ x || a.n ≤ y then some (operandF 0x68 0)
    else if x != y && a.loc ≤ a.phys x && a.loc ≤ a.phys y then some (operandF 0x68 0) else none
  | .ameas, some a =>
    if a.n ≤ bits q.a.toNat 0 6 then some (operandF 0x68 0)
    else if q.b.toNat % 16 != 0 || (a.base < q.b.toNat + 16 && q.b.toNat < a.base + a.bytes) then some (operandF 0x68 1) else none
  | _, some _ => none

/-- Whether a command writes its state's amplitudes. -/
def Cmd.writesAmps (q : Cmd) : Bool :=
  match q.op with
  | .ainit => !q.flag
  | .ameas => q.flag
  | .agate | .aswap => true
  | _ => false

/-- Places of the pages of a region, in ascending address. Poison is no check of a start (R327): it is met by the accesses themselves. -/
def Chip.ampPages (c : Chip) (x : Actor) (k : AKind) (setD : Bool) (va size : Nat) : Except AFault (List Place) × Chip :=
  (List.range ((size + 4095) / 4096)).foldl (fun (r, c) j =>
    match r with
    | .error f => (.error f, c)
    | .ok l =>
      match c.reach x k setD (va + 4096 * j) (min 4096 (size - 4096 * j)) with
      | (.error f, c) => (.error f, c)
      | (.ok pl, c) => (.ok (l ++ [pl]), c)) (.ok [], c)

/-- The region of an `AINIT` (R318): translation of every page, then the kind of each, then overlap, then range entries. -/
def Chip.initPages (c : Chip) (core pid : Nat) (x : Actor) (q : Cmd) (a : AmpSt) : Except AFault (List Place) × Chip :=
  let (r, c) := (List.range ((a.bytes + 4095) / 4096)).foldl (fun (r, c) j =>
    match r with
    | .error f => (.error f, c)
    | .ok l =>
      let va := a.base + 4096 * j
      match if va < 2 ^ 52 then c.paged x .atomic q.writesAmps va else (c.window x .atomic va, c) with
      | (.error f, c) => (.error f, c)
      | (.ok pl, c) => (.ok (l ++ [pl]), c)) ((.ok [] : Except AFault (List Place)), c)
  match r with
  | .error f => (.error f, c)
  | .ok l =>
    if l.any fun pl => pl.home != .dram || pl.tier.isSome then (.error (descF 0x68 q.a.toNat 0 0), c)
    else if (c.slot core pid).amps.any fun b => b.base < a.base + a.bytes && a.base < b.base + b.bytes then
      (.error (descF 0x68 q.a.toNat 0 0), c)
    else match l.zipIdx.findSome? fun (pl, j) =>
        (lowestRefusing (c.part pid).ranges x .atomic pl.loc (min 4096 (a.bytes - 4096 * j))).map fun e =>
          rangeF c e x (a.base + 4096 * j) pl.loc (min 4096 (a.bytes - 4096 * j)) with
      | some f => (.error f, c)
      | none => (.ok l, c)

/-- What a start finds: the pages of the region, the words of a gate's matrix, the taint of what it read. -/
structure AmpStart where
  pages  : List Place
  matrix : List Nat := []
  taint  : Bool := false
  deriving DecidableEq, Repr

/-- The checks of a start against memory: region, matrix, record (R327). -/
def Chip.checkAmp (c : Chip) (core pid : Nat) (q : Cmd) (a : AmpSt) : Except AFault AmpStart × Chip :=
  let x := q.actor core pid (some (.amp core q.sel))
  let (r, c) := if q.op == .ainit then c.initPages core pid x q a
    else c.ampPages x (if q.writesAmps then .atomic else .read) q.writesAmps a.base a.bytes
  match r with
  | .error f => (.error f, c)
  | .ok pages =>
    match q.op with
    | .agate =>
      match c.engineRead x (q.desc.getD 0 0) (4 ^ q.gtK * a.size) with
      | (.error f, c) => (.error f, c)
      | (.ok (bs, t), c) =>
        let h := a.size / 2
        (.ok { pages, taint := t, matrix := (List.range (2 * 4 ^ q.gtK)).map fun k => leNat ((bs.drop (h * k)).take h) }, c)
    | .ameas =>
      match c.enginePlaces x q.b.toNat 16 with
      | (.error f, c) => (.error f, c)
      | (.ok _, c) => (.ok { pages }, c)
    | _ => (.ok { pages }, c)

/-- An amplitude command halts its queue: its range entry goes, and it will start anew (R330). -/
def Chip.haltAmp (c : Chip) (core pid : Nat) (q : Cmd) (f : AFault) : Chip :=
  let only := q.err.isSome || f.cause = 0x68 || f.cause = 0x69 || f.cause = 0x6B
  ((c.modPart pid fun p => p.dropRange (.amp core q.sel)).modSlot core pid fun s =>
    s.modCmd 8 q.num fun q => { q with started := false }).haltEngine core pid 8 q 0 f only

/-- The amplitude command that may start: one at a time, in commit order (R326). -/
def Slot.ampHead (s : Slot) : Option Cmd :=
  match s.headCmd 8 with
  | some q => if !q.started && s.engRuns 8 then some q else none
  | none => none

/-- R216, R327. The next amplitude command of a slot starts: it needs a free entry of the range table for its region, then its checks are
made. Nothing begins while a checked access of the partition is still to be made (notes/assumptions 96). -/
def Chip.startAmp (c : Chip) (fo : Focus) : Chip :=
  let s := c.slot fo.core fo.pid
  match s.ampHead with
  | none => c
  | some q =>
    let halt := fun (c : Chip) f => c.haltAmp fo.core fo.pid q f
    match q.err with
    | some f => halt c f
    | none =>
      match ampBad (s.amp? q.sel) q with
      | some f => halt c f
      | none =>
        let st : Except (Nat × Nat) AmpSt := match s.amp? q.sel with
          | some a => .ok a
          | none => c.ampDesc q.sel q.desc
        match st with
        | .error (k, b) => halt c (descF 0x68 q.a.toNat k b)
        | .ok a =>
          if c.scWaits fo.pid then c
          else match (c.part fo.pid).freeRange with
          | none => halt c { cause := 0x52 }
          | some num =>
            match c.checkAmp fo.core fo.pid q a with
            | (.error f, c) => halt c f
            | (.ok m, c) =>
              let spans := m.pages.zipIdx.map fun (pl, j) => (pl.loc, min 4096 (a.bytes - 4096 * j))
              (c.modPart fo.pid fun p => p.addRange num (.amp fo.core q.sel) a.base a.bytes spans).modSlot fo.core fo.pid fun s =>
                s.modCmd 8 q.num fun q => { q with
                  started := true, taint := q.taint || m.taint, extra := m.matrix
                  cover := m.pages.map fun pl => (pl.loc, pl.key, pl.home == .dram) }

/-- R327. See `Chip.startAmp`. -/
def execAmpCmdStart (s : State) : Out := onChip Chip.startAmp s

/-! ### Peers (R325) -/

/-- The words that paired commands must agree in. -/
def Cmd.ampAgree (q : Cmd) : List Nat :=
  match q.op with
  | .ainit => [0, q.desc.getD 1 0, q.desc.getD 2 0, b2n q.flag]
  | .agate => [1, q.desc.getD 1 0]
  | .aswap => [2, q.a.toNat]
  | .ameas => [3, bits q.a.toNat 0 6, b2n q.flag, if q.flag then q.c.toNat else 0]
  | _ => [4]

/-- What another package of the box has sent for the command at hand. -/
def Chip.ampPeer (c : Chip) (core pid : Nat) (a : AmpSt) (b : Nat) : Option Contrib :=
  c.contribs.find? fun x => x.key == [8, pid, core, a.sid, a.count, b]

/-- The other packages of the box. -/
def AmpSt.others (a : AmpSt) : List Nat := (List.range (2 ^ a.pb)).filter (· != a.box)

/-! ### The arithmetic (R321, R322, R324) -/

/-- Amplitudes of this package with a mark on those that a command has written. -/
abbrev Amps := List ((Nat × Nat) × Bool)

/-- The part on which bits `p` and `P` of an index are exchanged. -/
def swapIndex (p P i : Nat) : Nat :=
  let d := 2 ^ p
  let e := 2 ^ P
  if bitAt i p && !bitAt i P then i - d + e else if !bitAt i p && bitAt i P then i + d - e else i

/-- SwapBits within the package, or with the package whose index differs in bit P (R322); `got` answers a partner's amplitudes. -/
def swapAmps (a : AmpSt) (got : Nat → List (Nat × Nat)) (p P : Nat) (l : Amps) : Amps :=
  let top := a.loc + a.tb
  if P < top then
    (List.range l.length).map fun i =>
      let j := swapIndex p P i
      if j = i then l.getD i ((0, 0), false) else ((l.getD j ((0, 0), false)).1, true)
  else
    let mine := bitAt a.box (P - top)
    let data := got (Nat.xor a.box (2 ^ (P - top)))
    let moving := fun i => bitAt i p != mine
    (List.range l.length).map fun i =>
      if moving i then (data.getD ((List.range i).filter moving).length (0, 0), true) else l.getD i ((0, 0), false)

/-- The map after SwapBits. -/
def AmpSt.swapMap (a : AmpSt) (p P : Nat) : AmpSt :=
  { a with map := a.map.map fun x => if x = p then P else if x = P then p else x }

/-- The partner of a non-local target (R322): the highest local bit not in use. -/
def AmpSt.partner (a : AmpSt) (used : List Nat) : Nat := (((List.range a.loc).filter fun b => !used.contains b).getLast?).getD 0

/-- The swaps of a gate, in ascending target position (R321). -/
def gateSwaps (got : Nat → List (Nat × Nat)) (qs cs : List Nat) (a : AmpSt) (l : Amps) : AmpSt × Amps :=
  let r := qs.foldl (fun (st : AmpSt × Amps × List Nat) x =>
    let (a, l, used) := st
    if a.loc ≤ a.phys x then
      let p := a.partner used
      (a.swapMap p (a.phys x), swapAmps a got p (a.phys x) l, used ++ [p])
    else st) (a, l, (qs ++ cs).map a.phys)
  (r.1, r.2.1)

/-- One output of a gate: row `r` of the matrix times the group's inputs (R321). -/
def gateRow (f : Fmt) (m : List Nat) (k r : Nat) (inp : List (Nat × Nat)) : Nat × Nat :=
  (List.range (2 ^ k)).foldl (fun (re, im) c =>
    let mr := m.getD (2 * (r * 2 ^ k + c)) 0
    let mi := m.getD (2 * (r * 2 ^ k + c) + 1) 0
    let (xr, xi) := inp.getD c (0, 0)
    let re := (fMa f .rne mr xr re).1
    let re := (fNma f .rne mi xi re).1
    let im := (fMa f .rne mr xi im).1
    let im := (fMa f .rne mi xr im).1
    (re, im)) (0, 0)

/-- A gate on local bits (R321). -/
def gateAmps (a : AmpSt) (q : Cmd) (l : Amps) : Amps :=
  let pos := q.targets.map a.phys
  let k := q.gtK
  let on := fun i => q.controls.zipIdx.all fun (x, m) => a.bit (a.phys x) i == bitAt q.gtCpol m
  let place := fun base c => base + sumNat (pos.zipIdx.map fun (p, j) => if bitAt c j then 2 ^ p else 0)
  (List.range l.length).map fun i =>
    if on i then
      let base := i - sumNat (pos.map fun p => if bitAt i p then 2 ^ p else 0)
      let r := sumNat (pos.zipIdx.map fun (p, j) => if bitAt i p then 2 ^ j else 0)
      (gateRow a.fmt q.extra k r ((List.range (2 ^ k)).map fun c => (l.getD (place base c) ((0, 0), false)).1), true)
    else l.getD i ((0, 0), false)

/-- An amplitude part widened to FP64 (R324). -/
def AmpSt.wide (a : AmpSt) (x : Nat) : Nat := if a.prec = 1 then (cvtFF (fmtOf .f32) (fmtOf .f64) .rne x).1 else x

/-- The sums s0 and s1 of each part of this package, in ascending local index (R324). -/
def partSums (a : AmpSt) (bq : Nat) (l : Amps) : List (Nat × Nat) :=
  let f := fmtOf .f64
  (List.range (2 ^ a.tb)).map fun tw => (List.range (2 ^ a.loc)).foldl (fun (s0, s1) j =>
    let i := tw * 2 ^ a.loc + j
    let (x, y) := (l.getD i ((0, 0), false)).1
    let x := a.wide x
    let y := a.wide y
    let t := (fMa f .rne y y (fMul f .rne x x).1).1
    if a.bit bq i then (s0, (fAdd f .rne s1 t).1) else ((fAdd f .rne s0 t).1, s1)) (0, 0)

/-- `1 / √x` of a positive finite FP64 number, rounded once (R324). -/
def recipRoot (f : Fmt) (x : Nat) : Nat :=
  match (fmtOf .f64).decode x with
  | .fin _ m e =>
    let (m, e) := if e % 2 = 0 then (m, e) else (2 * m, e - 1)
    let k := 64 + bitLen m
    let s := isqrt (4 ^ k / m)
    let odd := if s * s * m = 4 ^ k then 0 else 1
    (f.round .rne false (2 * s + odd) (-(k : Int) - 1 - e / 2)).1
  | _ => f.nan

/-- A measurement (R324): the record's two words, and for a collapse the outcome and the factor, or AM_NORM. -/
def measure (f : Fmt) (sums : List (Nat × Nat)) (col : Bool) (v : Nat) : Except AFault (Nat × Nat × Option (Bool × Nat)) :=
  let d := fmtOf .f64
  let (S0, S1) := match sums with
    | [] => (0, 0)
    | x :: t => t.foldl (fun (a, b) (s0, s1) => ((fAdd d .rne a s0).1, (fAdd d .rne b s1).1)) x
  let tot := (fAdd d .rne S0 S1).1
  let p1 := if (d.decode tot).isZero then d.nan else (fDiv d .rne S1 tot).1
  if !col then .ok (p1, 2 ^ 64 - 1, none)
  else match d.decode tot with
    | .fin _ m _ =>
      if m = 0 then .error { cause := 0x6B }
      else
        let u := (d.round .rne false (v / 2 ^ 11) (-53)).1
        let o := if (d.decode S1).isZero then false
          else if (d.decode S0).isZero then true
          else ltVal (d.decode (fMul d .rne u tot).1) (d.decode S1)
        .ok (p1, b2n o, some (o, recipRoot f (if o then S1 else S0)))
    | _ => .error { cause := 0x6B }

/-! ### Completion (R319, R326, R328) -/

/-- Location and key of byte `o` of a region whose pages a command found at its start. -/
def Cmd.ampPlace (q : Cmd) (o : Nat) : Nat × Nat :=
  let (loc, key, _) := q.cover.getD (o / 4096) (0, 0, false)
  (loc + o % 4096, key)

/-- The amplitudes that this package holds, and the OR of their lines' taints. -/
def Chip.readAmps (c : Chip) (q : Cmd) (a : AmpSt) : Amps × Bool × Chip :=
  let (bs, t, c) := (List.range ((a.bytes + 63) / 64)).foldl (fun (bs, t, c) j =>
    let (loc, key) := q.ampPlace (64 * j)
    let (b, c) := Chip.takeBytes c loc key 64
    (bs ++ b, t || c.mem.tainted loc 64, c)) (([] : List Byte), false, c)
  let h := a.size / 2
  ((List.range a.held).map fun i =>
    ((leNat ((bs.drop (a.size * i)).take h), leNat ((bs.drop (a.size * i + h)).take h)), false), t, c)

/-- Write the amplitudes that a command has changed, line by line: a line written whole takes the state's taint exactly (R328). -/
def Chip.writeAmps (c : Chip) (q : Cmd) (a : AmpSt) (taint : Bool) (l : Amps) : Chip :=
  let per := 64 / a.size
  (List.range ((a.bytes + 63) / 64)).foldl (fun c j =>
    let cells := (l.drop (per * j)).take per
    if cells.any (·.2) then
      let (loc, key) := q.ampPlace (64 * j)
      let bs := cells.flatMap fun ((re, im), _) => leBytes (a.size / 2) re ++ leBytes (a.size / 2) im
      let c := c.putBytes loc key bs
      { c with mem := (if cells.all (·.2) then c.mem.engineTaint loc 64 taint else c.mem.addTaint loc 64 taint).clearPoison loc 64 }
    else c) c

/-- Pairs of words as complex amplitudes. -/
def pairUp : List Nat → List (Nat × Nat)
  | a :: b :: t => (a, b) :: pairUp t
  | _ => []

/-- The effect of a command on its state: the state, its amplitudes, the record's words; `got` answers what a package of the box sent. -/
def ampEffect (a : AmpSt) (q : Cmd) (got : Nat → List Nat) (l : Amps) : Except AFault (Option AmpSt × Amps × List Nat) :=
  let pairs := fun b => pairUp (got b)
  match q.op with
  | .ainit =>
    if q.flag then .ok (some a, l, [])
    else
      let one := if a.prec = 1 then 0x3F800000 else 0x3FF0000000000000
      .ok (some a, (List.range l.length).map fun i => (if i = 0 && a.box == 0 then (one, 0) else (0, 0), true), [])
  | .agate =>
    let (a, l) := gateSwaps pairs q.targets q.controls a l
    .ok (some a, gateAmps a q l, [])
  | .aswap =>
    let x := a.phys (bits q.a.toNat 0 6)
    let y := a.phys (bits q.a.toNat 8 6)
    if x = y then .ok (some a, l, [])
    else
      let (p, P) := if x < a.loc then (x, y) else (y, x)
      .ok (some (a.swapMap p P), swapAmps a pairs p P l, [])
  | .ameas =>
    let bq := a.phys (bits q.a.toNat 0 6)
    let sums := (List.range (2 ^ a.pb)).flatMap fun b => if b = a.box then partSums a bq l else pairs b
    match measure a.fmt sums q.flag q.c.toNat with
    | .error f => .error f
    | .ok (p1, o, col) =>
      let l := match col with
        | none => l
        | some (bit, k) => (List.range l.length).map fun i =>
          let (re, im) := (l.getD i ((0, 0), false)).1
          (if a.bit bq i == bit then ((fMul a.fmt .rne re k).1, (fMul a.fmt .rne im k).1) else (0, 0), true)
      .ok (some a, l, [p1, o])
  | _ => .ok (none, l, [])

/-- The amplitude command that runs in a slot; pre-emption lets it run to its end (R331). -/
def Slot.ampRunning (s : Slot) : Option Cmd :=
  match s.headCmd 8 with
  | some q => if q.started && !(s.eng 8).halted then some q else none
  | none => none

/-- The state that a running command is about. -/
def Chip.ampState (c : Chip) (core pid : Nat) (q : Cmd) : Option AmpSt :=
  match (c.slot core pid).amp? q.sel with
  | some a => some a
  | none => (c.ampDesc q.sel q.desc).toOption

/-- Whether every other package of the box has issued the paired command. -/
def Chip.ampPaired (c : Chip) (core pid : Nat) (a : AmpSt) : Bool := a.others.all fun b => (c.ampPeer core pid a b).isSome

/-- Whether a command reads its state's amplitudes. -/
def Cmd.readsAmps (q : Cmd) : Bool := q.op == .agate || q.op == .aswap || q.op == .ameas || (q.op == .ainit && q.flag)

/-- Whether a command accesses its region as it takes effect. -/
def Cmd.usesAmps (q : Cmd) : Bool := q.readsAmps || q.writesAmps

/-- What keeps a command from the lines of its region as it takes effect: an entry of the range table made since its start (R217), or a
poisoned line of a region it reads (R445). -/
def Chip.regionTrouble (c : Chip) (core pid : Nat) (q : Cmd) (a : AmpSt) : Option AFault :=
  let x := q.actor core pid (some (.amp core q.sel))
  if !q.usesAmps then none
  else (List.range ((a.bytes + 63) / 64)).findSome? fun j =>
    let l := (q.ampPlace (64 * j)).1
    let va := a.base + 64 * j
    ((lowestRefusing (c.part pid).ranges x (if q.writesAmps then .atomic else .read) l 64).map fun e => rangeF c e x va l 64).or
      (if q.readsAmps then (c.mem.poisoned l 64).map fun _ => poisonF va l else none)

/-- The accesses of a command as it takes effect: what keeps it from one, or where its record lies now (R142, R217, R324). -/
def Chip.ampRecord (c : Chip) (core pid : Nat) (q : Cmd) (a : AmpSt) : Except AFault (List (Place × Nat × Nat)) × Chip :=
  match c.regionTrouble core pid q a with
  | some f => (.error f, c)
  | none => if q.op != .ameas then (.ok [], c) else c.enginePlaces (q.actor core pid (some (.amp core q.sel))) q.b.toNat 16

/-- R326. The running command takes effect once its partners have issued it: amplitudes, map, record, then `tl8` and DONE. Partners that
disagree or have failed end it with `AM_PEER` (R325). -/
def Chip.finishAmp (c : Chip) (fo : Focus) : Chip :=
  match (c.slot fo.core fo.pid).ampRunning with
  | none => c
  | some q =>
    match c.ampState fo.core fo.pid q with
    | none => c
    | some a =>
      let peers := a.others.filterMap fun b => c.ampPeer fo.core fo.pid a b
      if !c.ampPaired fo.core fo.pid a then c
      else match c.ampRecord fo.core fo.pid q a with
      | (.error f, c) => c.haltAmp fo.core fo.pid q f
      | (.ok ps, c) =>
        let c := { c with contribs := c.contribs.filter fun x => !peers.contains x }
        if peers.any fun x => x.failed || x.agree != q.ampAgree then c.haltAmp fo.core fo.pid q { cause := 0x6A }
        else
          let got := fun b => ((peers.find? fun x => x.key.getLast? == some b).map (·.words)).getD []
          let (l, t, c) := c.readAmps q a
          match ampEffect a q got l with
          | .error f => c.haltAmp fo.core fo.pid q f
          | .ok (st, l, rec_) =>
            let taint := a.taint || q.taint || (peers.any fun x => x.taints.any id) || (q.op == .ainit && q.flag && t)
            let c := c.writeAmps q a taint l
            let c := match rec_ with
              | [p1, o] => c.putPlaces ps (leBytes 8 p1 ++ leBytes 8 o) taint
              | _ => c
            let c := c.modPart fo.pid fun p => p.dropRange (.amp fo.core q.sel)
            let c := c.modSlot fo.core fo.pid fun s => match st with
              | some a => s.setAmp { a with taint, count := a.count + 1 }
              | none => { s with amps := s.amps.filter fun a => a.sid != q.sel }
            c.completeCmd fo.core fo.pid 8 q

/-- R326. See `Chip.finishAmp`. -/
def execAmpCmdComplete (s : State) : Out := onChip Chip.finishAmp s

end Sys2Proof.Machine
end

