-- ==== Sys2Proof/Machine/Atomics.lean ====
section
/-! DEFINITION. Meanings of the atomics (R197 to R199, R203, R214, R215), of `FENCE`, the timeline instructions (R202, R211 to R213) and
of the events that complete them. -/

namespace Sys2Proof.Machine

/-- What an atomic does (R198). -/
inductive AtomicOp where
  | add | smin | smax | nmin | nmax | and | or | xor | xchg | cas | incw | fadd
  deriving DecidableEq, Repr

/-- New value of an N-bit location, or none where nothing is written (R198). -/
def AtomicOp.apply (k : AtomicOp) (n old b c : Nat) : Option Nat :=
  match k with
  | .add => some (iAdd n old b)
  | .smin => some (iMin n old b)
  | .smax => some (iMax n old b)
  | .nmin => some (iMinn n old b)
  | .nmax => some (iMaxn n old b)
  | .and => some (iAnd n old b)
  | .or => some (iOr n old b)
  | .xor => some (iXor n old b)
  | .xchg => some (low n b)
  | .cas => if low n old = low n b then some (low n c) else none
  | .incw => some (if low n b ≤ low n old then 0 else low n old + 1)
  | .fadd => some (fAdd (if n = 64 then fmtOf .f64 else fmtOf .f32) .rne old b).1

/-- Operations whose written line becomes tainted whatever the data (R218). -/
def AtomicOp.taints : AtomicOp → Bool
  | .fadd | .cas | .xchg => true
  | _ => false

/-- Operations that PCIe carries to host memory (R199). -/
def AtomicOp.overPcie : AtomicOp → Bool
  | .add | .xchg | .cas => true
  | _ => false

/-- Operations in opcode order (R197). -/
def atomicOps : List AtomicOp := [.add, .smin, .smax, .nmin, .nmax, .and, .or, .xor, .xchg, .cas, .incw, .fadd]

/-- Check of an atomic before commit (R193, R199): where it goes, or the fault. -/
def Chip.checkAtomic (c : Chip) (x : Actor) (k : AtomicOp) (sc : Bool) (ea size : Nat) (setD : Bool := false) :
    Except AFault Place × Chip :=
  match c.access x .atomic setD ea size with
  | (.error f, c) => if sc && f.cause == 0x33 then (.error { cause := 0x53, addr := ea }, c) else (.error f, c)
  | (.ok pl, c) =>
    if pl.home == .host && !k.overPcie then (.error { cause := 0x53, addr := ea }, c)
    else if sc && (pl.home != .dram || pl.tier.getD 3 < 3) then (.error { cause := 0x53, addr := ea }, c)
    else (.ok pl, c)

/-- An atomic is performed at a place (R198): unless relaxed, SCOPE 0, an acquire (R203); read, write, and the old value sets out for its
register, tainted (R218). -/
def Chip.atomicAt (c : Chip) (i : Inst) (k : AtomicOp) (scope size : Nat) (o : Operands) (ret : Option (BitVec 5)) (pl : Place) : Chip :=
  let c := (if scope = 0 then c else c.acquire i.core i.iid scope).dropLine i.core pl.loc
  let (old, _, c) := c.readPlace pl size
  let c := match k.apply (8 * size) old o.b.toNat o.c.toNat with
    | none => c
    | some v => c.writePlace i.core pl size v (k.taints || o.taint)
  c.returnVal i.iid ret (BitVec.ofNat 64 old) true

/-- An atomic is performed (R198) where its address leads, with D set (R56, notes/assumptions 28), else at the place that its check found
(notes/assumptions 96). -/
def Chip.performAtomic (c : Chip) (i : Inst) (k : AtomicOp) (sc : Bool) (scope size : Nat) (o : Operands) (ret : Option (BitVec 5))
    (kept : Option Place := none) : Chip :=
  match c.checkAtomic i.actor k sc (eaA o.a) size true with
  | (.ok pl, c) => c.atomicAt i k scope size o ret pl
  | (.error _, _) => match kept with
    | some pl => c.atomicAt i k scope size o ret pl
    | none => c

/-- A plain atomic's meaning. -/
def atomicMeaning (k : AtomicOp) (scope : Scope) (wide : Bool) (ret : Option (BitVec 5)) (s : State) : Out :=
  classC (fun c i a o => c.performAtomic i k false scope.code (if wide then 8 else 4) o ret a.place) s

/-- Ordering points in the order in which the serialising token visits them (R215): towers 0, 1, 3, 2. -/
def scRing : List Nat := [0, 1, 3, 2].flatMap fun t => (List.range 16).map (t * 16 + ·)

/-- Ordering point of a DRAM location (R40, R215): its tower's L2 slice. -/
def orderingPoint (loc : Nat) : Nat := loc / 2 ^ 37 % 4 * 16 + loc / 2 ^ 7 % 16

/-- A `.sc` atomic at commit (R215): it joins the queue of its ordering point, and the block's later actions wait for it (R214). -/
def queueSc (s : State) : State :=
  match s.chip.actAt s.focus with
  | none => s
  | some (i, f, a) =>
    let f' := { f with acts := f.acts.filter fun x => x.idx != a.idx }
    let c := s.chip.setFrame i.iid f'
    if a.null then { s with chip := c, turn := nextTurn s.focus f' }
    else
      let o := operandsOf a.ops a.ptaint
      let queue := fun (c : Chip) (pl : Place) => { s with chip := { c with scq := c.scq ++ [{
          point := orderingPoint pl.loc, iid := i.iid, idx := a.idx, word := f.word a.idx, ops := a.ops, taint := a.ptaint,
          loc := pl.loc, place := some pl }] } }
      match c.access i.actor .atomic false (eaA o.a) (if bits (f.word a.idx) 9 4 = 1 then 8 else 4) with
      | (.ok pl, c) => queue c pl
      | (.error _, _) => match a.place with
        | some pl => queue c pl
        | none => { s with chip := c, turn := nextTurn s.focus f' }

/-- A `.sc` atomic's meaning: which operation it is stands in its word (R197), which the queue keeps. -/
def scMeaning (s : State) : Out :=
  match s.focus.phase with
  | .commit => .next (queueSc s)
  | _ => onChip (fun c fo => c.fireC fo) s

/-- A queued `.sc` atomic is performed (R214, R215), and its block's next action may follow. -/
def performSc (s : State) (q : ScOp) : State :=
  let o := operandsOf q.ops q.taint
  let k := atomicOps.getD ((opOf q.word - 0x12E) % 12) .add
  let i := s.chip.inst q.iid
  let ret := if bitAt q.word 8 then some (BitVec.ofNat 5 q.word) else none
  let c := s.chip.performAtomic i k true 4 (if bits q.word 9 4 = 1 then 8 else 4) o ret q.place
  { s with
    chip := { c with scq := c.scq.filter fun x => !(x.iid == q.iid && x.idx == q.idx) }
    turn := match i.frame with
      | some f => nextTurn { core := i.core, pid := i.pid, iid := i.iid } f
      | none => none }

/-- R215. The token reaches the next ordering point. It performs the oldest atomic queued there; the others wait for a later step
of the token's stay, which ends when the queue is empty or sixteen have been performed. -/
def execScTokenVisit (s : State) : Out :=
  let p := scRing.getD (s.chip.scAt / 16 % 64) 0
  match s.chip.scq.find? fun q => q.point == p with
  | some q => .next (performSc { s with chip := { s.chip with scAt := (s.chip.scAt + 1) % 1024 } } q)
  | none => .next { s with chip := { s.chip with scAt := (s.chip.scAt / 16 + 1) * 16 % 1024 } }

/-- R198. Atomic add at commit. -/
def execAadd (scope : Scope) (wide : Bool) (ret : Option (BitVec 5)) (s : State) : Out :=
  atomicMeaning .add scope wide ret s

/-- R198. Atomic signed minimum. -/
def execAmin (scope : Scope) (wide : Bool) (ret : Option (BitVec 5)) (s : State) : Out :=
  atomicMeaning .smin scope wide ret s

/-- R198. Atomic signed maximum. -/
def execAmax (scope : Scope) (wide : Bool) (ret : Option (BitVec 5)) (s : State) : Out :=
  atomicMeaning .smax scope wide ret s

/-- R198. Atomic natural minimum. -/
def execAminn (scope : Scope) (wide : Bool) (ret : Option (BitVec 5)) (s : State) : Out :=
  atomicMeaning .nmin scope wide ret s

/-- R198. Atomic natural maximum. -/
def execAmaxn (scope : Scope) (wide : Bool) (ret : Option (BitVec 5)) (s : State) : Out :=
  atomicMeaning .nmax scope wide ret s

/-- R198. Atomic AND. -/
def execAand (scope : Scope) (wide : Bool) (ret : Option (BitVec 5)) (s : State) : Out :=
  atomicMeaning .and scope wide ret s

/-- R198. Atomic OR. -/
def execAor (scope : Scope) (wide : Bool) (ret : Option (BitVec 5)) (s : State) : Out :=
  atomicMeaning .or scope wide ret s

/-- R198. Atomic XOR. -/
def execAxor (scope : Scope) (wide : Bool) (ret : Option (BitVec 5)) (s : State) : Out :=
  atomicMeaning .xor scope wide ret s

/-- R198. Atomic exchange. -/
def execAxchg (scope : Scope) (wide : Bool) (ret : Option (BitVec 5)) (s : State) : Out :=
  atomicMeaning .xchg scope wide ret s

/-- R198. Atomic compare-and-swap. -/
def execAcas (scope : Scope) (wide : Bool) (ret : Option (BitVec 5)) (s : State) : Out :=
  atomicMeaning .cas scope wide ret s

/-- R198. Atomic increment wrapping to zero at a bound. -/
def execAincw (scope : Scope) (wide : Bool) (ret : Option (BitVec 5)) (s : State) : Out :=
  atomicMeaning .incw scope wide ret s

/-- R198. Atomic floating add in RNE. -/
def execAfadd (scope : Scope) (wide : Bool) (ret : Option (BitVec 5)) (s : State) : Out :=
  atomicMeaning .fadd scope wide ret s

/-- R214. Sequentially consistent atomic add. -/
def execAaddSc (_wide : Bool) (_ret : Option (BitVec 5)) (s : State) : Out :=
  scMeaning s

/-- R214. Sequentially consistent atomic signed minimum. -/
def execAminSc (_wide : Bool) (_ret : Option (BitVec 5)) (s : State) : Out :=
  scMeaning s

/-- R214. Sequentially consistent atomic signed maximum. -/
def execAmaxSc (_wide : Bool) (_ret : Option (BitVec 5)) (s : State) : Out :=
  scMeaning s

/-- R214. Sequentially consistent atomic natural minimum. -/
def execAminnSc (_wide : Bool) (_ret : Option (BitVec 5)) (s : State) : Out :=
  scMeaning s

/-- R214. Sequentially consistent atomic natural maximum. -/
def execAmaxnSc (_wide : Bool) (_ret : Option (BitVec 5)) (s : State) : Out :=
  scMeaning s

/-- R214. Sequentially consistent atomic AND. -/
def execAandSc (_wide : Bool) (_ret : Option (BitVec 5)) (s : State) : Out :=
  scMeaning s

/-- R214. Sequentially consistent atomic OR. -/
def execAorSc (_wide : Bool) (_ret : Option (BitVec 5)) (s : State) : Out :=
  scMeaning s

/-- R214. Sequentially consistent atomic XOR. -/
def execAxorSc (_wide : Bool) (_ret : Option (BitVec 5)) (s : State) : Out :=
  scMeaning s

/-- R214. Sequentially consistent atomic exchange. -/
def execAxchgSc (_wide : Bool) (_ret : Option (BitVec 5)) (s : State) : Out :=
  scMeaning s

/-- R214. Sequentially consistent compare-and-swap. -/
def execAcasSc (_wide : Bool) (_ret : Option (BitVec 5)) (s : State) : Out :=
  scMeaning s

/-- R214. Sequentially consistent wrapping increment. -/
def execAincwSc (_wide : Bool) (_ret : Option (BitVec 5)) (s : State) : Out :=
  scMeaning s

/-- R214. Sequentially consistent atomic floating add. -/
def execAfaddSc (_wide : Bool) (_ret : Option (BitVec 5)) (s : State) : Out :=
  scMeaning s

/-- R202. At commit every earlier access of the instance has been performed; it then acquires at its scope. -/
def execFence (scope : Scope) (s : State) : Out := classC (fun c i _ _ => c.acquire i.core i.iid scope.code) s

/-- R211. Fires with n and holds; a scope wider than the engine context's faults. -/
def execWaittl (scope : Scope) (tl : BitVec 4) (t0 : Option Target) (s : State) : Out :=
  onChip (fun c fo => c.fireW fo [t0] fun c i o =>
    let ctx := (c.part i.pid).ctxScope tl.toNat
    if tl.toNat ≤ 9 && ctx < scope.code then (.error (scopeF tl.toNat scope.code ctx), c)
    else (.ok (o.a, o.taint), c)) s

/-- Whether a held `WAITTL` may go on (R211). -/
def Chip.waittlDone (c : Chip) (i : Inst) (w : Wait) (word : Nat) : Bool :=
  opOf word == 0x13B && w.n.toNat ≤ (c.slot i.core i.pid).tl (bits word 9 4)

/-- R211. The timeline has reached n: acquire at SCOPE, send n. -/
def execWaittlRelease (s : State) : Out :=
  onChip (fun c fo => match c.waitAt fo with
    | none => c
    | some (i, w, word) =>
      if c.waittlDone i w word then (c.acquire i.core i.iid (bits word 13 3)).release i.iid w [t0Of word] else c) s

/-- R213. A progress value of the slot on the core, tainted. -/
def execTlget (view : TlView) (t1 t0 : Option Target) (s : State) : Out :=
  onChip (fun c fo => c.fireT fo [t1, t0] fun c i _ o =>
    let sl := c.slot i.core i.pid
    let v := match view with
      | .tl => sl.tl (bits o.a.toNat 0 4)
      | .wp => (sl.cp (bits o.a.toNat 0 2)).wp
      | .chk => sl.bitmap.getD (bits o.a.toNat 0 4) 0
    (.ok (BitVec.ofNat 64 v, true), c)) s

/-- R212. Release, then tl[K] := max(tl[K], v). -/
def execTlsig (_scope : Scope) (tl : BitVec 4) (s : State) : Out :=
  classC (fun c i _ o => c.modSlot i.core i.pid fun sl => sl.advance tl.toNat o.a.toNat) s

/-- Bytes that a load reads, by its opcode (R190): `LD`, `LDA` and `LDNT` in the order of R117. -/
def loadSize (w : Nat) : Nat := 2 ^ ([0, 0, 1, 1, 2, 2, 3].getD ((opOf w - 0x100) % 7) 3)

/-- Where a fired load reads, when that can be told. -/
def Chip.loadLoc (c : Chip) (i : Inst) (f : Frame) (l : Load) : Option Nat :=
  match (c.access i.actor .read false l.ea (loadSize (f.word l.idx))).1 with
  | .ok pl => some pl.loc
  | .error _ => none

/-- Whether two fired loads read a common byte. -/
def Chip.loadsMeet (c : Chip) (i : Inst) (f : Frame) (l m : Load) : Bool :=
  match c.loadLoc i f l, c.loadLoc i f m with
  | some a, some b => decide (a < b + loadSize (f.word m.idx)) && decide (b < a + loadSize (f.word l.idx))
  | _, _ => false

/-- R111, R186, R192. The load at the focus may be performed: its lower store IDs are resolved, and no fired load of a lower store ID is to
read a byte of it. It is performed next. -/
def Chip.loadReady (c : Chip) (fo : Focus) : Bool :=
  match c.loadAt fo with
  | none => false
  | some (i, f, l) =>
    let nst := bits f.hdr 6 5
    ((List.range (min l.lsid nst)).all fun k => f.resolved.contains k) && !f.loads.any fun m => m.lsid < l.lsid && c.loadsMeet i f l m

/-- R192. See `Chip.loadReady`. -/
def execLoadPerform (s : State) : Out :=
  if s.chip.loadReady s.focus then .next { s with turn := some (.word { s.focus with phase := .perform }) } else .next s

end Sys2Proof.Machine
end

