-- ==== Sys2Proof/Machine/Blocks.lean ====
section
/-! DEFINITION. The life of a block: mapping with its checks (R97 to R99, R115), completion (R109), a block that can no longer complete
(R113), and the arrival of pending values (R112). -/

namespace Sys2Proof.Machine

/-! ### Checks when a block is mapped (R115) -/

/-- A failed check: subcode, instruction index, the word or header it names. -/
structure Malformed where
  sub  : Nat
  idx  : Nat := 0
  info : Nat := 0
  deriving DecidableEq, Repr

/-- Opcodes of format I (R117). -/
def isImmediate (op : Nat) : Bool :=
  op == 0x041 || op == 0x044 || op == 0x055 || op == 0x057 || op == 0x059 || op == 0x05D || op == 0x05F || op == 0x061 ||
    (0x086 ≤ op && op ≤ 0x08B) || op == 0x0D1 || (0x0D4 ≤ op && op ≤ 0x0D7)

/-- Opcodes whose word has one instruction target, T0 (R100, R117). -/
def hasT0Only (op : Nat) : Bool :=
  op == 0x005 || op == 0x006 || isImmediate op || (0x100 ≤ op && op ≤ 0x114) || op == 0x13B || op == 0x14A || op == 0x155 ||
    op == 0x185 || op == 0x186 || op == 0x18A || op == 0x195

/-- The target fields of a word (R100, R102): those of classes T, L and W. -/
def targetFields (w : Nat) : List (Option Target) :=
  let op := opOf w
  let at_ := fun lo => match targetOf (bits w lo 9) with
    | .ok t => t
    | .error _ => none
  if op == 0x000 || op == 0x002 || op == 0x121 then []
  else if hasT0Only op then [at_ 0]
  else if classOf w == .T then [at_ 9, at_ 0] else []

/-- Whether a word's opcode is one of the opcode map (R115 subcode 4): `NOP` is the all-zero word alone. -/
def opcodeKnown (w : Nat) : Bool :=
  match decodeWord w with
  | .error .opcode => false
  | _ => true

/-- Whether a word has a slot (R102, R115 subcode 6): its data slots by its opcode and fields, slot p by its PM; a reserved opcode has
none. An undefined field value offers what `slotCount` counts for it (notes/assumptions 91). -/
def hasSlot (w : Nat) (x : Sys2Proof.Slot) : Bool :=
  opcodeKnown w && match x with
    | .a => 0 < slotCount w
    | .b => 1 < slotCount w
    | .c => 2 < slotCount w
    | .p => hasPm w && (bits w 21 2 == 1 || bits w 21 2 == 2)

/-- Whether a target of instruction `k` is well formed within its block (R102). -/
def targetOk (ws : List Nat) (k : Nat) (t : Target) : Bool :=
  let j := t.index.toNat
  j != k && j < ws.length && hasSlot (ws.getD j 0) t.slot

/-- Checks 4 to 6 of one instruction. -/
def checkWord (ws : List Nat) (k : Nat) (w : Nat) : Option Malformed :=
  match decodeWord w with
  | .error .opcode => some { sub := 4, idx := k, info := w }
  | .error .field => some { sub := 5, idx := k, info := w }
  | .error _ => some { sub := 6, idx := k, info := w }
  | .ok _ => if (targetFields w).all (fun t => match t with | some t => targetOk ws k t | none => true) then none
             else some { sub := 6, idx := k, info := w }

/-- Slots that the targets of a block name. -/
def fedSlots (ws : List Nat) : List (Nat × Sys2Proof.Slot) :=
  ws.flatMap fun w => (targetFields w).filterMap fun t => t.map fun t => (t.index.toNat, t.slot)

/-- Check 7 of one instruction. -/
def checkFed (fed : List (Nat × Sys2Proof.Slot)) (k : Nat) (w : Nat) : Option Malformed :=
  if [Sys2Proof.Slot.a, .b, .c, .p].all fun x => !hasSlot w x || fed.contains (k, x) then none else some { sub := 7, idx := k, info := w }

/-- Opcodes of class C in format A that may name a return register (R103). -/
def hasReturn (op : Nat) : Bool :=
  (0x122 ≤ op && op ≤ 0x139) || op == 0x147 || op == 0x14B || op == 0x14F || (0x180 ≤ op && op ≤ 0x184)

/-- Register that a word writes at commit by `WRITE` or as its return register. -/
def writesReg (w : Nat) : Option Nat :=
  if opOf w == 0x002 then some (bits w 18 5)
  else if hasReturn (opOf w) && bitAt w 8 then some (bits w 0 5) else none

/-- `CALL` and `CALLI` write g30 (R385). -/
def isCall (w : Nat) : Bool := opOf w == 0x142 || opOf w == 0x143

/-- Check 8: the later instruction of a pair that writes one register. -/
def checkTwice (ws : List Nat) (k : Nat) (w : Nat) : Option Malformed :=
  let before := ws.take k
  let clash := match writesReg w with
    | some g => before.any fun v => writesReg v == some g || (isCall v && g == 30)
    | none => isCall w && before.any fun v => writesReg v == some 30
  if clash then some { sub := 8, idx := k, info := w } else none

/-- Whether a word names a store ID that R115 counts. -/
def namesLsid (w : Nat) : Bool := classOf w == .C

/-- Check 9 of one instruction. -/
def checkLsid (nst : Nat) (k : Nat) (w : Nat) : Option Malformed :=
  if namesLsid w && nst ≤ lsidOf w then some { sub := 9, idx := k, info := w } else none

/-- Check 10 of one instruction. -/
def checkClass (hdr : Nat) (k : Nat) (w : Nat) : Option Malformed :=
  if (isEngineCmd w && !bitAt hdr 16) || ((opOf w == 0x145 || opOf w == 0x1C1) && !bitAt hdr 17) then
    some { sub := 10, idx := k, info := w }
  else none

/-- The first failure of a check over the instructions in ascending index. -/
def firstBad (ws : List Nat) (g : Nat → Nat → Option Malformed) : Option Malformed := ws.zipIdx.findSome? fun (w, k) => g k w

/-- The checks of R115 in their order, or none. `pad` is the padding word, 0 where there is none. Which index and INFO0 a failure of
the whole block carries, and which instruction of a pair that writes one register, is the model's choice (notes/assumptions 91). -/
def checkBlock (hdr pad : Nat) (ws : List Nat) : Option Malformed :=
  let nst := bits hdr 6 5
  if bits hdr 24 8 ≠ 0xB7 then some { sub := 1, info := hdr }
  else if bits hdr 22 2 ≠ 0 || (!bitAt hdr 18 && bits hdr 19 3 ≠ 0) then some { sub := 2, info := hdr }
  else if pad ≠ 0 then some { sub := 3, info := hdr }
  else (firstBad ws (checkWord ws)).or <|
    (firstBad ws (checkFed (fedSlots ws))).or <|
    (if (ws.filter fun w => opOf w == 0x002).length ≠ bits hdr 11 5 then some { sub := 8, info := hdr } else none).or <|
    (firstBad ws (checkTwice ws)).or <|
    (firstBad ws (checkLsid nst)).or <|
    (if (List.range nst).all fun n => ws.any fun w => namesLsid w && lsidOf w == n then none else some { sub := 9, info := hdr }).or <|
    firstBad ws (checkClass hdr)

/-- Fetch the bytes of a block (R99): the header, then what it says the block holds. -/
def Chip.fetchBlock (c : Chip) (i : Inst) (block : Nat) : Except AFault (Nat × Nat × List Nat) × Chip :=
  let read := fun (c : Chip) (va n : Nat) =>
    (pieces va n).foldl (fun (r, c) (a, k) => match r with
      | .error f => (.error f, c)
      | .ok bs => match c.resolve i.actor .fetch false a k with
        | (.error f, c) => (.error f, c)
        | (.ok pl, c) => let (b, c) := c.takeBytes pl.loc pl.key k; (Except.ok (bs ++ b), c))
      ((.ok [] : Except AFault (List Byte)), c)
  match read c block 4 with
  | (.error f, c) => (.error f, c)
  | (.ok h, c) =>
    let hdr := leNat h
    let ni := bits hdr 0 6 + 1
    match read c block (blockSize hdr) with
    | (.error f, c) => (.error f, c)
    | (.ok bs, c) =>
      let word := fun k => leNat ((bs.drop (4 * k)).take 4)
      (.ok (word 0, if ni % 2 = 0 then word (ni + 1) else 0, (List.range ni).map fun k => word (k + 1)), c)

/-- Why a block address is refused at the fetch (R47, R49, R61): alignment first, then a window, then an address outside every range. -/
def fetchRefused (block : Nat) : Option AFault :=
  if block % 8 ≠ 0 then some (adF 0x23 block)
  else if inWindow block then some (adF 0x25 block)
  else if 2 ^ 52 ≤ block then some (adF 0x20 block) else none

/-- Whether an instance waits for its block to be mapped or to begin. -/
def Inst.wantsBlock (i : Inst) : Bool := i.state == .running && i.frame.isNone && i.holds.isEmpty

/-- Bytes that mapped blocks take in a core's block map cache: as many as the blocks have in memory (notes/assumptions 7). -/
def mappedBytes (l : List Mapped) : Nat := (l.map fun b => blockSize b.hdr).foldl (· + ·) 0

/-- The newest blocks that a block map cache of 128 KiB holds (R7): the oldest are evicted first. -/
def fitMap : List Mapped → List Mapped
  | [] => []
  | b :: t => if mappedBytes (b :: t) ≤ 2 ^ 17 then b :: t else fitMap t

/-- R99, R115. The core maps the block its instance is to execute, and the instance begins it. -/
def Chip.mapBlock (c : Chip) (iid : Nat) : Chip :=
  match c.inst? iid with
  | none => c
  | some i =>
    if !i.wantsBlock then c
    else if (c.coreSt i.core).blocks.any fun b => b.pid == i.pid && b.addr == i.block then c.begin iid
    else match fetchRefused i.block with
      | some f => c.takeFault iid 0 f
      | none =>
        match c.fetchBlock i i.block with
        | (.error f, c) => c.takeFault iid 0 f
        | (.ok (hdr, pad, ws), c) =>
          match checkBlock hdr pad ws with
          | some m => c.takeFault iid m.idx { cause := 0x10, sub := m.sub, info0 := m.info }
          | none => (c.modCore i.core fun k => { k with blocks := fitMap (k.blocks ++ [{ pid := i.pid, addr := i.block, hdr, words := ws }]) }).begin iid

/-- R99. See `Chip.mapBlock`. -/
def execBlockMap (s : State) : Out := onChip (fun c fo => c.mapBlock fo.iid) s

/-! ### Completion -/

/-- The markers of a block that are left when its held `MARK`s are discarded (R109, R153). -/
def Frame.marksLeft (f : Frame) : List Nat :=
  (f.waits.filter fun w => opOf (f.word w.idx) == 0x155).foldl (fun l w => l.erase w.n.toNat) f.marks

/-- R109. The block is complete: what has not fired, every held wait with its post or marker, and every outstanding load go without effect. -/
def Chip.completeBlock (c : Chip) (iid : Nat) : Chip :=
  match c.inst? iid with
  | none => c
  | some i =>
    match i.frame with
    | none => c
    | some f =>
      if i.state == .running && f.isDone then
        let held := f.waits.map (·.idx)
        let c := c.modSlot i.core i.pid fun s => { s with cfg := { s.cfg with chans := s.cfg.chans.map fun x =>
          { x with posts := x.posts.filter fun p => !(p.1 == iid && held.contains p.2.1) } } }
        c.modInst iid fun i => { i with state := .complete, frame := some { f with loads := [], waits := [], marks := f.marksLeft } }
      else c

/-- R109. See `Chip.completeBlock`. -/
def execBlockComplete (s : State) : Out := onChip (fun c fo => c.completeBlock fo.iid) s

/-- Whether a block can no longer complete (R113). -/
def Inst.stuck (i : Inst) : Bool :=
  match i.frame with
  | none => false
  | some f => i.state == .running && !f.isDone && f.clash.isEmpty && f.waits.isEmpty && f.loads.isEmpty && i.regs.toList.all (fun r => !r.pend) &&
      (List.range f.words.length).all fun k => !i.canFire f k

/-- R113. `BLK_INCOMPLETE`: nothing is left that could complete the block. -/
def execBlkIncomplete (s : State) : Out :=
  onChip (fun c fo => match c.inst? fo.iid with
    | none => c
    | some i => if i.stuck then c.takeFault i.iid 0 { cause := 0x15 } else c) s

/-! ### Pending values -/

/-- A register receives its pending value (R112); that of an ended instance is discarded, and the last frees its slice. -/
def Chip.receive (c : Chip) (v : PendVal) : Chip :=
  match c.inst? v.iid with
  | none => c
  | some i =>
    let g := v.reg % 32
    let r : Reg := if i.state == .ended then { (i.regs.toList.getD g {}) with pend := false } else { v := v.v, taint := v.taint, pend := false }
    let c := c.modInst v.iid fun i => { i with regs := i.regs.set g r (Nat.mod_lt _ (by decide)) }
    if i.state == .ended then c.endInst v.iid else c

/-- The fault of a pending value whose register lies in a poisoned line of the slice of an instance that has not ended (R445). -/
def Chip.receiveBad (c : Chip) (v : PendVal) : Option (Inst × AFault) :=
  match c.inst? v.iid with
  | none => none
  | some i => if i.state == .ended then none else (c.regPoison v.iid (v.reg % 32)).map fun f => (i, f)

/-- R112. The value at place `n` of those on their way arrives; one that meets poison faults the block that its instance runs, and comes again
(notes/assumptions 53). -/
def execPendingValueArrival (s : State) : Out :=
  onChip (fun c fo => match c.vals[fo.n]? with
    | none => c
    | some v => match c.receiveBad v with
      | some (i, f) => if i.state == .running || i.state == .complete then c.takeFault i.iid 0 f else c
      | none => ({ c with vals := c.vals.eraseIdx fo.n }).receive v) s

end Sys2Proof.Machine
end

