-- ==== Sys2Proof/Machine/Copy.lean ====
section
/-! DEFINITION. The copy channels (R156 to R174, R181 to R183, R462 to R464): descriptors, the dispatchers of the stream ports, the units of
word, plane and unplane copies, multicast, and `WPWAIT`. -/

namespace Sys2Proof.Machine

/-! ### The descriptor (R161) -/

/-- Word format of a code (R162). -/
def wordFmt : Nat → EFmt
  | 0 => .int ⟨false, .w8⟩ | 1 => .int ⟨true, .w8⟩ | 2 => .int ⟨false, .w16⟩ | 3 => .int ⟨true, .w16⟩
  | 4 => .int ⟨false, .w32⟩ | 5 => .int ⟨true, .w32⟩ | 6 => .int ⟨false, .w64⟩ | 7 => .int ⟨true, .w64⟩
  | 8 => .fp .f16 | 9 => .fp .bf16 | 10 => .fp .f32 | _ => .fp .f64

/-- Bytes of a word format. -/
def wordSize (code : Nat) : Nat := (wordFmt code).bits / 8

/-- A copy descriptor's fields (R161). -/
structure CopyDesc where
  count : List Nat
  sstr  : List Int
  dstr  : List Int
  pmask : Nat
  dn    : Bool
  dch   : Nat
  pp    : Bool
  pwid  : Nat
  pkind : Nat
  scope : Nat
  mode  : Nat
  dfmt  : Nat
  sfmt  : Nat
  m0    : Nat
  c0    : Nat
  ct    : Nat
  gw    : Nat
  mc    : Nat
  deriving DecidableEq, Repr

/-- The two 32-bit halves of a word, low first. -/
def halves (w : Nat) : List Nat := [bits w 0 32, bits w 32 32]

/-- Fields of the ten descriptor words. -/
def copyDesc (w : List Nat) : CopyDesc :=
  let g := fun k => w.getD k 0
  let str := fun k => (halves (g k) ++ halves (g (k + 1))).map fun x => sgn x 32
  { count := halves (g 0) ++ halves (g 1), sstr := str 2, dstr := str 4
    pmask := bits (g 6) 32 16, dn := bitAt (g 6) 31, dch := bits (g 6) 24 7, pp := bitAt (g 6) 23, pwid := bits (g 6) 16 7
    pkind := bits (g 6) 14 2, scope := bits (g 6) 11 3, mode := bits (g 6) 8 3, dfmt := bits (g 6) 4 4, sfmt := bits (g 6) 0 4
    m0 := bits (g 7) 32 16, c0 := bits (g 7) 16 16, ct := bits (g 7) 0 16, gw := g 8, mc := g 9 }

def CopyDesc.n (d : CopyDesc) (k : Nat) : Nat := d.count.getD k 0
def CopyDesc.s (d : CopyDesc) (k : Nat) : Int := d.sstr.getD k 0
def CopyDesc.t (d : CopyDesc) (k : Nat) : Int := d.dstr.getD k 0

/-- A PKIND and PWID pair of the list (R161). -/
def pairOk (kind wid : Nat) : Bool :=
  match kind with
  | 1 => 1 ≤ wid && wid ≤ 16
  | 2 => wid == 4 || wid == 6 || wid == 8
  | 3 => wid == 16 || wid == 32 || wid == 64
  | _ => false

/-- Number of ones of a 16-bit mask. -/
def ones (m : Nat) : Nat := popCount 16 m

/-- The rule of a plane mask (R166, R169). -/
def maskOk (un : Bool) (kind wid m : Nat) : Bool :=
  match kind with
  | 1 => m != 0 && m / 2 ^ wid == 0 && (!un || m == 2 ^ wid - 2 ^ (wid - ones m))
  | 2 => m == 2 ^ wid - 1
  | _ => m == 0xFFFF

/-- Whether an address lies in the own-scratchpad window (R47), which is 2 MiB. -/
def inOwnPad (va : Nat) : Bool := va / 2 ^ 21 == 0xFFFF81 * 2 ^ 19

/-- Branch cores of a multicast (R171), the issuer's rectangle at (ox, oy). -/
def branchCores (ox oy mc : Nat) : List Nat :=
  rectCores (ox + bits mc 0 5) (oy + bits mc 5 5) (2 ^ bits mc 10 3) (2 ^ bits mc 13 3)

/-- The multicast word's failing field (R171): its lowest bit. -/
def mcastBad (rw rh port scope ox oy : Nat) (un : Bool) (mc : Nat) : Option Nat :=
  let lw := bits mc 10 3
  let lh := bits mc 13 3
  if mc = 0 then none
  else if !bitAt mc 63 || port ≠ 6 || un then some 63
  else if bits mc 24 39 ≠ 0 then some 24
  else if bits mc 16 8 < 8 || 64 < bits mc 16 8 then some 16
  else if 4 < lw + lh then some 13
  else if bits mc 5 5 % 2 ^ lh ≠ 0 || rh < bits mc 5 5 + 2 ^ lh then some 5
  else if bits mc 0 5 % 2 ^ lw ≠ 0 || rw < bits mc 0 5 + 2 ^ lw then some 0
  else
    let l := branchCores ox oy mc
    if l.all fun k => sameDomain scope (l.headD 0) k then none else some 10

/-- The checks of R163 in the order of the descriptor's table, then those of slots b and c. `op` tells the command. Of the places in the
port's range only the base in slot c is checked, and COUNT2 = COUNT3 = 1 of an AB side is asked of `CPYPL` alone (notes/assumptions 111). -/
def Chip.copyBad (c : Chip) (core pid : Nat) (q : Cmd) (w : List Nat) : Option AFault :=
  let d := copyDesc w
  let g := fun k => w.getD k 0
  let word := q.op == .cpy
  let un := q.op == .cpyun
  let pl := q.op == .cpypl
  let pp := pl && d.pp
  let psrc := un || pp
  let ab := !word && d.pkind == 3
  let pair := pairOk d.pkind d.pwid
  let gwPort := q.port == 2 || q.port == 3
  let (ox, oy, rw, rh) := c.rect pid core
  let scope := (c.part pid).ctxScope 0
  let tests : List (Bool × Nat × Nat) := [
    (d.n 1 == 0, 0, 32), (d.n 0 == 0, 0, 0),
    (d.n 3 == 0 || (pl && ab && d.n 3 != 1), 1, 32), (d.n 2 == 0 || (pl && ab && d.n 2 != 1), 1, 0),
    (psrc && d.s 1 != 0, 2, 32), (psrc && d.s 0 != 0, 2, 0),
    (psrc && d.s 3 % 2048 != 0, 3, 32), (psrc && d.s 2 % 2048 != 0, 3, 0),
    (pl && d.t 1 != 0, 4, 32), (pl && d.t 0 != 0, 4, 0),
    (pl && d.t 3 % 2048 != 0, 5, 32), (pl && d.t 2 % 2048 != 0, 5, 0),
    (bits (g 6) 48 16 != 0, 6, 48),
    (if word then d.pmask != 0 else pair && !maskOk un d.pkind d.pwid d.pmask, 6, 32),
    (d.pp && !pl, 6, 23),
    (if word then d.pwid != 0 else !pair, 6, 16),
    ((word && d.pkind != 0) || (!word && d.pkind == 2 && !pp), 6, 14),
    (d.scope != scope, 6, 11),
    (4 < d.mode || ((ab || pp) && d.mode != 0), 6, 8),
    (12 ≤ d.dfmt || (pl && d.dfmt != 0) || (gwPort && d.dfmt != 4), 6, 4),
    (12 ≤ d.sfmt || ((un || pp) && d.sfmt != 0) || (gwPort && d.sfmt != 4), 6, 0),
    (bits (g 7) 48 16 != 0, 7, 48),
    (word && d.m0 != 0, 7, 32), (word && d.c0 != 0, 7, 16), (word && d.ct != 0, 7, 0),
    (!word && (d.ct ≤ d.c0 || (d.ct - d.c0) * 512 < d.n 0), 7, 16),
    (if ab && !pp then d.gw % 4 != 0 || (d.mc != 0 && !inOwnPad d.gw) else d.gw != 0, 8, 0)]
  match firstFail tests with
  | some (k, b) => some (descF 0x48 q.a.toNat k b)
  | none =>
    match mcastBad rw rh q.port scope ox oy un d.mc with
    | some b => some (descF 0x48 q.a.toNat 9 b)
    | none =>
      if psrc && q.b.toNat % 2048 != 0 then some (operandF 0x48 1)
      else if (pl && q.c.toNat % 2048 != 0) || ((q.port != 6 || d.mc != 0) && !inOwnPad q.c.toNat) then some (operandF 0x48 2)
      else none

/-- Planes written or read of one unit (R167). -/
def CopyDesc.planes (d : CopyDesc) : List Nat :=
  if d.pkind = 3 then List.range d.pwid else (List.range 16).filter fun j => bitAt d.pmask j

/-- Chunks of K that a plane side touches (R167). -/
def CopyDesc.chunks (d : CopyDesc) : Nat := (d.n 0 + 511) / 512

/-- Units of a command (R164, R167, R169), and the destination bytes of each (R160). -/
def Cmd.units (q : Cmd) : Nat :=
  let d := copyDesc q.desc
  if q.op == .cpypl then d.chunks * d.n 1 * d.n 2 * d.n 3 else d.n 0 * d.n 1 * d.n 2 * d.n 3
def Cmd.unitBytes (q : Cmd) : Nat :=
  let d := copyDesc q.desc
  if q.op == .cpypl then 64 * d.planes.length else wordSize d.dfmt

/-! ### Acceptance (R159, R160) -/

/-- Entries that a slot uses in the queue of a port: those taken, and those that its committing blocks have reserved. -/
def Chip.portUsed (c : Chip) (core pid port : Nat) : Nat :=
  ((c.coreSt core).portq.filter fun x => x.1 == port && x.2.1 == pid).length + c.dueOf core pid (copyPort · == some port)

/-- A copy command is accepted: it gets its number, its descriptor is read, W0 and L are fixed, and it waits at its port. Its return
value sets out (R160). -/
def Chip.acceptCopy (c : Chip) (core pid cp : Nat) (q : Cmd) (noDone : Bool) (ret : Option (BitVec 5)) : Chip :=
  let x := q.actor core pid
  let (r, c) := c.readDesc x q.a.toNat 10
  let q := match r with
    | .error f => { q with err := some f, onlyAbandon := true }
    | .ok w =>
      let d := copyDesc w
      let q := { q with desc := w, dn := d.dn && !noDone, dch := d.dch }
      match c.copyBad core pid q w with
      | some f => { q with err := some f, onlyAbandon := true }
      | none => 
        let zeros := if d.mc = 0 then [] else (branchCores 0 0 d.mc).map fun _ => 0
        { q with len := q.units * q.unitBytes, parts := zeros, bpos := zeros }
  let w0 := ((c.slot core pid).cp cp).wend
  let q := { q with w0 }
  let (num, c) := c.accept core pid cp q
  let c := c.modSlot core pid fun s => s.setCp cp { s.cp cp with wend := (w0 + q.len) % 2 ^ 64 }
  let c := c.modCore core fun k => { k with portq := k.portq ++ [(q.port, pid, cp, num)] }
  c.returnVal q.who.iid ret (wordOf (w0 + q.len)) q.taint

/-- R156, R159, R160. A copy command at commit. -/
def copyMeaning (op : CmdOp) (port : BitVec 3) (cc : BitVec 2) (ret : Option (BitVec 5)) (s : State) : Out :=
  classC (fun c i a o => c.acceptCopy i.core i.pid cc.toNat { i.cmd op a.idx o false 0 with port := port.toNat } false ret) s

/-- R164. Word copy. -/
def execCpy (port : BitVec 3) (cc : BitVec 2) (ret : Option (BitVec 5)) (s : State) : Out := copyMeaning .cpy port cc ret s

/-- R167, R168. Words, or a plane image, to bit planes. -/
def execCpypl (port : BitVec 3) (cc : BitVec 2) (ret : Option (BitVec 5)) (s : State) : Out := copyMeaning .cpypl port cc ret s

/-- R169. Bit planes to words. -/
def execCpyun (port : BitVec 3) (cc : BitVec 2) (ret : Option (BitVec 5)) (s : State) : Out := copyMeaning .cpyun port cc ret s

/-! ### Starting (R159, R462) -/

/-- Whether a running command of the core holds a port: started, not halted, its slot on the core. A halted one holds none, and a resumed one
shares it with whatever has started since (notes/assumptions 112). -/
def Chip.portBusy (c : Chip) (core port : Nat) : Bool :=
  c.slots.any fun s => s.core == core && s.pstate == .run && (List.range 4).any fun k =>
    !(s.eng k).halted && (s.eng k).cmds.any fun q => q.started && q.port == port

/-- The entry at the head of a port's queue whose command may start (R156, R159): the port idle, the channel's earlier commands done. -/
def Chip.copyHead (c : Chip) (core port : Nat) : Option (Nat × Nat × Cmd) :=
  if c.portBusy core port then none
  else match (c.coreSt core).portq.find? fun x => x.1 == port && (c.slot core x.2.1).pstate == .run with
    | none => none
    | some (_, pid, cp, num) =>
      let s := c.slot core pid
      match s.headCmd cp with
      | some q => if q.num == num && s.engRuns cp then some (pid, cp, q) else none
      | none => none

/-- R159. The command at the head of port `n` of a core starts; its entry is free. A failed descriptor halts the channel (R163). -/
def execCopyStart (s : State) : Out :=
  onChip (fun c fo => match c.copyHead fo.core fo.n with
    | none => c
    | some (pid, cp, q) =>
      let c := c.modCore fo.core fun k => { k with portq := k.portq.filter fun x => !(x.2.1 == pid && x.2.2.1 == cp && x.2.2.2 == q.num) }
      match q.err with
      | some f => c.haltEngine fo.core pid cp q 0 f true
      | none => c.modSlot fo.core pid fun s => s.modCmd cp q.num fun q => { q with started := true }) s

/-! ### Units -/

/-- One word to move: its address and size, as a chunk's elements are read. -/
def Chip.readElem (c : Chip) (x : Actor) (va : Int) (size : Nat) : Except AFault (Nat × Bool) × Chip :=
  let va := wrap va 64
  if va % size ≠ 0 then (.error (adF 0x23 va), c)
  else match c.engineRead x va size with
    | (.error f, c) => (.error f, c)
    | (.ok (bs, t), c) => (.ok (leNat bs, t), c)

/-- What a unit writes, and what it counts (R170). -/
structure CopyUnit where
  writes : List (Nat × List Byte × Bool)
  sat    : Nat := 0
  nan    : Nat := 0
  deriving DecidableEq, Repr

/-- Position of element `u` of a pattern (R164). -/
def CopyDesc.at (d : CopyDesc) (u : Nat) : List Nat :=
  [u % d.n 0, u / d.n 0 % d.n 1, u / (d.n 0 * d.n 1) % d.n 2, u / (d.n 0 * d.n 1 * d.n 2)]

/-- Address of an element along a pattern. -/
def patternAddr (base : Nat) (str : List Int) (i : List Nat) : Int :=
  (List.range 4).foldl (fun a k => a + (i.getD k 0 : Int) * str.getD k 0) (base : Int)

/-- Address of a segment (R34). -/
def segAddr (base m j ch p chunks : Nat) : Nat := base + 2048 * (m / 32 * p * chunks + ch * p + j) + 64 * ((m + j) % 32)

/-- Rounding mode of a descriptor code. -/
def modeOf (n : Nat) : RMode :=
  match rmodeOf n with
  | .ok m => m
  | .error _ => .rne

/-- A word written at an address, aligned for its size (R164). -/
def oneWrite (va : Int) (size v : Nat) (taint : Bool) : Except AFault (List (Nat × List Byte × Bool)) :=
  let va := wrap va 64
  if va % size ≠ 0 then .error (adF 0x23 va) else .ok [(va, leBytes size v, taint)]

/-- Unit of a word copy (R164). -/
def Chip.cpyUnit (c : Chip) (x : Actor) (q : Cmd) (u : Nat) : Except AFault CopyUnit × Chip :=
  let d := copyDesc q.desc
  let i := d.at u
  match c.readElem x (patternAddr q.b.toNat d.sstr i) (wordSize d.sfmt) with
  | (.error f, c) => (.error f, c)
  | (.ok (v, t), c) =>
    let r : Converted := if d.sfmt = d.dfmt then { code := v } else copyConvert (wordFmt d.sfmt) (wordFmt d.dfmt) (modeOf d.mode) 0 v
    match oneWrite (patternAddr q.c.toNat d.dstr i) (wordSize d.dfmt) r.code t with
    | .error f => (.error f, c)
    | .ok w => (.ok { writes := w, sat := b2n r.sat, nan := b2n (r.nan && (wordFmt d.dfmt).isInt) }, c)

/-- Planes of 512 codes as segments of 64 bytes. -/
def planeBytes (codes : List Nat) (j : Nat) : List Byte :=
  (List.range 64).map fun b => BitVec.ofNat 8 (sumNat ((List.range 8).map fun k => codes.getD (8 * b + k) 0 / 2 ^ j % 2 * 2 ^ k))

/-- Read the 512 elements of a row of a chunk (R167): padding reads 0 and feeds nothing. -/
def Chip.readRow (c : Chip) (x : Actor) (q : Cmd) (d : CopyDesc) (ch i1 i2 i3 : Nat) : Except AFault (List (Nat × Bool)) × Chip :=
  let n := min 512 (d.n 0 - (ch - d.c0) * 512)
  (List.range n).foldl (fun (r, c) kk =>
    match r with
    | .error f => (.error f, c)
    | .ok l =>
      match c.readElem x (patternAddr q.b.toNat d.sstr [(ch - d.c0) * 512 + kk, i1, i2, i3]) (wordSize d.sfmt) with
      | (.error f, c) => (.error f, c)
      | (.ok e, c) => (.ok (l ++ [e]), c)) (.ok [], c)

/-- Which row, chunk and repetition a unit of a plane copy is: chunk-major, then row. -/
def CopyDesc.planeAt (d : CopyDesc) (u : Nat) : Nat × Nat × Nat × Nat :=
  (d.c0 + u / d.n 1 % d.chunks, u % d.n 1, u / (d.n 1 * d.chunks) % d.n 2, u / (d.n 1 * d.chunks * d.n 2))

/-- Unit of a plane copy (R167, R168): its segments, and for an AB side its group words first (R463). -/
def Chip.cpyplUnit (c : Chip) (x : Actor) (q : Cmd) (u : Nat) : Except AFault CopyUnit × Chip :=
  let d := copyDesc q.desc
  let (ch, i1, i2, i3) := d.planeAt u
  let m := d.m0 + i1
  let dst := wrap (q.c.toNat + i2 * d.t 2 + i3 * d.t 3) 64
  if d.pp then
    let src := wrap (q.b.toNat + i2 * d.s 2 + i3 * d.s 3) 64
    d.planes.foldl (fun (r, c) j =>
      match r with
      | .error f => (.error f, c)
      | .ok (un : CopyUnit) =>
        match c.engineRead x (segAddr src m j ch d.pwid d.ct) 64 with
        | (.error f, c) => (.error f, c)
        | (.ok (bs, t), c) => (.ok { un with writes := un.writes ++ [(segAddr dst m j ch d.pwid d.ct, bs, t)] }, c)) (.ok { writes := [] }, c)
  else
    match c.readRow x q d ch i1 i2 i3 with
    | (.error f, c) => (.error f, c)
    | (.ok l, c) =>
      let t := l.any (·.2)
      let src := wordFmt d.sfmt
      let segs := fun (codes : List Nat) => d.planes.map fun j => (segAddr dst m j ch d.pwid d.ct, planeBytes codes j, t)
      if d.pkind = 1 then
        let r := l.map fun e => copyConvert src (.plane d.pwid) (modeOf d.mode) 0 e.1
        (.ok { writes := segs (r.map (·.code)), sat := (r.filter (·.sat)).length, nan := (r.filter (·.nan)).length }, c)
      else
        let vals := (List.range 512).map fun kk => match l[kk]? with
          | some e => convertStage src (.ab d.pwid) (src.value 0 e.1)
          | none => .fin false 0 0
        let groups := (List.range 16).map fun g => abConvert d.pwid ((vals.drop (32 * g)).take 32)
        let gws := groups.zipIdx.flatMap fun (r, g) => leBytes 4 (mkGroupWord (ch * 16 + g) 0 r.1)
        let nans := (vals.filter fun v => v.isNan).length
        (.ok { writes := (wrap (d.gw + 4 * (m * d.ct * 16 + ch * 16)) 64, gws, t) :: segs (groups.flatMap (·.2)), nan := nans }, c)

/-- Code of element `kk` of a row of a chunk, from its planes, with their taint (R34, R169). -/
def Chip.readCode (c : Chip) (x : Actor) (base m ch kk : Nat) (d : CopyDesc) : Except AFault (Nat × Bool) × Chip :=
  d.planes.foldl (fun (r, c) j =>
    match r with
    | .error f => (.error f, c)
    | .ok (v, t) =>
      match c.engineRead x (segAddr base m j ch d.pwid d.ct + kk / 8) 1 with
      | (.error f, c) => (.error f, c)
      | (.ok (bs, u), c) => (.ok (v + leNat bs / 2 ^ (kk % 8) % 2 * 2 ^ j, t || u), c)) (.ok (0, false), c)

/-- Unit of an unplane copy (R169): one word. -/
def Chip.cpyunUnit (c : Chip) (x : Actor) (q : Cmd) (u : Nat) : Except AFault CopyUnit × Chip :=
  let d := copyDesc q.desc
  let i := d.at u
  let ch := d.c0 + i.getD 0 0 / 512
  let kk := i.getD 0 0 % 512
  let m := d.m0 + i.getD 1 0
  let base := wrap (q.b.toNat + (i.getD 2 0 : Nat) * d.s 2 + (i.getD 3 0 : Nat) * d.s 3) 64
  match c.readCode x base m ch kk d with
  | (.error f, c) => (.error f, c)
  | (.ok (code, t), c) =>
    let finish := fun (c : Chip) (src : EFmt) (eg : Nat) (t : Bool) =>
      let r := copyConvert src (wordFmt d.dfmt) (modeOf d.mode) eg code
      match oneWrite (patternAddr q.c.toNat d.dstr i) (wordSize d.dfmt) r.code t with
      | .error f => (Except.error f, c)
      | .ok w => (Except.ok ({ writes := w, sat := b2n r.sat, nan := b2n (r.nan && (wordFmt d.dfmt).isInt) } : CopyUnit), c)
    if d.pkind = 1 then finish c (.plane d.pwid) 0 t
    else
      let g := ch * 16 + kk / 32
      let ga := wrap (d.gw + 4 * (m * d.ct * 16 + g)) 64
      match c.engineRead x ga 4 with
      | (.error f, c) => (.error f, c)
      | (.ok (bs, t'), c) =>
        match groupWordFault (.ab d.pwid) (fun _ => false) g (leNat bs) with
        | some cause => (.error { cause, addr := ga, info0 := leNat bs, info1 := 32 * g }, c)
        | none => finish c (.ab d.pwid) (bits (leNat bs) 0 (egBits d.pwid)) (t || t')

/-- Unit `u` of a copy command. -/
def Chip.unitOf (c : Chip) (core pid : Nat) (q : Cmd) (u : Nat) : Except AFault CopyUnit × Chip :=
  let x := q.actor core pid
  match q.op with
  | .cpypl => c.cpyplUnit x q u
  | .cpyun => c.cpyunUnit x q u
  | _ => c.cpyUnit x q u

/-! ### Where a command reads and writes -/

/-- Bytes that unit `u` reads, as addresses with their lengths, each within a line. -/
def Cmd.srcs (q : Cmd) (u : Nat) : List (Nat × Nat) :=
  let d := copyDesc q.desc
  let tensor := fun (i2 i3 : Nat) => wrap (q.b.toNat + i2 * d.s 2 + i3 * d.s 3) 64
  match q.op with
  | .cpypl =>
    let (ch, i1, i2, i3) := d.planeAt u
    if d.pp then d.planes.map fun j => (segAddr (tensor i2 i3) (d.m0 + i1) j ch d.pwid d.ct, 64)
    else (List.range (min 512 (d.n 0 - (ch - d.c0) * 512))).map fun kk =>
      (wrap (patternAddr q.b.toNat d.sstr [(ch - d.c0) * 512 + kk, i1, i2, i3]) 64, wordSize d.sfmt)
  | .cpyun =>
    let i := d.at u
    let ch := d.c0 + i.getD 0 0 / 512
    let kk := i.getD 0 0 % 512
    let m := d.m0 + i.getD 1 0
    (d.planes.map fun j => (segAddr (tensor (i.getD 2 0) (i.getD 3 0)) m j ch d.pwid d.ct + kk / 8, 1)) ++
      if d.pkind = 1 then [] else [(wrap (d.gw + 4 * (m * d.ct * 16 + ch * 16 + kk / 32)) 64, 4)]
  | _ => [(wrap (patternAddr q.b.toNat d.sstr (d.at u)) 64, wordSize d.sfmt)]

/-- Bytes that unit `u` writes, as addresses with their lengths. -/
def Cmd.dests (q : Cmd) (u : Nat) : List (Nat × Nat) :=
  let d := copyDesc q.desc
  if q.op == .cpypl then
    let (ch, i1, i2, i3) := d.planeAt u
    let m := d.m0 + i1
    (if d.pkind = 3 && !d.pp then [(wrap (d.gw + 4 * (m * d.ct * 16 + ch * 16)) 64, 64)] else []) ++
      d.planes.map fun j => (segAddr (wrap (q.c.toNat + i2 * d.t 2 + i3 * d.t 3) 64) m j ch d.pwid d.ct, 64)
  else [(wrap (patternAddr q.c.toNat d.dstr (d.at u)) 64, wordSize d.dfmt)]

/-- Bytes read, and bytes written, by the whole command. -/
def Cmd.allSrcs (q : Cmd) : List (Nat × Nat) := (List.range q.units).flatMap q.srcs
def Cmd.allDests (q : Cmd) : List (Nat × Nat) := (List.range q.units).flatMap q.dests

/-- Location of a virtual byte for an actor, where it can be reached. -/
def Chip.locOf (c : Chip) (x : Actor) (k : AKind) (va : Nat) : Option Nat :=
  match (c.resolve x k false va 1).1 with
  | .ok pl => some pl.loc
  | .error _ => none

/-- Whether `n` bytes of a line at a location are among the bytes that the command reads (R165): places are compared, line by line. -/
def Chip.readsAt (c : Chip) (core pid : Nat) (q : Cmd) (loc n : Nat) : Bool :=
  let src := q.allSrcs
  let lines := src.foldl (fun l s => addNat l (s.1 / 64)) []
  let here := lines.filter fun v => (c.locOf (q.actor core pid) .read (v * 64)).map (· / 64) == some (loc / 64)
  here.any fun v => src.any fun s => s.1 / 64 == v && s.1 % 64 < loc % 64 + n && loc % 64 < s.1 % 64 + s.2

/-- Whether the command writes some of these bytes more than once (R165, R415). -/
def Cmd.twice (q : Cmd) (va n : Nat) : Bool := 1 < (q.allDests.filter fun s => s.1 < va + n && va < s.1 + s.2).length

/-! ### Delivery (R164, R165, R167, R172, R181) -/

/-- Cores that a copy writes to: its branches, or the issuing core (R171). -/
def Chip.copyCores (c : Chip) (core pid : Nat) (q : Cmd) : List Nat :=
  let d := copyDesc q.desc
  if d.mc = 0 then [core]
  else
    let (ox, oy, _, _) := c.rect pid core
    branchCores ox oy d.mc

/-- First chunk-mate of a unit (R181): the first unit whose destination byte lies in the same 4 KiB step. -/
def Cmd.chunkOf (q : Cmd) (u : Nat) : Nat := u * q.unitBytes / 4096
def Cmd.chunkFirst (q : Cmd) (n : Nat) : Nat := (n * 4096 + q.unitBytes - 1) / q.unitBytes

/-- Destination lines of a unit. -/
def Cmd.linesAt (q : Cmd) (u : Nat) : List Nat := (q.dests u).flatMap fun s => linesOf s.1 s.2

/-- The last unit that writes into a line of unit `u`. -/
def Cmd.lastIn (q : Cmd) (u : Nat) : Nat :=
  ((List.range q.units).filter fun v => (q.linesAt v).any (q.linesAt u).contains).foldl max u

/-- The end of the least run of units from `u`, and at least to `e`, after which no line of theirs is written again; `n` bounds its length. -/
def closeRun (last : Nat → Nat) : Nat → Nat → Nat → Nat
  | 0, _, e => e
  | n + 1, u, e => if e ≤ u then e else closeRun last n (u + 1) (max e (last u + 1))

/-- The unit after the run that begins at `u`. The units that write into one destination line are delivered together, so that a 64-byte piece
holds the value of one writer (R165). A beat of a multicast is the words of one chunk that follow each other within a line (R463). -/
def Cmd.runEnd (q : Cmd) (u : Nat) : Nat :=
  if (copyDesc q.desc).mc = 0 then closeRun q.lastIn (q.units - u) u (u + 1)
  else if q.op == .cpypl then u + 1
  else u + 1 + ((List.range 63).takeWhile fun k =>
    u + 1 + k < q.units && q.chunkOf (u + 1 + k) == q.chunkOf u && q.linesAt (u + 1 + k) == q.linesAt u).length

/-- The units of the next run. -/
def Cmd.run (q : Cmd) : List Nat := (List.range (q.runEnd q.pos - q.pos)).map (q.pos + ·)

/-- Bytes `[a, a + k)` of a line as a mask. -/
def lineMask (a k : Nat) : Nat := 2 ^ (a % 64 + k) - 2 ^ (a % 64)

/-- One piece of a unit's bytes is written within a line of a core (R164): a line that the command has written whole takes exactly the
taint of what feeds it. Lines are told apart by core. -/
def coverPiece (cover : List (Nat × Nat × Bool)) (core va k : Nat) (taint : Bool) : List (Nat × Nat × Bool) × Bool × Bool :=
  let line := core * 2 ^ 58 + va / 64
  let (old, t) := match cover.find? fun x => x.1 == line with
    | some x => (x.2.1, x.2.2)
    | none => (0, false)
  let mask := Nat.lor old (lineMask va k)
  (upsert (fun x => x.1 == line) (line, mask, t || taint) cover, t || taint, mask == 2 ^ 64 - 1)

/-- Virtual lines that a word copy writes whole (R445). -/
def Cmd.wholeLines (q : Cmd) : List Nat :=
  let cover := q.allDests.foldl (fun l s => (coverPiece l 0 s.1 s.2 false).1) []
  (cover.filter fun x => x.2.1 == 2 ^ 64 - 1).map (·.1)

/-- The actor that a copy is where it writes. -/
def Chip.copyWriter (c : Chip) (core pid : Nat) (q : Cmd) : Actor :=
  { q.actor core pid with whole := if c.mem.poison.isEmpty || q.op == .cpypl then [] else q.wholeLines }

/-- Writes can all be made by an actor: the first fault. -/
def Chip.writable (c : Chip) (x : Actor) (ws : List (Nat × List Byte × Bool)) : Option AFault × Chip :=
  ws.foldl (fun (f, c) w =>
    match f with
    | some f => (some f, c)
    | none =>
      match c.enginePlaces x w.1 w.2.1.length with
      | (.error f, c) => (some f, c)
      | (.ok _, c) => (none, c)) (none, c)

/-- The units of the command that are checked before the next is delivered: a chunk whole before its first unit (R181), else the run. -/
def Cmd.due (q : Cmd) : List Nat :=
  let n := q.chunkOf q.pos
  if q.pos = q.chunkFirst n then (List.range q.units).filter fun u => q.pos ≤ u && q.chunkOf u = n else q.run

/-- Whether a fault is one of a group word (R84). -/
def AFault.isGroup (f : AFault) : Bool := 0x40 ≤ f.cause && f.cause ≤ 0x44

/-- Of the group-word faults of some units, beginning with `f`, that of the lowest K index (R84). -/
def Chip.lowestGroup (c : Chip) (core pid : Nat) (q : Cmd) (us : List Nat) (f : AFault) : AFault :=
  us.foldl (fun f u => match (c.unitOf core pid q u).1 with
    | .error e => if e.isGroup && e.info1 < f.info1 then e else f
    | .ok _ => f) f

/-- The fault of the first of some units that cannot be read, or written at every core; a group word's is that of the lowest K index (R84). -/
def Chip.checkUnits (c : Chip) (core pid : Nat) (q : Cmd) (us : List Nat) : Option AFault × Chip :=
  let (f, c) := us.foldl (fun (f, c) u =>
    match f with
    | some f => (some f, c)
    | none =>
      match c.unitOf core pid q u with
      | (.error f, c) => (some f, c)
      | (.ok un, c) => (c.copyCores core pid q).foldl (fun (f, c) k => match f with
          | some f => (some f, c)
          | none => c.writable (c.copyWriter k pid q) un.writes) (none, c)) ((none : Option AFault), c)
  (f.map fun f => if f.isGroup then c.lowestGroup core pid q us f else f, c)

/-- The units of the next run that may be delivered: a chunk that the run comes to is checked whole before (R181), and the run ends before
one that faults. -/
def Chip.clearRun (c : Chip) (core pid : Nat) (q : Cmd) : List Nat :=
  let ahead := (q.run.map q.chunkOf).eraseDups.filter fun n => q.chunkOf q.pos < n
  match ahead.find? fun n => (c.checkUnits core pid q ((List.range q.units).filter fun u => q.chunkOf u == n)).1.isSome with
  | none => q.run
  | some n => q.run.filter fun u => q.chunkOf u < n

/-- The writes of a unit at one core, and the lines covered so far: an overlap of what the command reads, or bytes that it writes twice,
taint their lines (R165, R415). -/
def Chip.putUnit (c : Chip) (core pid at_ : Nat) (q : Cmd) (cover : List (Nat × Nat × Bool)) (ws : List (Nat × List Byte × Bool)) :
    Except AFault (List (Nat × Nat × Bool)) × Chip :=
  ws.foldl (fun (r, c) w =>
    match r with
    | .error f => (.error f, c)
    | .ok cover =>
      match c.enginePlaces (c.copyWriter at_ pid q) w.1 w.2.1.length with
      | (.error f, c) => (.error f, c)
      | (.ok ps, c) =>
        let t := w.2.2 || q.twice w.1 w.2.1.length || ps.any fun (pl, _, k) => c.readsAt core pid q pl.loc k
        let c := c.putPlaces ps w.2.1 w.2.2
        let (cover, c) := ps.foldl (fun (cover, c) (pl, o, k) =>
          let (cover, t, whole) := coverPiece cover at_ (w.1 + o) k t
          let line := pl.loc / 64
          let mem := if t then { c.mem with taint := addNat c.mem.taint line }
            else if whole then { c.mem with taint := c.mem.taint.filter (· != line) } else c.mem
          let mem := if whole then { mem with poison := mem.poison.filter (· != line) } else mem
          (cover, { c with mem := mem })) (cover, c)
        (.ok cover, c)) (.ok cover, c)

/-- The running copy at the head of a channel. -/
def Chip.copyRunning (c : Chip) (core pid cp : Nat) : Option Cmd :=
  let s := c.slot core pid
  match s.headCmd cp with
  | some q => if q.started && s.engRuns cp then some q else none
  | none => none

/-- Units of a multicast written at every branch. -/
def Cmd.lowest (q : Cmd) : Nat := (leastOf q.parts).getD q.pos

/-- The window of a multicast in beats (R171). -/
def Cmd.window (q : Cmd) : Nat := bits (copyDesc q.desc).mc 16 8

/-- Beats leave one after the other, each only when every branch holds fewer than the window's beats (R172). -/
def sendBeats (win : Nat) (bpos : List Nat) (buf : List Beat) : List Beat → List Beat × List Beat
  | [] => (buf, [])
  | b :: t => if bpos.all fun p => decide (buf.length < win + p) then sendBeats win bpos (buf ++ [b]) t else (buf, b :: t)

/-- The beats that a multicast has read and may send are sent. -/
def Cmd.send (q : Cmd) : Cmd :=
  let (buf, todo) := sendBeats q.window q.bpos q.buf q.todo
  { q with buf, todo }

/-- Whether a copy may take up its next units: a multicast has sent what it read, and every branch has a credit (R172). -/
def Cmd.ready (q : Cmd) : Bool :=
  q.pos < q.units && q.err.isNone && ((copyDesc q.desc).mc = 0 || (q.todo.isEmpty && q.bpos.all fun p => decide (q.buf.length < q.window + p)))

/-- The counters of a channel take a unit once (R170). -/
def Chip.countUnit (c : Chip) (core pid cp : Nat) (q : Cmd) (u : Nat) (un : CopyUnit) : Chip :=
  if u < q.counted then c
  else c.modSlot core pid fun s =>
    s.setCp cp { s.cp cp with satc := satAdd32 (s.cp cp).satc un.sat, nanc := satAdd32 (s.cp cp).nanc un.nan }

/-- WP of a command that has delivered `n` units. -/
def Slot.setWp (s : Slot) (cp : Nat) (q : Cmd) (n : Nat) : Slot := s.setCp cp { s.cp cp with wp := (q.w0 + n * q.unitBytes) % 2 ^ 64 }

/-! ### Inbound streams (R462) -/

/-- The stream of a command. -/
def Cmd.stream (q : Cmd) (core pid cp : Nat) : Inbound := { core, pid, cp, num := q.num }

/-- Core whose scratchpad holds a location (R32, R37). -/
def coreOfLoc (loc : Nat) : Option Nat := if 2 ^ 48 ≤ loc && loc < 2 ^ 52 then some ((loc - 2 ^ 48) / 2 ^ 22) else none

/-- Other cores into whose scratchpads units of an ordinary copy are written. -/
def Chip.foreign (c : Chip) (core pid : Nat) (q : Cmd) (us : List Nat) : List Nat :=
  if (copyDesc q.desc).mc ≠ 0 || inOwnPad q.c.toNat then []
  else (us.flatMap q.dests).foldl (fun l s =>
    match (c.locOf (q.actor core pid) .write s.1).bind coreOfLoc with
    | some k => if k = core then l else addNat l k
    | none => l) []

/-- A stream queues at the ports of cores where it does not wait or run already. -/
def Chip.joinStreams (c : Chip) (me : Inbound) (cores : List Nat) : Chip :=
  cores.foldl (fun c k => c.modCore k fun st =>
    if st.sp7.contains me || st.sp7run == some me then st else { st with sp7 := st.sp7 ++ [me] }) c

/-- A stream gives up the ports it waits for or holds at cores that satisfy `p`. -/
def Chip.leaveStreams (c : Chip) (me : Inbound) (p : Nat → Bool) : Chip :=
  { c with cores := mapIf (fun st => p st.id) (fun st =>
      { st with sp7 := st.sp7.filter (· != me), sp7run := st.sp7run.filter (· != me) }) c.cores }

/-! ### The steps of a running copy -/

/-- Units are read and written one after the other: the command as it then stands. One that cannot be ends the run. -/
def Chip.moveUnits (c : Chip) (core pid cp : Nat) (q : Cmd) : List Nat → Cmd × Chip
  | [] => (q, c)
  | u :: t =>
    match c.unitOf core pid q u with
    | (.error _, _) => (q, c)
    | (.ok un, c') =>
      match (c'.countUnit core pid cp q u un).putUnit core pid core q q.cover un.writes with
      | (.error _, _) => (q, c)
      | (.ok cover, c) => c.moveUnits core pid cp { q with pos := u + 1, cover, counted := max q.counted (u + 1) } t

/-- Units are read and become beats (R172, R463): of a plane unit its group words and each segment, of a word copy the run. -/
def Chip.readBeats (c : Chip) (core pid cp : Nat) (q : Cmd) (us : List Nat) : List Beat × Chip :=
  let (ws, c) := us.foldl (fun (ws, c) u => match c.unitOf core pid q u with
    | (.error _, c) => (ws, c)
    | (.ok un, c) => (ws ++ un.writes, c.countUnit core pid cp q u un)) (([] : List (Nat × List Byte × Bool)), c)
  if q.op == .cpypl then
    (ws.zipIdx.map fun (w, j) => { unit := q.pos, ends := if j + 1 = ws.length then us.length else 0, writes := [w] }, c)
  else ([{ unit := q.pos, ends := us.length, writes := ws }], c)

/-- R164, R167, R169. The next units of an ordinary copy are delivered, once each core they go to serves its stream (R462). -/
def Chip.deliverHere (c : Chip) (core pid cp : Nat) (q : Cmd) : Chip :=
  let me := q.stream core pid cp
  let run := c.clearRun core pid q
  if (c.foreign core pid q run).all fun k => (c.coreSt k).sp7run == some me then
    let (q', c) := c.moveUnits core pid cp q run
    let c := c.modSlot core pid fun s => (s.modCmd cp q.num fun _ => q').setWp cp q q'.pos
    let left := c.foreign core pid q ((List.range q.units).filter fun u => decide (q'.pos ≤ u))
    if c.cores.any (fun st => st.sp7run == some me && !left.contains st.id) then c.leaveStreams me fun k => !left.contains k else c
  else c.joinStreams me (c.foreign core pid q ((List.range q.units).filter fun u => decide (q.pos ≤ u)))

/-- R171, R172. The next units of a multicast are read once and their beats sent to every branch. -/
def Chip.deliverBranches (c : Chip) (core pid cp : Nat) (q : Cmd) : Chip :=
  let (bs, c) := c.readBeats core pid cp q q.run
  let c := c.joinStreams (q.stream core pid cp) (c.copyCores core pid q)
  let q' := { q with pos := q.runEnd q.pos, todo := bs, counted := max q.counted (q.runEnd q.pos) }
  c.modSlot core pid fun s => s.modCmd cp q.num fun _ => q'.send

/-- R164, R167, R169, R172. The next units of a running copy are delivered; those of a multicast are sent to every branch. -/
def Chip.deliverUnit (c : Chip) (fo : Focus) : Chip :=
  match c.copyRunning fo.core fo.pid fo.n with
  | none => c
  | some q =>
    if !q.ready then c
    else match c.checkUnits fo.core fo.pid q q.due with
      | (some _, _) => c
      | (none, c) =>
        if (copyDesc q.desc).mc = 0 then c.deliverHere fo.core fo.pid fo.n q else c.deliverBranches fo.core fo.pid fo.n q

/-- R164 to R167. See `Chip.deliverUnit`. -/
def execCopyUnitDelivered (s : State) : Out := onChip Chip.deliverUnit s

/-- A copy stops in a faulting chunk, its pointer at the chunk's start (R181, R182). -/
def Chip.stopCopy (c : Chip) (core pid cp : Nat) (q : Cmd) (n : Nat) (f : AFault) : Chip :=
  let first := q.chunkFirst n
  let c := c.modSlot core pid fun s =>
    (s.modCmd cp q.num fun q => { q with
      pos := first, parts := q.parts.map fun _ => first, bpos := q.bpos.map fun _ => 0, buf := [], todo := [], err := none }).setWp
        cp q first
  (c.leaveStreams (q.stream core pid cp) fun _ => true).haltEngine core pid cp q n f false

/-- The chunk and fault at which a multicast whose beats are on their way must stop: a branch cannot write its next beat, and no branch
has one of a lower chunk to write (R62, R181). -/
def Chip.branchFault (c : Chip) (core pid cp : Nat) (q : Cmd) : Option (Nat × AFault) :=
  let next := (c.copyCores core pid q).zipIdx.filterMap fun (k, b) => (q.buf[q.bpos.getD b 0]?).map fun x => (k, x)
  match leastOf (next.map fun x => q.chunkOf x.2.unit) with
  | none => none
  | some n => next.findSome? fun (k, x) =>
    if q.chunkOf x.unit = n && (c.coreSt k).sp7run == some (q.stream core pid cp) then
      match c.putUnit core pid k q q.cover x.writes with
      | (.error f, _) => some (n, f)
      | (.ok _, _) => none
    else none

/-- The chunk and fault at which a running copy must stop: of its next units, once every unit before them is written, or of a branch; a
failure met on a link stands in `err` until then. -/
def Chip.copyStops (c : Chip) (core pid cp : Nat) (q : Cmd) : Option (Nat × AFault) :=
  if !q.buf.isEmpty then c.branchFault core pid cp q
  else if q.err.isSome then q.err.map fun f => (q.chunkOf q.pos, f)
  else if !q.ready then none
  else (c.checkUnits core pid q q.due).1.map fun f => (q.chunkOf q.pos, f)

/-- R181, R182. A running copy cannot go on: every chunk below the faulting one is written, and the channel halts. -/
def Chip.faultUnit (c : Chip) (fo : Focus) : Chip :=
  match c.copyRunning fo.core fo.pid fo.n with
  | none => c
  | some q =>
    match c.copyStops fo.core fo.pid fo.n q with
    | some (n, f) => c.stopCopy fo.core fo.pid fo.n q n f
    | none => c

/-- R182. See `Chip.faultUnit`. -/
def execCopyFault (s : State) : Out := onChip Chip.faultUnit s

/-- R462. The oldest waiting stream of a core takes its port sp7. -/
def execInboundStreamStart (s : State) : Out :=
  onChip (fun c fo =>
    let k := c.coreSt fo.core
    match k.sp7run, k.sp7 with
    | none, x :: t => c.setCore { k with sp7 := t, sp7run := some x }
    | _, _ => c) s

/-- Branch `b` of a multicast has written its next beat, which ends `n` units: its pointer passes them, its credit returns and may carry
the next beat (R172, R464). -/
def Cmd.passed (q : Cmd) (b n : Nat) (cover : List (Nat × Nat × Bool)) : Cmd :=
  let parts := q.parts.set b (q.parts.getD b 0 + n)
  let bpos := q.bpos.set b (q.bpos.getD b 0 + 1)
  let low := (leastOf bpos).getD 0
  { q with parts, bpos := bpos.map (· - low), buf := q.buf.drop low, cover }.send

/-- R172, R464. Branch core `k` writes its next beat of the multicast of channel `n`; WP is the least of the branch pointers. -/
def Chip.branchWrite (c : Chip) (fo : Focus) : Chip :=
  match c.copyRunning fo.core fo.pid fo.n with
  | none => c
  | some q =>
    let me := q.stream fo.core fo.pid fo.n
    match (c.copyCores fo.core fo.pid q).findIdx? fun k => k == fo.k with
    | none => c
    | some b =>
      match q.buf[q.bpos.getD b 0]? with
      | none => c
      | some x =>
        if (c.coreSt fo.k).sp7run != some me then c
        else match c.putUnit fo.core fo.pid fo.k q q.cover x.writes with
          | (.error _, _) => c
          | (.ok cover, c) =>
            let q' := q.passed b x.ends cover
            let c := c.modSlot fo.core fo.pid fun s => (s.modCmd fo.n q.num fun _ => q').setWp fo.n q ((leastOf q'.parts).getD 0)
            if q'.parts.getD b 0 = q.units then c.leaveStreams me (· == fo.k) else c

/-- R172. See `Chip.branchWrite`. -/
def execMcastCreditReturn (s : State) : Out := onChip Chip.branchWrite s

/-- Whether a copy command is within a chunk (R142, R181): some of its units are under way or written, and not all. -/
def Cmd.midCopy (q : Cmd) : Bool := !q.buf.isEmpty || (q.pos < q.units && q.pos != q.chunkFirst (q.chunkOf q.pos))

/-- Whether a copy of a partition that may go on is within a chunk: no page it uses begins to move meanwhile (R142). -/
def Chip.midCopy (c : Chip) (pid : Nat) : Bool :=
  c.slots.any fun s => s.pid == pid && s.pstate == .run && (List.range 4).any fun k =>
    !(s.eng k).halted && (s.eng k).cmds.any fun q => q.started && q.midCopy

/-- Whether some engine of a partition holds operands of a chunk or is within one (R60); an amplitude command is one chunk (R330). -/
def Chip.midChunk (c : Chip) (pid : Nat) : Bool :=
  c.midCopy pid || c.slots.any fun s => s.pid == pid && s.pstate == .run &&
    ((!(s.eng 5).halted && (s.eng 5).cmds.any fun q => !q.held.isEmpty) || (!(s.eng 8).halted && (s.eng 8).cmds.any fun q => q.started))

/-- R160. A copy whose every byte is written, at every branch, completes. -/
def Chip.finishCopy (c : Chip) (fo : Focus) : Chip :=
  match c.copyRunning fo.core fo.pid fo.n with
  | none => c
  | some q => if q.pos = q.units && q.lowest = q.units then c.completeCmd fo.core fo.pid fo.n q else c

/-- R160. See `Chip.finishCopy`. -/
def execCopyComplete (s : State) : Out := onChip Chip.finishCopy s

/-! ### Port bindings (R159, R367) -/

/-- The binding of a slot that may issue (R159, R367): its port has a free entry of the slot, and no binding before it waits for the same
port or channel. -/
def Chip.bindingNext (c : Chip) (core pid : Nat) : Option Cmd :=
  let mine := ((c.coreSt core).binds.filter fun b => b.1 == pid).map (·.2)
  (mine.zipIdx.find? fun (q, j) => c.portUsed core pid q.port < 2 &&
    (mine.take j).all fun r => r.port != q.port && r.sel != q.sel).map (·.1)

/-- R367. A binding whose slot has a free entry at its port issues its command, which sends no DONE. -/
def Chip.issueBinding (c : Chip) (fo : Focus) : Chip :=
  match c.bindingNext fo.core fo.pid with
  | none => c
  | some q =>
    (c.modCore fo.core fun k => { k with binds := k.binds.erase (fo.pid, q) }).acceptCopy fo.core fo.pid q.sel { q with dn := false } true none

/-- R159, R367. See `Chip.issueBinding`. -/
def execPortBindingIssue (s : State) : Out := onChip Chip.issueBinding s

/-! ### Resume and abandon (R182, R477) -/

/-- Resume of a halted context: from its faulting unit; a command that may only be abandoned faults again (R477), and the return register
then gets the timeline's current value (notes/assumptions 112). -/
def Chip.resumeEngine (c : Chip) (i : Inst) (k : Nat) (ret : Option (BitVec 5)) (t : Bool) : Chip :=
  let s := c.slot i.core i.pid
  match s.haltedCmd k with
  | none => c.returnVal i.iid ret (wordOf (s.tl k)) t
  | some (q, r) =>
    if q.onlyAbandon then (c.faultAgain i.core i.pid k q r).returnVal i.iid ret (wordOf (s.tl k)) t
    else ((c.reserveAgain i.core i.pid q).modSlot i.core i.pid fun s => s.unhalt k q.num).returnVal i.iid ret (wordOf q.num) t

/-- Abandon of a halted context: the command ends, its number is reached, DONE is sent (R182). Index tokens of a gather that have come stay in
the matching store (notes/assumptions 40). -/
def Chip.abandonEngine (c : Chip) (i : Inst) (k : Nat) (ret : Option (BitVec 5)) (t : Bool) : Chip :=
  let s := c.slot i.core i.pid
  match s.haltedCmd k with
  | none => c.returnVal i.iid ret (wordOf (s.tl k)) t
  | some (q, _) =>
    let c := (c.reserveAgain i.core i.pid q).modSlot i.core i.pid fun s => s.unhalt k q.num
    let c := if k < 4 then c.modSlot i.core i.pid fun s => s.setCp k { s.cp k with wp := (q.w0 + q.len) % 2 ^ 64 } else c
    (c.completeCmd i.core i.pid k q).returnVal i.iid ret (wordOf q.num) t

/-- R182. Resumes the halted copy channel. -/
def execCpyRes (cc : BitVec 2) (ret : Option (BitVec 5)) (s : State) : Out :=
  classC (fun c i _ o => c.resumeEngine i cc.toNat ret o.taint) s

/-- R182. Abandons the halted copy command. -/
def execCpyAbn (cc : BitVec 2) (ret : Option (BitVec 5)) (s : State) : Out :=
  classC (fun c i _ o => c.abandonEngine i cc.toNat ret o.taint) s

/-- R182. As `CPY.res`. -/
def execCpyplRes (cc : BitVec 2) (ret : Option (BitVec 5)) (s : State) : Out :=
  classC (fun c i _ o => c.resumeEngine i cc.toNat ret o.taint) s

/-- R182. As `CPY.abn`. -/
def execCpyplAbn (cc : BitVec 2) (ret : Option (BitVec 5)) (s : State) : Out :=
  classC (fun c i _ o => c.abandonEngine i cc.toNat ret o.taint) s

/-- R182. As `CPY.res`. -/
def execCpyunRes (cc : BitVec 2) (ret : Option (BitVec 5)) (s : State) : Out :=
  classC (fun c i _ o => c.resumeEngine i cc.toNat ret o.taint) s

/-- R182. As `CPY.abn`. -/
def execCpyunAbn (cc : BitVec 2) (ret : Option (BitVec 5)) (s : State) : Out :=
  classC (fun c i _ o => c.abandonEngine i cc.toNat ret o.taint) s

/-! ### `WPWAIT` (R173, R174) -/

/-- Core that a peer word names (R174): none outside the rectangle. -/
def Chip.peerCore (c : Chip) (i : Inst) (w : Nat) : Option Nat :=
  let (ox, oy, rw, rh) := c.rect i.pid i.core
  if rw ≤ bits w 0 5 || rh ≤ bits w 8 5 then none else some (coreAt (ox + bits w 0 5) (oy + bits w 8 5))

/-- R174. Fires with n and holds; bad core words, cores outside the rectangle and scopes too wide fault. -/
def execWpwait (scope : Scope) (peer : Bool) (cp : BitVec 2) (t0 : Option Target) (s : State) : Out :=
  onChip (fun c fo => c.fireW fo [t0] fun c i o =>
    let ctx := (c.part i.pid).ctxScope cp.toNat
    let w := o.b.toNat
    if peer && (bits w 5 3 ≠ 0 || w / 2 ^ 13 ≠ 0) then (.error (operandF 0x48 1), c)
    else match if peer then c.peerCore i w else some i.core with
      | none => (.error (adF 0x22 0), c)
      | some k =>
        if ctx < scope.code || !sameDomain ctx i.core k then (.error (scopeF cp.toNat scope.code ctx), c)
        else (.ok (o.a, o.taint), c)) s

/-- Core whose pointer a held `WPWAIT` watches, from its slot b. -/
def Frame.slotB (f : Frame) (k : Nat) : Nat := ((f.cell k).b.getD .null).value.toNat

/-- The pointer that an instance's core observes on a channel of a core (R174): its branch's own during a multicast, else WP. -/
def Chip.pointerSeen (c : Chip) (self core pid cp : Nat) : Nat :=
  let s := c.slot core pid
  match c.copyRunning core pid cp with
  | some q =>
    match (c.copyCores core pid q).findIdx? fun k => k == self with
    | some b => if (copyDesc q.desc).mc = 0 then (s.cp cp).wp else (q.w0 + q.parts.getD b 0 * q.unitBytes) % 2 ^ 64
    | none => (s.cp cp).wp
  | none => (s.cp cp).wp

/-- Whether a held `WPWAIT` may go on: the pointer is at or past n, modulo 2^64. -/
def Chip.wpwaitDone (c : Chip) (i : Inst) (w : Wait) (word : Nat) : Bool :=
  match i.frame with
  | none => false
  | some f =>
    opOf word == 0x185 &&
      match if bitAt word 12 then c.peerCore i (f.slotB w.idx) else some i.core with
      | none => false
      | some k => wrap (c.pointerSeen i.core k i.pid (bits word 9 2) - w.n.toNat : Int) 64 < 2 ^ 63

/-- R173, R174. The pointer has passed n: acquire at SCOPE, send n. -/
def execWpwaitRelease (s : State) : Out :=
  onChip (fun c fo => match c.waitAt fo with
    | none => c
    | some (i, w, word) =>
      if c.wpwaitDone i w word then (c.acquire i.core i.iid (bits word 13 3)).release i.iid w [t0Of word] else c) s

end Sys2Proof.Machine
end

