-- ==== Sys2Proof/Machine/Plane.lean ====
section
/-! DEFINITION. The plane engine (R262 to R293): tiles and their access order, `MMA`, `MMAL`, `ACCZ`, `ACCLD`, the exact arithmetic of a
chunk, and the events that carry the commands out. An event's focus names the core and the partition. Each column group
steps its chunks by itself and a chunk is added once all have verified it (notes/assumptions 42); heat tokens are spent, and refilled by `HEAT_REFILL`. -/

namespace Sys2Proof.Machine

/-! ### Accumulation (R89, R92, R271) -/

/-- Whether an integer fits a 64-bit significand. -/
def fits64 (t : Int) : Bool := -2 ^ 63 ≤ t && t ≤ 2 ^ 63 - 1

/-- `T / 2^s` rounded to an integer, to nearest, ties to even. -/
def nearestShift (t : Int) (s : Nat) : Int :=
  let k : Int := (roundInt .rne (decide (t < 0)) t.natAbs (-(s : Int))).1
  if t < 0 then -k else k

/-- AccAdd of R271: a contribution `v · 2^e` enters a lane. -/
def A80.add (x : A80) (v e : Int) : A80 :=
  if x.nan || v == 0 then x
  else
    let f := min x.e e
    let t := x.s * 2 ^ (x.e - f).toNat + v * 2 ^ (e - f).toNat
    if fits64 t then { x with s := t, e := f }
    else
      let b := bitLen t.natAbs - 63
      let s := (([max 1 (b - 1), b, b + 1]).find? fun s => fits64 (nearestShift t s)).getD b
      { x with s := nearestShift t s, e := f + s }

/-- SatAdd of R271 for INT tiles (R92). -/
def A80.satAdd (x : A80) (v e : Int) : A80 :=
  if x.nan || v == 0 then x
  else
    let t := x.s + v * 2 ^ e.toNat
    let lim : Int := 2 ^ 63 - 1
    if lim < t then { x with s := lim, sat := true }
    else if t < -lim then { x with s := -lim, sat := true }
    else { x with s := t }

/-- A NaN element stays NaN (R89); its saturation flag stays. -/
def A80.setNan (x : A80) : A80 := { x with nan := true, s := 0, e := 0 }

/-! ### Tiles (R262, R263, R286, R291) -/

/-- Tile modes (R263): 0 FLOAT, 1 INT, 2 RESIDUE. -/
def Tile.lanes (t : Tile) : Nat := if t.mode = 2 then 4 else 1
/-- Lane `r` of element `k`; one not listed is canonical zero. -/
def Tile.el (t : Tile) (r k : Nat) : A80 := t.elems.getD (1024 * r + k) .zero
/-- The lanes of element `k`. -/
def Tile.lanesAt (t : Tile) (k : Nat) : List A80 := (List.range t.lanes).map fun r => t.el r k
/-- A tile with each element's lanes changed. -/
def Tile.mapLanes (t : Tile) (f : Nat → List A80 → List A80) : Tile :=
  let new := (List.range 1024).map fun k => f k (t.lanesAt k)
  { t with elems := (List.range t.lanes).flatMap fun r => new.map fun l => l.getD r .zero }

/-- A tile of a slot; one not listed is as at creation (R263). -/
def Slot.tile (s : Slot) (t : Nat) : Tile := (s.tiles.find? fun x => x.idx == t).getD { idx := t }
def Slot.setTile (s : Slot) (t : Tile) : Slot := { s with tiles := upsert (fun x => x.idx == t.idx) t s.tiles }
/-- Whether a tile is part of another tile's RESIDUE group. -/
def Slot.inResidue (s : Slot) (t : Nat) : Bool := t % 4 != 0 && (s.tile (t / 4 * 4)).mode == 2
/-- A 64-byte line of a tile's accumulator memory is poisoned (R90, R444). -/
def Slot.poisonTile (s : Slot) (t line : Nat) : Slot :=
  let b := if s.inResidue t then t / 4 * 4 else t
  let x := s.tile b
  s.setTile { x with poison := addNat x.poison (160 * (t - b) + line % 160) }
/-- Tile quota (R262, R432). -/
def Part.tileQuota (p : Part) : Nat := bits (p.reg 0x043) 0 4
/-- Whether a tile in a mode lies within the quota and outside other RESIDUE tiles (R263, R291). -/
def Slot.tileOk (s : Slot) (quota t mode : Nat) : Bool := t + (if mode = 2 then 4 else 1) ≤ quota && !s.inResidue t

/-- A tile is set to a mode, at zero, its scales unset, untainted; the tiles it joins or releases are FLOAT and zero (R291). -/
def Slot.zeroTile (s : Slot) (t mode : Nat) : Slot :=
  let joined := mode = 2 ∨ (s.tile t).mode = 2
  let rest := s.tiles.filter fun x => !(x.idx == t || (joined && t < x.idx && x.idx < t + 4))
  { s with tiles := if mode = 0 then rest else rest ++ [{ idx := t, mode }] }

/-- The elements of a tile slot, all 1,024. -/
def Tile.allElems (t : Tile) : List A80 := if t.elems.isEmpty then List.replicate 1024 .zero else t.elems.take 1024

/-- What an `ACCLD` finds in the elements it is to load (R292): each lane of a tile keeps its tile slot's elements until its chunk is
loaded. -/
def Slot.keptElems (s : Slot) (t mode : Nat) : List A80 :=
  if mode = 2 then
    if (s.tile t).mode = 2 then (s.tile t).elems
    else
      let l := (List.range 4).map fun r => s.tile (t + r)
      if l.all fun x => x.elems.isEmpty then [] else l.flatMap Tile.allElems
  else (s.tile t).elems.take 1024

/-- The poisoned lines it finds there. -/
def Slot.keptPoison (s : Slot) (t mode : Nat) : List Nat :=
  if mode = 2 then
    if (s.tile t).mode = 2 then (s.tile t).poison else (List.range 4).flatMap fun r => (s.tile (t + r)).poison.map (· + 160 * r)
  else (s.tile t).poison.filter (· < 160)

/-- Tiles that a QST's group spans from its first, at a step (R301). -/
def Cmd.groupTiles (q : Cmd) (step : Nat) : List Nat :=
  (List.range (2 ^ bits (q.desc.getD 4 0) 17 2)).map fun j => q.sel + j * step

/-- Tiles that a command of the plane engine names: an `ACCZ` or `ACCLD` joins three more to a RESIDUE tile, or releases those of one. -/
def Slot.planeTiles (s : Slot) (q : Cmd) : List Nat :=
  if (q.op == .accz || q.op == .accld) && (q.port == 2 || (s.tile q.sel).mode == 2) then (List.range 4).map (q.sel + ·) else [q.sel]

/-- Whether the plane queue holds an earlier command that names a tile. Commands that name tiles are ordered by `w0`. -/
def Slot.planeBefore (s : Slot) (q : Cmd) (t : Nat) : Bool :=
  (s.eng 5).cmds.any fun x => x.w0 < q.w0 && (s.planeTiles x).contains t

/-- Tiles that a command of the drain names: a QST's set is known once its first tile is free (R301). -/
def Slot.drainTiles (s : Slot) (q : Cmd) : List Nat :=
  match q.op with
  | .lvlld => []
  | .qst =>
    if q.err.isSome then [q.sel]
    else if s.planeBefore q q.sel then q.groupTiles 1 ++ q.groupTiles 4
    else q.groupTiles (if (s.tile q.sel).mode = 2 then 4 else 1)
  | _ => [q.sel]

/-- Whether the drain queue holds an earlier command that names one of a plane command's tiles (R286). -/
def Slot.drainBefore (s : Slot) (q : Cmd) : Bool :=
  (s.eng 6).cmds.any fun x => x.w0 < q.w0 && (s.drainTiles x).any fun t => (s.planeTiles q).contains t

/-- A command that names tiles enters a queue, after every such command of the slot (R286). -/
def Chip.acceptTile (c : Chip) (core pid k : Nat) (q : Cmd) : Chip :=
  let s := c.slot core pid
  let last := ((s.eng 5).cmds ++ (s.eng 6).cmds).foldl (fun m x => max m x.w0) 0
  (c.accept core pid k { q with w0 := last + 1 }).2

/-! ### Level tables (R77, R79) -/

/-- Key of level table `t` of width `w`. -/
def tableKey (w t : Nat) : Nat := w * 4 + t
/-- A loaded level table. -/
def Slot.table? (s : Slot) (w t : Nat) : Option LevelTable := (s.tables.find? fun x => x.1 == tableKey w t).map Prod.snd

/-! ### Operand descriptors (R265 to R267) -/

/-- A tensor descriptor. -/
structure PDesc where
  base : Nat
  gw   : Nat
  ts   : Nat
  zp   : Int
  ct   : Nat
  trim : Bool
  gsz  : Nat
  kind : Nat
  wid  : Nat
  pl   : Nat
  klen : Nat
  deriving DecidableEq, Repr

/-- The fields of a descriptor's words. -/
def planeDesc (w : List Nat) : PDesc :=
  let w2 := w.getD 2 0
  let w3 := w.getD 3 0
  { base := w.getD 0 0, gw := w.getD 1 0, ts := bits w2 32 32, zp := sgn (bits w2 16 16) 16, ct := bits w2 0 16, trim := bitAt w3 59,
    gsz := bits w3 57 2, kind := bits w3 55 2, wid := bits w3 48 7, pl := bits w3 43 5, klen := bits w3 0 32 }

/-- Whether a PLANES value is accepted (R68). -/
def planesOk (kind wid pl : Nat) : Bool :=
  match kind with
  | 1 => 1 ≤ pl && pl ≤ wid
  | 2 => pl == expandedPlanes wid
  | _ => pl == 16

/-- Widths of a kind. -/
def widthOk (kind wid : Nat) : Bool :=
  match kind with
  | 1 => 1 ≤ wid && wid ≤ 16
  | 2 => wid == 4 || wid == 6 || wid == 8
  | _ => wid == 16 || wid == 32 || wid == 64

/-- Checks of a descriptor in the order of its table (R267): the failing word and lowest bit. What the pair must agree on is checked at
B's field (notes/assumptions 31). -/
def planeBad (mmal : Bool) (first : Option PDesc) (w : List Nat) : Option (Nat × Nat) :=
  let d := planeDesc w
  let w3 := w.getD 3 0
  let onB := first.isSome
  firstFail [
    (!inOwnPad d.base || d.base % 2048 != 0, 0, 0),
    (if d.kind = 1 then d.gw != 0 else d.gw % 4 != 0, 1, 0),
    (d.zp != 0 && (onB || d.kind == 3), 2, 16),
    (d.ct == 0, 2, 0),
    (bits w3 60 4 != 0, 3, 60),
    (d.gsz == 3 || (d.gsz != 0 && (d.kind == 1 || d.kind == 3)) || (match first with
      | some a => a.kind == 2 && d.kind == 2 && a.gsz != d.gsz
      | none => false), 3, 57),
    (d.kind == 0 || (if mmal then d.kind != 3 else d.kind == 3), 3, 55),
    (!widthOk d.kind d.wid || (match first with
      | some a => mmal && a.wid != d.wid
      | none => false), 3, 48),
    (!planesOk d.kind d.wid d.pl, 3, 43),
    (bits w3 32 11 != 0, 3, 32),
    (d.klen == 0 || d.ct * 512 < d.klen || (match first with
      | some a => a.klen != d.klen
      | none => false), 3, 0)]

/-- Fields of the block word (R266). -/
def Cmd.bwNc (q : Cmd) : Nat := bits q.c.toNat 48 16
def Cmd.bwC0 (q : Cmd) : Nat := bits q.c.toNat 32 16
def Cmd.bwCb (q : Cmd) : Nat := bits q.c.toNat 16 16
def Cmd.bwRb (q : Cmd) : Nat := bits q.c.toNat 0 16

/-- R267, R290. `MMA` or `MMAL` is accepted: both descriptors are read and checked, A first, then the block word. -/
def Chip.acceptMma (c : Chip) (core pid : Nat) (q : Cmd) : Chip :=
  let x := q.actor core pid
  let mmal := q.op == .mmal
  let bad := fun (f : AFault) => { q with err := some f, onlyAbandon := true }
  let read := fun (c : Chip) (va : Nat) => c.readDescT x va 4
  let (q, c) : Cmd × Chip :=
    match read c q.a.toNat with
    | (.error f, c) => (bad f, c)
    | (.ok (wa, ta), c) =>
      match read c q.b.toNat with
      | (.error f, c) => (bad f, c)
      | (.ok (wb, tb), c) =>
        match planeBad mmal none wa, planeBad mmal (some (planeDesc wa)) wb with
        | some (k, b), _ => (bad (descF 0x58 q.a.toNat k b), c)
        | none, some (k, b) => (bad (descF 0x58 q.b.toNat k b), c)
        | none, none =>
          if q.bwNc == 0 || (planeDesc wa).ct < q.bwC0 + q.bwNc || (planeDesc wb).ct < q.bwC0 + q.bwNc then
            (bad (operandF 0x58 2), c)
          else ({ q with desc := wa, desc2 := wb, taint := q.taint || ta || tb, pos := q.bwC0 }, c)
  c.acceptTile core pid 5 q

/-- The command of an instance that names a tile and a mode. -/
def Inst.tileCmd (i : Inst) (op : CmdOp) (idx : Nat) (o : Operands) (dn : Bool) (dch : BitVec 7) (tile : BitVec 3) (mode : Nat) : Cmd :=
  { i.cmd op idx o dn dch.toNat with sel := tile.toNat, port := mode }

/-- R290. Queues a product of plane operands into a tile. -/
def execMma (dch : BitVec 7) (dn : Bool) (tile : BitVec 3) (s : State) : Out :=
  classC (fun c i a o => c.acceptMma i.core i.pid (i.tileCmd .mma a.idx o dn dch tile 0)) s

/-- R290. As `MMA`, for two aligned operands. -/
def execMmal (dch : BitVec 7) (dn : Bool) (tile : BitVec 3) (s : State) : Out :=
  classC (fun c i a o => c.acceptMma i.core i.pid (i.tileCmd .mmal a.idx o dn dch tile 0)) s

/-- R291. Queues the zeroing of a tile in a mode. -/
def execAccz (dch : BitVec 7) (dn : Bool) (tile : BitVec 3) (mode : BitVec 2) (s : State) : Out :=
  classC (fun c i a o => c.acceptTile i.core i.pid 5 (i.tileCmd .accz a.idx o dn dch tile mode.toNat)) s

/-- R292. Queues the loading of a tile from its image. -/
def execAccld (dch : BitVec 7) (dn : Bool) (tile : BitVec 3) (mode : BitVec 2) (s : State) : Out :=
  classC (fun c i a o =>
    let q := i.tileCmd .accld a.idx o dn dch tile mode.toNat
    let q := if q.a.toNat % 16 ≠ 0 then { q with err := some (operandF 0x58 0), onlyAbandon := true } else q
    c.acceptTile i.core i.pid 5 q) s

/-- R283. Resumes the halted command from its faulting chunk. -/
def execMmaRes (dch : BitVec 7) (dn : Bool) (s : State) : Out :=
  classC (fun c i a _ => c.resumeQueue i a.idx 5 dn dch.toNat) s

/-- R283. Ends the halted command; its tile is exact through the chunk before. -/
def execMmaAbn (dch : BitVec 7) (dn : Bool) (s : State) : Out :=
  classC (fun c i a _ => c.abandonQueue i a.idx 5 dn dch.toNat) s

/-! ### Starting (R264, R286, R290 to R292) -/

/-- The widths of the level tables a command may read (R79): of each SB operand. -/
def Cmd.tableWidths (q : Cmd) : List Nat :=
  if q.op == .mma || q.op == .mmal then
    ([planeDesc q.desc, planeDesc q.desc2].filter fun d => d.kind == 2).map (·.wid)
  else []

/-- Width and number of the table that a waiting `LVLLD` is to replace (R79). -/
def Cmd.lvlTable (q : Cmd) : Nat × Nat := (q.port, q.sel)

/-- The `LVLLD` that waits to replace its table. One that stands halted by a fault of its image does not wait: the model's choice
(notes/assumptions 95). -/
def Slot.lvlWaiting (s : Slot) : Option Cmd :=
  match s.headCmd 6 with
  | some q => if q.op == .lvlld && q.started && q.fail.isNone then some q else none
  | none => none

/-- Whether a plane command is free to start: its tile free of the drain, no table it would hold about to be replaced. -/
def Slot.planeFree (s : Slot) (q : Cmd) : Bool :=
  let wait := match s.lvlWaiting with
    | some l => q.tableWidths.contains l.lvlTable.1
    | none => false
  !q.started && s.engRuns 5 && !s.drainBefore q && !wait

/-- The plane command that may start: the oldest, not started. -/
def Slot.planeHead (s : Slot) : Option Cmd := (s.headCmd 5).filter s.planeFree

/-- Chunks of a command: first beyond its last. Those of an `ACCLD` are the 4 KiB pieces of its image, four to a lane (R292). -/
def Cmd.planeEnd (q : Cmd) : Nat :=
  match q.op with
  | .accz => 0
  | .accld => if q.port = 2 then 16 else 4
  | _ => q.bwC0 + q.bwNc

/-- Tensor scales of an `MMA` as one number. -/
def Cmd.scales (q : Cmd) : Nat := (planeDesc q.desc).ts * 2 ^ 32 + (planeDesc q.desc2).ts

/-- Whether the tile's mode refuses the operands, or its scales differ (R264). -/
def Cmd.modeRefused (q : Cmd) (t : Tile) : Bool :=
  (t.mode == 1 && (q.op == .mmal || (planeDesc q.desc).kind == 2 || (planeDesc q.desc2).kind == 2)) ||
    match t.scale with
    | some x => x != q.scales
    | none => false

/-- A product starts on its tile: the tile takes its scales and its taint (R264, R287). -/
def Slot.beginProduct (s : Slot) (q : Cmd) : Slot :=
  let t := s.tile q.sel
  (s.modCmd 5 q.num fun q => { q with started := true, parts := [0, 0, 0, 0], extra := List.replicate 4 q.pos, held := [] }).setTile
    { t with scale := some q.scales, taint := t.taint || q.taint }

/-- The product after the oldest, which a column group that has finished the oldest may go on to (R278, R286). Its own faults wait until it
is the oldest. -/
def Slot.planeAhead (s : Slot) (quota : Nat) : Option Cmd :=
  let product := fun (q : Cmd) => q.op == .mma || q.op == .mmal
  match (s.eng 5).cmds with
  | q :: r :: _ =>
    if q.started && product q && product r && r.err.isNone && s.planeFree r && decide (q.pos < q.planeEnd) &&
        (List.range 4).any (fun h => decide (q.planeEnd ≤ q.extra.getD h q.pos)) && s.tileOk quota r.sel (s.tile r.sel).mode &&
        !r.modeRefused (s.tile r.sel) then some r else none
  | _ => none

/-- R290, R291, R292. The next plane command of a slot starts. One whose start is refused has not started, and holds no level table (R79,
notes/assumptions 95). -/
def Chip.startPlane (c : Chip) (fo : Focus) : Chip :=
  let s := c.slot fo.core fo.pid
  let quota := (c.part fo.pid).tileQuota
  match s.planeHead with
  | none => match s.planeAhead quota with
    | some q => c.setSlot (s.beginProduct q)
    | none => c
  | some q =>
    let start := fun (s : Slot) => s.modCmd 5 q.num fun q => { q with started := true, parts := [0, 0, 0, 0] }
    match q.err with
    | some f => c.haltEngine fo.core fo.pid 5 q 0 f true
    | none =>
      if q.op == .mma || q.op == .mmal then
        let t := s.tile q.sel
        if !s.tileOk quota q.sel t.mode then c.haltEngine fo.core fo.pid 5 q 0 { cause := 0x5A } true
        else if q.modeRefused t then c.haltEngine fo.core fo.pid 5 q 0 { cause := 0x59 } true
        else c.setSlot (s.beginProduct q)
      else if !s.tileOk quota q.sel q.port then c.haltEngine fo.core fo.pid 5 q 0 { cause := 0x5A } true
      else
        let z := (start s).zeroTile q.sel q.port
        let kept := if q.op == .accld then s.keptElems q.sel q.port else []
        let bad := if q.op == .accld then s.keptPoison q.sel q.port else []
        c.setSlot (if q.op == .accld && (q.taint || !kept.isEmpty || !bad.isEmpty) then
          z.setTile { z.tile q.sel with elems := kept, taint := q.taint, poison := bad } else z)

/-- R290. See `Chip.startPlane`. -/
def execPeCmdStart (s : State) : Out := onChip Chip.startPlane s

/-! ### The operands of a chunk (R268, R276, R277) -/

/-- Planes of an operand that the engine streams (R70). -/
def PDesc.planes (d : PDesc) : List Nat := if d.kind = 1 then (List.range d.pl).map (d.wid - d.pl + ·) else List.range d.wid
/-- Limbs of an operand (R81). -/
def PDesc.limbs (d : PDesc) : Nat := if d.kind = 3 then d.wid / 16 else 1
/-- Group size of a pair (R71, R267). -/
def groupSize (a b : PDesc) : Nat :=
  if a.kind = 3 then 32 else if a.kind = 2 then 32 * 2 ^ a.gsz else if b.kind = 2 then 32 * 2 ^ b.gsz else 512

/-- One row of a chunk: its 512 codes over the streamed planes, and the taint of its segments. -/
def Chip.readPlaneRow (c : Chip) (x : Actor) (d : PDesc) (row ch : Nat) : Except AFault (List Nat × Bool) × Chip :=
  let (r, c) := d.planes.foldl (fun (r, c) j =>
    match r with
    | .error f => (.error f, c)
    | .ok (segs, t) =>
      match c.engineRead x (wrap (segAddr d.base row j ch d.wid d.ct : Nat) 64) 64 with
      | (.error f, c) => (.error f, c)
      | (.ok (bs, u), c) => (.ok (segs ++ [leNat bs], t || u), c)) ((.ok ([], false) : Except AFault (List Nat × Bool)), c)
  match r with
  | .error f => (.error f, c)
  | .ok (segs, t) =>
    (.ok ((List.range 512).map fun k => (segs.zipIdx.map fun (s, j) => s / 2 ^ k % 2 * 2 ^ j).foldl (· + ·) 0, t), c)

/-- The 32 rows of a chunk of an operand from a row block, each as 512 codes. -/
def Chip.readPlaneRows (c : Chip) (x : Actor) (d : PDesc) (blk ch : Nat) : Except AFault (List (List Nat) × Bool) × Chip :=
  (List.range 32).foldl (fun (r, c) i =>
    match r with
    | .error f => (.error f, c)
    | .ok (rows, t) =>
      match c.readPlaneRow x d (32 * blk + i) ch with
      | (.error f, c) => (.error f, c)
      | (.ok (row, u), c) => (.ok (rows ++ [row], t || u), c)) (.ok ([], false), c)

/-- Group of an operand from its word (R268). -/
def PDesc.group (d : PDesc) (s : Slot) (g : Nat) : GInfo :=
  if d.kind = 3 then
    let eg := bits g 0 (egBits d.wid)
    if eg = abNan d.wid then { isNan := true } else { x := (eg : Int) - abBias d.wid - (d.wid - 2 : Nat) }
  else
    let sel := gwSel g
    let tab := if 4 ≤ sel then s.table? d.wid (sel - 4) else none
    match s20 (gwScale g) with
    | none => { isNan := true }
    | some (m, e) => { zero := m == 0, m, x := (e : Int) - 139 - (lattice tab 0 sel d.wid).2.2, sel, tab }

/-- Read and check the word of group `g` of chunk `ch` for a row (R265, R84, R264); a group at or past KLEN is not read (R472). -/
def Chip.readGroup (c : Chip) (x : Actor) (s : Slot) (residue : Bool) (side : Nat) (d : PDesc) (row ch g size : Nat) :
    Except AFault (GInfo × Bool) × Chip :=
  if d.kind = 1 then (.ok ({ x := (d.wid - d.pl : Nat) }, false), c)
  else if d.klen ≤ ch * 512 + g * size then (.ok ({ zero := true }, false), c)
  else
    let gn := 512 / size
    let va := wrap (d.gw + 4 * (row * d.ct * gn + ch * gn + g) : Nat) 64
    match c.engineRead x va 4 with
    | (.error f, c) => (.error f, c)
    | (.ok (bs, t), c) =>
      let w := leNat bs
      let kind : GKind := if d.kind = 2 then .sb d.wid else .ab d.wid
      match groupWordFault kind (fun t => (s.table? d.wid t).isSome) (ch * gn + g) w with
      | some cause => (.error { cause, sub := side, addr := va, info0 := w, info1 := ch * 512 + g * size }, c)
      | none =>
        if d.kind = 2 && gwSel w == 3 && !residue then (.error { cause := 0x59 }, c)
        else (.ok (d.group s w, t), c)

/-- The groups of one side at one K index, row by row: of several that fault the lowest row counts, the model's choice (notes/assumptions
110). -/
def Chip.readGroups (c : Chip) (x : Actor) (s : Slot) (residue : Bool) (side : Nat) (d : PDesc) (blk ch g size : Nat) :
    Except AFault (List GInfo × Bool) × Chip :=
  (List.range 32).foldl (fun (r, c) i =>
    match r with
    | .error f => (.error f, c)
    | .ok (l, t) =>
      match c.readGroup x s residue side d (32 * blk + i) ch g size with
      | (.error f, c) => (.error f, c)
      | (.ok (gi, u), c) => (.ok (l ++ [gi], t || u), c)) (.ok ([], false), c)

/-- CheckChunk of R282: planes of A, planes of B, then group words by K index, A before B; the first fault counts. The taint of what
was read comes back with a fault too (R287). -/
def Chip.readChunk (c : Chip) (core pid : Nat) (q : Cmd) : Option AFault × ChunkData × Chip :=
  let x := q.actor core pid
  let s := c.slot core pid
  let a := planeDesc q.desc
  let b := planeDesc q.desc2
  let size := groupSize a b
  let res := (s.tile q.sel).mode == 2
  match c.readPlaneRows x a q.bwRb q.pos with
  | (.error f, c) => (some f, {}, c)
  | (.ok (ra, ta), c) =>
    match c.readPlaneRows x b q.bwCb q.pos with
    | (.error f, c) => (some f, { taint := ta }, c)
    | (.ok (rb, tb), c) =>
      (List.range (512 / size)).foldl (fun (e, d, c) g =>
        if e.isSome then (e, d, c)
        else match c.readGroups x s res 0 a q.bwRb q.pos g size with
          | (.error f, c) => (some f, d, c)
          | (.ok (ga, u), c) =>
            let d := { d with grpA := d.grpA ++ [ga], taint := d.taint || u }
            match c.readGroups x s res 1 b q.bwCb q.pos g size with
            | (.error f, c) => (some f, d, c)
            | (.ok (gb, v), c) => (none, { d with grpB := d.grpB ++ [gb], taint := d.taint || v }, c))
        (none, { rowsA := ra, rowsB := rb, taint := ta || tb }, c)

/-! ### What a chunk contributes (R268 to R274) -/

/-- Lattice integer and residue of a code in a group, at a limb (R268); an element at or past KLEN counts 0. -/
def PDesc.elem (d : PDesc) (gi : GInfo) (limb k code : Nat) : Int × Nat :=
  if d.klen ≤ k then (0, 0)
  else match d.kind with
    | 1 => (sgn code d.pl, 0)
    | 2 => let (l, r, _) := lattice gi.tab code gi.sel d.wid; (l, r)
    | _ =>
      let v := bits code (16 * limb) 16
      (if limb + 1 = d.limbs then sgn v 16 else (v : Int), 0)

/-- Add to entry `r` of a list of partials. -/
def addAt (p : List Int) (r : Nat) (v : Int) : List Int := p.set r (p.getD r 0 + v)

/-- The four partials of a group (R269). -/
def partials (za : Int) (as bs : List (Int × Nat)) : List Int :=
  (as.zip bs).foldl (fun p (a, b) =>
    addAt (addAt p ((a.2 + b.2) % 4) (a.1 * b.1 * 2 ^ ((a.2 + b.2) / 4))) b.2 (-(za * b.1))) [0, 0, 0, 0]

/-- Limb pairs in descending significance (R273); AB64 omits the six of R274. -/
def limbPairs (n : Nat) : List (Nat × Nat) :=
  match n with
  | 1 => [(0, 0)]
  | 2 => [(1, 1), (1, 0), (0, 1), (0, 0)]
  | _ => [(3, 3), (3, 2), (2, 3), (3, 1), (2, 2), (1, 3), (3, 0), (2, 1), (1, 2), (0, 3)]

/-- One group of a limb pair enters the lanes of an element (R270 to R272). -/
def addGroup (int : Bool) (za : Int) (ga gb : GInfo) (x : Int) (as bs : List (Int × Nat)) (lanes : List A80) : List A80 :=
  if ga.isNan || gb.isNan then lanes.map A80.setNan
  else if ga.zero || gb.zero then lanes
  else
    let p := partials za as bs
    lanes.zipIdx.map fun (l, r) =>
      let v := p.getD r 0 * ga.m * gb.m
      if int then l.satAdd v x else l.add v x

/-- Elements of group `g` of every row of a side, at a limb. -/
def PDesc.sideElems (d : PDesc) (rows : List (List Nat)) (grps : List GInfo) (limb ch g size : Nat) : List (List (Int × Nat)) :=
  (rows.zip grps).map fun (row, gi) =>
    (((row.drop (g * size)).take size).zipIdx).map fun (code, k) => d.elem gi limb (ch * 512 + g * size + k) code

/-- A chunk is added to a tile, in the order of R273. -/
def addChunk (a b : PDesc) (ch : Nat) (d : ChunkData) (t : Tile) : Tile :=
  let size := groupSize a b
  let work := (limbPairs a.limbs).flatMap fun (la, lb) => (List.range (512 / size)).map fun g =>
    let ga := d.grpA.getD g []
    let gb := d.grpB.getD g []
    (ga, gb, (16 * (la + lb) : Nat), a.sideElems d.rowsA ga la ch g size, b.sideElems d.rowsB gb lb ch g size)
  t.mapLanes fun k lanes =>
    let i := k / 32
    let n := k % 32
    work.foldl (fun lanes (ga, gb, sh, ea, eb) =>
      let p := ga.getD i {}
      let q := gb.getD n {}
      addGroup (t.mode == 1) a.zp p q (p.x + q.x + sh) (ea.getD i []) (eb.getD n []) lanes) lanes

/-! ### Steps and heat (R275, R277, R278, R280) -/

/-- Width of a signed number. -/
def signedBits (v : Int) : Nat := bitLen (if v < 0 then (-v - 1).toNat else v.toNat) + 1

/-- Streamed planes of the top limb after trimming (R277). -/
def PDesc.topPlanes (d : PDesc) (trims : Bool) (rows : List (List Nat)) : Nat :=
  if d.kind = 2 then d.pl
  else if !(d.trim && trims) then d.pl
  else
    let val := fun code => if d.kind = 1 then sgn code d.pl else sgn (code / 2 ^ (d.wid - 16)) 16
    rows.foldl (fun m row => row.foldl (fun m code => max m (signedBits (val code))) m) 1

/-- Plane-pair steps of a chunk and the planes trimmed (R275, R277). -/
def chunkSteps (a b : PDesc) (trims : Bool) (d : ChunkData) : Nat × Nat :=
  let pa := a.topPlanes trims d.rowsA
  let pb := b.topPlanes trims d.rowsB
  let at_ := fun (x : PDesc) (top l : Nat) => if l + 1 = x.limbs then top else 16
  (sumNat ((limbPairs a.limbs).map fun (la, lb) => at_ a pa la * at_ b pb lb), (a.pl - pa) + (b.pl - pb))

/-- Whether trimming may apply: not for the commands of an ORDERED launch (R277). -/
def Chip.mayTrim (c : Chip) (pid : Nat) (q : Cmd) : Bool :=
  match (c.part pid).launch q.who.lid with
  | some l => !l.ordered
  | none => true

/-- The plane command that runs in a slot. -/
def Slot.planeRunning (s : Slot) : Option Cmd :=
  match s.headCmd 5 with
  | some q => if q.started && s.engRuns 5 then some q else none
  | none => none

/-- One 4 KiB piece of a tile image (R292). -/
def Chip.loadPiece (c : Chip) (core pid : Nat) (q : Cmd) : Chip :=
  let s := c.slot core pid
  let va := wrap (q.a.toNat + 4096 * q.pos : Nat) 64
  match c.engineRead (q.actor core pid) va 4096 with
  | (.error f, c) => c.haltEngine core pid 5 q q.pos f false
  | (.ok (bs, taint), c) =>
    let t := s.tile q.sel
    let imgs := (List.range 256).map fun j => leNat ((bs.drop (16 * j)).take 16)
    let bad := fun x => match A80.ofImage x with
      | none => some 81
      | some e => if t.mode = 1 && !e.nan && e.e != 0 then some 64 else none
    match imgs.zipIdx.findSome? fun (x, j) => (bad x).map fun b => (j, b) with
    | some (j, b) => c.haltEngine core pid 5 q q.pos { cause := 0x58, addr := va + 16 * j, info0 := b } true
    | none =>
      let els := imgs.map fun x => (A80.ofImage x).getD .zero
      let full := if t.elems.isEmpty then List.replicate (1024 * t.lanes) A80.zero else t.elems
      let t := { t with
        elems := full.take (256 * q.pos) ++ els ++ full.drop (256 * q.pos + 256)
        taint := t.taint || taint
        poison := t.poison.filter fun l => !(40 * q.pos ≤ l && l < 40 * q.pos + 40) }
      c.modSlot core pid fun s => (s.setTile t).modCmd 5 q.num fun q => { q with pos := q.pos + 1 }

/-- The first chunk whose contributions a column group has yet to make (R282). -/
def Cmd.groupAt (q : Cmd) (h : Nat) : Nat := q.extra.getD h q.pos

/-- Every column group goes back to the first chunk that has not been added, with what it read and held given up (R282, R284). A command
that only some groups had begun has started all the same, and holds its level tables (R79). -/
def Slot.rewindPlane (s : Slot) : Slot :=
  s.modEng 5 fun e => { e with cmds := mapIf (·.started) (fun q =>
    { q with parts := [0, 0, 0, 0], extra := List.replicate 4 q.pos, held := [] }) e.cmds }

/-- The command that column group `h` of a slot is to step (R278, R286): the oldest, or the one after it once the group has finished the
oldest and another group has not. -/
def Slot.planeWork (s : Slot) (h : Nat) : Option Cmd :=
  match s.planeRunning, (s.eng 5).cmds with
  | some q, _ :: rest =>
    if q.op == .accz || q.op == .accld || q.planeEnd ≤ q.pos then none
    else if q.groupAt h < q.planeEnd then some q
    else match rest with
      | r :: _ => if r.started && r.groupAt h < r.planeEnd then some r else none
      | [] => none
  | _, _ => none

/-- Whether a command is the oldest of its slot's plane queue. -/
def Slot.isPlaneHead (s : Slot) (q : Cmd) : Bool := (s.headCmd 5).any fun r => r.num == q.num

/-- The operands of chunk `ch`: those held, else read (R276, R281). -/
def Chip.chunkData (c : Chip) (core pid : Nat) (q : Cmd) (ch : Nat) : Option AFault × ChunkData × Chip :=
  match q.held.find? fun x => x.1 == ch with
  | some x => (none, x.2, c)
  | none => c.readChunk core pid { q with pos := ch }

/-- Whether column group `h` of a slot has a chunk ready: its operands can be had, or their fault is due. -/
def Chip.planeReady (c : Chip) (s : Slot) (h : Nat) : Bool :=
  match s.planeWork h with
  | none => false
  | some q => match c.chunkData s.core s.pid q (q.groupAt h) with
    | (some _, _, _) => s.isPlaneHead q && q.pos == q.groupAt h
    | (none, _, _) => true

/-- The slot of a core that an engine serves next among those that are ready, starting after the one served last (R279, R294). -/
def Chip.servedNext (c : Chip) (last : Nat) (ready : List Slot) : Option Nat :=
  let turn := fun (s : Slot) => ((c.part s.pid).slot + 3 - last) % 4
  (ready.foldl (fun (b : Option Slot) s => match b with
    | none => some s
    | some r => if turn s < turn r then some s else b) none).map Slot.pid

/-- The slot that column group `h` of a core serves (R279): the one whose chunk it is within, else the next that is ready. -/
def Chip.planeTurn (c : Chip) (core h : Nat) : Option Nat :=
  let able := c.slots.filter fun s => s.core == core && (s.planeWork h).isSome
  match able.find? fun s => (s.planeWork h).any fun q => decide (0 < q.parts.getD h 0) with
  | some s => some s.pid
  | none => c.servedNext ((c.coreSt core).peLast.getD h 3) (if able.length ≤ 1 then able else able.filter fun s => c.planeReady s h)

/-- Store a command of the plane queue. -/
def Slot.setPlane (s : Slot) (q : Cmd) : Slot := s.modCmd 5 q.num fun _ => q

/-- The fault of a poisoned line of a tile, if any satisfies `p` (R444, R445): the line's place in the slot's accumulator memory. -/
def Tile.poisonF (t : Tile) (p : Nat → Bool) : Option AFault :=
  (t.poison.find? p).map fun l => { cause := 0x0A, info0 := t.idx * 10240 + 64 * l }

/-- A plane command stops at a chunk (R282). -/
def Chip.haltPlane (c : Chip) (core pid : Nat) (q : Cmd) (f : AFault) : Chip :=
  (c.modSlot core pid Slot.rewindPlane).haltEngine core pid 5 q q.pos f false

/-- The contributions of the oldest command's next chunk are added once every column group has verified it (R281, R282); a poisoned line of
the tile faults. -/
def Chip.addVerified (c : Chip) (core pid : Nat) : Chip :=
  let s := c.slot core pid
  match s.planeRunning with
  | none => c
  | some q =>
    match q.held.find? fun x => x.1 == q.pos with
    | none => c
    | some (_, d) =>
      if !(List.range 4).all fun h => decide (q.pos < q.groupAt h) then c
      else match (s.tile q.sel).poisonF fun _ => true with
        | some f => c.haltPlane core pid q f
        | none => c.modSlot core pid fun s =>
          let a := planeDesc q.desc
          let b := planeDesc q.desc2
          let t := addChunk a b q.pos d (s.tile q.sel)
          ((s.setTile { t with taint := t.taint || d.taint }).setPlane
            { q with pos := q.pos + 1, held := q.held.filter fun x => x.1 != q.pos }).bump (0x08 * 256 + 6) (chunkSteps a b (c.mayTrim pid q) d).2

/-- R278, R281, R282. Column group `h` steps its chunk: it spends a token for each step, replays included; with its steps made it has
verified the chunk. One whose checksums have failed three times ends the command, when every lower chunk is added. -/
def Chip.stepGroup (c : Chip) (core pid h : Nat) (q : Cmd) : Chip :=
  let ch := q.groupAt h
  let due := (c.slot core pid).isPlaneHead q && q.pos == ch
  match c.chunkData core pid q ch with
  | (some f, d, c') =>
    if due then
      (c'.modSlot core pid fun s => let t := s.tile q.sel; s.setTile { t with taint := t.taint || d.taint }).haltPlane core pid q f
    else c
  | (none, d, c) =>
    let k := c.coreSt core
    let steps := (chunkSteps (planeDesc q.desc) (planeDesc q.desc2) (c.mayTrim pid q) d).1
    let fails := (k.mism.filter (· == h)).length
    let owed := steps * (1 + min 2 fails) - q.parts.getD h 0
    let made := min (k.heat.getD h 0) owed
    let q := { q with
      parts := q.parts.set h (q.parts.getD h 0 + made)
      held := if q.held.any fun x => x.1 == ch then q.held else q.held ++ [(ch, d)] }
    let c := c.setCore { k with
      heat := k.heat.set h (k.heat.getD h 0 - made)
      peLast := if made = 0 then k.peLast else k.peLast.set h (c.part pid).slot
      stalled := if made < owed then addNat k.stalled h else k.stalled }
    -- the bucket has run empty (R457)
    let c := if made < owed && !k.stalled.contains h then c.trace 4 core pid h 0 else c
    let c := c.modSlot core pid fun s => (s.bump (0x08 * 256 + 8) made).setPlane q
    if made < owed then c
    else if 3 ≤ fails then
      if due then
        ((c.modCore core fun k => { k with retire := true, mism := k.mism.filter (· != h) }).modSlot core pid fun s =>
          s.bump (0x08 * 256 + 7) 2).haltPlane core pid q { cause := 0x5B, sub := h }
      else c
    else
      ((c.modCore core fun k => { k with mism := k.mism.filter (· != h) }).modSlot core pid fun s =>
        (s.bump (0x08 * 256 + 7) fails).setPlane { q with parts := q.parts.set h 0, extra := q.extra.set h (ch + 1) }).addVerified core pid

/-- R281, R282, R292. Column group `n` of the focus's slot steps its chunk when it is the slot's turn; a tile image's piece is loaded. -/
def Chip.verifyChunk (c : Chip) (fo : Focus) : Chip :=
  let s := c.slot fo.core fo.pid
  match s.planeRunning with
  | none => c
  | some q =>
    if q.planeEnd ≤ q.pos then c
    else if q.op == .accld then (if fo.n = 0 then c.loadPiece fo.core fo.pid q else c)
    else if 4 ≤ fo.n || c.planeTurn fo.core fo.n != some fo.pid then c
    else match s.planeWork fo.n with
      | some q => c.stepGroup fo.core fo.pid fo.n q
      | none => c

/-- R281. See `Chip.verifyChunk`. -/
def execPeChunkVerify (s : State) : Out := onChip Chip.verifyChunk s

/-- The operand bytes of a plane command from chunk `first` on, one list for each operand in the order of its pattern (R265, R287, R292): the
segments of both sides and the group words that are read (R472), or the image of a tile. -/
def Cmd.planeBytes (q : Cmd) (first last : Nat) : List (List (Nat × Nat)) :=
  let side := fun (d : PDesc) (blk size : Nat) =>
    (List.range (last - first)).flatMap fun k => (List.range 32).flatMap fun i =>
      let row := 32 * blk + i
      let gn := 512 / size
      (d.planes.map fun j => (wrap (segAddr d.base row j (first + k) d.wid d.ct : Nat) 64, 64)) ++
        let n := if d.kind = 1 then 0 else min gn ((d.klen + size - 1 - (first + k) * 512) / size)
        if n = 0 then [] else [(wrap (d.gw + 4 * (row * d.ct * gn + (first + k) * gn) : Nat) 64, 4 * n)]
  match q.op with
  | .mma | .mmal =>
    let a := planeDesc q.desc
    let b := planeDesc q.desc2
    [side a q.bwRb (groupSize a b), side b q.bwCb (groupSize a b)]
  | .accld => [(List.range (last - first)).map fun k => (wrap (q.a.toNat + 4096 * (first + k) : Nat) 64, 4096)]
  | _ => []

/-- Whether a write of the step at hand meets operand bytes of a plane command that has been accepted and not completed: nothing can have
put it in order after the command (R207, R287, notes/assumptions 106). -/
def Chip.raced (c : Chip) (core pid : Nat) (q : Cmd) : Bool :=
  q.err.isNone && ((q.planeBytes (if q.op == .accld then 0 else q.bwC0) q.planeEnd).any fun l => l.any fun r =>
    (blocksOf 6 r.1 r.2).any fun b => match (c.placed (q.actor core pid) .read b.1).1 with
      | .ok pl => c.mem.wrote.any fun w => pl.loc < w.1 + w.2 && w.1 < pl.loc + b.2
      | .error _ => false)

/-- A race taints the command's tile (R287): at once where the command has started, else when it starts. -/
def Slot.taintRace (s : Slot) (q : Cmd) : Slot :=
  let s := s.modCmd 5 q.num fun q => { q with taint := true }
  if q.started then let t := s.tile q.sel; s.setTile { t with taint := true } else s

/-- The writes of a step taint the tiles of the plane commands that they race with, and are forgotten. A command
that stands halted is raced with too: nothing orders such a write against it (R207), whatever it reads when it is resumed (R284). -/
def Chip.markRaces (c : Chip) : Chip :=
  if c.mem.wrote.isEmpty then c
  else
    let c' := c.slots.foldl (fun c s =>
      (s.eng 5).cmds.foldl (fun c q => if c.raced s.core s.pid q then c.modSlot s.core s.pid fun s => s.taintRace q else c) c) c
    { c' with mem := { c'.mem with wrote := [] } }

/-- R285. The command's last chunk is done: `tl5` advances, DONE is sent. -/
def execPeCmdComplete (s : State) : Out :=
  onChip (fun c fo =>
    let s := c.slot fo.core fo.pid
    match s.planeRunning with
    | none => c
    | some q => if q.planeEnd ≤ q.pos then c.completeCmd fo.core fo.pid 5 q else c) s

/-- R455. The thermal controller adds A tokens to each bucket of a core, capped at 64. -/
def execHeatRefill (s : State) : Out :=
  onChip (fun c fo => c.modCore fo.core fun k => let heat := k.heat.map fun h => min 64 (h + k.refill)
    { k with heat, stalled := k.stalled.filter fun h => heat.getD h 0 == 0 }) s

end Sys2Proof.Machine
end

