-- ==== Sys2Proof/Machine/Tier.lean ====
section
/-! DEFINITION. The tier engine (R138 to R155): timetables, their entries, the commands `TTLOAD`, `TFETCH` and `TEVICT`, `MARK`, `TRES`,
and the events that carry them out. An event's focus names an entry of a launch's timetable (`k` 0, `n` its index, on a core of the
launch) or a command of a core (`k` 1, `n` its number). -/

namespace Sys2Proof.Machine

/-! ### Movements -/

/-- Number of pages an entry covers, and whether two entries share one (R147). -/
def TtEntry.count (e : TtEntry) : Nat := e.length / 4096
def TtEntry.pages (e : TtEntry) : List Nat := (List.range e.count).map (e.offset + ·)
def TtEntry.shares (e f : TtEntry) : Bool :=
  e.region == f.region && e.offset < f.offset + f.count && f.offset < e.offset + e.count

/-- Actions (R144). -/
def TtEntry.moves (e : TtEntry) : Bool := e.action == 0 || e.action == 1 || e.action == 4
def TtEntry.isBarrier (e : TtEntry) : Bool := e.action == 6
/-- Whether a transfer takes place, and from and to which tier (R145). -/
def TtEntry.transfer (e : TtEntry) (home : Nat) : Option (Nat × Nat) :=
  if e.action = 0 then (if e.dst = e.src then none else some (e.src, e.dst))
  else if e.action = 1 then some (e.src, e.dst)
  else if e.action = 4 then some (e.src, home) else none

/-- Field rule of an action (R145); `home` is the region's. -/
def TtEntry.fieldsOk (e : TtEntry) (home : Nat) : Bool :=
  let tier := fun t => t ≤ 2 || t == home
  tier e.src && tier e.dst &&
    match e.action with
    | 0 => e.dst ≤ e.src
    | 1 => e.src < e.dst
    | 2 | 3 => e.dst == e.src
    | 4 => e.src < e.dst && e.dst == home
    | 5 => e.src == e.dst && e.dst < home
    | _ => false

/-- Precondition of an action on a page's state byte (R145). -/
def TtEntry.pre (e : TtEntry) (st : Nat) : Bool :=
  let pin := bitAt st 6
  let ev := bitAt st 5
  st % 8 == e.src &&
    match e.action with
    | 0 => !pin
    | 1 | 2 | 5 => !ev && !pin
    | 3 => pin
    | 4 => !ev
    | _ => true

/-- State of a page while its entry runs (R145): MOVING at the source tier, or unchanged where nothing moves. -/
def TtEntry.during (e : TtEntry) (st : Nat) : Nat := if e.moves then bits st 6 1 * 64 + 16 + e.src else st

/-- State of a page after its entry, from that before (R145). -/
def TtEntry.after (e : TtEntry) (home st : Nat) : Nat :=
  match e.action with
  | 0 => e.dst
  | 1 => 32 + e.dst
  | 2 => st % 64 + 64
  | 3 => st % 64
  | 4 => bits st 6 1 * 64 + e.src
  | 5 => 32 + home
  | _ => st

/-! ### Pages and places -/

/-- State byte of a page of a region. -/
def Chip.pageState (c : Chip) (pid : Nat) (l : Launch) (tt : Timetable) (q page : Nat) : Nat :=
  match (c.part pid).stateLoc l tt q page with
  | some a => (c.mem.get a).toNat
  | none => 0

/-- The engine writes the map with taint (R141). -/
def Chip.setPageState (c : Chip) (pid : Nat) (l : Launch) (tt : Timetable) (q page v : Nat) : Chip :=
  match (c.part pid).stateLoc l tt q page with
  | some a => { c with mem := (c.mem.set a (BitVec.ofNat 8 v)).addTaint a 1 true }
  | none => c

/-- Core at the origin of a launch rectangle. -/
def Launch.origin (l : Launch) : Nat := coreAt l.ox l.oy

/-- Tier of a home place, judged from the origin core's tower (R138). -/
def homeTier (l : Launch) (pl : Place) : Nat :=
  match pl.home with
  | .dram => if pl.loc / 2 ^ 37 % 4 = towerOf l.origin then 3 else 4
  | .remote => 5
  | .host => 6
  | .window => 7

/-- What keeps the engine from a page's state byte (R216, R445): an entry of the range table that is not the map's own, or poison. -/
def Chip.stateBad (c : Chip) (pid : Nat) (l : Launch) (tt : Timetable) (q page : Nat) : Option AFault :=
  match (c.part pid).stateLoc l tt q page with
  | none => none
  | some a =>
    let x : Actor := { pid, core := l.origin, owner := some (.map l.lid) }
    let va := tt.mapBase + mapOffset tt.regions q page
    match lowestRefusing (c.part pid).ranges x .write a 1 with
    | some e => some (rangeF c e x va a 1)
    | none => (c.mem.poisoned a 1).map fun _ => poisonF va a

/-- The first fault among the state bytes of a movement's pages. -/
def Chip.statesBad (c : Chip) (pid : Nat) (l : Launch) (tt : Timetable) (e : TtEntry) : Option AFault :=
  e.pages.findSome? fun g => c.stateBad pid l tt e.region g

/-- Home place of a page: its translation, permission, key and tier (R140, R146). The error is a cause of its own, a poisoned page table's
(R445), or none for the caller's `TT_STATE`. -/
def Chip.homePage (c : Chip) (pid : Nat) (l : Launch) (r : Region) (page : Nat) (wr : Bool) : Except (Option AFault) (Place × Chip) :=
  let va := r.vbase + page * 4096
  match c.translated l.origin pid wr va (fun c t => match c.leafPlace pid (if wr then .write else .read) va t with
      | .error f => .error f
      | .ok pl => if homeTier l pl = r.home then .ok pl else .error (adF 0x36 va)) with
  | (.ok pl, c) => .ok (pl, c)
  | (.error f, _) => .error (if f.cause = 0x0A then some f else none)

/-- One core of every cluster that holds a core of the rectangle (R138). -/
def Launch.clusterCores (l : Launch) : List Nat :=
  l.coreList.foldl (fun acc k => if acc.any fun j => clusterOf j == clusterOf k then acc else acc ++ [k]) []

/-- Places of the 64-byte piece `j` of a page at a tier: its location and key; at tier 1 one for each cluster. -/
def Chip.piecePlaces (c : Chip) (pid : Nat) (l : Launch) (r : Region) (tier page j : Nat) (home : Option Place) : List (Nat × Nat) :=
  let p := c.part pid
  let b := page * 4096 + 64 * j
  if tier = 1 then l.clusterCores.filterMap fun k => (p.tierPlace l k r 1 b).map fun a => (a, 0)
  else if tier ≤ 2 then ((p.tierPlace l l.origin r tier b).map fun a => (a, 0)).toList
  else (home.map fun h => (h.loc + 64 * j, h.key)).toList

/-- The fault of an entry of the range table that keeps the tier engine from 64 bytes at a location (R216). -/
def Chip.rangeBars (c : Chip) (pid : Nat) (l : Launch) (k : AKind) (va loc : Nat) : Option AFault :=
  let x : Actor := { pid, core := l.origin }
  (lowestRefusing (c.part pid).ranges x k loc 64).map fun e => rangeF c e x va loc 64

/-- No load cache keeps a line of a home page that its bytes leave (R142). -/
def Chip.dropPage (c : Chip) (loc : Nat) : Chip :=
  { c with cores := c.cores.map fun k => { k with lcache := k.lcache.filter fun x => x.line / 32 != loc / 4096 } }

/-- What keeps one 64-byte piece from being moved (R216, R445): an entry of the range table at its source or at a destination, or poison. -/
def Chip.pieceBad (c : Chip) (pid : Nat) (l : Launch) (va src : Nat) (dests : List (Nat × Nat)) : Option AFault :=
  ((c.rangeBars pid l .read va src).or ((c.mem.poisoned src 64).map fun _ => poisonF va src)).or
    (dests.findSome? fun d => c.rangeBars pid l .write va d.1)

/-- Copy one page of a region from a tier to another (R146); an error where a home page cannot be reached (none, for the caller's
`TT_STATE`), an entry of the range table refuses the access, or a source line is poisoned. Of the copies at tier 1 the first cluster's is
read (notes/assumptions 94). -/
def Chip.movePage (c : Chip) (pid : Nat) (l : Launch) (r : Region) (src dst page : Nat) : Except (Option AFault) Chip :=
  let home := fun (c : Chip) (t : Nat) (wr : Bool) =>
    if t ≤ 2 then .ok (none, c) else (c.homePage pid l r page wr).map fun (pl, c) => (some pl, c)
  match home c src false with
  | .error f => .error f
  | .ok (hs, c) =>
    match home c dst true with
    | .error f => .error f
    | .ok (hd, c) =>
      let c := match hs with
        | some pl => if dst ≤ 2 then c.dropPage pl.loc else c
        | none => c
      (List.range 64).foldl (fun (oc : Except (Option AFault) Chip) j =>
        match oc with
        | .error f => .error f
        | .ok c =>
          match (c.piecePlaces pid l r src page j hs).head? with
          | none => .error none
          | some (a, key) =>
            let dests := c.piecePlaces pid l r dst page j hd
            match c.pieceBad pid l (r.vbase + page * 4096 + 64 * j) a dests with
            | some f => .error (some f)
            | none =>
              let t := c.mem.tainted a 64
              let (bs, c) := c.takeBytes a key 64
              .ok (dests.foldl (fun c (d, dk) =>
                let c := c.putBytes d dk bs
                { c with mem := (c.mem.engineTaint d 64 t).clearPoison d 64 }) c)) (.ok c)

/-! ### What is in flight -/

/-- The entry that a `TFETCH` or `TEVICT` stands for (R152). -/
def Cmd.entryOf (q : Cmd) : TtEntry :=
  { region := bits q.a.toNat 32 16, src := q.sel / 16, dst := q.sel % 16, action := if q.op == .tevict then 1 else 0, marker := 0,
    length := q.b.toNat, offset := bits q.a.toNat 0 32, stage := if q.started then 1 else 0 }

/-- Tier commands of the cores of a launch. -/
def Chip.tierCmds (c : Chip) (pid : Nat) (l : Launch) : List (Nat × Cmd) :=
  l.coreList.flatMap fun k => ((c.slot k pid).eng 7).cmds.map fun q => (k, q)

/-- Started movement commands of a launch. -/
def Chip.movingCmds (c : Chip) (pid : Nat) (l : Launch) : List TtEntry :=
  ((c.tierCmds pid l).filter fun x => x.2.op != .ttload && x.2.started).map fun x => x.2.entryOf

/-- Whether the timetable of a launch is being detached (R151). -/
def Chip.detaching (c : Chip) (pid : Nat) (l : Launch) : Bool :=
  l.ending || (c.tierCmds pid l).any fun x => x.2.op == .ttload && x.2.a == 0 && x.2.started

/-- MARKs of a launch that have fired and not committed (R147). -/
def Chip.firedMarks (c : Chip) (pid : Nat) (l : Launch) : List Nat :=
  (c.insts.filter fun i => i.pid == pid && l.holds i.core).flatMap fun i => match i.frame with
    | some f => f.marks
    | none => []

/-- The horizon H (R147). -/
def Chip.horizon (c : Chip) (pid : Nat) (l : Launch) (tt : Timetable) : Nat :=
  (c.firedMarks pid l).foldl max (l.m + tt.la)

/-- The entry that may start next (R147): entries start in ascending index. -/
def Timetable.next (tt : Timetable) : Option (TtEntry × Nat) := tt.entries.zipIdx.find? fun x => x.1.stage == 0

/-- Whether entry `k` may start. -/
def Chip.entryMayStart (c : Chip) (pid : Nat) (l : Launch) (tt : Timetable) (k : Nat) : Bool :=
  match tt.next with
  | none => false
  | some (e, j) =>
    let flying := tt.entries.filter fun x => x.stage == 1
    j == k && e.marker ≤ c.horizon pid l tt && flying.length < 64 && !c.detaching pid l &&
      (if e.isBarrier then flying.isEmpty else flying.all fun x => !x.shares e) && (c.movingCmds pid l).all fun x => !x.shares e

/-- The lowest entry outstanding at marker `n` (R148). -/
def Timetable.outstanding (tt : Timetable) (n : Nat) : Option (TtEntry × Nat) :=
  tt.entries.zipIdx.find? fun x => x.1.marker ≤ n && x.1.stage != 2

/-- Set an entry's stage. -/
def Timetable.setStage (tt : Timetable) (k v : Nat) : Timetable :=
  { tt with entries := tt.entries.zipIdx.map fun (e, j) => if j = k then { e with stage := v } else e }

/-- Change the timetable of the launch on a core. -/
def Chip.modTt (c : Chip) (core pid : Nat) (f : Timetable → Timetable) : Chip :=
  c.modLaunchAt core pid fun l => { l with tt := l.tt.map f }

/-- The launch on a core, with its timetable and an entry's region. -/
def Chip.ttAt (c : Chip) (core pid : Nat) : Option (Launch × Timetable) :=
  match (c.part pid).launchAt core with
  | none => none
  | some l => l.tt.map fun tt => (l, tt)

/-- An empty region, for an index that no check lets through. -/
def Region.none : Region := { vbase := 0, home := 0, npg := 0, t0str := 12, t0off := 0, t2off := 0, t2twr := 0, t1off := 0 }
def Timetable.region (tt : Timetable) (q : Nat) : Region := tt.regions.getD q Region.none

/-! ### Starting, completing and failing a movement -/

/-- Whether every page of a movement meets its precondition. -/
def Chip.preOk (c : Chip) (pid : Nat) (l : Launch) (tt : Timetable) (e : TtEntry) : Bool :=
  e.pages.all fun g => e.pre (c.pageState pid l tt e.region g)

/-- A movement starts (R146): its pages' states are kept and set. `key` is where they are kept. -/
def Chip.startMove (c : Chip) (core pid : Nat) (l : Launch) (tt : Timetable) (e : TtEntry) (key : Nat × Nat) : Chip :=
  let old := e.pages.map fun g => c.pageState pid l tt e.region g
  let c := e.pages.foldl (fun c g => c.setPageState pid l tt e.region g (e.during (c.pageState pid l tt e.region g))) c
  c.modTt core pid fun tt => { tt with before := tt.before ++ [(key.1, key.2, old)] }

/-- States kept for a movement. -/
def Timetable.kept (tt : Timetable) (key : Nat × Nat) : List Nat :=
  match tt.before.find? fun b => b.1 == key.1 && b.2.1 == key.2 with
  | some b => b.2.2
  | none => []
/-- Whether states are kept for a movement. One in flight for which none are was abandoned by a pre-emption, and starts over (R155). -/
def Timetable.keeps (tt : Timetable) (key : Nat × Nat) : Bool := tt.before.any fun b => b.1 == key.1 && b.2.1 == key.2
/-- The states kept for a movement go. -/
def Timetable.forget (tt : Timetable) (key : Nat × Nat) : Timetable :=
  { tt with before := tt.before.filter fun b => !(b.1 == key.1 && b.2.1 == key.2) }

/-- Transfer every page of a movement, and find its state bytes free to be written; an error where one is not. A `FETCH` whose source and
destination are the home tier transfers nothing and translates no page (R146, notes/assumptions 94). -/
def Chip.transferAll (c : Chip) (pid : Nat) (l : Launch) (tt : Timetable) (e : TtEntry) : Except (Option AFault) Chip :=
  let r : Except (Option AFault) Chip := match e.transfer (tt.region e.region).home with
    | none => .ok c
    | some (s, d) => e.pages.foldl (fun oc g => match oc with
        | .error f => .error f
        | .ok c => c.movePage pid l (tt.region e.region) s d g) (.ok c)
  match r with
  | .error f => .error f
  | .ok c => match c.statesBad pid l tt e with
    | some f => .error (some f)
    | none => .ok c

/-- A movement completes (R145, R146), or fails. -/
def Chip.finishMove (c : Chip) (core pid : Nat) (l : Launch) (tt : Timetable) (e : TtEntry) (key : Nat × Nat) : Except (Option AFault) Chip :=
  (c.transferAll pid l tt e).map fun c =>
    let c := (e.pages.zip (tt.kept key)).foldl (fun c (g, st) =>
      c.setPageState pid l tt e.region g (e.after (tt.region e.region).home st)) c
    c.modTt core pid fun tt => tt.forget key

/-- Every page of a failed movement returns to its state before (R146). -/
def Chip.undoMove (c : Chip) (core pid : Nat) (l : Launch) (tt : Timetable) (e : TtEntry) (key : Nat × Nat) : Chip :=
  let c := (e.pages.zip (tt.kept key)).foldl (fun c (g, st) => c.setPageState pid l tt e.region g st) c
  c.modTt core pid fun tt => tt.forget key

/-- No issuing instance (R419). -/
def noIssuer : Issuer := { none := true }

/-- A fault of the timetable's words (R420): kind and number. -/
def ttF (cause kind n : Nat) : AFault := { cause, info0 := kind * 2 ^ 62 + n }

/-- The record of a failed entry (R148, R419): it has no issuing instance, and goes to the trap task of the origin core. -/
def Chip.entryFailed (c : Chip) (core pid k : Nat) (l : Launch) (f : AFault := ttF 0x37 2 k) : Chip :=
  (c.modTt core pid fun tt => tt.setStage k 3).queueRecord l.origin pid (engineRec noIssuer 4 7 0 0 f)

/-- The value of a timeline whose commands may complete out of their order (R205, R210): every command up to it has completed. -/
def EngineQ.reached (e : EngineQ) : Nat := match leastOf (e.cmds.map (·.num)) with
  | some n => n - 1
  | none => e.given

/-- A tier command leaves its queue (R150, R210): tl7 reaches the numbers that are all complete. -/
def Slot.tierOver (s : Slot) (num : Nat) : Slot :=
  let s := s.modEng 7 fun e => { e with cmds := e.cmds.filter fun x => x.num != num }
  s.advance 7 (s.eng 7).reached

/-- A tier command completes (R150). -/
def Chip.tierDone (c : Chip) (core pid : Nat) (q : Cmd) : Chip :=
  (c.modSlot core pid fun s => s.tierOver q.num).sendDone q.who q.dn q.dch (donePayload false 4 7 q.num)

/-- A tier command fails (R150): an error completion that halts nothing. -/
def Chip.tierFail (c : Chip) (core pid : Nat) (q : Cmd) (f : AFault) : Chip :=
  (c.modSlot core pid fun s => s.tierOver q.num).errorDone q.who 4 7 q.num q.dn q.dch q.num f

/-- Whether a region's copy at a tier lies within the slot's quotas (R32, R38, R39, R140). -/
def Part.copyFits (p : Part) (l : Launch) (r : Region) (tier : Nat) : Bool :=
  let n := 2 ^ l.lw * 2 ^ l.lh
  let b := r.npg * 4096
  let u := 2 ^ r.t0str
  let last := (b - 1) / u
  match tier with
  | 0 =>
    let row := r.t0off + last / n * u
    let e := if last % n = 0 then row + (b - last * u) else row + u
    e ≤ bits (p.reg 0x040) 32 6 * 2 ^ 16
  | 1 => r.t1off + b ≤ bits (p.reg 0x041) 32 5 * 2 ^ 20
  | 2 => r.t2off * 4096 + b ≤ bits (p.reg 0x042) 32 8 * 2 ^ 20
  | _ => true

/-- Why a `TFETCH` or `TEVICT` fails before it starts (R150, R152); that no timetable is attached comes before a bad operand
(notes/assumptions 93). -/
def Chip.checkMove (c : Chip) (core pid : Nat) (q : Cmd) : Option AFault :=
  match c.ttAt core pid with
  | none => some { cause := 0x39 }
  | some (l, tt) =>
    let e := q.entryOf
    if q.a.toNat / 2 ^ 48 ≠ 0 then some (ttF 0x36 3 0)
    else match tt.regions[e.region]? with
      | none => some (ttF 0x36 3 0)
      | some r =>
        if !e.fieldsOk r.home then some (ttF 0x36 3 0)
        else if e.length = 0 || e.length % 4096 ≠ 0 then some (ttF 0x36 3 1)
        else if r.npg < e.offset + e.count then some (ttF 0x36 3 0)
        else if !(c.part pid).copyFits l r e.dst then some (ttF 0x36 3 0) else none

/-- A tier command is taken up in the order of the timeline: earlier ones that have not started come first. -/
def Slot.tierFirst (s : Slot) (num : Nat) : Bool := ((s.eng 7).cmds.find? fun q => !q.started).any fun q => q.num == num

/-- A movement command that has passed its checks may start when it shares no page with a movement in flight (R147). While a detach waits
none that has not started does, as no entry does (notes/assumptions 94). -/
def Chip.moveFree (c : Chip) (core pid : Nat) (q : Cmd) : Bool :=
  match c.ttAt core pid with
  | none => true
  | some (l, tt) => !c.detaching pid l && (tt.entries.all fun e => e.stage != 1 || !e.shares q.entryOf) &&
      (c.movingCmds pid l).all fun e => !e.shares q.entryOf

/-- Whether pages may change their state or their map in a partition: nothing is between its check and its access (R142, R217). -/
def Chip.pagesFree (c : Chip) (pid : Nat) : Bool := !c.scWaits pid && !c.midCopy pid

/-- R145, R146, R147, R155. An entry that may start does so; one whose precondition fails, or whose state bytes cannot be read, ends at
once. One that a pre-emption abandoned starts over, whatever H is now. -/
def Chip.startEntry (c : Chip) (fo : Focus) : Chip :=
  match c.ttAt fo.core fo.pid with
  | none => c
  | some (l, tt) =>
    match tt.entries[fo.n]? with
    | none => c
    | some e =>
      if (c.entryMayStart fo.pid l tt fo.n || (e.stage == 1 && !tt.keeps (0, fo.n))) && c.pagesFree fo.pid then
        if e.isBarrier then c.modTt fo.core fo.pid fun tt => tt.setStage fo.n 2
        else match c.statesBad fo.pid l tt e with
          | some f => c.entryFailed fo.core fo.pid fo.n l f
          | none =>
            if c.preOk fo.pid l tt e then
              (c.startMove fo.core fo.pid l tt e (0, fo.n)).modTt fo.core fo.pid fun tt => tt.setStage fo.n 1
            else c.entryFailed fo.core fo.pid fo.n l
      else c

/-- Whether a movement command in flight was abandoned by a pre-emption and has not started over (R155). -/
def Chip.commandRestarts (c : Chip) (core pid : Nat) (q : Cmd) : Bool :=
  q.started && match c.ttAt core pid with
    | none => false
    | some (_, tt) => !tt.keeps (core + 1, q.num)

/-- R147, R152, R155. A movement command whose turn it is, or that starts over, starts, or fails by its checks or its precondition. -/
def Chip.startCommand (c : Chip) (fo : Focus) : Chip :=
  let s := c.slot fo.core fo.pid
  match s.cmd? 7 fo.n with
  | none => c
  | some q =>
    let turn := !q.started && s.tierFirst q.num && c.moveFree fo.core fo.pid q
    if q.op == .ttload || !(turn || c.commandRestarts fo.core fo.pid q) || !c.pagesFree fo.pid then c
    else match c.checkMove fo.core fo.pid q, c.ttAt fo.core fo.pid with
      | some f, _ => c.tierFail fo.core fo.pid q f
      | none, none => c
      | none, some (l, tt) =>
        match c.statesBad fo.pid l tt q.entryOf with
        | some f => c.tierFail fo.core fo.pid q f
        | none =>
          if c.preOk fo.pid l tt q.entryOf then
            (c.startMove fo.core fo.pid l tt q.entryOf (fo.core + 1, q.num)).modSlot fo.core fo.pid fun s =>
              s.modCmd 7 q.num fun q => { q with started := true }
          else c.tierFail fo.core fo.pid q (ttF 0x37 1 q.entryOf.region)

/-- R146, R147. The entry or command at a focus starts. -/
def Chip.ttStart (c : Chip) (fo : Focus) : Chip := if fo.k = 0 then c.startEntry fo else c.startCommand fo

/-- R146, R147. See `Chip.ttStart`. -/
def execTtEntryStart (s : State) : Out := onChip (whileRuns Chip.ttStart) s

/-- The movement at a focus that is in flight, with where its states are kept. -/
def Chip.movingAt (c : Chip) (fo : Focus) : Option (Launch × Timetable × TtEntry × Nat × Nat) :=
  match c.ttAt fo.core fo.pid with
  | none => none
  | some (l, tt) =>
    if fo.k = 0 then
      match tt.entries[fo.n]? with
      | some e => if e.stage = 1 && tt.keeps (0, fo.n) then some (l, tt, e, 0, fo.n) else none
      | none => none
    else
      match (c.slot fo.core fo.pid).cmd? 7 fo.n with
      | some q => if q.started && q.op != .ttload && tt.keeps (fo.core + 1, q.num) then some (l, tt, q.entryOf, fo.core + 1, q.num) else none
      | none => none

/-- R142, R146. The movement at a focus completes if every page can be moved and no access is between its check and its turn. -/
def Chip.ttComplete (c : Chip) (fo : Focus) : Chip :=
  match c.movingAt fo with
  | none => c
  | some (l, tt, e, k1, k2) =>
    if !c.pagesFree fo.pid then c
    else match c.finishMove fo.core fo.pid l tt e (k1, k2) with
    | .error _ => c
    | .ok c' =>
      if fo.k = 0 then c'.modTt fo.core fo.pid fun tt => tt.setStage fo.n 2
      else match (c.slot fo.core fo.pid).cmd? 7 fo.n with
        | some q => c'.tierDone fo.core fo.pid q
        | none => c'

/-- R146, R149. See `Chip.ttComplete`. -/
def execTtEntryComplete (s : State) : Out := onChip (whileRuns Chip.ttComplete) s

/-- R146, R148, R152. The movement at a focus fails where a page cannot be moved: with `TT_STATE`, or with the cause that was met. -/
def Chip.ttFail (c : Chip) (fo : Focus) : Chip :=
  match c.movingAt fo with
  | none => c
  | some (l, tt, e, k1, k2) =>
    if !c.pagesFree fo.pid then c
    else match c.transferAll fo.pid l tt e with
    | .ok _ => c
    | .error f =>
      let c := c.undoMove fo.core fo.pid l tt e (k1, k2)
      if fo.k = 0 then c.entryFailed fo.core fo.pid fo.n l (f.getD (ttF 0x37 2 fo.n))
      else match (c.slot fo.core fo.pid).cmd? 7 fo.n with
        | some q => c.tierFail fo.core fo.pid q (f.getD (ttF 0x37 1 q.entryOf.region))
        | none => c

/-- R148. See `Chip.ttFail`. -/
def execTtEntryFail (s : State) : Out := onChip (whileRuns Chip.ttFail) s

/-! ### Attaching (R151) -/

/-- A region-table entry from its four words (R139), and whether its reserved bits and ranges are good. -/
def regionOf (w : List Nat) : Region :=
  let g := fun k => w.getD k 0
  { vbase := bits (g 0) 12 40 * 4096, home := bits (g 1) 32 4, npg := bits (g 1) 0 32, t0str := bits (g 2) 32 5, t0off := bits (g 2) 0 32,
    t2off := bits (g 3) 34 15, t2twr := bits (g 3) 32 2, t1off := bits (g 3) 0 32 }
def regionWordsOk (w : List Nat) : Bool :=
  let g := fun k => w.getD k 0
  let r := regionOf w
  bits (g 0) 52 12 == 0 && bits (g 0) 0 12 == 0 && bits (g 1) 36 28 == 0 && 3 ≤ r.home && r.home ≤ 6 && 0 < r.npg &&
    bits (g 2) 37 27 == 0 && 12 ≤ r.t0str && r.t0str ≤ 21 && r.t0off % 4096 == 0 && bits (g 3) 49 15 == 0 && r.t1off % 4096 == 0

/-- Whether two regions share a page. -/
def Region.meets (a b : Region) : Bool := a.vbase < b.vbase + b.npg * 4096 && b.vbase < a.vbase + a.npg * 4096

/-- A timetable entry from its two words (R144). -/
def ttEntryOf (w : List Nat) : TtEntry :=
  let g := fun k => w.getD k 0
  { region := bits (g 0) 48 16, src := bits (g 0) 40 4, dst := bits (g 0) 36 4, action := bits (g 0) 32 4, marker := bits (g 0) 0 32,
    length := bits (g 1) 32 32, offset := bits (g 1) 0 32 }

/-- Check of an entry (R144, R145): reserved bits, region, fields, range, and its marker against the one before. -/
def entryOk (rs : List Region) (w0 prev : Nat) (e : TtEntry) : Bool :=
  bits w0 44 4 == 0 && prev ≤ e.marker &&
    if e.action = 6 then e.region == 0 && e.src == 0 && e.dst == 0 && e.offset == 0 && e.length == 0
    else match rs[e.region]? with
      | none => false
      | some r => e.action < 6 && e.fieldsOk r.home && 0 < e.length && e.length % 4096 == 0 && e.offset + e.count ≤ r.npg

/-- The first region that fails (R151): its words, its pages against the regions before, its named copies against the quotas. -/
def firstBadRegion (p : Part) (l : Launch) (es : List TtEntry) (ws : List (List Nat)) : Option Nat :=
  (List.range ws.length).find? fun q =>
    let w := ws.getD q []
    let r := regionOf w
    let named := fun t => es.any fun e => e.action != 6 && e.region == q && (e.src == t || e.dst == t)
    !regionWordsOk w || ((ws.take q).any fun v => (regionOf v).meets r) || [0, 1, 2].any fun t => named t && !p.copyFits l r t

/-- The first entry that fails (R151). -/
def firstBadEntry (rs : List Region) (ws : List (List Nat)) : Option Nat :=
  (List.range ws.length).find? fun e =>
    let w := ws.getD e []
    !entryOk rs (w.getD 0 0) (if e = 0 then 0 else (ttEntryOf (ws.getD (e - 1) [])).marker) (ttEntryOf w)

/-- Rows of `n` words from a list. -/
def rowsOf (n : Nat) (l : List Nat) (count : Nat) : List (List Nat) := (List.range count).map fun k => (l.drop (n * k)).take n

/-- The first failing word of a `TTLOAD` descriptor (R151). -/
def ttDescBad (w : List Nat) : Option Nat :=
  let g := fun k => w.getD k 0
  (firstFail [(g 0 % 16 != 0, 0, 0), (g 1 / 2 ^ 21 != 0 || g 1 == 0 || 2 ^ 20 < g 1, 1, 0), (g 2 % 32 != 0, 2, 0),
    (g 3 / 2 ^ 13 != 0 || g 3 == 0 || 4096 < g 3, 3, 0), (g 4 % 4096 != 0, 4, 0)]).map (·.1)

/-- Pages of the map area (R151): TM = 0, RD = WR = 1, or the failure of word 4 of the descriptor; their spans with their keys. `write` where
they are to be written: an entry of the range table and a poisoned line that is not written whole then refuse (R216, R445). -/
def Chip.mapSpans (c : Chip) (x : Actor) (write : Bool) (va n : Nat) : Except AFault (List (Nat × Nat × Nat)) × Chip :=
  let pages := (List.range ((n + 4095) / 4096)).map (va / 4096 + ·)
  let bad := ttF 0x36 0 4
  pages.foldl (fun (r, c) pg =>
    match r with
    | .error f => (.error f, c)
    | .ok l =>
      if 2 ^ 52 ≤ pg * 4096 then (.error bad, c) else
      match c.translate x.core x.pid (pg * 4096) with
      | (.error f, c) => (.error (if f.cause = 0x0A then f else bad), c)
      | (.ok t, c) =>
        if peTM t.entry || !peRD t.entry || !peWR t.entry then (.error bad, c)
        else
          let k := min 4096 (va + n - pg * 4096)
          let add := fun (pl : Place) => l ++ [(pl.loc, k, pl.key)]
          if !write then match c.paged x .write false (pg * 4096) with
            | (.error _, c) => (.error bad, c)
            | (.ok pl, c) => (.ok (add pl), c)
          else match c.resolve x .write true (pg * 4096) k with
            | (.error f, c) => (.error (if f.cause = 0x0A || f.cause = 0x34 || f.cause = 0x51 then f else bad), c)
            | (.ok pl, c) => (.ok (add pl), c)) (.ok [], c)

/-- Reading of the tables at an attach (R151): a region table, then a timetable, each whole; the map pages between them (notes/assumptions
93). -/
def Chip.readTables (c : Chip) (x : Actor) (d : List Nat) : Except AFault (List (List Nat) × List (List Nat)) × Chip :=
  match c.readWords x (d.getD 2 0) (4 * d.getD 3 0) with
  | (.error f, c) => (.error f, c)
  | (.ok rw, c) =>
    let rws := rowsOf 4 rw (d.getD 3 0)
    match c.mapSpans x false (d.getD 4 0) (sumNat (rws.map fun w => (regionOf w).npg)) with
    | (.error f, c) => (.error f, c)
    | (.ok _, c) =>
      match c.readWords x (d.getD 0 0) (2 * d.getD 1 0) with
      | (.error f, c) => (.error f, c)
      | (.ok ew, c) => (.ok (rws, rowsOf 2 ew (d.getD 1 0)), c)

/-- A timetable is attached to a launch (R151): its map in the range table and written, M, the misses and the announced markers cleared. -/
def Chip.attachTt (c : Chip) (pid num : Nat) (l : Launch) (tt : Timetable) (spans : List (Nat × Nat × Nat)) : Chip :=
  let c := c.modPart pid fun p =>
    (p.addRange num (.map l.lid) tt.mapBase (sumNat (tt.regions.map (·.npg))) (spans.map fun s => (s.1, s.2.1))).setLaunch
      { l with tt := some tt, m := 0, misses := 0 }
  -- markers announced before the attach take no part (R151)
  let quiet := fun (i : Inst) => { i with frame := i.frame.map fun f => { f with marks := [] } }
  let c := { c with insts := mapIf (fun i => i.pid == pid && l.holds i.core) quiet c.insts }
  let c := spans.foldl (fun c (a, n, key) =>
    let c := c.putBytes a key (List.replicate n 0)
    { c with mem := c.mem.clearPoison a n }) c
  tt.regions.zipIdx.foldl (fun c (r, k) => (List.range r.npg).foldl (fun c g => c.setPageState pid l tt k g r.home) c) c

/-- The attach of R151 on the descriptor read at acceptance (R476): descriptor, tables, regions, entries, map; `.error` carries the failure. -/
def Chip.attach (c : Chip) (core pid : Nat) (q : Cmd) (l : Launch) : Except AFault Chip × Chip :=
  let x := q.actor core pid
  match q.err, ttDescBad q.desc with
  | some f, _ => (.error f, c)
  | none, some k => (.error (ttF 0x36 0 k), c)
  | none, none =>
    match c.readTables x q.desc with
    | (.error f, c) => (.error f, c)
    | (.ok (rws, ews), c) =>
      let rs := rws.map regionOf
      let es := ews.map ttEntryOf
      let tt : Timetable := { regions := rs, entries := es, mapBase := q.desc.getD 4 0, la := q.sel }
      match firstBadRegion (c.part pid) l es rws, firstBadEntry rs ews, (c.part pid).freeRange with
      | some k, _, _ => (.error (ttF 0x36 1 k), c)
      | none, some k, _ => (.error (ttF 0x36 2 k), c)
      | none, none, none => (.error { cause := 0x52 }, c)
      | none, none, some num =>
        match c.mapSpans x true tt.mapBase (sumNat (rs.map (·.npg))) with
        | (.error f, c) => (.error f, c)
        | (.ok spans, c) => (.ok (c.attachTt pid num l tt spans), c)

/-- R151. The `TTLOAD` at a focus is carried out: an attach, or the start of a detach. While a detach waits its timetable is still attached
(notes/assumptions 94). -/
def Chip.ttAttach (c : Chip) (fo : Focus) : Chip :=
  let s := c.slot fo.core fo.pid
  match s.cmd? 7 fo.n with
  | none => c
  | some q =>
    if q.op != .ttload || q.started || !s.tierFirst q.num || !c.pagesFree fo.pid then c
    else match (c.part fo.pid).launchAt fo.core with
      | none => if q.a = 0 then c.tierDone fo.core fo.pid q else c.tierFail fo.core fo.pid q { cause := 0x39 }
      | some l =>
        if q.a = 0 then
          if l.tt.isNone then c.tierDone fo.core fo.pid q
          else c.modSlot fo.core fo.pid fun s => s.modCmd 7 q.num fun q => { q with started := true }
        else if l.tt.isSome then c.tierFail fo.core fo.pid q { cause := 0x38 }
        else match c.attach fo.core fo.pid q l with
          | (.error f, c) => c.tierFail fo.core fo.pid q f
          | (.ok c, _) => c.tierDone fo.core fo.pid q

/-- R151. See `Chip.ttAttach`. -/
def execTimetableAttach (s : State) : Out := onChip (whileRuns Chip.ttAttach) s

/-- Whether a detach may finish: nothing started is still in flight. -/
def Chip.detachReady (c : Chip) (pid : Nat) (l : Launch) (tt : Timetable) : Bool :=
  c.detaching pid l && (tt.entries.all fun e => e.stage != 1) && (c.movingCmds pid l).isEmpty

/-- Every page resident at tiers 0 to 2 is copied home (R151): the chip, and the fault of the first page that could not be. -/
def Chip.copyHome (c : Chip) (pid : Nat) (l : Launch) (tt : Timetable) : Chip × Option AFault :=
  tt.regions.zipIdx.foldl (fun (acc : Chip × Option AFault) (r, q) =>
    (List.range r.npg).foldl (fun (c, bad) g =>
      let st := c.pageState pid l tt q g
      match c.stateBad pid l tt q g with
      | some f => (c, bad.or (some f))
      | none =>
        if st % 8 ≤ 2 && !bitAt st 5 then
          match c.movePage pid l r (st % 8) r.home g with
          | .ok c => (c, bad)
          | .error f => (c, bad.or (some (f.getD { ttF 0x37 1 q with info1 := g })))
        else (c, bad)) acc) (c, none)

/-- R151. The detach of the launch on the focus's core ends: pages are home, the map leaves the range table, the detaching commands
complete; the detach of an ending launch has no issuing instance. -/
def Chip.detach (c : Chip) (fo : Focus) : Chip :=
  match c.ttAt fo.core fo.pid with
  | none => c
  | some (l, tt) =>
    if !c.detachReady fo.pid l tt || !c.pagesFree fo.pid then c
    else
      let cmds : List (Nat × Cmd) := (c.tierCmds fo.pid l).filter fun x => x.2.op == .ttload && x.2.a == 0 && x.2.started
      let (c, bad) := c.copyHome fo.pid l tt
      let c := c.modLaunchAt fo.core fo.pid fun l => { l with tt := none }
      let c := c.modPart fo.pid fun p => p.dropRange (.map l.lid)
      match cmds, bad with
      | [], some f => c.queueRecord l.origin fo.pid (engineRec noIssuer 4 7 0 0 f)
      | [], none => c
      | x :: t, some f => t.foldl (fun c y => c.tierDone y.1 fo.pid y.2) (c.tierFail x.1 fo.pid x.2 f)
      | l, none => l.foldl (fun c y => c.tierDone y.1 fo.pid y.2) c

/-- R151. See `Chip.detach`. -/
def execTtDetachComplete (s : State) : Out := onChip (whileRuns Chip.detach) s

/-! ### The commands and instructions -/

/-- R152. `TFETCH` and `TEVICT` at commit: numbered, checked against the timetable attached, and left to start. -/
def moveCommand (op : CmdOp) (dch : BitVec 7) (dn : Bool) (src dst : BitVec 4) (s : State) : Out :=
  classC (fun c i a o =>
    let q := { i.cmd op a.idx o dn dch.toNat with sel := src.toNat * 16 + dst.toNat }
    (c.accept i.core i.pid 7 q).2) s

/-- A `TTLOAD` is accepted: the five words of its descriptor are read (R476); a fault met there counts when its turn comes. -/
def Chip.acceptTtload (c : Chip) (core pid : Nat) (q : Cmd) : Chip :=
  let (q, c) := if q.a = 0 then (q, c) else match c.readDesc (q.actor core pid) q.a.toNat 5 with
    | (.error f, c) => ({ q with err := some f }, c)
    | (.ok d, c) => ({ q with desc := d }, c)
  (c.accept core pid 7 q).2

/-- R150, R151. Attaches or detaches a timetable after commit. -/
def execTtload (dch : BitVec 7) (dn : Bool) (la : BitVec 8) (s : State) : Out :=
  classC (fun c i a o => c.acceptTtload i.core i.pid { i.cmd .ttload a.idx o dn dch.toNat with sel := la.toNat }) s

/-- R152. One FETCH on a range. -/
def execTfetch (dch : BitVec 7) (dn : Bool) (src dst : BitVec 4) (s : State) : Out := moveCommand .tfetch dch dn src dst s

/-- R152. One EVICT on a range. -/
def execTevict (dch : BitVec 7) (dn : Bool) (src dst : BitVec 4) (s : State) : Out := moveCommand .tevict dch dn src dst s

/-- The schedule-miss fault (R148). -/
def missF (n : Nat) (e : TtEntry) (k : Nat) : AFault :=
  { cause := 0x35, sub := b2n (e.stage == 3), info0 := n, info1 := k + e.marker * 2 ^ 32 }

/-- R148, R149, R153. Announces a marker: it enters H, and the output goes at once, with an acquire at package scope, waits, or faults; a miss
is an event of Sumac (R457). -/
def execMark (t0 : Option Target) (s : State) : Out :=
  onChip (fun c fo => c.fire fo fun c i f =>
    if f.onNull fo.idx then c.sendTo i.iid [t0] .null
    else
      let o := operandsOf (f.data fo.idx) (f.predTaint fo.idx)
      let n := o.a.toNat % 2 ^ 32
      let c := c.setFrame i.iid { f with marks := f.marks ++ [n] }
      let w : Wait := { idx := fo.idx, n := BitVec.ofNat 64 n, taint := o.ta }
      let hold := fun (c : Chip) => c.modInst i.iid fun i => { i with frame := i.frame.map fun f => { f with waits := f.waits ++ [w] } }
      match c.ttAt i.core i.pid with
      | none => (c.acquire i.core i.iid 4).sendTo i.iid [t0] (.val w.n w.taint)
      | some (l, tt) =>
        match tt.outstanding n with
        | none => (c.acquire i.core i.iid 4).sendTo i.iid [t0] (.val w.n w.taint)
        | some (e, k) =>
          let c := c.trace 3 i.core i.pid k 0
          if l.trap || e.stage = 3 then c.takeFault i.iid fo.idx (missF n e k)
          else hold (c.modLaunchAt i.core i.pid fun l => { l with misses := satAdd32 l.misses 1 })) s

/-- What a held `MARK` may do: go on, or fault because the lowest outstanding entry has failed (R148). -/
def Chip.markState (c : Chip) (i : Inst) (w : Wait) (word : Nat) : Option (Option AFault) :=
  if opOf word != 0x155 then none
  else match c.ttAt i.core i.pid with
    | none => some none
    | some (_, tt) =>
      match tt.outstanding w.n.toNat with
      | none => some none
      | some (e, k) => if e.stage = 3 then some (some (missF w.n.toNat e k)) else none

/-- R148, R149. A held `MARK` acquires at package scope and sends n, or faults. -/
def execMarkRelease (s : State) : Out :=
  onChip (fun c fo => match c.waitAt fo with
    | none => c
    | some (i, w, word) =>
      match c.markState i w word with
      | none => c
      | some (some f) => c.takeFault i.iid w.idx f
      | some none => (c.acquire i.core i.iid 4).release i.iid w [t0Of word]) s

/-- R153. At commit M takes the block's markers. -/
def Chip.commitMarks (c : Chip) (i : Inst) (f : Frame) : Chip :=
  if f.marks.isEmpty then c else c.modLaunchAt i.core i.pid fun l => { l with m := f.marks.foldl max l.m }

/-- The word of `TRES` (R154); a state byte in a poisoned line raises MC_POISON (R445). -/
def Chip.tresWord (c : Chip) (core pid : Nat) (eng : Bool) (a : Nat) : Except AFault Nat :=
  match c.ttAt core pid with
  | none => .ok 0
  | some (l, tt) =>
    if eng then
      let low := match tt.entries.zipIdx.find? fun x => x.1.stage != 2 with
        | some (_, k) => k
        | none => tt.entries.length
      .ok (min l.misses 2047 * 2 ^ 53 + low * 2 ^ 32 + l.m % 2 ^ 32)
    else match findRegion tt.regions a with
      | none => .ok 0
      | some (q, r) =>
        let g := (a - r.vbase) / 4096
        match (c.part pid).stateLoc l tt q g with
        | none => .ok (q * 2 ^ 16 + 256)
        | some sl =>
          if (c.mem.poisoned sl 1).isSome then .error (poisonF (tt.mapBase + mapOffset tt.regions q g) sl)
          else .ok (q * 2 ^ 16 + 256 + c.pageState pid l tt q g)

/-- R154. Reads residency or the engine's progress, tainted. -/
def execTres (view : Bool) (t0 : Option Target) (s : State) : Out :=
  onChip (fun c fo => c.fireT fo [t0] fun c i _ o => ((c.tresWord i.core i.pid view o.a.toNat).map fun v => (BitVec.ofNat 64 v, true), c)) s

end Sys2Proof.Machine
end

