-- ==== Sys2Proof/Machine/Links.lean ====
section
/-! DEFINITION. Beyond the package (R335 to R355): collectives, remote reduce-stores, range entries for collective buffers, and what the
links do by themselves. What other packages send comes as inputs (notes/assumptions 6). -/

namespace Sys2Proof.Machine

/-! ### The collective descriptor (R344) -/

def Cmd.clN (q : Cmd) : Nat := bits (q.desc.getD 2 0) 32 32
def Cmd.clComm (q : Cmd) : Nat := bits (q.desc.getD 2 0) 24 8
def Cmd.clKind (q : Cmd) : Nat := bits (q.desc.getD 2 0) 16 4
def Cmd.clRop (q : Cmd) : Nat := bits (q.desc.getD 2 0) 12 4
def Cmd.clFmt (q : Cmd) : Nat := bits (q.desc.getD 2 0) 8 4
def Cmd.clRoot (q : Cmd) : Nat := bits (q.desc.getD 3 0) 28 14
def Cmd.clLz (q : Cmd) : Nat := bits (q.desc.getD 3 0) 25 3
def Cmd.clLy (q : Cmd) : Nat := bits (q.desc.getD 3 0) 22 3
def Cmd.clLx (q : Cmd) : Nat := bits (q.desc.getD 3 0) 19 3
/-- Packages of the box. -/
def Cmd.clP (q : Cmd) : Nat := 2 ^ (q.clLx + q.clLy + q.clLz)
/-- Bytes of an element. -/
def Cmd.clE (q : Cmd) : Nat := wordSize q.clFmt

/-- Index of this package in the box. -/
def Chip.clBox (c : Chip) (q : Cmd) : Nat :=
  let w3 := q.desc.getD 3 0
  let off := fun (o lg ext here : Nat) => if o % 2 ^ lg == 0 && o + 2 ^ lg ≤ ext && o ≤ here && here < o + 2 ^ lg then here - o else 0
  off (bits w3 14 5) q.clLx c.ex c.tx + off (bits w3 9 5) q.clLy c.ey c.ty * 2 ^ q.clLx +
    off (bits w3 5 4) q.clLz c.ez c.tz * 2 ^ (q.clLx + q.clLy)

/-- Bytes of the two buffers (R345). -/
def Cmd.clSrcLen (q : Cmd) (b : Nat) : Nat :=
  q.clE * match q.clKind with
    | 1 | 3 => q.clN * q.clP
    | 4 => if b = q.clRoot then q.clN else 0
    | _ => q.clN
def Cmd.clDstLen (q : Cmd) : Nat := q.clE * (if q.clKind = 2 ∨ q.clKind = 3 then q.clN * q.clP else q.clN)

/-- The checks of R344 in table order: the failing word and lowest bit. -/
def Chip.collBad (c : Chip) (w : List Nat) : Option (Nat × Nat) :=
  let q : Cmd := { op := .coll, desc := w }
  let src := w.getD 0 0
  let dst := w.getD 1 0
  let w2 := w.getD 2 0
  let w3 := w.getD 3 0
  let b := c.clBox q
  let fmtOk : Bool := 4 ≤ q.clFmt && q.clFmt ≤ 11
  let e := if fmtOk then q.clE else 1
  let usesSrc := q.clKind != 4 || b == q.clRoot
  let outside := fun (o lg ext here : Nat) => o % 2 ^ lg != 0 || ext < o + 2 ^ lg || here < o || o + 2 ^ lg ≤ here
  let overlap := usesSrc && src < dst + q.clDstLen && dst < src + q.clSrcLen b && !(src == dst && (q.clKind == 0 || q.clKind == 4))
  firstFail [
    (usesSrc && src % e != 0, 0, 0), (dst % e != 0 || overlap, 1, 0), (q.clN == 0, 2, 32), (bits w2 20 4 != 0, 2, 20),
    (4 < q.clKind, 2, 16), (2 < q.clRop || (1 < q.clKind && q.clRop != 0), 2, 12), (!fmtOk, 2, 8), (bits w2 0 8 != 0, 2, 0),
    (bits w3 42 22 != 0, 3, 42), (q.clP ≤ q.clRoot || (q.clKind != 4 && q.clRoot != 0), 3, 28), (4 < q.clLz, 3, 25), (5 < q.clLy, 3, 22),
    (5 < q.clLx, 3, 19), (outside (bits w3 14 5) q.clLx c.ex c.tx, 3, 14), (outside (bits w3 9 5) q.clLy c.ey c.ty, 3, 9),
    (outside (bits w3 5 4) q.clLz c.ez c.tz, 3, 5), (bits w3 0 5 != 0, 3, 0)]

/-! ### `COLL` (R343 to R350) -/

/-- The turn of a `COLL` on a communicator (R346): the number of those issued on it before, or none where it belongs to another core. -/
def Chip.takeTurn (c : Chip) (i : Inst) (comm : Nat) : Option Nat × Chip :=
  let p := c.part i.pid
  match p.comms.find? fun m => m.id == comm with
  | none => (some 0, c.setPart { p with comms := p.comms ++ [{ id := comm, owner := i.core, count := 1 }] })
  | some m =>
    if m.owner != i.core then (none, c)
    else (some m.count, c.setPart { p with comms := mapIf (fun x => x.id == m.id) (fun x => { x with count := x.count + 1 }) p.comms })

/-- R344, R346. A `COLL` is accepted: its descriptor is read and checked, it takes its turn on its communicator, and the entries of the
`CRANGE`s before it become its own (R353). One that fails by a field of its descriptor takes its turn too, on the communicator that the
descriptor names (notes/assumptions 114). -/
def Chip.acceptColl (c : Chip) (i : Inst) (q : Cmd) : Chip :=
  let bad := fun (q : Cmd) f => { q with err := some f, onlyAbandon := true }
  let (r, c) := c.readDescT (q.actor i.core i.pid) q.a.toNat 4
  let (q, c) : Cmd × Chip := match r with
    | .error f => (bad q f, c)
    | .ok (w, _) =>
      let q := { q with desc := w }
      match c.takeTurn i q.clComm, c.collBad w with
      | (n, c), some (k, b) => (bad { q with w0 := n.getD 0 } (descF 0x70 q.a.toNat k b), c)
      | (none, c), none => (bad q { cause := 0x71 }, c)
      | (some n, c), none => ({ q with w0 := n }, c)
  let (num, c) := c.accept i.core i.pid 9 q
  c.modPart i.pid fun p => { p with ranges := mapIf (fun r => r.owner == .coll i.core 0) (fun r => { r with owner := .coll i.core num }) p.ranges }

/-- R344. Queues a collective. -/
def execColl (dch : BitVec 7) (dn : Bool) (s : State) : Out :=
  classC (fun c i a o => c.acceptColl i (i.cmd .coll a.idx o dn dch.toNat)) s

/-- R349. Resumes the halted collective from its first segment not done. -/
def execCollRes (dch : BitVec 7) (dn : Bool) (s : State) : Out :=
  classC (fun c i a _ => c.resumeQueue i a.idx 9 dn dch.toNat) s

/-- Commands at the head of the collective queue that are over complete in order (R210, R343); `n` bounds their number. -/
def Chip.popColl (c : Chip) (core pid : Nat) : Nat → Chip
  | 0 => c
  | n + 1 =>
    match (c.slot core pid).headCmd 9 with
    | some q =>
      if q.done then ((c.modPart pid fun p => p.dropRange (.coll core q.num)).completeCmd core pid 9 q).popColl core pid n else c
    | none => c

/-- A collective command is over: it completes once those before it have. -/
def Chip.doneColl (c : Chip) (core pid : Nat) (q : Cmd) : Chip :=
  (c.modSlot core pid fun s => s.modCmd 9 q.num fun q => { q with done := true }).popColl core pid 8

/-- The halted collective of a slot ends in this package (R349). -/
def Chip.abandonColl (c : Chip) (core pid : Nat) : Chip :=
  match (c.slot core pid).haltedCmd 9 with
  | none => c
  | some (q, _) => ((c.reserveAgain core pid q).modSlot core pid fun s => s.unhalt 9 q.num).doneColl core pid q

/-- R349. Ends the halted collective in this package; its peers learn of it outside this model. -/
def execCollAbn (dch : BitVec 7) (dn : Bool) (s : State) : Out :=
  classC (fun c i a _ =>
    match (c.slot i.core i.pid).haltedCmd 9 with
    | none => c.notHalted i a.idx 9 dn dch.toNat
    | some _ => c.abandonColl i.core i.pid) s

/-- Whether a collective command may run: its queue is not halted and every command before it has started (R343). -/
def Slot.collMayRun (s : Slot) (q : Cmd) : Bool :=
  s.engRuns 9 && !q.done && (s.eng 9).cmds.all fun x => q.num ≤ x.num || x.started

/-- The `COLL` at a number that may run. -/
def Slot.collAt (s : Slot) (num : Nat) : Option Cmd :=
  match s.cmd? 9 num with
  | some q => if q.op == .coll && s.collMayRun q then some q else none
  | none => none

/-- What paired commands must agree in (R346). -/
def Cmd.clAgree (q : Cmd) : List Nat := [q.clKind, q.clRop, q.clFmt, q.clN, q.clRoot, bits (q.desc.getD 3 0) 5 23]

/-- What package `b` has sent for a collective. -/
def Chip.collPeer (c : Chip) (pid : Nat) (q : Cmd) (b : Nat) : Option Contrib :=
  c.contribs.find? fun x => x.key == [9, pid, q.clComm, q.w0, b]

/-- The other packages of the box. -/
def Chip.collOthers (c : Chip) (q : Cmd) : List Nat := (List.range q.clP).filter (· != c.clBox q)

/-! ### Reduction (R347) -/

/-- The working format of a floating-point element: FP16 and BF16 are widened to FP32. -/
def workFmt : FFmt → Fmt
  | .f64 => fmtOf .f64
  | _ => fmtOf .f32

/-- Op of R347 on working values. -/
def reduceOp (e : EFmt) (rop a b : Nat) : Nat :=
  match e with
  | .fp f =>
    let w := workFmt f
    match rop with
    | 0 => (fAdd w .rne a b).1
    | 1 => (fMinMax w false a b).1
    | _ => (fMinMax w true a b).1
  | .int i =>
    let n := i.width.bits
    match rop with
    | 0 => iAdd n a b
    | 1 => if i.signed then iMin n a b else iMinn n a b
    | _ => if i.signed then iMax n a b else iMaxn n a b
  | _ => a

/-- Work and Final of R347. -/
def workOf (e : EFmt) (x : Nat) : Nat :=
  match e with
  | .fp f => if f == .f64 || f == .f32 then x else (cvtFF (fmtOf f) (fmtOf .f32) .rne x).1
  | _ => x
def finalOf (e : EFmt) (x : Nat) : Nat :=
  match e with
  | .fp f =>
    let w := workFmt f
    if (w.decode x).isNan then (fmtOf f).nan else if f == .f64 || f == .f32 then x else (cvtFF w (fmtOf f) .rne x).1
  | _ => x

/-- Fold of R347 from coordinate 0 upwards. -/
def foldRing (op : Nat → Nat → Nat) : List Nat → Nat
  | [] => 0
  | x :: t => t.foldl op x

/-- Reduce of R347: x rings, then y, then z; `v` answers a package's element in the working format. -/
def reduceBox (op : Nat → Nat → Nat) (lx ly lz : Nat) (v : Nat → Nat) : Nat :=
  foldRing op ((List.range (2 ^ lz)).map fun z =>
    foldRing op ((List.range (2 ^ ly)).map fun y =>
      foldRing op ((List.range (2 ^ lx)).map fun x => v (x + y * 2 ^ lx + z * 2 ^ (lx + ly)))))

/-! ### Segments (R348, R349) -/

/-- Element `e` of this package's source, or the fault with its segment. -/
def Chip.ownElem (c : Chip) (x : Actor) (q : Cmd) (e : Nat) : Except (AFault × Nat) (Nat × Bool) × Chip :=
  match c.engineRead x (wrap (q.desc.getD 0 0 + e * q.clE : Nat) 64) q.clE with
  | (.error f, c) => (.error (f, e * q.clE / 4096), c)
  | (.ok (bs, t), c) => (.ok (leNat bs, t), c)

/-- Element `e` of the destination (R345): its value and taint. -/
def Chip.collElem (c : Chip) (x : Actor) (pid : Nat) (q : Cmd) (e : Nat) : Except (AFault × Nat) (Nat × Bool) × Chip :=
  let b := c.clBox q
  let peer := fun (j k : Nat) => match c.collPeer pid q j with
    | some m => (m.words.getD k 0, m.taints.getD k false)
    | none => (0, false)
  let own := fun (c : Chip) k => c.ownElem x q k
  let j := e / q.clN
  let k := e % q.clN
  match q.clKind with
  | 0 | 1 =>
    match own c (if q.clKind = 0 then e else b * q.clN + e) with
    | (.error f, c) => (.error f, c)
    | (.ok (v, t), c) =>
      let f := wordFmt q.clFmt
      let at_ := fun n => if n = b then v else (peer n e).1
      let r := reduceBox (reduceOp f q.clRop) q.clLx q.clLy q.clLz fun n => workOf f (at_ n)
      (.ok (finalOf f r, t || (c.collOthers q).any fun n => (peer n e).2), c)
  | 2 => if j = b then own c k else (.ok (peer j k), c)
  | 3 => if j = b then own c (b * q.clN + k) else (.ok (peer j k), c)
  | _ => if b = q.clRoot then own c e else (.ok (peer q.clRoot e), c)

/-- Segments of a command: of the longer of its buffers. -/
def Chip.collSegs (c : Chip) (q : Cmd) : Nat := (max (q.clSrcLen (c.clBox q)) q.clDstLen + 4095) / 4096

/-- The elements of segment `n` of the destination: its bytes, and the taint that comes with each (R348). -/
def Chip.collSegment (c : Chip) (x : Actor) (pid : Nat) (q : Cmd) (n : Nat) : Except (AFault × Nat) (List Byte × List Bool) × Chip :=
  let first := n * 4096 / q.clE
  let last := min ((n + 1) * 4096 / q.clE) (q.clDstLen / q.clE)
  (List.range (last - first)).foldl (fun (r, c) k =>
    match r with
    | .error f => (.error f, c)
    | .ok (bs, t) =>
      match c.collElem x pid q (first + k) with
      | (.error f, c) => (.error f, c)
      | (.ok (v, u), c) => (.ok (bs ++ leBytes q.clE v, t ++ List.replicate q.clE u), c)) (.ok ([], []), c)

/-- Write a segment line by line: a line's taint is the OR of the taints of every contribution to it (R348). -/
def Chip.putLines (c : Chip) (ps : List (Place × Nat × Nat)) (bs : List Byte) (ts : List Bool) : Chip :=
  ps.foldl (fun c p => c.putPlaces [p] bs (((ts.drop p.2.1).take p.2.2).any id)) c

/-- The fault of this package's own buffers at segment `n` (R349): its part of the source, then of the destination. -/
def Chip.segFault (c : Chip) (x : Actor) (q : Cmd) (n : Nat) : Except AFault (List (Place × Nat × Nat)) × Chip :=
  match c.engineRead x (wrap (q.desc.getD 0 0 + 4096 * n : Nat) 64) (min 4096 (q.clSrcLen (c.clBox q) - 4096 * n)) with
  | (.error f, c) => (.error f, c)
  | (.ok _, c) => c.enginePlaces x (wrap (q.desc.getD 1 0 + 4096 * n : Nat) 64) (min 4096 (q.clDstLen - 4096 * n))

/-- The lowest faulting segment from `n` on, where segment `k` is known to fault (R62, R349). -/
def Chip.lowestSegFault (c : Chip) (x : Actor) (q : Cmd) (n k : Nat) (f : AFault) : Nat × AFault :=
  (((List.range (k - n)).map (n + ·)).findSome? fun m => match (c.segFault x q m).1 with
    | .error e => some (m, e)
    | .ok _ => none).getD (k, f)

/-- R348, R349. The next segment of a collective: its part of this package's buffers is checked; once every partner has sent its part the
result is written and the segment is done. Partners that disagree or have failed end it with `CL_PEER`. -/
def Chip.stepColl (c : Chip) (fo : Focus) : Chip :=
  match (c.slot fo.core fo.pid).collAt fo.n with
  | none => c
  | some q =>
    let halt := fun (c : Chip) n f only => c.haltEngine fo.core fo.pid 9 q n f only
    match q.err with
    | some f => halt c 0 f true
    | none =>
      let x := q.actor fo.core fo.pid (some (.coll fo.core q.num))
      let c := c.modSlot fo.core fo.pid fun s => s.modCmd 9 q.num fun q => { q with started := true }
      let n := q.pos
      let peers := (c.collOthers q).map fun b => c.collPeer fo.pid q b
      if peers.any fun m => match m with
          | some m => m.failed || m.agree != q.clAgree
          | none => false then halt c n { cause := 0x71 } true
      else if c.collSegs q ≤ n then c
      else
        match c.segFault x q n with
        | (.error f, c) => halt c n f false
        | (.ok ps, c) =>
          if peers.any (·.isNone) then c
          else match c.collSegment x fo.pid q n with
            | (.error (f, k), c) => let (m, f) := c.lowestSegFault x q n k f; halt c m f false
            | (.ok (bs, t), c) =>
              (c.putLines ps bs t).modSlot fo.core fo.pid fun s => s.modCmd 9 q.num fun q => { q with pos := n + 1 }

/-- R348. See `Chip.stepColl`. -/
def execCollSegment (s : State) : Out := onChip Chip.stepColl s

/-- R343. Every segment is done: what the partners sent is used up, and the command completes in its turn. -/
def execCollComplete (s : State) : Out :=
  onChip (fun c fo => match (c.slot fo.core fo.pid).collAt fo.n with
    | none => c
    | some q =>
      if q.err.isSome || !q.started || q.pos < c.collSegs q then c
      else
        let key := fun (m : Contrib) => m.key.take 4 == [9, fo.pid, q.clComm, q.w0]
        { c with contribs := c.contribs.filter fun m => !key m }.doneColl fo.core fo.pid q) s

/-! ### `CRED` (R351, R352) -/

/-- The operation of an FN code (R355). -/
def credOp : Nat → AtomicOp
  | 0 => .add | 1 => .smin | 2 => .smax | 3 => .nmin | 4 => .nmax | 5 => .and | 6 => .or | 7 => .xor | _ => .fadd

/-- The checks of a `CRED` at commit (R351): aligned, in some range of R47, translated as a store's address is, then paged DRAM of some
package that is not tier-managed, then what a store's access there meets. -/
def Chip.checkCred (c : Chip) (x : Actor) (va n : Nat) : Except AFault Place × Chip :=
  let misplaced : AFault := { cause := 0x53, addr := va }
  if va % n ≠ 0 then (.error (adF 0x23 va), c)
  else if 2 ^ 52 ≤ va then (.error (if inWindow va then misplaced else adF 0x20 va), c)
  else match c.translated x.core x.pid false va (fun c t => match c.leafPlace x.pid .write va t with
      | .error f => .error f
      | .ok pl => if peTM t.entry || (pl.home != .dram && pl.home != .remote) then .error misplaced else .ok pl) with
    | (.error f, c) => (.error f, c)
    | (.ok _, c) => c.access x .write true va n

/-- Home slice of a location (R40, R351): its stack or package, and the slice in it. -/
def homeSlice (loc : Nat) : Nat := loc / 2 ^ 37 * 16 + loc / 128 % 16

/-- The filter key of a `CRED` (R351), after its partition and a mark of this package's own: its slice, the launch of its instance, its tag,
its sequence number. -/
def Cmd.credKey (q : Cmd) : List Nat := [q.who.pid, 0, homeSlice q.w0, q.who.lid, q.who.tag, bits q.c.toNat 0 32]

/-- R351. A `CRED` enters the collective queue; `w0` and `len` keep its location and key slot, as found now, else as its check found them
(notes/assumptions 96). -/
def Chip.acceptCred (c : Chip) (i : Inst) (q : Cmd) (kept : Option Place := none) : Chip :=
  let take := fun (c : Chip) (pl : Place) => (c.accept i.core i.pid 9 { q with w0 := pl.loc, len := pl.kid }).2
  match c.checkCred i.actor q.a.toNat (if q.flag then 8 else 4) with
  | (.ok pl, c) => take c pl
  | (.error _, _) => match kept with
    | some pl => take c pl
    | none => c

/-- R351. Queues a reduce-store into a location of any package. -/
def execCred (dch : BitVec 7) (dn : Bool) (fn : BitVec 4) (wide : Bool) (s : State) : Out :=
  classC (fun c i a o => c.acceptCred i { i.cmd .cred a.idx o dn dch.toNat with sel := fn.toNat, flag := wide } a.place) s

/-- A command's frame. -/
def Cmd.frame (q : Cmd) (pid : Nat) : CredOp :=
  { pid, key := q.credKey, fn := q.sel, wide := q.flag, v := q.b, taint := q.taint, loc := q.w0, mkey := 0, kid := q.len }

/-- The key mark under which a frame accesses its line now: that of its key slot (R453, R454), none where the slot is not loaded or not the
partition's; another package's frame brings its own. -/
def Chip.credMark (c : Chip) (r : CredOp) : Option Nat := if r.kid = 0 then some r.mkey else c.keyVersion r.pid r.kid

/-- A frame reaches its home slice: performed unless its key is in the filter (R351). -/
def Chip.performCred (c : Chip) (r : CredOp) : Chip :=
  if c.credSeen.contains r.key then c
  else
    let n := if r.wide then 8 else 4
    let k := credOp r.fn
    let pl : Place := { loc := r.loc, home := if isDram r.loc then .dram else .remote, key := (c.credMark r).getD 0 }
    let (old, _, c) := c.readPlace pl n
    let v := (k.apply (8 * n) old r.v.toNat 0).getD old
    let c := c.putBytes pl.loc pl.key (leBytes n v)
    { c with mem := c.mem.addTaint pl.loc n (k == .fadd || r.taint), credSeen := c.credSeen ++ [r.key] }

/-- The `CRED` at a number that may run and has not been acknowledged. -/
def Slot.credAt (s : Slot) (num : Nat) : Option Cmd :=
  match s.cmd? 9 num with
  | some q => if q.op == .cred && (s.collMayRun q || (q.started && !q.done && s.pstate == .drain && !(s.eng 9).halted)) then some q else none
  | none => none

/-- Why a frame cannot be performed at its target (R217, R349, R351, R453): its key is no longer loaded, an entry of the range table refuses
the access now, or its line is poisoned. -/
def Chip.credRefused (c : Chip) (r : CredOp) (core va : Nat) : Option AFault :=
  let x : Actor := { pid := r.pid, core }
  let n := if r.wide then 8 else 4
  if (c.credMark r).isNone then
    match (c.translate core r.pid va).1 with
    | .ok t => some (xlF 0x2D (levelOf t.size) va t.entry)
    | .error _ => some (xlF 0x2D 0 va 0)
  else match lowestRefusing (c.part r.pid).ranges x .atomic r.loc n with
    | some e => some (rangeF c e x va r.loc n)
    | none => (c.mem.poisoned r.loc 4).map fun _ => poisonF va r.loc

/-- R351. A frame is performed: with `k` 0 the first of the command at number `n`, with `k` 1 the one at place `n` of those that the transport
has brought again or that other packages have sent. One whose key is in the filter is complete as it comes; a refusal at the target halts
the queue. -/
def Chip.credArrives (c : Chip) (fo : Focus) : Chip :=
  if fo.k = 1 then
    match c.creds[fo.n]? with
    | none => c
    | some r =>
      let c' := if (c.credRefused r 0 0).isSome then c else c.performCred r
      { c' with creds := c.creds.eraseIdx fo.n }
  else match (c.slot fo.core fo.pid).credAt fo.n with
    | none => c
    | some q =>
      let c := c.modSlot fo.core fo.pid fun s => s.modCmd 9 q.num fun q => { q with started := true }
      let refused := if c.credSeen.contains q.credKey then none else c.credRefused (q.frame fo.pid) fo.core q.a.toNat
      match refused with
      | some f => c.haltEngine fo.core fo.pid 9 q 0 f false
      | none => (c.performCred (q.frame fo.pid)).modSlot fo.core fo.pid fun s => s.modCmd 9 q.num fun q => { q with pos := 1 }

/-- R351. See `Chip.credArrives`. -/
def execCredPerform (s : State) : Out := onChip Chip.credArrives s

/-- R351. The target's acknowledgement is back: the command is over. A resent frame that arrived first acknowledges it too. -/
def execCredAck (s : State) : Out :=
  onChip (fun c fo => match (c.slot fo.core fo.pid).credAt fo.n with
    | none => c
    | some q => if q.started && (q.pos == 1 || c.credSeen.contains q.credKey) then c.doneColl fo.core fo.pid q else c) s

/-- The partition that a frame's PART names (R340). -/
def Chip.framePid (c : Chip) (ws : List Nat) : Nat := ((c.parts.find? fun p => p.part == bits (ws.getD 0 0) 32 16).map (·.pid)).getD 0

/-- Another package's reduce-store as it is kept here: its frame names its partition, and its key is apart from this package's (R340, R351). -/
def Chip.credOf (c : Chip) (ext : List Nat) (r : CredOp) : CredOp :=
  let pid := c.framePid ext
  { r with pid, key := [pid, 1] ++ r.key, kid := 0 }

/-- Whether a frame with a key may still come (R352): of a command here, of those brought again or sent, or still on its way to this package. -/
def State.keyComes (s : State) (k : List Nat) : Bool :=
  (s.chip.creds.any fun r => r.key == k) ||
    (s.chip.slots.any fun t => (t.eng 9).cmds.any fun q => q.op == .cred && q.credKey == k) ||
    s.inputs.any fun x => match x with
      | .cred ext r => (s.chip.credOf ext r).key == k
      | _ => false

/-- R352. A key leaves the filter: never while a frame with it may still come. -/
def execCredFilterExpire (s : State) : Out :=
  match s.chip.credSeen[s.focus.n]? with
  | none => .next s
  | some k =>
    if s.keyComes k then .next s else .next { s with chip := { s.chip with credSeen := s.chip.credSeen.eraseIdx s.focus.n } }

/-- R352. The transport sends the frame of a `CRED` under way once more. -/
def execTransportRetransmission (s : State) : Out :=
  onChip (fun c fo => match (c.slot fo.core fo.pid).credAt fo.n with
    | none => c
    | some q => if q.started then { c with creds := c.creds ++ [q.frame fo.pid] } else c) s

/-! ### `CRANGE` (R353) -/

/-- The check and the physical spans of a `CRANGE` (R353): whole lines. -/
def Chip.checkCrange (c : Chip) (x : Actor) (va n : Nat) : Except AFault (Nat × List (Nat × Nat)) × Chip :=
  if n = 0 ∨ 2 ^ 36 < n then (.error { cause := 0x70 }, c)
  else match (c.part x.pid).freeRange with
    | none => (.error { cause := 0x52 }, c)
    | some num =>
      let a := va / 64 * 64
      match c.spans x .read a ((va + n + 63) / 64 * 64 - a) with
      | (.error f, c) => (.error f, c)
      | (.ok l, c) => (.ok (num, l), c)

/-- A `CRANGE` is performed: its entry awaits the next `COLL` of its slot on the core. -/
def Chip.performCrange (c : Chip) (x : Actor) (va n : Nat) : Chip :=
  match c.checkCrange x va n with
  | (.error _, c) => c
  | (.ok (num, l), c) => c.modPart x.pid fun p => p.addRange num (.coll x.core 0) va n l

/-- R353. Enters a buffer in the partition's range table at commit. -/
def execCrange (s : State) : Out := classC (fun c i _ o => c.performCrange i.actor o.a.toNat o.b.toNat) s

/-! ### The links (R338, R341, R342) -/

/-- What the outside world does next, taken from the inputs where it is what the event at hand needs. -/
def takeInput (f : Input → Option (Chip → Chip)) (s : State) : Out :=
  match s.inputs with
  | [] => .next s
  | x :: t => match f x with
    | some g => .next { s with chip := g s.chip, inputs := t }
    | none => .next s

/-- Tokens of a frame: pairs of words (R340). A core of another package is numbered from 1024 up as their sender, so that R341 orders them
with no token of another pair of cores. -/
def frameTokens (pid src core : Nat) : List Nat → List Token
  | h :: p :: t => { hdr := wordOf h, payload := wordOf p, pid, dst := core, src := 1024 + src, link := 6 } :: frameTokens pid src core t
  | _ => []

/-- Fields of the header extension that a receiver refuses (R342). -/
def Chip.frameBad (c : Chip) (ws : List Nat) : Bool :=
  let w0 := ws.getD 0 0
  let w1 := ws.getD 1 0
  let kind := bits w0 56 4
  let cnt := bits w0 48 8
  let body := ws.length - 2
  bits w0 60 4 != 1 || 6 < kind || bits w0 0 32 != 0 || ws.length < 2 || cnt == 0 || (kind == 0 && (w1 != 0 || body != 2 * cnt)) ||
    (1 ≤ kind && (64 < cnt || body != 8 * cnt)) || !(c.parts.any fun p => p.part == bits w0 32 16)

/-- R340 to R342. A frame of another package: refused whole where a field is wrong; tokens wait for a credit to their core (R401), and lines are written at
their address with their taint, whole, which clears their poison (R445). What the other kinds carry is not stated (notes/assumptions 43). -/
def Chip.receiveFrame (c : Chip) (src core addr : Nat) (ws : List Nat) : Chip :=
  if c.frameBad ws then c
  else
    let w0 := ws.getD 0 0
    let pid := c.framePid ws
    match bits w0 56 4 with
    | 0 => { c with waiting := c.waiting ++ frameTokens pid src core (ws.drop 2) }
    | 1 =>
      (List.range (bits w0 48 8)).foldl (fun c k =>
        let a := addr + 64 * k
        if isDram a then
          let c := c.putBytes a 0 ((ws.drop (2 + 8 * k)).take 8 |>.flatMap fun w => leBytes 8 w)
          { c with mem := (c.mem.addTaint a 64 (bitAt (ws.getD 1 0) k)).clearPoison a 64 }
        else c) c
    | _ => c

/-- R340, R342, R351. A reduce-store frame of another package: one that R342 does not refuse and that aims at DRAM here is on its way to its
home slice, which performs it for the frame's partition. What its payload holds comes as fields (notes/assumptions 43). -/
def Chip.receiveCred (c : Chip) (ext : List Nat) (r : CredOp) : Chip :=
  if bits (ext.getD 0 0) 56 4 != 4 || c.frameBad (ext ++ List.replicate (8 * bits (ext.getD 0 0) 48 8) 0) || !isDram r.loc then c
  else { c with creds := c.creds ++ [c.credOf ext r] }

/-- A movement in flight fails on a link (R148, R150): its pages return to their state, and it ends as a failed movement does. -/
def Chip.failMove (c : Chip) (fo : Focus) (cause : Nat) : Chip :=
  match c.movingAt fo with
  | none => c
  | some (l, tt, e, k1, k2) =>
    if !c.pagesFree fo.pid then c else
    let c := c.undoMove fo.core fo.pid l tt e (k1, k2)
    if fo.k = 0 then c.entryFailed fo.core fo.pid fo.n l { cause }
    else match (c.slot fo.core fo.pid).cmd? 7 fo.n with
      | some q => c.tierFail fo.core fo.pid q { cause }
      | none => c

/-- The started command at a focus fails on a link (R338, R342), as its engine's faults do. A copy first writes what it has sent; the second
command of the plane engine fails only once it is the first. -/
def Chip.failCmd (c : Chip) (fo : Focus) (q : Cmd) (cause : Nat) : Chip :=
  if fo.k < 4 then
    if q.buf.isEmpty then c.stopCopy fo.core fo.pid fo.k q (q.chunkOf q.pos) { cause }
    else c.modSlot fo.core fo.pid fun s => s.modCmd fo.k q.num fun q => { q with err := some { cause } }
  else if fo.k = 5 then (if (c.slot fo.core fo.pid).isPlaneHead q then c.haltPlane fo.core fo.pid q { cause } else c)
  else if fo.k = 8 then c.haltAmp fo.core fo.pid q { cause }
  else c.haltEngine fo.core fo.pid fo.k q (if q.op == .cred then 0 else q.pos) { cause } false

/-- Where a store or an atomic goes, which its checks have let through. -/
def Chip.accessPlace (c : Chip) (i : Inst) (f : Frame) (a : Act) : Option Place :=
  let w := f.word a.idx
  let find := fun (k : AKind) (ea size : Nat) => (c.access i.actor k false ea size).1.toOption
  match storeOf w a with
  | some st => find .write st.ea st.size
  | none =>
    if 0x122 ≤ opOf w && opOf w ≤ 0x139 && !a.null then
      find .atomic (eaA (operandsOf a.ops a.ptaint).a) (if bits w 9 4 = 1 then 8 else 4)
    else none

/-- Whether a place lies beyond a link. -/
def Place.far (pl : Place) : Bool := pl.home == .remote || pl.home == .host

/-- Whether an instance has an access at instruction `k` that may fail on a link (R338, R342): a load that waits; a store or an atomic beyond a
link, of a block that waits for its commit; or the fetch, from beyond a link, of the block it is to execute (notes/assumptions 115). -/
def Chip.hasFar (c : Chip) (i : Inst) (k : Nat) : Bool :=
  match i.frame, i.state with
  | some f, .running => f.loads.any fun l => l.idx == k
  | some f, .complete => f.acts.any fun a => a.idx == k && (c.accessPlace i f a).any Place.far
  | none, .running => k == 0 && i.holds.isEmpty && (c.coreSt i.core).blocks.all (fun b => b.pid != i.pid || b.addr != i.block) &&
      match (c.resolve i.actor .fetch false i.block 4).1 with
      | .ok pl => pl.far
      | .error _ => false
  | _, _ => false

/-- The operation at a focus fails at its sender (R338, R342): an instance's access, which discards its block; or command `n` of engine context
`k`; or, with `k` 10, entry `n` of the timetable of the launch on its core. -/
def Chip.failRemote (c : Chip) (f : Focus) (cause : Nat) : Chip :=
  if f.iid ≠ 0 then
    match c.inst? f.iid with
    | none => c
    | some i => if c.hasFar i f.idx then c.takeFault f.iid f.idx { cause } else c
  else if f.k = 10 then c.failMove { f with k := 0 } cause
  else if f.k = 7 then c.failMove { f with k := 1 } cause
  else
    let s := c.slot f.core f.pid
    match s.cmd? f.k f.n with
    | none => c
    | some q => if !q.started || q.done || (s.eng f.k).halted then c else c.failCmd f q cause

/-- R342. A frame, another package's part of a command of a partition held here (R346), or the refusal of a frame sent from here arrives. -/
def execLinkFrameReceive (s : State) : Out :=
  takeInput (fun x => match x with
    | .frame src core addr ws => some fun c => c.receiveFrame src core addr ws
    | .cred ext r => some fun c => c.receiveCred ext r
    | .contrib m => some fun c => if c.hasPart (m.key.getD 1 0) then { c with contribs := c.contribs ++ [m] } else c
    | .refused f => some fun c => c.failRemote f 0x73
    | _ => none) s

/-- Where the ports are (R335): the direction (0 x−, 1 x+, 2 y−, 3 y+, 4 z−, 5 z+) and the tower of each of the twelve, two to a direction in
the order of R335's table (notes/assumptions 101). -/
def portTable : List (Nat × Nat) := [(0, 0), (0, 2), (1, 1), (1, 3), (2, 0), (2, 1), (3, 2), (3, 3), (4, 1), (4, 2), (5, 0), (5, 3)]
/-- Tower of a port. -/
def portTower (port : Nat) : Nat := (portTable.getD port (0, 0)).2
/-- Direction of a port. -/
def portDir (port : Nat) : Nat := (portTable.getD port (0, 0)).1
/-- The other port of a port's direction, which takes its traffic when it fails (R338). -/
def portPartner (port : Nat) : Nat := if port % 2 = 0 then port + 1 else port - 1

/-- R338. A corrupted frame is resent on its link: only the tower's count of retries shows it (R434). -/
def execLinkRetry (s : State) : Out :=
  takeInput (fun x => match x with
    | .linkRetry t => some fun c => c.setTower { c.tower t with retries := satAdd32 (c.tower t).retries 1 }
    | _ => none) s

/-- R338. A port goes down to 4 lanes, then to 2; Ebgokai records it, at the first core of the port's tower. -/
def execLaneDegrade (s : State) : Out :=
  takeInput (fun x => match x with
    | .laneDegrade port => some fun c =>
      ({ c with lanes := c.lanes.set port (if c.lanes.getD port 0 = 8 then 4 else min 2 (c.lanes.getD port 0)) } : Chip).report
        evLane (coreAt (portTower port % 2 * 16) (portTower port / 2 * 16)) 0
    | _ => none) s

/-- R338. A port fails; the other port of its direction takes its traffic, in order: lanes that the failed port no longer has. -/
def execPortFailover (s : State) : Out :=
  takeInput (fun x => match x with
    | .portFail port => some fun c => { c with lanes := c.lanes.set port 0 }
    | _ => none) s

/-- R338. An operation whose packets cannot be delivered in time fails. -/
def execLkUnreach (s : State) : Out :=
  takeInput (fun x => match x with
    | .unreach f => some fun c => c.failRemote f 0x72
    | _ => none) s

end Sys2Proof.Machine
end

