-- ==== Sys2Proof/Machine/Crypto.lean ====
section
/-! DEFINITION. The algorithms that the system chapters name: SHA-384 (R446, R450), the key wrap of RFC 3394 (R437), and ECDSA over
brainpoolP384r1 (R135). The manual names them; their constants are those of FIPS 180-4, FIPS 197, RFC 3394 and RFC 5639 (notes/assumptions
17). Bytes are numbers below 256. -/

namespace Sys2Proof.Machine.Crypto

/-! ### SHA-384 -/

/-- The largest r below 2^bits added to `r` whose k-th power is no more than n. -/
def rootFrom (k n : Nat) : Nat → Nat → Nat
  | 0, r => r
  | b + 1, r => rootFrom k n b (if (r + 2 ^ b) ^ k ≤ n then r + 2 ^ b else r)

/-- The first 64 bits of the fraction of the k-th root of p. -/
def rootFraction (k p : Nat) : Nat := rootFrom k (p * 2 ^ (64 * k)) 70 0 % 2 ^ 64

/-- The first eighty primes. -/
def primes : List Nat := (List.range 410).filter fun n => 2 ≤ n && ((List.range n).drop 2).all fun d => n % d != 0

/-- Round constants: cube roots of the first eighty primes. -/
def roundConstants : List Nat := primes.map (rootFraction 3)

/-- Initial hash value: square roots of the ninth to sixteenth primes. -/
def initialHash : List Nat := ((primes.drop 8).take 8).map (rootFraction 2)

/-- Rotation of a 64-bit word to the right. -/
def ror (x n : Nat) : Nat := (x / 2 ^ n + x * 2 ^ (64 - n)) % 2 ^ 64

def bigSigma0 (x : Nat) : Nat := (ror x 28 ^^^ ror x 34) ^^^ ror x 39
def bigSigma1 (x : Nat) : Nat := (ror x 14 ^^^ ror x 18) ^^^ ror x 41
def smallSigma0 (x : Nat) : Nat := (ror x 1 ^^^ ror x 8) ^^^ (x / 2 ^ 7)
def smallSigma1 (x : Nat) : Nat := (ror x 19 ^^^ ror x 61) ^^^ (x / 2 ^ 6)
def choose (x y z : Nat) : Nat := (x &&& y) ^^^ ((2 ^ 64 - 1 - x) &&& z)
def majority (x y z : Nat) : Nat := ((x &&& y) ^^^ (x &&& z)) ^^^ (y &&& z)

/-- The message schedule, newest word first. -/
def schedule : Nat → List Nat → List Nat
  | 0, w => w
  | n + 1, w => schedule n
      ((smallSigma1 (w.getD 1 0) + w.getD 6 0 + smallSigma0 (w.getD 14 0) + w.getD 15 0) % 2 ^ 64 :: w)

/-- One round. -/
def round (v : List Nat) (kw : Nat × Nat) : List Nat :=
  match v with
  | [a, b, c, d, e, f, g, h] =>
    let t1 := h + bigSigma1 e + choose e f g + kw.1 + kw.2
    let t2 := bigSigma0 a + majority a b c
    [(t1 + t2) % 2 ^ 64, a, b, c, (d + t1) % 2 ^ 64, e, f, g]
  | _ => v

/-- A message padded to blocks of 128 bytes. -/
def padded (m : List Nat) : List Nat :=
  m ++ [0x80] ++ List.replicate ((239 - m.length % 128) % 128) 0 ++ beBytes 16 (8 * m.length)

/-- One block's compression. -/
def compress (ks h : List Nat) (block : List Nat) : List Nat :=
  let w := (List.range 16).map fun k => beNat ((block.drop (8 * k)).take 8)
  let ws := (schedule 64 w.reverse).reverse
  (h.zip ((ks.zip ws).foldl round h)).map fun x => (x.1 + x.2) % 2 ^ 64

/-- Blocks of 128 bytes. -/
def blocks : Nat → List Nat → List (List Nat)
  | 0, _ => []
  | n + 1, m => m.take 128 :: blocks n (m.drop 128)

/-- SHA-384 of a message: 48 bytes. -/
def sha384 (m : List Nat) : List Nat :=
  let p := padded m
  let ks := roundConstants
  (((blocks (p.length / 128) p).foldl (compress ks) initialHash).take 6).flatMap (beBytes 8)

/-! ### The key wrap -/

/-- One step of the unwrap: register A and the n registers. -/
def unwrapStep (rk : List (List Nat)) (n : Nat) (st : List Nat × List (List Nat)) (t : Nat) : List Nat × List (List Nat) :=
  let i := (t - 1) % n
  let b := decryptBlock rk (xorBytes st.1 (beBytes 8 t) ++ st.2.getD i [])
  (b.take 8, st.2.set i (b.drop 8))

/-- RFC 3394 unwrap of a wrapped key under a 32-byte key: the key, or none where the integrity check fails. -/
def unwrap (key wrapped : List Nat) : Option (List Nat) :=
  let n := wrapped.length / 8 - 1
  let rs := (List.range n).map fun k => (wrapped.drop (8 * (k + 1))).take 8
  let (a, r) := ((List.range (6 * n)).map fun k => 6 * n - k).foldl (unwrapStep (roundKeys key) n) (wrapped.take 8, rs)
  if a = List.replicate 8 0xA6 then some r.flatten else none

/-! ### ECDSA over brainpoolP384r1 -/

def fieldP : Nat := 0x8CB91E82A3386D280F5D6F7E50E641DF152F7109ED5456B412B1DA197FB71123ACD3A729901D1A71874700133107EC53
def curveA : Nat := 0x7BC382C63D8C150C3C72080ACE05AFA0C2BEA28E4FB22787139165EFBA91F90F8AA5814A503AD4EB04A8C7DD22CE2826
def baseX : Nat := 0x1D1C64F068CF45FFA2A63A81B7C13F6B8847A3E77EF14FE3DB7FCAFE0CBD10E8E826E03436D646AAEF87B2E247D4AF1E
def baseY : Nat := 0x8ABE1D7520F9C2A45CB1EB8E95CFD55262B70B29FEEC5864E19C054FF99129280E4646217791811142820341263C5315
def orderQ : Nat := 0x8CB91E82A3386D280F5D6F7E50E641DF152F7109ED5456B31F166E6CAC0425A7CF3AB6AF6B7FC3103B883202E9046565

/-- Power modulo m; the first argument bounds the exponent's bits. -/
def powMod (m : Nat) : Nat → Nat → Nat → Nat
  | 0, _, _ => 1
  | n + 1, a, e => let r := powMod m n (a * a % m) (e / 2); if e % 2 = 1 then a * r % m else r

/-- Inverse modulo a prime of 384 bits. -/
def invMod (m a : Nat) : Nat := powMod m 384 (a % m) (m - 2)

/-- A point: none at infinity. -/
abbrev Point := Option (Nat × Nat)

/-- Point addition. -/
def addPoints : Point → Point → Point
  | none, q => q
  | p, none => p
  | some (x, y), some (u, v) =>
    if x = u ∧ (y + v) % fieldP = 0 then none
    else
      let l := if x = u then (3 * x * x + curveA) * invMod fieldP (2 * y) % fieldP
               else (v + fieldP - y) * invMod fieldP (u + fieldP - x) % fieldP
      let z := (l * l + 2 * fieldP - x - u) % fieldP
      some (z, (l * (x + fieldP - z) + fieldP - y) % fieldP)

/-- k times a point; the first argument bounds k's bits. -/
def mulPoint : Nat → Nat → Point → Point
  | 0, _, _ => none
  | n + 1, k, p => let r := mulPoint n (k / 2) (addPoints p p); if k % 2 = 1 then addPoints p r else r

/-- Whether (r, s) is a signature of a digest under a public key (R135). -/
def verify (x y : Nat) (digest : List Nat) (r s : Nat) : Bool :=
  if r = 0 || s = 0 || orderQ ≤ r || orderQ ≤ s then false
  else
    let w := invMod orderQ s
    match addPoints (mulPoint 384 (beNat digest * w % orderQ) (some (baseX, baseY))) (mulPoint 384 (r * w % orderQ) (some (x, y))) with
    | none => false
    | some (u, _) => u % orderQ == r

/-- The signature of a digest by a private key and a nonce: r and s, none where one of them is 0 (R451). -/
def sign (key nonce : Nat) (digest : List Nat) : Option (Nat × Nat) :=
  match mulPoint 384 nonce (some (baseX, baseY)) with
  | none => none
  | some (x, _) =>
    let r := x % orderQ
    let s := invMod orderQ nonce * (beNat digest + r * key) % orderQ
    if r = 0 || s = 0 then none else some (r, s)

end Sys2Proof.Machine.Crypto
end

