-- ==== Sys2Proof/Machine/Launch.lean ====
section
/-! DEFINITION. Configuration images (R137, R364 to R368), the configuration sequencer with `CFGLD` and `CFGSW` (R370, R371, R392, R396),
and launches with their placement and end (R380 to R382). -/

namespace Sys2Proof.Machine

/-! ### Images -/

/-- A parsed image: rectangle sizes, quotas of w1, handlers, routes as written, port bindings, and the lowest route that disagrees with its
format entries. -/
structure Image where
  lw     : Nat
  lh     : Nat
  mslot  : Nat
  scr    : Nat
  tiles  : Nat
  handlers : List Handler
  routes : List Nat
  ports  : List (List Nat)
  badRoute : Option Nat
  deriving DecidableEq, Repr

/-- Counts of a header (R364): channels, routes, ports. -/
def imgChans (w0 : Nat) : Nat := bits w0 24 8
def imgRoutes (w0 : Nat) : Nat := bits w0 32 16
def imgPorts (w0 : Nat) : Nat := bits w0 20 4

/-- Words of an image after its header. -/
def imgRest (w0 : Nat) : Nat := 2 * imgChans w0 + imgRoutes w0 + 4 * imgPorts w0 + imgRoutes w0

/-- Whether a header is well formed (R364, R368). -/
def imgHeaderOk (w0 w1 : Nat) : Bool :=
  bits w0 48 16 == 0 && bits w0 7 13 == 0 && !bitAt w0 3 && imgRoutes w0 ≤ 1024 && 1 ≤ imgChans w0 && imgChans w0 ≤ 126 &&
    imgPorts w0 ≤ 8 && bits w1 32 16 == 0 && bits w1 4 20 == 0 && bits w1 24 8 ≤ 32 && bits w1 0 4 ≤ 8

/-- Channel entry (R365). -/
def handlerOf (w0 w1 : Nat) : Handler :=
  { chan := bits w1 0 7, entry := w0, accept := bits w1 56 8, slice := bits w1 48 5, prio := bits w1 37 3, age := bitAt w1 36,
    um := bitAt w1 35, arity := bits w1 32 2 + 1 }

/-- Whether a channel entry is well formed (R368). -/
def channelOk (w0 w1 : Nat) : Bool :=
  bits w1 53 3 == 0 && bits w1 40 8 == 0 && !bitAt w1 34 && bits w1 7 25 == 0 && w0 % 8 == 0 && bits w1 0 7 < 126 &&
    bits w1 56 8 != 0 && 1 ≤ bits w1 48 5 && bits w1 48 5 ≤ 16

/-- Whether a route entry is well formed (R366, R368). -/
def routeOk (w : Nat) : Bool := w / 2 ^ 32 == 0 && bits w 0 7 == 0 && bits w 7 7 < 126

/-- Whether a port takes a kind of copy command (R158): `sp0` and `sp1` only `CPYPL`, `sp2` and `sp3` only `CPY`, `sp5` and `sp6` all
three. -/
def portTakes (port kind : Nat) : Bool :=
  if port ≤ 1 then kind == 1 else if port ≤ 3 then kind == 0 else (port == 5 || port == 6) && kind ≤ 2

/-- Core and port of a binding. -/
def bindKey (w : List Nat) : Nat × Nat := (bits (w.getD 3 0) 32 10, bits (w.getD 3 0) 4 3)

/-- Whether a port binding is well formed for a rectangle of `n` cores (R367, R368). -/
def bindingOk (n : Nat) (w : List Nat) : Bool :=
  let v := w.getD 3 0
  bits v 42 22 == 0 && bits v 10 22 == 0 && !bitAt v 7 && bits v 2 2 == 0 && bits v 32 10 < n && portTakes (bits v 4 3) (bits v 8 2)

/-- Whether a format entry is well formed (R137, R368). -/
def formatOk (nroute w : Nat) : Bool := w / 2 ^ 32 == 0 && bits w 19 5 == 0 && bits w 0 16 < nroute

/-- Whether a format entry agrees with its route (R137). -/
def formatAgrees (route w : Nat) : Bool := bits w 16 3 == bits route 16 3 && bitAt (bits w 24 8) (bits route 16 3)

/-- Lowest route that disagrees with its entry, lacks one or has two (R137). -/
def lowestBadRoute (routes formats : List Nat) : Option Nat :=
  (routes.zipIdx.find? fun (r, k) => match formats.filter fun w => bits w 0 16 == k with
    | [w] => !formatAgrees r w
    | _ => true).map Prod.snd

/-- No value of a list occurs twice. -/
def noTwice [BEq α] : List α → Bool
  | [] => true
  | a :: t => !t.contains a && noTwice t

/-- Parse an image's words for a rectangle (R364 to R368), or none where it is malformed. -/
def parseImage (w0 w1 lw lh : Nat) (ws : List Nat) : Option Image :=
  let nc := imgChans w0
  let nr := imgRoutes w0
  let np := imgPorts w0
  let chans := (List.range nc).map fun k => (ws.getD (2 * k) 0, ws.getD (2 * k + 1) 0)
  let routes := (ws.drop (2 * nc)).take nr
  let ports := (List.range np).map fun k => (ws.drop (2 * nc + nr + 4 * k)).take 4
  let formats := (ws.drop (2 * nc + nr + 4 * np)).take nr
  let hs := chans.map fun x => handlerOf x.1 x.2
  if imgHeaderOk w0 w1 && bits w0 0 3 == lw && bits w0 4 3 == lh && (chans.all fun x => channelOk x.1 x.2) &&
      noTwice (hs.map (·.chan)) && routes.all routeOk && ports.all (bindingOk (2 ^ lw * 2 ^ lh)) && noTwice (ports.map bindKey) &&
      formats.all (formatOk nr) then
    some { lw, lh, mslot := bits w1 48 16, scr := bits w1 24 8, tiles := bits w1 0 4, handlers := hs, routes, ports,
           badRoute := lowestBadRoute routes formats }
  else none

/-- Read and parse the image at an address: a fault of the read, none where it is malformed, or the image. -/
def Chip.readImage (c : Chip) (x : Actor) (va lw lh : Nat) : Except AFault (Option Image) × Chip :=
  match c.readDesc x va 2 with
  | (.error f, c) => (.error f, c)
  | (.ok h, c) =>
    let w0 := h.getD 0 0
    let w1 := h.getD 1 0
    if !imgHeaderOk w0 w1 then (.ok none, c)
    else match c.readWords x ((va + 16) % 2 ^ 64) (imgRest w0) with
      | (.error f, c) => (.error f, c)
      | (.ok ws, c) => (.ok (parseImage w0 w1 lw lh ws), c)

/-- Largest SLICE of an image's tasks. -/
def Image.bigSlice (g : Image) : Nat := (g.handlers.map (·.slice)).foldl max 0

/-- Whether a partition's slots hold the quotas of an image (R364, R368). -/
def Part.holdsQuotas (p : Part) (g : Image) : Bool :=
  g.mslot ≤ p.msQuota && g.scr ≤ bits (p.reg 0x040) 32 6 && g.tiles ≤ bits (p.reg 0x043) 0 4

/-- Whether a partition's slots hold the quotas of an image and the minimum quotas of a launch (R381, R398). -/
def Part.fits (p : Part) (g : Image) : Bool :=
  p.holdsQuotas g && 1 ≤ p.placeQuota && 2 ≤ p.frameQuota && g.bigSlice ≤ p.sliceQuota

/-- A route as installed (R366): the rectangle's origin is added to a route that is not relative to its sender. -/
def relocate (ox oy w : Nat) : Nat :=
  if bitAt w 31 then w
  else w % 2 ^ 19 + min 63 (bits w 19 6 + ox) * 2 ^ 19 + min 63 (bits w 25 6 + oy) * 2 ^ 25

/-- The plane that an image makes (R369). -/
def Image.plane (g : Image) (ox oy : Nat) : CfgPlane :=
  { handlers := g.handlers, routes := g.routes.map (relocate ox oy), ports := g.ports }

/-- The copy command of a port binding (R367): no issuing instance. -/
def bindingCmd (core pid : Nat) (w : List Nat) : Cmd :=
  let v := w.getD 3 0
  { op := match bits v 8 2 with
      | 0 => .cpy
      | 1 => .cpypl
      | _ => .cpyun
    sel := bits v 0 2, port := bits v 4 3, a := BitVec.ofNat 64 (w.getD 0 0), b := BitVec.ofNat 64 (w.getD 1 0),
    c := BitVec.ofNat 64 (w.getD 2 0), who := { core, pid, none := true } }

/-- The bindings of a core's active plane start (R367): each waits for an entry at its port (R159). -/
def Chip.startBindings (c : Chip) (core pid : Nat) : Chip :=
  let g := (c.slot core pid).cfg.active
  let lin := c.lin pid core
  let mine := (g.ports.filter fun w => (bindKey w).1 == lin).map (bindingCmd core pid)
  if mine.isEmpty then c else c.modCore core fun k => { k with binds := k.binds ++ mine.map fun q => (pid, q) }

/-! ### The sequencer (R371, R392) -/

/-- A configuration command's normal completion (R392). -/
def Chip.cfgDone (c : Chip) (q : Cmd) : Chip := c.sendDone q.who q.dn q.dch (donePayload false 7 0 0)

/-- A configuration command's error completion (R392, R423): VALUE holds the route that `CF_ROUTE` names. -/
def Chip.cfgFail (c : Chip) (q : Cmd) (value : Nat) (f : AFault) : Chip := c.errorDone q.who 7 0 0 q.dn q.dch (value % 2 ^ 16) f

/-- Whether a switch is pending on a core (R370). -/
def Chip.switching (c : Chip) (pid core : Nat) : Bool := (c.slot core pid).cfg.sw != .active

/-- Change the configuration of a slot. -/
def Chip.modCfg (c : Chip) (core pid : Nat) (f : CfgSt → CfgSt) : Chip := c.modSlot core pid fun s => { s with cfg := f s.cfg }

/-- The first command that the sequencer has not started, with its place. -/
def Part.seqHead (p : Part) : Option (Cmd × Nat) := p.cfgq.zipIdx.find? fun x => !x.1.started

/-- Remove the command at a place of the sequencer's queue. -/
def Chip.seqDrop (c : Chip) (pid k : Nat) : Chip := c.modPart pid fun p => { p with cfgq := p.cfgq.eraseIdx k }

/-- Every `CFGSW` that has come to the head of the sequencer is checked on every core of its region in one step (R371): accepted, those
cores go to DRAINING; refused, no core changes. `n` bounds the commands. -/
def Chip.seqAdvance (c : Chip) (pid : Nat) : Nat → Chip
  | 0 => c
  | n + 1 =>
    match (c.part pid).seqHead with
    | none => c
    | some (q, k) =>
      if q.op != .cfgsw then c
      else if q.extra.all fun x => !c.switching pid x && (c.slot x pid).cfg.armed then
        let c := q.extra.foldl (fun c x => c.modCfg x pid fun g => { g with sw := .draining }) c
        (c.modPart pid fun p => { p with cfgq := p.cfgq.set k { q with started := true, parts := q.extra } }).seqAdvance pid n
      else (((c.seqDrop pid k).cfgFail q 0 { cause := 0x7E }).seqAdvance pid n)

/-- A configuration command joins the sequencer's queue (R371, R392), its DONE token's place reserved (R400). `region` is its region word. -/
def Chip.cfgCommand (c : Chip) (i : Inst) (q : Cmd) (region : Nat) : Chip :=
  match c.subRect i region with
  | none => c
  | some cores =>
    let (ox, oy, _, _) := c.rect i.pid i.core
    let (lw, lh) := match (c.part i.pid).launchAt i.core with
      | some l => (l.lw, l.lh)
      | none => (0, 0)
    let c := c.modSlot i.core i.pid fun s => s.reserve q.dn
    let c := c.modPart i.pid fun p => { p with cfgq := p.cfgq ++ [{ q with extra := cores, desc2 := [ox, oy, lw, lh] }] }
    c.seqAdvance i.pid ((c.part i.pid).cfgq.length)

/-- R363. Check of a region word of `CFGLD` or `CFGSW`. -/
def Chip.checkRegion (c : Chip) (i : Inst) (w : Nat) : Option AFault := if (c.subRect i w).isNone then some destF else none

/-- R370, R392. Loads an image into the shadow plane of a region. -/
def execCfgld (dch : BitVec 7) (dn : Bool) (s : State) : Out :=
  classC (fun c i a o => c.cfgCommand i (i.cmd .cfgld a.idx o dn dch.toNat) o.b.toNat) s

/-- R371, R392. Requests a switch on a region. -/
def execCfgsw (dch : BitVec 7) (dn : Bool) (s : State) : Out :=
  classC (fun c i a o => c.cfgCommand i (i.cmd .cfgsw a.idx o dn dch.toNat) o.a.toNat) s

/-- A shadow plane is loaded, or left unarmed. -/
def CfgSt.load (g : CfgSt) (p : CfgPlane) (armed : Bool) : CfgSt := { g.setPlane (1 - g.act) p with armed }

/-- R368, R370. The effect of the `CFGLD` at the head of the sequencer. -/
def Chip.loadShadow (c : Chip) (pid : Nat) (q : Cmd) : Chip :=
  let unarm := fun (c : Chip) => q.extra.foldl (fun c x => c.modCfg x pid fun g => { g with armed := false }) c
  if q.extra.any fun x => c.switching pid x then c.cfgFail q 0 { cause := 0x7E }
  else
    let g := fun k => q.desc2.getD k 0
    match c.readImage (q.actor q.who.core pid) q.a.toNat (g 2) (g 3) with
    | (.error f, c) => (unarm c).cfgFail q 0 f
    | (.ok none, c) => (unarm c).cfgFail q 0 { cause := 0x7C }
    | (.ok (some m), c) =>
      if !(c.part pid).holdsQuotas m then (unarm c).cfgFail q 0 { cause := 0x7C }
      else
        let c := q.extra.foldl (fun c x => c.modCfg x pid fun t => t.load (m.plane (g 0) (g 1)) m.badRoute.isNone) c
        match m.badRoute with
        | some r => c.cfgFail q r { cause := 0x7D, info0 := r }
        | none => c.cfgDone q

/-- R370. The `CFGLD` at the head of the focus's partition's sequencer completes; what follows it comes to the head. -/
def execCfgldComplete (s : State) : Out :=
  onChip (fun c fo => match (c.part fo.pid).seqHead with
    | none => c
    | some (q, k) =>
      if q.op == .cfgld then
        let c := (c.seqDrop fo.pid k).loadShadow fo.pid q
        c.seqAdvance fo.pid (c.part fo.pid).cfgq.length
      else c) s

/-! ### The switch (R371, R372) -/

/-- Whether a DRAINING core may go on (R371). -/
def Chip.drained (c : Chip) (core pid : Nat) : Bool :=
  let s := c.slot core pid
  s.cfg.sw == .draining && s.pstate == .run && c.planeTokens core pid == 0 && c.planeInsts core pid == 0

/-- R371. A DRAINING core with nothing of its active plane left enters SWITCHING. -/
def execCfgswDrainEnd (s : State) : Out :=
  onChip (fun c fo => if c.drained fo.core fo.pid then c.modCfg fo.core fo.pid fun g => { g with sw := .switching } else c) s

/-- A started switch once a core has exchanged its planes (R371); of the last core's exchange it keeps the plane `act` that is then the issuing
core's active one, which its completion carries (R459). -/
def Cmd.exchanged (q : Cmd) (core act : Nat) : Cmd :=
  let l := q.parts.filter (· != core)
  { q with parts := l, w0 := if l.isEmpty && !q.parts.isEmpty then act else q.w0 }

/-- R371. The planes of a SWITCHING core are exchanged: routes and counters of the old go, the new plane's held tokens become matchable
(R372) and its bindings start. -/
def Chip.exchange (c : Chip) (core pid : Nat) : Chip :=
  let s := c.slot core pid
  if s.cfg.sw == .switching && s.pstate == .run then
    let g := s.cfg.setPlane s.cfg.act { s.cfg.active with routes := [] }
    let g := { g with act := 1 - g.act, armed := false, sw := .active, eos := [], chans := [] }
    let held := s.mat.held
    let c := c.setSlot { s with cfg := g, mat := { s.mat with held := [] } }
    let c := held.foldl (fun c t => match c.handler core pid (hdrPlane t.hdr) (hdrChan t.hdr) with
      | some h => c.modSlot core pid fun s => (s.accept h t).countArr (hdrChan t.hdr)
      | none => c) c
    let c := (c.startBindings core pid).trace 5 core pid 0 0
    let act := fun (q : Cmd) => (c.slot q.who.core pid).cfg.act
    c.modPart pid fun p => { p with cfgq := mapIf (·.started) (fun q => q.exchanged core (act q)) p.cfgq }
  else c

/-- R371. See `Chip.exchange`. -/
def execPlaneExchange (s : State) : Out := onChip (fun c fo => c.exchange fo.core fo.pid) s

/-- Place of a `CFGSW` whose every core has switched. -/
def Part.switched (p : Part) : Option (Cmd × Nat) := p.cfgq.zipIdx.find? fun x => x.1.started && x.1.parts.isEmpty

/-- R459. The `CFGSW` whose last core has switched sends its completion, under the plane that was active on its core at that moment. -/
def execCfgswComplete (s : State) : Out :=
  onChip (fun c fo => match (c.part fo.pid).switched with
    | none => c
    | some (q, k) => (c.seqDrop fo.pid k).sendDoneIn q.w0 q.who q.dn q.dch (donePayload false 7 0 0)) s

/-! ### Launches (R380 to R382) -/

/-- What a launch is asked with: descriptor, rectangle word, entry payload and its taint, flags, who asks, and the inbound link of a
token to a core (R372). -/
structure LaunchReq where
  desc    : Nat
  rect    : Nat
  payload : Word
  taint   : Bool
  ordered : Bool
  cores   : Bool
  trap    : Bool
  who     : Issuer
  host    : Option Nat := none
  deriving DecidableEq, Repr

/-- Whether a launch descriptor asks for NT, whose place must be reserved before commit (R400). -/
def Chip.wantsNt (c : Chip) (x : Actor) (desc : Nat) : Bool :=
  match (c.readDesc x desc 2).1 with
  | .ok d => bitAt (d.getD 1 0) 23
  | .error _ => false

/-- Result word of a refused launch (R381). -/
def refusedWord (reason : Nat) : Nat := 2 ^ 63 + reason * 2 ^ 56

/-- Result word of an accepted launch (R381). -/
def Launch.word (l : Launch) : Nat := l.lid * 2 ^ 32 + l.oy * 2 ^ 8 + l.ox

/-- Whether the descriptor's second word or the rectangle word breaks R380 or R381 step 1. -/
def launchBad (w1 r : Nat) : Bool :=
  let lw := bits r 16 3
  let lh := bits r 20 3
  let ox := bits r 0 5
  let oy := bits r 8 5
  bits w1 24 24 != 0 || bits w1 7 9 != 0 || 1024 < bits w1 48 16 || 125 < bits w1 0 7 ||
    bits r 25 39 != 0 || bitAt r 23 || bitAt r 19 || bits r 13 3 != 0 || bits r 5 3 != 0 || 5 < lw || 5 < lh ||
    (if bitAt r 24 then ox % 2 ^ lw != 0 || oy % 2 ^ lh != 0 else ox != 0 || oy != 0)

/-- Whether a rectangle lies in a partition's region. -/
def Part.inRegion (p : Part) (ox oy w h : Nat) : Bool := p.ox ≤ ox && ox + w ≤ p.ox + p.w && p.oy ≤ oy && oy + h ≤ p.oy + p.h

/-- Whether every core of a rectangle qualifies (R381 step 2). -/
def Part.qualifies (p : Part) (g : Image) (ox oy w h : Nat) : Bool :=
  p.fits g && (rectCores ox oy w h).all fun k => (p.launchAt k).isNone

/-- The placer (R381 step 2): aligned origins of the region in ascending order of (OY, OX). -/
def Part.placeFree (p : Part) (g : Image) : Option (Nat × Nat) :=
  let w := 2 ^ g.lw
  let h := 2 ^ g.lh
  (((List.range p.h).filter fun y => (p.oy + y) % h == 0).flatMap fun y =>
    ((List.range p.w).filter fun x => (p.ox + x) % w == 0).map fun x => (p.ox + x, p.oy + y)).find? fun o =>
      p.inRegion o.1 o.2 w h && p.qualifies g o.1 o.2 w h

/-- The origin of a launch, or the reason it has none (R381 step 2). -/
def Part.placeLaunch (p : Part) (g : Image) (r : Nat) : Except Nat (Nat × Nat) :=
  if bitAt r 24 then
    let ox := bits r 0 5
    let oy := bits r 8 5
    if !p.inRegion ox oy (2 ^ g.lw) (2 ^ g.lh) then .error 5
    else if !p.qualifies g ox oy (2 ^ g.lw) (2 ^ g.lh) then .error 1
    else .ok (ox, oy)
  else match p.placeFree g with
    | some o => .ok o
    | none => .error 1

/-- Whether a core can hold `n` instances of `slice` units beside those its slot holds (R381 step 3). -/
def Chip.residentRoom (c : Chip) (pid n slice core : Nat) : Bool :=
  let l := c.slotInsts core pid
  let p := c.part pid
  (l.filter fun i => i.state != .ended).length + n ≤ p.placeQuota && sumNat (l.map (·.slice)) + n * slice ≤ p.sliceQuota

/-- Whether an image's entry channel has a task of arity 1 that accepts RAW (R381 step 5). -/
def Image.entryOk (g : Image) (chan : Nat) : Bool := g.handlers.any fun h => h.chan == chan && h.arity == 1 && bitAt h.accept 0

/-- A core's slot when a launch installs its image (R381 step 4): the active plane holds it, the shadow is clear, the counters start
anew, every context but 0 is free and no squash bound stands. -/
def Slot.install (s : Slot) (p : CfgPlane) : Slot :=
  let g := (s.cfg.setPlane s.cfg.act p).setPlane (1 - s.cfg.act) {}
  { s with cfg := { g with armed := false, sw := .active, eos := [], chans := [] }, ctx := [], bounds := [] }

/-- The entry token of a core (R381 step 5). -/
def Chip.entryToken (c : Chip) (q : LaunchReq) (chan pid core : Nat) : Token :=
  { hdr := mkHdr (c.slot core pid).cfg.act q.taint 0 0 chan (c.lin pid core * 2 ^ 38), payload := q.payload, pid, dst := core,
    src := q.who.core, link := if q.host.isSome then 7 else linkCode q.who.core core }

/-- R381, steps 4 and 5: the launch stands, its image is installed and its entry tokens set out, each with a credit of its core (R401). -/
def Chip.startLaunch (c : Chip) (q : LaunchReq) (g : Image) (w1 : Nat) (ox oy : Nat) : Nat × Chip :=
  let pid := q.who.pid
  let p := c.part pid
  let nt := bitAt w1 23
  let l : Launch := {
    lid := p.nextLid, ox, oy, lw := g.lw, lh := g.lh, ordered := q.ordered, cores := q.cores, trap := q.trap, ninst := bits w1 48 16,
    resSlice := bits w1 48 16 * g.bigSlice, nt, nch := bits w1 16 7, who := q.who, host := q.host }
  let c := c.setPart { p with launches := p.launches ++ [l], nextLid := (p.nextLid + 1) % 2 ^ 16 }
  let c := c.modSlot q.who.core pid fun s => s.reserve nt
  let c := l.coreList.foldl (fun c k => c.modSlot k pid fun s => s.install (g.plane ox oy)) c
  let c := l.coreList.foldl (fun c k => c.startBindings k pid) c
  let c := c.trace 6 (coreAt ox oy) pid l.lid 0
  (l.word, c.modSlot q.who.core pid fun s => { s with outq := s.outq ++ [{ tokens := l.coreList.map (c.entryToken q (bits w1 0 7) pid) }] })

/-- R381. The whole of a `LAUNCH`, by an instance or a host packet: the result word. -/
def Chip.launch (c : Chip) (x : Actor) (q : LaunchReq) : Nat × Chip :=
  match c.readDesc x q.desc 2 with
  | (.error _, c) => (refusedWord 6, c)
  | (.ok d, c) =>
    let w1 := d.getD 1 0
    if launchBad w1 q.rect then (refusedWord 3, c)
    else match c.readImage x (d.getD 0 0) (bits q.rect 16 3) (bits q.rect 20 3) with
      | (.error _, c) => (refusedWord 6, c)
      | (.ok none, c) => (refusedWord 3, c)
      | (.ok (some g), c) =>
        if g.badRoute.isSome then (refusedWord 4, c)
        else match (c.part x.pid).placeLaunch g q.rect with
          | .error r => (refusedWord r, c)
          | .ok (ox, oy) =>
            let n := bits w1 48 16
            if q.cores && n = 0 then (refusedWord 3, c)
            else if q.cores && !(rectCores ox oy (2 ^ g.lw) (2 ^ g.lh)).all (c.residentRoom x.pid n g.bigSlice) then (refusedWord 2, c)
            else if !g.entryOk (bits w1 0 7) then (refusedWord 3, c)
            else c.startLaunch q g w1 ox oy

/-- R381. Places a rectangle, installs a configuration, sends the entry tokens; the return register receives the result word. -/
def execLaunch (_scope : Scope) (trap cores ordered : Bool) (ret : Option (BitVec 5)) (s : State) : Out :=
  classC (fun c i a o =>
    let (v, c) := c.launch i.actor { desc := o.a.toNat, rect := o.b.toNat, payload := o.c, taint := o.taint, ordered, cores, trap,
                                     who := i.issuer a.idx }
    c.returnVal i.iid ret (wordOf v) o.taint) s

/-! ### The end of a launch (R382) -/

/-- Whether a core holds something of its launch: an instance or a token of channels 0 to 125, on it or on its way, an engine command that
no instance of channels 126 and 127 issued, a port binding that waits. -/
def Chip.holdsLaunch (c : Chip) (pid core : Nat) : Bool :=
  let s := c.slot core pid
  ((c.slotInsts core pid).any fun i => i.chan < 126) || (s.mat.entries.any fun e => e.chan < 126 && 0 < e.size) ||
    (s.mat.held.any fun t => hdrChan t.hdr < 126) || !s.mat.index.isEmpty ||
    (c.flights.any fun t => t.pid == pid && t.dst == core && hdrChan t.hdr < 126) ||
    (c.slots.any fun u => u.pid == pid && u.outq.any fun o => o.tokens.any fun t => t.dst == core && hdrChan t.hdr < 126) ||
    (s.engs.toList.any fun e => e.cmds.any fun q => q.who.chan < 126) || ((c.coreSt core).binds.any fun b => b.1 == pid) ||
    ((c.part pid).cfgq.any fun q => q.who.core == core && q.who.chan < 126)

/-- Whether a launch has nothing left. -/
def Chip.launchOver (c : Chip) (pid : Nat) (l : Launch) : Bool := l.coreList.all fun k => !c.holdsLaunch pid k

/-- Whether a launch may end: nothing of it is left, and its timetable, if it has one, has still to be told. -/
def Chip.mayEnd (c : Chip) (pid : Nat) (l : Launch) : Bool := c.launchOver pid l && !(l.ending && l.tt.isSome)

/-- R382. A launch with nothing left first has its timetable detached (R151); then its cores are free and NT's token goes out. -/
def Chip.endLaunch (c : Chip) (pid lid : Nat) : Chip :=
  match (c.part pid).launch lid with
  | none => c
  | some l =>
    if !c.mayEnd pid l then c
    else if l.tt.isSome then c.modPart pid fun p => p.setLaunch { l with ending := true }
    else ((c.trace 7 (coreAt l.ox l.oy) pid lid 0).modPart pid fun p => { p with launches := p.launches.filter fun m => m.lid != lid }).sendDone l.who l.nt l.nch
      (donePayload false 7 0 lid)

/-- R382. The launch with number `n` of the focus's partition ends. -/
def execLaunchEnd (s : State) : Out := onChip (fun c fo => c.endLaunch fo.pid fo.n) s

end Sys2Proof.Machine
end

