-- ==== Sys2Proof/Machine/System.lean ====
section
/-! DEFINITION. The system instructions (R425 to R437) with their registers (R429 to R434), the delivery of records (R418, R419, R422), and
the events by which `TLBI`, `CINV`, `KEYLD` and `SWR` complete. -/

namespace Sys2Proof.Machine

/-! ### Traps and returns (R426, R427) -/

/-- The record of a `TRAP` (R426, R419): BLOCK is the block that the branch names. -/
def trapRec (i : Inst) (idx target handle code : Nat) (o : Operands) : FaultRec :=
  { cause := 0x01, index := idx, handle, block := target, info0 := o.a.toNat, info1 := code, chan := i.chan, tag := i.tag,
    taint := o.taint }

/-- `TRAP` at commit (R426): its record is queued and the instance gets the handle that will suspend it at its next block. A second `TRAP`
of a block names the same handle; that of a supervisor is a double fault (R424). -/
def Chip.trap (c : Chip) (i : Inst) (idx target code : Nat) (o : Operands) : Chip :=
  let old := (c.inst i.iid).handle
  let h := if old = 0 then (c.slot i.core i.pid).recs.handle else old
  let c := if old = 0 then c.modSlot i.core i.pid fun s => { s with recs := { s.recs with handle := nextHandle h } } else c
  let r := trapRec i idx target h code o
  if i.supervisor then (c.stopSlot i.core i.pid 0x01).modInst i.iid fun i => { i with handle := h, held := some r }
  else (c.modInst i.iid fun i => { i with handle := h, wasBrk := false }).queueRecord i.core i.pid r

/-- R426. Records `SYS_TRAP` and suspends the instance at its next block. -/
def execTrap (code : BitVec 16) (s : State) : Out :=
  classC (fun c i a o =>
    let target := match i.frame with
      | some f => match f.branch with
        | some b => b.target.toNat
        | none => 0
      | none => 0
    c.trap i a.idx target code.toNat o) s

/-- A supervisor's privilege check (R417): `n` is the opcode. -/
def needsSup (n : Nat) (i : Inst) : Option AFault := if i.supervisor then none else some { cause := 0x03, info0 := n }

/-- The branch of an `ERET` (R427): the handle, and slot b. -/
def eretBranch (idx : Nat) (_i : Inst) (_f : Frame) (o : Operands) : Except AFault Branch :=
  .ok { idx, target := 0, op := .val (wordOf (bits o.a.toNat 0 32)) o.ta, op2 := .val o.b o.tb, taint := o.taint }

/-- The handle that an `ERET` names. -/
def Branch.handle (b : Branch) : Nat := b.op.value.toNat % 2 ^ 32

/-- R427. Check of an `ERET` at commit: a nonzero handle names an instance suspended in the slot. -/
def Chip.checkEret (c : Chip) (i : Inst) (b : Branch) : Option AFault :=
  if b.handle ≠ 0 ∧ (c.byHandle i.core i.pid b.handle).isNone then some { cause := 0x05 } else none

/-- `ERET` at commit: the instance named is disposed of, and the trap instance ends. -/
def goEret (dispose : Chip → Inst → Branch → Chip) (c : Chip) (i : Inst) (_f : Frame) (b : Branch) : Chip :=
  let c := c.closeCommit i.iid
  let c := if b.handle = 0 then c else match c.byHandle i.core i.pid b.handle with
    | some j => dispose c j b
    | none => c
  c.endInst i.iid

/-- An `ERET`'s meaning. -/
def eretMeaning (fire : Inst → Frame → Operands → Except AFault Branch) (dispose : Chip → Inst → Branch → Chip) (s : State) : Out :=
  classB fire (goEret dispose) s (needsSup 0x1C1)

/-- R427 `.res`. The suspended instance continues at BLOCK. -/
def execEretRes (s : State) : Out := eretMeaning (eretBranch s.focus.idx) (fun c j _ => c.resume j.iid j.block none) s

/-- R427 `.rv`. It continues at BLOCK with g28 := b. -/
def execEretRv (s : State) : Out :=
  eretMeaning (eretBranch s.focus.idx) (fun c j b => c.resume j.iid j.block (some (b.op2.value, b.op2.tainted))) s

/-- R427 `.go`. It continues at block b; a misaligned b faults as `ERET` fires. -/
def execEretGo (s : State) : Out :=
  eretMeaning (fun i f o => if o.b.toNat % 8 ≠ 0 then .error (adF 0x23 o.b.toNat) else eretBranch s.focus.idx i f o)
    (fun c j b => c.resume j.iid b.op2.value.toNat none) s

/-- R427 `.kill`. It ends. -/
def execEretKill (s : State) : Out := eretMeaning (eretBranch s.focus.idx) (fun c j _ => c.endInst j.iid) s

/-- R428. `MOV`, or `SYS_BRK` with BRKEN = 1. -/
def execBrk (t1 t0 : Option Target) (s : State) : Out :=
  onChip (fun c fo => c.fireT fo [t1, t0] fun c i _ o =>
    if (c.part i.pid).reg 0x034 % 2 = 1 && !i.brkOff then (.error { cause := 0x02 }, c) else (.ok (o.a, o.taint), c)) s

/-! ### Record delivery (R418, R419, R422) -/

/-- The words of a record (R419). -/
def recordWords (r : FaultRec) (lin seq : Nat) : List Nat :=
  [ r.cause % 2 ^ 8 * 2 ^ 56 + r.sub % 2 ^ 8 * 2 ^ 48 + b2n r.eng * 2 ^ 47 + r.src % 8 * 2 ^ 44 + r.index % 64 * 2 ^ 36 +
      r.tl % 16 * 2 ^ 32 + r.handle % 2 ^ 32,
    r.block % 2 ^ 64, r.addr % 2 ^ 64, r.num % 2 ^ 32 * 2 ^ 32 + r.chunk % 2 ^ 32, r.info0 % 2 ^ 64, r.info1 % 2 ^ 64,
    r.chan % 2 ^ 7 * 2 ^ 48 + r.tag % 2 ^ 48, lin % 2 ^ 10 * 2 ^ 32 + seq % 2 ^ 32 ]

/-- Own-scratchpad window address of record place `k` (R418). -/
def Part.placeAddr (p : Part) (k : Nat) : Nat := 0xFFFF81 * 2 ^ 40 + bits (p.reg 0x030) 12 9 * 4096 + 64 * (k % 64)

/-- Whether the first record of a slot may be written now (R418): its place is free, the reserve has room (R399), its instance has left
its block. -/
def Chip.recordReady (c : Chip) (core pid : Nat) : Option (Nat × FaultRec) :=
  let s := c.slot core pid
  match s.recs.wait with
  | [] => none
  | (q, r) :: _ =>
    let leaving := c.insts.any fun i => i.core == core && i.pid == pid && i.handle == r.handle && r.handle != 0 && i.state == .committing
    if s.pstate == .run && !leaving && (s.recs.used.all fun u => u.1 != q % 64) && c.trapTokens core pid < 16 then some (q, r) else none

/-- R422. The record is written, then its token sets out on channel 127. A record that cannot be delivered is a double fault (R424). -/
def Chip.deliverRecord (c : Chip) (core pid : Nat) : Chip :=
  match c.recordReady core pid with
  | none => c
  | some (q, r) =>
    let c := c.modSlot core pid fun s => { s with recs := { s.recs with wait := s.recs.wait.drop 1 } }
    let p := c.part pid
    if !p.canTrap then c.stopSlot core pid r.cause
    else
      let bytes := (recordWords r (c.lin pid core) q).flatMap (leBytes 8)
      match c.engineWrite { pid, core } (p.placeAddr q) bytes r.taint with
      | (.error _, c) => c.stopSlot core pid r.cause
      | (.ok _, c) =>
        let c := c.modSlot core pid fun s => { s with recs := { s.recs with used := s.recs.used ++ [(q % 64, q)] } }
        { c with flights := c.flights ++ [{
          hdr := mkHdr (c.slot core pid).cfg.act false 4 0 127 r.tag, payload := wordOf (p.placeAddr q), pid, dst := core, src := core }] }

/-- R422. See `Chip.deliverRecord`. -/
def execRecordDelivery (s : State) : Out := onChip (fun c fo => c.deliverRecord fo.core fo.pid) s

/-! ### Registers (R429 to R433) -/

/-- Access that a level has to a register (R430). -/
inductive RegAccess where
  | none | ro | rw | wo
  deriving DecidableEq, Repr

/-- Registers that only a supervisor reaches, those it writes and those it only reads (R430). -/
def isSupWritable (n : Nat) : Bool :=
  n == 0x010 || n == 0x011 || (0x020 ≤ n && n ≤ 0x02F) || (0x030 ≤ n && n ≤ 0x034) || (0x040 ≤ n && n ≤ 0x044)
def isSupReadable (n : Nat) : Bool := n == 0x045 || (0x050 ≤ n && n ≤ 0x052) || (0x060 ≤ n && n ≤ 0x07F)

/-- Access of a level to a register; none for a reserved number (R430). -/
def regAccess (sup : Bool) (n : Nat) : Option RegAccess :=
  if n = 0x000 then some .rw
  else if n = 0x001 then some .ro
  else if n = 0x090 then some .wo
  else if isSupWritable n then some (if sup then .rw else .none)
  else if isSupReadable n then some (if sup then .ro else .none)
  else none

/-- Code of a pre-emption state (R432). -/
def PState.code : PState → Nat
  | .run => 0 | .mark => 1 | .drain => 2 | .save => 3 | .out => 4 | .restore => 5

/-- PSTAT of a core (R432). -/
def Slot.pstat (s : Slot) : Nat :=
  match s.stop with
  | some cause => 2 ^ 63 + cause % 2 ^ 8 * 2 ^ 48 + s.pstate.code
  | none => s.pstate.code

/-- PIDR of a partition (R432). -/
def Part.pidr (p : Part) : Nat := p.part % 2 ^ 16 * 2 ^ 16 + p.pid % 2 ^ 8

/-- A register's value and taint as an instance reads it (R429, R432). -/
def Chip.readReg (c : Chip) (i : Inst) (n : Nat) : Word × Bool × Chip :=
  let p := c.part i.pid
  if n = 0x000 then (wordOf i.fpc.word, i.fpc.taint, c)
  else if n = 0x001 then let (v, c) := c.readCycle i.core; (wordOf v, true, c)
  else if n = 0x090 then (0, false, c)
  else if n = 0x050 then (wordOf p.pidr, false, c)
  else if n = 0x051 then (wordOf (b2n p.mgr), false, c)
  else if n = 0x052 then (wordOf (c.slot i.core i.pid).pstat, true, c)
  else (wordOf (p.reg n), p.rtaint.contains n, c)

/-- R429. Reads the register that slot a `<11:0>` names, with its taint bit. -/
def execSrd (t1 t0 : Option Target) (s : State) : Out :=
  onChip (fun c fo => c.fireT fo [t1, t0] fun c i _ o =>
    let n := bits o.a.toNat 0 12
    match regAccess i.supervisor n with
    | none => (.error { cause := 0x04, info0 := n }, c)
    | some .none => (.error { cause := 0x03, info0 := n }, c)
    | some _ => let (v, t, c) := c.readReg i n; (.ok (v, t), c)) s

/-- Whether an `SWR` of a register is beyond an instance's level (R417, R429). -/
def swrPriv (n : Nat) (i : Inst) : Option AFault :=
  match regAccess i.supervisor n with
  | some .rw => none
  | some .wo => none
  | _ => some { cause := 0x03, info0 := n }

/-- Only the bits of the listed fields (low bit, width) are set. -/
def onlyFields (v : Nat) (fs : List (Nat × Nat)) : Bool :=
  v == fs.foldl (fun n f => n + bits v f.1 f.2 * 2 ^ f.1) 0

/-- Whether a value may be written to a register as far as its fields go (R432); a node window is checked at use (R45). -/
def fieldsOk (n v : Nat) : Bool :=
  if 0x020 ≤ n && n ≤ 0x02F then true
  else match n with
    | 0x010 => onlyFields v [(16, 32)]
    | 0x011 => onlyFields v [(0, 16)]
    | 0x030 => onlyFields v [(12, 9), (0, 1)]
    | 0x031 | 0x032 => onlyFields v [(3, 61)]
    | 0x033 => onlyFields v [(8, 5), (0, 5)] && 1 ≤ bits v 8 5 && bits v 8 5 ≤ 16 && 1 ≤ bits v 0 5 && bits v 0 5 ≤ 16
    | 0x034 => onlyFields v [(0, 1)]
    | 0x040 => onlyFields v [(32, 6), (0, 5)] && bits v 32 6 + bits v 0 5 ≤ 32
    | 0x041 => onlyFields v [(32, 5), (0, 4)] && bits v 32 5 + bits v 0 4 ≤ 16
    | 0x042 => onlyFields v [(32, 8), (0, 7)] && bits v 32 8 + bits v 0 7 ≤ 128
    | 0x043 => onlyFields v [(0, 4)] && v ≤ 8
    | 0x044 => onlyFields v [(48, 12), (32, 11), (16, 8), (0, 14)] && bits v 48 12 ≤ 2048 && bits v 32 11 ≤ 1024 && bits v 16 8 ≤ 128 &&
        bits v 0 14 ≤ 8192
    | _ => false

/-- Whether two ranges of units meet. -/
def unitsMeet (a m b n : Nat) : Bool := m != 0 && n != 0 && a < b + n && b < a + m

/-- Whether two partitions share a core. -/
def Part.meets (p q : Part) : Bool := p.ox < q.ox + q.w && q.ox < p.ox + p.w && p.oy < q.oy + q.h && q.oy < p.oy + p.h

/-- Whether a partition's slot is resident on a core: not swapped out (R433, R438). -/
def Chip.resident (c : Chip) (pid core : Nat) : Bool :=
  let p := c.part pid
  p.inRegion (coreX core) (coreY core) 1 1 && (c.slot core pid).pstate != .out

/-- The sums of R433 on one core for partition `p`. -/
def Chip.totalsOk (c : Chip) (p : Part) (core : Nat) : Bool :=
  let others := c.parts.filter fun q => q.pid != p.pid && c.resident q.pid core
  let sum := fun (f : Part → Nat) => f p + sumNat (others.map f)
  sum (fun q => bits (q.reg 0x043) 0 4) ≤ 32 && sum Part.msQuota ≤ 8192 && sum Part.frameQuota ≤ 128 && sum Part.placeQuota ≤ 1024 &&
    sum Part.sliceQuota ≤ 2048

/-- Whether a partition's ranges overlap none of another's (R433). -/
def rangesApart (p q : Part) : Bool :=
  let size := fun (r : Part) n w => bits (r.reg n) 32 w
  let base := fun (r : Part) n w => bits (r.reg n) 0 w
  !unitsMeet (base p 0x042 7) (size p 0x042 8) (base q 0x042 7) (size q 0x042 8) &&
    (!p.meets q ||
      (!unitsMeet (base p 0x040 5) (size p 0x040 6) (base q 0x040 5) (size q 0x040 6) &&
        !unitsMeet (base p 0x041 4) (size p 0x041 5) (base q 0x041 4) (size q 0x041 5)))

/-- R433. Whether a partition with the quota and placement registers that it would have breaks no rule. -/
def Chip.placementOk (c : Chip) (p : Part) : Bool :=
  let fr := p.reg 0x030
  p.launches.isEmpty && p.cores.all (c.totalsOk p) && (c.parts.all fun q => q.pid == p.pid || rangesApart p q) &&
    (fr % 2 == 0 || (bits fr 12 9 + 1) * 4096 ≤ bits (p.reg 0x040) 32 6 * 2 ^ 16)

/-- Registers whose writes R433 governs. -/
def isPlacement (n : Nat) : Bool := n == 0x030 || (0x040 ≤ n && n ≤ 0x044)

/-- R429, R433. Check of an `SWR` at commit: a refused write of a register other than FPC raises `SYS_QUOTA`. -/
def Chip.checkSwr (c : Chip) (i : Inst) (n : Nat) (v : Word) : Option AFault :=
  if n = 0x000 || n = 0x090 then none
  else if fieldsOk n v.toNat && (!isPlacement n || c.placementOk ((c.part i.pid).setReg n v false)) then none
  else some { cause := 0x06 }

/-- R429, R431. Writes a region register: it takes effect when the write completes on every core, and the next block waits for that. -/
def execSwr (reg : BitVec 12) (s : State) : Out :=
  classC (fun c i a o => c.addPend i (.swr reg.toNat o.a o.taint) a.idx) s (swrPriv reg.toNat)

/-- R429, R433. Writes a quota or placement register, checked and applied on every core in one step; the next block waits for its
completion. -/
def execQuotaWrite (reg : BitVec 12) (s : State) : Out :=
  classC (fun c i a o =>
    (c.modPart i.pid fun p => p.setReg reg.toNat o.a o.taint).addPend i (.swr reg.toNat o.a o.taint) a.idx) s (swrPriv reg.toNat)

/-- The register or key slot that an operation is about, so that two of them complete in their order. -/
def PendKind.target : PendKind → Option (Nat × Nat)
  | .swr n _ _ => some (0, n)
  | .key id _ => some (1, id)
  | _ => none

/-- The operation of a partition with a number, if none on the same register or key slot comes before it. -/
def Chip.pendDue (c : Chip) (pid n : Nat) : Option Pend :=
  match c.pendAt pid n with
  | none => none
  | some q => if (c.part pid).pends.any fun x => x.n < n && x.kind.target.isSome && x.kind.target == q.kind.target then none else some q

/-- R429. A region register's write completes, once no `.sc` access waits that was checked under the old value (notes/assumptions 96). -/
def execSwrRegionComplete (s : State) : Out :=
  onChip (fun c fo => match c.pendDue fo.pid fo.n with
    | some q => match q.kind with
      | .swr n v t =>
        if isPlacement n then c.endPend fo.pid q
        else if c.scWaits fo.pid then c else (c.modPart fo.pid fun p => p.setReg n v t).endPend fo.pid q
      | _ => c
    | none => c) s

/-- R241, R242. Writes FPC at commit, over the flags of the block itself; a word that breaks R240 is refused whole. -/
def execSwrFpc (s : State) : Out :=
  classC (fun c i _ o => c.modInst i.iid fun i => { i with fpc := i.fpc.written o.a.toNat o.ta }) s

/-! ### Counters (R434) -/

/-- How many counters a group has; none for a reserved group. -/
def counterGroup (g : Nat) : Option Nat :=
  if g ≤ 3 then some 18 else if g = 8 then some 9 else if g = 9 then some 6 else if g = 0x0A then some 29 else if g = 0x0B then some 1
  else if g = 0x0C then some 3 else none

/-- Whether a counter counts cycles or issue groups, which the model does not time (notes/assumptions 1): by how much is free. -/
def untimedCounter (g k : Nat) : Bool := (g ≤ 3 && 2 ≤ k) || (g == 8 && k ≤ 5) || (g == 0x0A && k ≤ 26)

/-- Value of a counter; one that counts what the model does not time has gone on by an amount that it leaves free, where what it counts has
occurred since it was last read or cleared (R411, `drain`). -/
def Chip.perfCounter (c : Chip) (core pid g k : Nat) : Nat × Chip :=
  let s := c.slot core pid
  let t := c.tower (towerOf core)
  if untimedCounter g k && s.waited.contains (g * 256 + k) then
    let (w, c) := c.fresh
    let v := satAdd32 (s.counter (g * 256 + k)) (w.toNat % 2 ^ 32)
    (v, c.modSlot core pid fun s => { s with counts := setNat s.counts (g * 256 + k) v, waited := s.waited.filter (· != g * 256 + k) })
  else if g ≤ 3 && k < 2 then (if k = 0 then (s.cp g).satc else (s.cp g).nanc, c)
  else if g = 0x0B then (match (c.part pid).launchAt core with | some l => l.misses | none => 0, c)
  else if g = 0x0C then (if k = 0 then (c.coreSt core).errs else if k = 1 then t.dramErrs else t.retries, c)
  else (s.counter (g * 256 + k), c)

/-- R434. A counter of the slot on its core, tainted; the record of a reserved selector names the opcode (R420). -/
def execPerfr (t1 t0 : Option Target) (s : State) : Out :=
  onChip (fun c fo => c.fireT fo [t1, t0] fun c i _ o =>
    let g := bits o.a.toNat 8 8
    let k := bits o.a.toNat 0 8
    match counterGroup g with
    | some n =>
      if k < n then let (v, c) := c.perfCounter i.core i.pid g k; (.ok (wordOf v, true), c)
      else (.error { cause := 0x04, info0 := 0x1C9 }, c)
    | none => (.error { cause := 0x04, info0 := 0x1C9 }, c)) s

/-- Clear counter `k` of group `g`. -/
def Chip.clearCounter (c : Chip) (core pid g k : Nat) : Chip :=
  if g ≤ 3 && k < 2 then c.modSlot core pid fun s => s.setCp g (if k = 0 then { s.cp g with satc := 0 } else { s.cp g with nanc := 0 })
  else if g = 0x0B then c.modLaunchAt core pid fun l => { l with misses := 0 }
  else if g = 0x0C then c
  else c.modSlot core pid fun s =>
    { s with counts := s.counts.filter fun x => x.1 != g * 256 + k, waited := s.waited.filter (· != g * 256 + k) }

/-- R434. Check of an `SWR` of PCLR: a reserved selector; the record names the register (R420). -/
def checkPclr (v : Word) : Option AFault :=
  let k := bits v.toNat 0 8
  match counterGroup (bits v.toNat 8 8) with
  | some n => if k < n || k = 0xFF then none else some { cause := 0x04, info0 := 0x090 }
  | none => some { cause := 0x04, info0 := 0x090 }

/-- R434. Clears a counter, or a whole group with index 0xFF. -/
def execPclrClear (s : State) : Out :=
  classC (fun c i _ o =>
    let g := bits o.a.toNat 8 8
    let k := bits o.a.toNat 0 8
    if k = 0xFF then (List.range ((counterGroup g).getD 0)).foldl (fun c j => c.clearCounter i.core i.pid g j) c
    else c.clearCounter i.core i.pid g k) s

/-! ### Translation and code caches (R435, R436) -/

/-- A `TLBI`'s meaning: the issuer's next block waits until the invalidation completes. -/
def tlbiMeaning (kind : Nat) (va asid : Operands → Nat) (s : State) : Out :=
  classC (fun c i a o => c.addPend i (.tlbi kind (va o) (asid o)) a.idx) s (needsSup 0x1C4)

/-- R435 `.va`. The page holding a, under ASID b or global. -/
def execTlbiVa (s : State) : Out := tlbiMeaning 0 (fun o => o.a.toNat) (fun o => bits o.b.toNat 0 16) s

/-- R435 `.asid`. Every non-global translation of an ASID. -/
def execTlbiAsid (s : State) : Out := tlbiMeaning 1 (fun _ => 0) (fun o => bits o.a.toNat 0 16) s

/-- R435 `.all`. Every translation of the partition. -/
def execTlbiAll (s : State) : Out := tlbiMeaning 2 (fun _ => 0) (fun _ => 0) s

/-- R435 `.vag`. The page holding a, under every ASID. -/
def execTlbiVag (s : State) : Out := tlbiMeaning 3 (fun o => o.a.toNat) (fun _ => 0) s

/-- Whether a `TLBI` covers a cached translation (R435). -/
def Tlb.covered (t : Tlb) (pid kind va asid : Nat) : Bool :=
  let holds := t.base ≤ va && va < t.base + t.size
  t.pid == pid && match kind with
    | 0 => holds && (t.asid == none || t.asid == some asid)
    | 1 => t.asid == some asid
    | 2 => true
    | _ => holds

/-- R60, R435. The invalidation completes: no cached translation that it covers is left, and no engine is in a chunk, nor an `.sc` access in
its queue, that used one. -/
def execTlbiComplete (s : State) : Out :=
  onChip (fun c fo => match c.pendAt fo.pid fo.n with
    | some q => match q.kind with
      | .tlbi kind va asid =>
        if c.scWaits fo.pid || c.midChunk fo.pid then c else ({ c with tlb := c.tlb.filter fun t => !t.covered fo.pid kind va asid } : Chip).endPend fo.pid q
      | _ => c
    | none => c) s

/-- A `CINV`'s meaning. -/
def cinvMeaning (kind : Nat) (s : State) : Out := classC (fun c i a o => c.addPend i (.cinv kind o.a.toNat) a.idx) s

/-- R436 `.blk`. The block at a. -/
def execCinvBlk (s : State) : Out := cinvMeaning 0 s
/-- R436 `.pg`. Every block that begins in the 4 KiB page holding a. -/
def execCinvPg (s : State) : Out := cinvMeaning 1 s
/-- R436 `.all`. Every block of the slot. -/
def execCinvAll (s : State) : Out := cinvMeaning 2 s

/-- Whether a `CINV` removes a mapped block (R436). -/
def Mapped.covered (b : Mapped) (pid kind addr : Nat) : Bool :=
  b.pid == pid && match kind with
    | 0 => b.addr == addr
    | 1 => b.addr / 4096 == addr / 4096
    | _ => true

/-- R436. The named blocks are gone from every core of the region. -/
def execCinvComplete (s : State) : Out :=
  onChip (fun c fo => match c.pendAt fo.pid fo.n with
    | some q => match q.kind with
      | .cinv kind addr =>
        (((c.part fo.pid).cores.filter fun k => c.cores.any fun x => x.id == k).foldl (fun c k =>
          c.modCore k fun st => { st with blocks := st.blocks.filter fun b => !b.covered fo.pid kind addr }) c).endPend fo.pid q
      | _ => c
    | none => c) s

/-! ### Keys (R437, R452, R453) -/

/-- The 72 bytes of a key image, read as loads of 8 bytes (R192, R437). -/
def Chip.keyImage (c : Chip) (i : Inst) (va : Nat) : Except AFault (List Nat) × Chip :=
  (List.range 9).foldl (fun (r, c) k => match r with
    | .error f => (.error f, c)
    | .ok bs => match c.access i.actor .read false ((va + 8 * k) % 2 ^ 64) 8 with
      | (.error f, c) => (.error f, c)
      | (.ok pl, c) =>
        let (v, _, c) := c.readPlace pl 8
        (Except.ok (bs ++ (leBytes 8 v).map BitVec.toNat), c)) ((.ok [] : Except AFault (List Nat)), c)

/-- A key fault (R420). -/
def keyF (cause va id : Nat) : AFault := { cause, addr := va, info0 := id }

/-- R437. Check of a `KEYLD`: the slot's number and assignment, then for `.ld` the image and its integrity. -/
def Chip.checkKeyld (c : Chip) (i : Inst) (ld : Bool) (id va : Nat) : Option AFault × Chip :=
  let p := c.part i.pid
  let img := if ld then va else 0
  if id = 0 || 2 ^ 11 ≤ id || !p.hasKey id then (some (keyF 0x07 img id), c)
  else if !ld then (none, c)
  else match c.keyImage i va with
    | (.error f, c) => (some f, c)
    | (.ok bs, c) => (if (Crypto.unwrap (Crypto.beBytes 32 p.wrapKey) bs).isNone then some (keyF 0x08 va id) else none, c)

/-- R437 `.ld`. The keys of an image are on their way to a key slot. -/
def execKeyldLd (s : State) : Out :=
  classC (fun c i a o => match c.keyImage i o.b.toNat with
    | (.error _, c) => c
    | (.ok bs, c) =>
      c.addPend i (.key o.a.toNat ((Crypto.unwrap (Crypto.beBytes 32 (c.part i.pid).wrapKey) bs).map Crypto.beNat)) a.idx) s
    (needsSup 0x1C8)

/-- R437 `.clr`. A key slot is to be unloaded. -/
def execKeyldClr (s : State) : Out := classC (fun c i a o => c.addPend i (.key o.a.toNat none) a.idx) s (needsSup 0x1C8)

/-- Load or unload a key slot (R437, R453). -/
def Chip.setKey (c : Chip) (id : Nat) (content : Option Nat) : Chip :=
  { c with keys := c.keys.filter (fun k => k.id != id) ++ (content.map fun x => ({ id, content := x } : KeySlot)).toList }

/-- R437. Every memory controller and the host path use the new contents, once no `.sc` access waits whose place was found under the old
(notes/assumptions 96). -/
def execKeyldComplete (s : State) : Out :=
  onChip (fun c fo => match c.pendDue fo.pid fo.n with
    | some q => match q.kind with
      | .key id content => if c.scWaits fo.pid then c else (c.setKey id content).endPend fo.pid q
      | _ => c
    | none => c) s

end Sys2Proof.Machine
end

