-- ==== Sys2Proof/Machine/Preempt.lean ====
section
/-! DEFINITION. Pre-emption with `PSWAP` (R438 to R442), retirement and migration (R443, R448), soft errors (R444, R445), heat (R455), and
the walks of the translation hardware (R56 to R59). -/

namespace Sys2Proof.Machine

/-! ### Requests (R438, R441) -/

/-- A request of a partition, by an instance or by Ebgokai (R438): no instance waits for it. -/
def Chip.addRequest (c : Chip) (pid : Nat) (kind : PendKind) (who : Issuer) : Chip :=
  c.modPart pid fun p => { p with pends := p.pends ++ [{ n := p.nextPend, kind, who }], nextPend := p.nextPend + 1 }

/-- Whether some request wants a partition out. -/
def Chip.wantedOut (c : Chip) (pid : Nat) : Bool := c.parts.any fun p => p.pends.any fun q => match q.kind with
  | .pswap (some a) _ _ _ => a == pid
  | _ => false

/-- Whether some request wants a partition in on a core: for `.xchg` once the other partition is out of it (R441). -/
def Chip.wantedIn (c : Chip) (core pid : Nat) : Bool := c.parts.any fun p => p.pends.any fun q => match q.kind with
  | .pswap o (some b) _ _ => b == pid && match o with
    | some a => (c.slot core a).pstate == .out
    | none => true
  | _ => false

/-- Whether every core of a partition's region is in a state; a partition that has ended is in none and holds up nothing. -/
def Chip.wholly (c : Chip) (pid : Nat) (st : PState) : Bool := !c.hasPart pid || (c.part pid).cores.all fun k => (c.slot k pid).pstate == st

/-- Whether a partition's slot is occupied on a core of its region by another that is not out (R441). -/
def Chip.slotTaken (c : Chip) (p : Part) : Bool :=
  c.parts.any fun q => q.pid != p.pid && q.slot == p.slot && q.meets p &&
    (p.cores.any fun k => q.inRegion (coreX k) (coreY k) 1 1 && (c.slot k q.pid).pstate != .out)

/-- Errors of `.out` (R441). -/
def Chip.outBad (c : Chip) (own a : Nat) : Bool := !c.hasPart a || a == own || !c.wholly a .run

/-- The requests of R441 that are refused with `PS_STATE`. -/
def Chip.pswapBad (c : Chip) (own : Nat) (out inn : Option Nat) : Bool :=
  match out, inn with
  | some a, none => c.outBad own a
  | none, some b => !c.hasPart b || !c.wholly b .out || c.slotTaken (c.part b)
  | some a, some b =>
    let p := c.part a
    let q := c.part b
    c.outBad own a || !c.hasPart b || !c.wholly b .out || p.slot != q.slot || p.ox != q.ox || p.oy != q.oy || p.w != q.w || p.h != q.h
  | none, none => true

/-- R416, R441. `PSWAP` needs a supervisor with the MGR right. -/
def Chip.pswap (c : Chip) (i : Inst) (idx : Nat) (out inn : Option Nat) (dn : Bool) (dch : Nat) : Chip :=
  let who := i.issuer idx
  let c := c.modSlot i.core i.pid fun s => s.reserve dn
  if c.pswapBad i.pid out inn then c.errorDone who 7 0 0 dn dch 0 { cause := 0x09 }
  else c.addRequest i.pid (.pswap out inn dn dch) who

/-- A `PSWAP`'s meaning: `f` answers the partitions that its operands name to go out and to come in. -/
def pswapMeaning (dch : BitVec 7) (dn : Bool) (f : Operands → Option Nat × Option Nat) (s : State) : Out :=
  classC (fun c i a o => c.pswap i a.idx (f o).1 (f o).2 dn dch.toNat) s fun i =>
    if i.supervisor && (s.chip.part i.pid).mgr then none else some { cause := 0x03, info0 := 0x1C7 }

/-- R441 `.out`. Pre-empts partition a. -/
def execPswapOut (dch : BitVec 7) (dn : Bool) (s : State) : Out := pswapMeaning dch dn (fun o => (some (bits o.a.toNat 0 8), none)) s
/-- R441 `.in`. Restores partition a. -/
def execPswapIn (dch : BitVec 7) (dn : Bool) (s : State) : Out := pswapMeaning dch dn (fun o => (none, some (bits o.a.toNat 0 8))) s
/-- R441 `.xchg`. Pre-empts a and restores b on each core together. -/
def execPswapXchg (dch : BitVec 7) (dn : Bool) (s : State) : Out :=
  pswapMeaning dch dn (fun o => (some (bits o.a.toNat 0 8), some (bits o.b.toNat 0 8))) s

/-- R441. Every core has reached OUT, or RUN for what comes in: DONE is sent. -/
def execPswapComplete (s : State) : Out :=
  onChip (fun c fo => match c.pendAt fo.pid fo.n with
    | some q => match q.kind with
      | .pswap out inn dn dch =>
        let ok := (match out with | some a => c.wholly a .out | none => true) && (match inn with | some b => c.wholly b .run | none => true)
        if ok then
          (c.modPart fo.pid fun p => { p with pends := p.pends.filter fun x => x.n != q.n }).sendDone q.who dn dch (donePayload false 7 0 0)
        else c
      | _ => c
    | none => c) s

/-! ### The states of a slot (R438) -/

/-- A slot changes its state; Sumac records it (R457). -/
def Chip.setPState (c : Chip) (core pid : Nat) (st : PState) : Chip :=
  (c.modSlot core pid fun s => { s with pstate := st }).trace 2 core pid st.code 0

/-- What MARK does (R438): every block that has not begun its commit is discarded, and its instance keeps its frame. -/
def Chip.discardSlot (c : Chip) (core pid : Nat) : Chip :=
  ((c.slotInsts core pid).filter fun i => i.state == .running || i.state == .complete).foldl (fun c i =>
    match c.inst? i.iid with
    | some j =>
      if j.state == .running || j.state == .complete then (c.discardBlock i.iid).modInst i.iid fun j => { j with state := .running } else c
    | none => c) c

/-- R438. The request reaches a core: MARK, which is left at once for DRAIN. With `k` 1 the request is Ebgokai's own, from the inputs. -/
def Chip.preemptAt (c : Chip) (fo : Focus) : Chip :=
  if (c.slot fo.core fo.pid).pstate == .run && c.wantedOut fo.pid then
    let c := c.setPState fo.core fo.pid .mark
    (c.discardSlot fo.core fo.pid).setPState fo.core fo.pid .drain
  else c

/-- R438. See `Chip.preemptAt`. -/
def execPreemptRequest (s : State) : Out :=
  if s.focus.k = 1 then
    takeInput (fun x => match x with
      | .preempt pid => some fun c =>
        if c.hasPart pid && c.wholly pid .run then c.addRequest pid (.pswap (some pid) none false 0) { pid, none := true } else c
      | _ => none) s
  else onChip Chip.preemptAt s

/-- The core beyond side `d` of a core (R372): 1 +x, 2 −x, 3 +y, 4 −y; none at the edge of the region. -/
def Part.neighbour (p : Part) (core d : Nat) : Option Nat :=
  let x := coreX core
  let y := coreY core
  let at_ := fun (x y : Nat) (ok : Bool) => if ok && p.inRegion x y 1 1 then some (coreAt x y) else none
  match d with
  | 1 => at_ (x + 1) y true
  | 2 => at_ (x - 1) y (0 < x)
  | 3 => at_ x (y + 1) true
  | 4 => at_ x (y - 1) (0 < y)
  | _ => none

/-- The side that faces side `d`. -/
def facing (d : Nat) : Nat := if d = 1 then 2 else if d = 2 then 1 else if d = 3 then 4 else 3

/-- Inbound sides from which traffic leaves a core by side `d`, routed x first, then y (R337). -/
def feeds (d : Nat) : List Nat := if d = 1 then [2] else if d = 2 then [1] else if d = 3 then [1, 2, 4] else [1, 2, 3]

/-- Whether a core has sent its marker out by side `d`: it is past MARK, and every inbound side that routes there has delivered its own. A
side beyond which the partition has no core carries no token of it. -/
def Chip.markerSent (c : Chip) (pid core d : Nat) : Bool :=
  let s := c.slot core pid
  let p := c.part pid
  (s.pstate == .drain || s.pstate == .save || s.pstate == .out) &&
    (feeds d).all fun e => s.marks.contains e || (p.neighbour core e).isNone

/-- R438. The marker arrives by side `n`. -/
def Chip.markerArrives (c : Chip) (fo : Focus) : Chip :=
  let s := c.slot fo.core fo.pid
  match (c.part fo.pid).neighbour fo.core fo.n with
  | none => c
  | some k =>
    if s.pstate == .drain && !s.marks.contains fo.n && c.markerSent fo.pid k (facing fo.n) then
      c.modSlot fo.core fo.pid fun s => { s with marks := s.marks ++ [fo.n] }
    else c

/-- R438. See `Chip.markerArrives`. -/
def execPreemptMarkerArrival (s : State) : Out := onChip Chip.markerArrives s

/-- Whether a slot has come to rest (R438, R439): nothing on its way to it, no commit under way, no pending value, no `CRED` without its
acknowledgement, no amplitude command running, no `CFGLD` to do. -/
def Chip.quiet (c : Chip) (core pid : Nat) : Bool :=
  let s := c.slot core pid
  let l := c.slotInsts core pid
  (c.flights.all fun t => !(t.dst == core && t.pid == pid)) &&
    (l.all fun i => i.state != .committing && i.regs.toList.all fun r => !r.pend) &&
    ((s.eng 9).cmds.all fun q => !(q.op == .cred && q.started && !q.done) || (s.eng 9).halted) && s.ampRunning.isNone &&
    (c.part pid).cfgq.all fun q => q.op != .cfgld

/-- A running copy goes back to the first unit that WP does not cover (R183). -/
def Chip.rewindCopy (c : Chip) (core pid cp : Nat) : Chip :=
  match (c.slot core pid).headCmd cp with
  | none => c
  | some q =>
    if !q.started || ((c.slot core pid).eng cp).halted then c
    else
      let low := q.lowest
      let c := c.modSlot core pid fun s =>
        (s.modCmd cp q.num fun q => { q with
          pos := low, parts := q.parts.map fun _ => low, bpos := q.bpos.map fun _ => 0, buf := [], todo := [] }).setWp cp q low
      c.leaveStreams (q.stream core pid cp) fun _ => true

/-- Tier movements in flight are abandoned (R155): those of the timetable by the launch's origin core, those of commands by their own. Their
pages have the states of before, and they start over on resume (`Timetable.keeps`). -/
def Chip.rewindTier (c : Chip) (core pid : Nat) : Chip :=
  match c.ttAt core pid with
  | none => c
  | some (l, tt) =>
    let c := if l.origin != core then c else
      (tt.entries.zipIdx.filter fun x => x.1.stage == 1).foldl (fun c x =>
        c.undoMove core pid l tt x.1 (0, x.2)) c
    (((c.slot core pid).eng 7).cmds.filter fun q => q.started && q.op != .ttload).foldl (fun c q =>
      c.undoMove core pid l tt q.entryOf (core + 1, q.num)) c

/-- Every engine of a slot at its restart point (R439). -/
def Chip.rewind (c : Chip) (core pid : Nat) : Chip :=
  (((List.range 4).foldl (fun c cp => c.rewindCopy core pid cp) c).modSlot core pid Slot.rewindPlane).rewindTier core pid

/-- R438. Every marker has come and the slot is at rest: SAVE. -/
def Chip.drainDone (c : Chip) (fo : Focus) : Chip :=
  let s := c.slot fo.core fo.pid
  let p := c.part fo.pid
  if s.pstate == .drain && c.wantedOut fo.pid && c.quiet fo.core fo.pid &&
      [1, 2, 3, 4].all fun d => s.marks.contains d || (p.neighbour fo.core d).isNone then
    (c.rewind fo.core fo.pid).setPState fo.core fo.pid .save
  else c

/-- R438. See `Chip.drainDone`. -/
def execPreemptDrainDone (s : State) : Out := onChip Chip.drainDone s

/-- Bytes of an image whose size the manual gives (R30, R93, R118): the tiles, the slices and the tokens of the matching store. -/
def Chip.imageKnown (c : Chip) (core pid : Nat) : Nat :=
  let s := c.slot core pid
  sumNat (s.tiles.map fun t => 16 * t.elems.length) + sumNat ((c.slotInsts core pid).map fun i => 256 * i.slice) + 16 * s.occupancy

/-- A slot as its image holds it (R93): an element passes through its 16 bytes. -/
def Slot.imaged (s : Slot) : Slot :=
  { s with tiles := s.tiles.map fun t => { t with elems := t.elems.map fun x => (A80.ofImage x.image).getD x } }

/-- R438, R442. The image is written and the slot is OUT: the shadow store takes it when it holds no other and the image fits. How many
bytes the rest of an image takes the manual does not say: a free number (notes/assumptions 104). -/
def Chip.saved (c : Chip) (fo : Focus) : Chip :=
  if (c.slot fo.core fo.pid).pstate == .save then
    let used := c.slots.any fun s => s.core == fo.core && s.pid != fo.pid && s.image == 1
    let (rest, c) := c.fresh
    let fits := c.imageKnown fo.core fo.pid + rest.toNat ≤ 2 ^ 18
    (c.modSlot fo.core fo.pid fun s => { s.imaged with image := if !used && fits then 1 else 2 }).setPState fo.core fo.pid .out
  else c

/-- R442. See `Chip.saved`. -/
def execSaveComplete (s : State) : Out := onChip Chip.saved s

/-- R438. A swap-in brings an OUT slot to RESTORE. -/
def Chip.swapInAt (c : Chip) (fo : Focus) : Chip :=
  if (c.slot fo.core fo.pid).pstate == .out && c.wantedIn fo.core fo.pid then
    (c.modSlot fo.core fo.pid fun s => { s with marks := [] }).setPState fo.core fo.pid .restore
  else c

/-- R438. See `Chip.swapInAt`; with `k` 1 the swap-in is Ebgokai's, from the inputs. -/
def execSwapIn (s : State) : Out :=
  if s.focus.k = 1 then
    takeInput (fun x => match x with
      | .swapIn pid => some fun c =>
        if c.pswapBad 256 none (some pid) then c else c.addRequest pid (.pswap none (some pid) false 0) { pid, none := true }
      | _ => none) s
  else onChip Chip.swapInAt s

/-- R438. The image is read; the slot's translations in the micro-TLB and the core's load cache are invalid; the slot runs, unless its core is being
retired (R443). -/
def Chip.restored (c : Chip) (fo : Focus) : Chip :=
  if (c.slot fo.core fo.pid).pstate == .restore then
    let c := { c with tlb := c.tlb.filter fun t => !(t.pid == fo.pid && t.level == TlbLevel.micro fo.core) }
    let st := if (c.coreSt fo.core).spare.isSome then PState.drain else .run
    ((c.modSlot fo.core fo.pid fun s => { s with image := 0 }).dropLines fo.core).setPState fo.core fo.pid st
  else c

/-- R438. See `Chip.restored`. -/
def execRestoreComplete (s : State) : Out := onChip Chip.restored s

/-! ### Retirement (R443, R448) -/

/-- The physical core of a tower's row that no logical core uses (R448). -/
def spareOf (core : Nat) : Nat :=
  (((List.range 17).map (rowBase core + ·)).find? fun k => !((rowPassed core).take 16).contains k).getD (rowBase core + 16)

/-- The spare that takes a core's place (R448): its row's, else the free one of the tower nearest in rows, the lower row first where two are
as near. A spare that failed self-test is not free (notes/assumptions 27). -/
def Chip.pickSpare (c : Chip) (core : Nat) : Option Nat :=
  let t := c.tower (towerOf core)
  let row := coreY core % 16
  let top := coreY core / 16 * 16
  let rows := (List.range 16).flatMap fun d => (if d ≤ row then [row - d] else []) ++ (if 0 < d && row + d < 16 then [row + d] else [])
  (rows.map fun r => spareOf (coreAt (coreX core) (top + r))).find? fun k => !t.spares.contains k && Config.corePasses k

/-- Slots on a core. -/
def Chip.slotsOn (c : Chip) (core : Nat) : List Slot := c.slots.filter fun s => s.core == core

/-- R443. Ebgokai retires a core: its slots come to rest for the move, or stop where no spare is left. -/
def Chip.retire (c : Chip) (core : Nat) : Chip :=
  let c := (c.modCore core fun k => { k with retire := false }).reportCore evRetire core
  match c.pickSpare core with
  | none => (c.slotsOn core).foldl (fun c s => c.stopWith evStop core s.pid 0x0B) c
  | some k =>
    let t := c.tower (towerOf core)
    let c := (c.setTower { t with spares := t.spares ++ [k] }).modCore core fun st => { st with spare := some k }
    ((c.slotsOn core).filter fun s => s.pstate == .run).foldl (fun c s => (c.discardSlot core s.pid).setPState core s.pid .drain) c

/-- R443. See `Chip.retire`: for a core that failed, or with `k` 1 as the firmware's threshold asks, from the inputs. -/
def execCoreRetire (s : State) : Out :=
  if s.focus.k = 1 then
    takeInput (fun x => match x with
      | .retire core => some fun c => if (c.coreSt core).spare.isSome then c else c.retire core
      | _ => none) s
  else onChip (fun c fo => if (c.coreSt fo.core).retire && (c.coreSt fo.core).spare.isNone then c.retire fo.core else c) s

/-- Whether a slot may move with its core: at rest apart from tokens on their way, or out. -/
def Chip.mayMove (c : Chip) (s : Slot) : Bool :=
  s.pstate == .out || (s.pstate == .drain && ({ c with flights := [] } : Chip).quiet s.core s.pid)

/-- R443, R456. The slots of a core have moved to the spare with their memory: the logical core is there from now on, with the spare's own
clock and empty caches. Slots that a request wants out go on draining. -/
def Chip.migrate (c : Chip) (core : Nat) : Chip :=
  match (c.coreSt core).spare with
  | none => c
  | some k =>
    if (c.slotsOn core).all c.mayMove then
      let c := (c.slotsOn core).foldl (fun c s => c.rewind core s.pid) c
      let (w, c) := ({ c with tlb := c.tlb.filter fun t => t.level != TlbLevel.micro core } : Chip).fresh
      let c := c.modCore core fun st =>
        { st with phys := k, spare := none, cycle := w.toNat, lcache := [], blocks := [], mism := [], errs := 0, heat := [64, 64, 64, 64], stalled := [] }
      let c := ((c.slotsOn core).filter fun s => s.pstate == .drain && !c.wantedOut s.pid).foldl (fun c s =>
        (c.modSlot core s.pid fun s => { s with marks := [] }).setPState core s.pid .run) c
      c.reportCore evMigrate core
    else c

/-- R443. See `Chip.migrate`. -/
def execMigrationComplete (s : State) : Out := onChip (fun c fo => c.migrate fo.core) s

/-! ### Soft errors (R444, R445) -/

/-- R444. A corrected error of a core's SRAM (R434). -/
def Chip.countError (c : Chip) (core : Nat) : Chip := c.modCore core fun k => { k with errs := satAdd32 k.errs 1 }

/-- The ranges of scratchpad, cluster memory and tower scratchpad that a partition's quotas hold (R32, R37, R39, R432): location, bytes. -/
def Part.held (p : Part) : List (Nat × Nat) :=
  let q := p.reg 0x040
  let u := p.reg 0x041
  let t := p.reg 0x042
  (p.cores.flatMap fun k => [(locCore k (bits q 0 5 * 2 ^ 16), bits q 32 6 * 2 ^ 16),
    (locCore k (2 ^ 21 + bits u 0 4 * 2 ^ 16), bits u 32 5 * 2 ^ 16)]) ++
    (List.range 4).map fun k => (locTower k (bits t 0 7 * 2 ^ 20), bits t 32 8 * 2 ^ 20)

/-- The partition that a location belongs to (R447): a slice's, or the one whose quotas hold it, else none (notes/assumptions 15). -/
def Chip.ownerAt (c : Chip) (loc : Nat) : Nat :=
  if 2 ^ 56 ≤ loc && loc < 2 ^ 100 then ((c.inst? ((loc - 2 ^ 56) / 2 ^ 12)).map (·.pid)).getD 0
  else ((c.parts.find? fun p => p.held.any fun r => r.1 ≤ loc && loc < r.1 + r.2).map (·.pid)).getD 0

/-- R445. The 64-byte line of a location is poisoned. -/
def Chip.poison (c : Chip) (core loc : Nat) : Chip :=
  ({ c with mem := { c.mem with poison := addNat c.mem.poison (loc / 64) } } : Chip).report evSoft core (c.ownerAt loc)

/-- R444. A soft error is corrected and counted, refetched, poisons a line, or stops a slot. -/
def Chip.softError (c : Chip) : SoftPlace → Chip
  | .sram core loc fatal => if fatal then c.poison core loc else c.countError core
  | .dram loc fatal =>
    let t := c.tower (loc / 2 ^ 37 % 4)
    if fatal then c.poison (coreAt (t.id % 2 * 16) (t.id / 2 * 16)) loc else c.setTower { t with dramErrs := satAdd32 t.dramErrs 1 }
  | .clean core => ({ c with tlb := c.tlb.filter fun t => t.level != TlbLevel.micro core } : Chip).dropLines core |>.modCore core fun k => { k with blocks := [] }
  | .acc core pid tile line fatal =>
    if fatal then (c.modSlot core pid fun s => s.poisonTile tile line).report evSoft core pid else c.countError core
  | .slot core pid fatal =>
    if fatal then (c.stopWith evStop core pid 0x0B).modCore core fun k => { k with retire := true } else c.countError core

/-- R444. See `Chip.softError`; the inputs name the place. A checksum that will not agree, and a line, block or translation that leaves a
cache, come the same way (R41, R57, R99, R281). None strikes while an `.sc` access waits that has been checked (notes/assumptions 96). -/
def execSoftError (s : State) : Out :=
  if !s.chip.scq.isEmpty then .next s
  else takeInput (fun x => match x with
    | .soft p => some fun c => c.softError p
    | .mismatch core g => some fun c => c.modCore core fun k => { k with mism := k.mism ++ [g] }
    | .evictLine core line => some fun c => c.modCore core fun k => { k with lcache := k.lcache.filter fun l => l.line != line }
    | .evictBlock core pid addr => some fun c => c.modCore core fun k =>
        { k with blocks := k.blocks.filter fun b => !(b.pid == pid && b.addr == addr) }
    | .evictTlb n => some fun c => { c with tlb := c.tlb.eraseIdx n }
    | _ => none) s

/-! ### Heat (R455) -/

/-- R455. The controller revises A and P of a core. -/
def execThermalRevise (s : State) : Out :=
  takeInput (fun x => match x with
    | .thermal core a p => some fun c => c.modCore core fun k => { k with refill := min a 64, period := min (max p 16) 4096 }
    | _ => none) s

/-- Cores of a tower. -/
def towerCores (t : Nat) : List Nat := rectCores (t % 2 * 16) (t / 2 % 2 * 16) 16 16

/-- R455. At the emergency temperature A is 0 on every core of a tower, and Ebgokai logs it. -/
def execThermalEmergency (s : State) : Out :=
  takeInput (fun x => match x with
    | .emergency t => some fun c =>
      ((towerCores t).foldl (fun c k => c.modCore k fun st => { st with refill := 0 }) c).report evThermal ((towerCores t).headD 0) 0
    | _ => none) s

/-! ### Translation hardware (R56 to R59) -/

/-- R56, R59. A walk for address `n` of the focus's partition completes: a translation is installed and A is set. One that would fault is
dropped; the access itself will fault. -/
def execTranslationWalk (s : State) : Out :=
  onChip (fun c fo =>
    if fo.n < 2 ^ 52 && c.hasPart fo.pid then match c.translate fo.core fo.pid fo.n with
      | (.ok _, c) => c
      | (.error _, _) => c
    else c) s

/-- The 4 KiB pages that the first `n` bytes of a pattern touch, in pattern order (R59). -/
def pagesAhead : List (Nat × Nat) → Nat → List Nat
  | [], _ => []
  | (a, k) :: t, n =>
    if n = 0 then [] else (List.range ((a + max 1 (min k n) - 1) / 4096 - a / 4096 + 1)).map (a / 4096 + ·) ++ pagesAhead t (n - k)

/-- The patterns along which a copy channel or the plane engine goes on with a running command (R59). -/
def Cmd.patterns (q : Cmd) : List (List (Nat × Nat)) :=
  match q.op with
  | .cpy | .cpypl | .cpyun =>
    let us := (List.range (min (q.units - q.pos) (2 ^ 16))).map (q.pos + ·)
    [us.flatMap q.srcs, us.flatMap q.dests]
  | .mma | .mmal | .accld => q.planeBytes q.pos (q.planeEnd)
  | _ => []

/-- The addresses that pre-translation comes to next (R59): of each pattern of a running command the first page of the next 64 KiB that the
core's micro-TLB does not hold and that can be translated. -/
def Chip.preTranslations (c : Chip) (s : Slot) : List Nat :=
  let asid := (c.part s.pid).reg 0x011
  [0, 1, 2, 3, 5].flatMap fun k => if (s.eng k).halted then [] else ((s.eng k).cmds.filter (·.started)).flatMap fun q =>
    q.patterns.filterMap fun l => ((pagesAhead l (2 ^ 16)).map (· * 4096)).find? fun va =>
      va < 2 ^ 52 && !(c.tlb.any fun t => t.serves (.micro s.core) s.pid asid va) && match (c.translate s.core s.pid va).1 with
        | .ok _ => true
        | .error _ => false

end Sys2Proof.Machine
end

