-- ==== Sys2Proof/Machine/Reserve.lean ====
section
/-! DEFINITION. What bounded queues and stores have room for: places and entries that a block needs before it commits and keeps until its last
action is performed (R159, R175, R279, R294, R326, R343, R400, R401), and the granting of credits (R401). -/

namespace Sys2Proof.Machine

/-! ### Needs of an action -/

/-- DN of a command that holds it in its word (R100). -/
def wordDn : Instr → Bool
  | .ttload _ dn _ => dn
  | .tfetch _ dn _ _ => dn
  | .tevict _ dn _ _ => dn
  | .mma _ dn _ => dn
  | .mmal _ dn _ => dn
  | .accz _ dn _ _ => dn
  | .accld _ dn _ _ => dn
  | .accst _ dn _ _ => dn
  | .qst _ dn _ _ => dn
  | .lvlld _ dn _ _ => dn
  | .ainit _ dn _ _ => dn
  | .agate _ dn _ => dn
  | .aswap _ dn _ => dn
  | .ameas _ dn _ _ => dn
  | .afree _ dn _ => dn
  | .coll _ dn => dn
  | .cred _ dn _ _ => dn
  | .cfgld _ dn => dn
  | .cfgsw _ dn => dn
  | .pswapOut _ dn => dn
  | .pswapIn _ dn => dn
  | .pswapXchg _ dn => dn
  | _ => false

/-- The engine context that a resume or abandon acts on, and its own DN, absent for the forms that have none (R182, R477). -/
def serviceOf : Instr → Option (Nat × Bool)
  | .cpyRes cc _ => some (cc.toNat, false)
  | .cpyAbn cc _ => some (cc.toNat, false)
  | .cpyplRes cc _ => some (cc.toNat, false)
  | .cpyplAbn cc _ => some (cc.toNat, false)
  | .cpyunRes cc _ => some (cc.toNat, false)
  | .cpyunAbn cc _ => some (cc.toNat, false)
  | .gathRes _ => some (4, false)
  | .gathAbn _ => some (4, false)
  | .scatRes _ => some (4, false)
  | .scatAbn _ => some (4, false)
  | .mmaRes _ dn => some (5, dn)
  | .mmaAbn _ dn => some (5, dn)
  | .accstRes _ dn => some (6, dn)
  | .accstAbn _ dn => some (6, dn)
  | .agateRes _ dn => some (8, dn)
  | .agateAbn _ dn => some (8, dn)
  | .collRes _ dn => some (9, dn)
  | .collAbn _ dn => some (9, dn)
  | _ => none

/-- Whether a descriptor that will be read at acceptance asks for a DONE token in bit `k` of its word `n - 1`. -/
def Chip.descDn (c : Chip) (x : Actor) (va n word k : Nat) : Bool :=
  match (c.readDesc x va n).1 with
  | .ok w => bitAt (w.getD word 0) k
  | .error _ => false

/-- Whether an action takes a place of the matching store for its DONE token (R400). -/
def Chip.needsPlace (c : Chip) (i : Inst) (o : Operands) (d : Instr) : Bool :=
  match serviceOf d with
  | some (k, dn) => match (c.slot i.core i.pid).haltedCmd k with
    | some (q, _) => q.dn
    | none => dn
  | none =>
    if (copyPort d).isSome then c.descDn i.actor o.a.toNat 10 6 31
    else match d with
      | .gath _ => c.descDn i.actor o.a.toNat 3 2 35
      | .scat _ => c.descDn i.actor o.a.toNat 3 2 35
      | .launch _ _ _ _ _ => c.wantsNt i.actor o.a.toNat
      | d => wordDn d

/-- Cores to which an action sends tokens of its own, one for each token (R387 to R389). -/
def Chip.sendsTo (c : Chip) (i : Inst) (o : Operands) (d : Instr) : List Nat :=
  let route := fun (r : BitVec 10) => match c.routeOf i r.toNat with
    | some (some k, _) => [k]
    | _ => []
  match d with
  | .spawn n _ => if n = 0 then [] else match c.spawnDest i o.a.toNat with
    | some (k, _) => List.replicate (min n.toNat 2) k
    | none => []
  | .send r => route r
  | .eos r => route r
  | .sendm r => if (c.routeOf i r.toNat).isNone then [] else (c.subRect i o.c.toNat).getD []
  | _ => []

/-- Whether an instruction is a `LAUNCH`. -/
def isLaunch : Instr → Bool
  | .launch _ _ _ _ _ => true
  | _ => false

/-- Tokens that an action delivers to its own core (R401). -/
def Chip.nearTokens (c : Chip) (i : Inst) (d : Doing) : Nat := ((c.sendsTo i d.ops d.ins).filter (· == i.core)).length

/-- Places of the matching store that an action takes: for its DONE token and for what it delivers there (R400, R401). -/
def Chip.placesOf (c : Chip) (i : Inst) (d : Doing) : Nat := b2n (c.needsPlace i d.ops d.ins) + c.nearTokens i d

/-- Whether an action takes a place of the outbound queue (R401); a `LAUNCH` takes one for its entry tokens (notes/assumptions 100). -/
def Chip.sendsFar (c : Chip) (i : Inst) (d : Doing) : Bool := isLaunch d.ins || (c.sendsTo i d.ops d.ins).any (· != i.core)

/-! ### Room -/

/-- What a slot's matching store holds or has promised: occupancy, credits in flight, and what committing blocks have still to take (R400,
R401). -/
def Chip.storeLoad (c : Chip) (core pid : Nat) : Nat :=
  (c.slot core pid).occupancy + c.inFlight core pid + sumNat ((c.underCommit core pid).map fun x => c.placesOf x.1 x.2)

/-- Whether a slot has room for `n` more tokens or reservations (R400, R401); an empty slot takes what its quota never will
(notes/assumptions 100). -/
def Chip.roomInStore (c : Chip) (core pid n : Nat) : Bool :=
  n == 0 || c.storeLoad core pid == 0 || c.storeLoad core pid + n ≤ (c.part pid).msQuota

/-- Whether a slot's outbound queue has `n` places free beside those that committing blocks have still to take (R401). -/
def Chip.roomInQueue (c : Chip) (core pid n : Nat) : Bool :=
  n == 0 || (c.slot core pid).outq.length + ((c.underCommit core pid).filter fun x => c.sendsFar x.1 x.2).length + n ≤ 64

/-- Whether every bounded queue of the slot has room for the block's commands, beside those that committing blocks have still to queue (R159,
R175, R279, R294, R326, R343). -/
def Chip.queuesTake (c : Chip) (i : Inst) (l : List Doing) : Bool :=
  let s := c.slot i.core i.pid
  ([(4, 4), (5, 8), (6, 8), (8, 8), (9, 8)].all fun (k, cap) =>
    let n := (l.filter fun d => engineQueue d.ins == some (k, cap)).length
    n == 0 || (s.eng k).cmds.length + c.dueOf i.core i.pid (engineQueue · == some (k, cap)) + n ≤ cap) &&
  (List.range 8).all fun p =>
    let n := (l.filter fun d => copyPort d.ins == some p).length
    -- a binding that waits goes ahead of every command of the slot (R159)
    n == 0 || (c.portUsed i.core i.pid p + n ≤ 2 && !((c.coreSt i.core).binds.any fun b => b.1 == i.pid))

/-- Whether the matching store and the outbound queue take what the block sends and reserves (R400, R401). -/
def Chip.storesTake (c : Chip) (i : Inst) (l : List Doing) : Bool :=
  c.roomInStore i.core i.pid (sumNat (l.map (c.placesOf i))) &&
    !(c.pressed i.core i.pid && l.any fun d => 0 < c.nearTokens i d) &&
    c.roomInQueue i.core i.pid (l.filter (c.sendsFar i)).length

/-! ### Credits (R401) -/

/-- Whether a slot's core may be granted one more credit (R401): no back-pressure, room for every credit given, and no migration under way
(R443). -/
def Chip.creditFree (c : Chip) (core pid : Nat) : Bool :=
  !c.pressed core pid && (c.coreSt core).spare.isNone && c.storeLoad core pid < (c.part pid).msQuota

/-- The oldest token of a slot's outbound queue for a destination, and the queue without it. -/
def takeOut (dst : Nat) : List OutItem → Option (Token × List OutItem)
  | [] => none
  | x :: t =>
    match x.tokens.find? fun k => k.dst == dst with
    | some k =>
      let rest := x.tokens.eraseP fun u => u.dst == dst
      some (k, if rest.isEmpty then t else { x with tokens := rest } :: t)
    | none => (takeOut dst t).map fun (k, q) => (k, x :: q)

/-- Whether tokens of a slot may enter the links between two cores (R438): the sender has not sent its marker, the receiver still takes what
comes. -/
def Chip.linksOpen (c : Chip) (src dst pid : Nat) : Bool :=
  let d := (c.slot dst pid).pstate
  (c.slot src pid).pstate == .run && (d == .run || d == .drain)

/-- Whether the token at a place of those that other packages wait to send may have its credit (R401): it is the oldest of its sender for
its receiver (R341), its slot has a credit or needs none (R399), and takes what comes (R438). -/
def Chip.mayEnter (c : Chip) (k : Nat) : Option Token :=
  match c.waiting[k]? with
  | none => none
  | some t =>
    let d := (c.slot t.dst t.pid).pstate
    if ((c.waiting.take k).all fun u => !(u.src == t.src && u.dst == t.dst && u.pid == t.pid)) &&
      (hdrChan t.hdr == 127 || c.creditFree t.dst t.pid) && (d == .run || d == .drain) then some t else none

/-- R401. The token for core `n` that is oldest in the outbound queue of the focus's slot gets its credit and sets out; with `k` 1 the one at
place `n` of those that other packages wait to send. -/
def Chip.creditGrant (c : Chip) (fo : Focus) : Chip :=
  if fo.k = 1 then match c.mayEnter fo.n with
    | none => c
    | some t => { c with waiting := c.waiting.eraseIdx fo.n, flights := c.flights ++ [t] }
  else match takeOut fo.n (c.slot fo.core fo.pid).outq with
    | none => c
    | some (t, q) =>
      if c.creditFree fo.n fo.pid && c.linksOpen fo.core fo.n fo.pid then
        let c := c.modSlot fo.core fo.pid fun s => { s with outq := q }
        { c with flights := c.flights ++ [t] }
      else c

/-- R401. See `Chip.creditGrant`. -/
def execCreditGrant (s : State) : Out := onChip Chip.creditGrant s

end Sys2Proof.Machine
end

