-- ==== Sys2Proof/Machine/Host.lean ====
section
/-! DEFINITION. The host bridge and its command windows (R356 to R360), the management window with its services (R449 to R451), and bring-up
(R446, R448). What the host does comes from the inputs (notes/assumptions 6). -/

namespace Sys2Proof.Machine

/-! ### Command windows (R357 to R360) -/

def Sys.window (y : Sys) (n : Nat) : Window := (y.windows.find? fun w => w.id == n).getD { id := n }
def Sys.setWindow (y : Sys) (w : Window) : Sys := { y with windows := upsert (fun x => x.id == w.id) w y.windows }

/-- Whether the package is the bridge of its box (R356): x, y and z are even. Only its PCIe port is enabled. -/
def Chip.isBridge (c : Chip) : Bool := c.tx % 2 == 0 && c.ty % 2 == 0 && c.tz % 2 == 0

/-- Word `k` of PKT is written (R357, R358, R360): an unassigned window discards it; the last word submits the packet, which a window with 16
packets waiting discards and sets OVF. -/
def Window.write (w : Window) (k : Nat) (v : Word) : Window :=
  if w.pid.isNone then w
  else
    let pkt := (w.pkt ++ List.replicate (8 - w.pkt.length) 0).set k v
    if k ≠ 7 then { w with pkt }
    else if 16 ≤ w.wait.length then { w with pkt, ovf := true }
    else { w with pkt, wait := w.wait ++ [pkt] }

/-- A whole packet is written, its last word at last. -/
def Window.submit (w : Window) (words : List Word) : Window := (List.range 8).foldl (fun w k => w.write k (words.getD k 0)) w

/-- What the host reads from 8 bytes of a window (R21, R357): an unassigned one reads as ones; PKT is write-only and reads as zero, CLR reads
the bit that it clears, reserved bytes read as zero. -/
def Window.read (w : Window) (offset : Nat) : Nat :=
  if w.pid.isNone then 2 ^ 64 - 1
  else if offset = 0x40 then b2n w.ovf * 2 ^ 63 + w.wait.length * 2 ^ 32 + w.hseq
  else if offset = 0x48 then w.result.toNat
  else if offset = 0x50 then b2n w.ovf * 2 ^ 63
  else 0

/-- What a host AtomicOp of `n` bits leaves of a value (R356): FetchAdd adds `v`, Swap stores it, CAS stores it where `w` is found. -/
def HostOp.apply (op : HostOp) (n old v w : Nat) : Nat :=
  match op with
  | .fetchAdd => (old + v) % 2 ^ n
  | .swap => v % 2 ^ n
  | .cas => if old = w % 2 ^ n then v % 2 ^ n else old

/-- A host AtomicOp on 8 bytes, or 4, of a window (R356): at once the value the host reads there and a host write of the result, which
acts as any host write does (R357): on PKT, on CLR, on nothing else. Four bytes of PKT's last word submit nothing. One that is not aligned
is no AtomicOp of PCIe, and does nothing (notes/assumptions 116). -/
def Window.atomic (w : Window) (offset : Nat) (op : HostOp) (wide : Bool) (v u : Word) : Window :=
  let k := offset / 8
  let half := offset % 8 * 8
  let n := if wide then 64 else 32
  if offset % (n / 8) ≠ 0 then w
  else
    let new := op.apply n (bits (w.read (8 * k)) half n) v.toNat u.toNat
    if k = 10 then (if w.pid.isSome && bitAt (new * 2 ^ half) 63 then { w with ovf := false } else w)
    else if 8 ≤ k then w
    else if wide then w.write k (wordOf new)
    else if w.pid.isNone then w
    else
      let pkt := w.pkt ++ List.replicate (8 - w.pkt.length) 0
      let old := (pkt.getD k 0).toNat
      { w with pkt := pkt.set k (wordOf (old - bits old half 32 * 2 ^ half + new * 2 ^ half)) }

/-- R358. A host write submits a packet, or writes a word of one; so does a host AtomicOp (R356). The host's other writes, to its own memory,
and what a loader puts in place before a program runs, come the same way. A package that is not the bridge of its box has no port of its own: what reaches a window of a
partition of it comes by way of the bridge (notes/assumptions 19). -/
def execHostLaunchPacket (s : State) : Out :=
  match s.inputs with
  | .hostPacket n words :: t => .next { s with sys := s.sys.setWindow ((s.sys.window n).submit words), inputs := t }
  | .hostWord n k v :: t => .next { s with sys := s.sys.setWindow ((s.sys.window n).write k v), inputs := t }
  | .hostAtomic n k op wide v w :: t => .next { s with sys := s.sys.setWindow ((s.sys.window n).atomic k op wide v w), inputs := t }
  | .hostWrite a bytes :: t => .next { s with chip := s.chip.hostPut a bytes, inputs := t }
  | .place loc bytes :: t => .next { s with chip := s.chip.putBytes loc 0 bytes, inputs := t }
  | _ => .next s

/-- R357. A write of 1 to CLR `<63>` clears OVF. -/
def execClrOvf (s : State) : Out :=
  match s.inputs with
  | .hostClr n :: t => .next { s with sys := s.sys.setWindow { s.sys.window n with ovf := false }, inputs := t }
  | _ => .next s

/-- Word of a packet. -/
def pktWord (l : List Word) (k : Nat) : Nat := (l.getD k 0).toNat

/-- Whether a packet is one that launches nothing (R358): TYPE, reserved bits, SCOPE, SZ. -/
def packetBad (l : List Word) : Bool :=
  bits (pktWord l 0) 56 8 != 1 || bits (pktWord l 0) 32 24 != 0 || bits (pktWord l 4) 7 57 != 0 || 5 < bits (pktWord l 4) 4 3 ||
    bitAt (pktWord l 4) 3 || [5, 6, 7].any fun k => pktWord l k != 0

/-- Whether the first packet of a window may be executed (R359, R360): its partition runs, its result's place can be reserved, and the outbound
queue has a place for the tokens of the launch (notes/assumptions 100). -/
def Sys.packetReady (y : Sys) (c : Chip) (n : Nat) : Option (Nat × List Word) :=
  let w := y.window n
  match w.pid, w.wait with
  | some pid, l :: _ =>
    let p := c.part pid
    let core := coreAt p.ox p.oy
    let nt := !packetBad l && c.wantsNt { pid, core } (pktWord l 1)
    if c.hasPart pid && c.wholly pid .run && c.roomInStore core pid (1 + b2n nt) && c.roomInQueue core pid 1 then some (pid, l) else none
  | _, _ => none

/-- R358, R359. A packet is executed as a `LAUNCH` on the origin core of its partition's region: the result word, and the chip with the token
of channel 126 on its way. -/
def Chip.runPacket (c : Chip) (n pid : Nat) (l : List Word) : Nat × Chip :=
  let p := c.part pid
  let core := coreAt p.ox p.oy
  let tag := bits (pktWord l 0) 0 26
  let sz := bits (pktWord l 4) 0 4
  let (v, c) :=
    if packetBad l then (2 ^ 64 - 1, c)
    else c.launch { pid, core } {
      desc := pktWord l 1, rect := pktWord l 2, payload := l.getD 3 0, taint := false, ordered := bitAt sz 0, cores := bitAt sz 1,
      trap := bitAt sz 2, who := { core, pid, tag, none := true }, host := some n }
  let c := c.modSlot core pid fun s => s.reserve true
  (v, { c with flights := c.flights ++ [{
    hdr := mkHdr (c.slot core pid).cfg.act false 1 0 126 tag, payload := wordOf v, pid, dst := core, src := core, link := 7, resv := true }] })

/-- R359. The first packet of window `n` is executed; RESULT and STATUS follow. -/
def execHostPacketExecute (s : State) : Out :=
  match s.sys.packetReady s.chip s.focus.n with
  | none => .next s
  | some (pid, l) =>
    let (v, c) := s.chip.runPacket s.focus.n pid l
    let w := s.sys.window s.focus.n
    .next { s with
      chip := c
      sys := s.sys.setWindow { w with wait := w.wait.drop 1, hseq := bits (pktWord l 0) 0 32, result := wordOf v } }

/-- What the host reads at an address of BAR0 (R357), also by an AtomicOp (R356), on the one package of a box whose port is enabled (R356). -/
def State.hostRead (s : State) (addr : Nat) : Option Nat :=
  if s.chip.isBridge then some ((s.sys.window (addr / 4096)).read (addr % 4096)) else none

/-! ### The management window (R449) -/

/-- A service at work: the state after it with its result code and response, or none while it cannot yet finish. -/
abbrev Service := State → Option (State × Nat × Response)

/-- A result code of failure: the manual says only that it is not 0 (notes/assumptions 10). -/
def failCode (s : State) : State × Nat :=
  let (w, c) := s.chip.fresh
  ({ s with chip := c }, 1 + w.toNat % 255)

/-- A service that fails. -/
def refuseService (s : State) : Option (State × Nat × Response) := let (s, n) := failCode s; some (s, n, .none)

/-- What a service does with the request at hand, if it has not been answered and can be. -/
def serviceWork (f : Request → Option Service) (s : State) : Option (State × Nat × Response) :=
  match s.sys.mgmt.request, s.sys.mgmt.outcome with
  | some r, none => match f r with
    | none => none
    | some g => g s
  | _, _ => none

/-- A service works on the request at hand. -/
def runService (f : Request → Option Service) (s : State) : State :=
  match serviceWork f s with
  | none => s
  | some (s, n, a) => { s with sys := { s.sys with mgmt := { s.sys.mgmt with outcome := some (n, a) } } }

/-- Whether a request is for this package (R449): bytes 1 to 3 are its offset in the 2 × 2 × 2 box. -/
def Chip.isHere (c : Chip) (dx dy dz : Nat) : Bool := dx == c.tx % 2 && dy == c.ty % 2 && dz == c.tz % 2

/-- The meaning of a service (R449): a request is submitted and worked on; one submitted while the window is busy is discarded and sets
`<62>`. One for another package of the box keeps the window busy with no request at work here, until that package's answer comes
(notes/assumptions 75). -/
def mgmtService (f : Request → Option Service) (s : State) : Out :=
  if s.sys.mgmt.busy && (serviceWork f s).isSome then .next (runService f s)
  else match s.inputs with
    | .mgmt dx dy dz r :: t =>
      if (f r).isNone then .next s
      else
        let s := { s with inputs := t }
        let m := s.sys.mgmt
        if s.sys.stage ≠ 5 then .next s
        else if m.busy then .next { s with sys := { s.sys with mgmt := { m with lost := true } } }
        else if s.chip.isHere dx dy dz then .next (runService f { s with sys := { s.sys with mgmt := { m with request := some r, busy := true } } })
        else .next { s with sys := { s.sys with mgmt := { m with request := none, busy := true } } }
    | _ => .next s

/-! ### Service 1 -/

/-- Lowest free partition number of the package. -/
def Chip.freePid (c : Chip) : Option Nat := ((List.range 255).map (· + 1)).find? fun n => !c.hasPart n

/-- Whether a size is a power of two that the mesh holds (R362). -/
def sizeOk (n : Nat) : Bool := [1, 2, 4, 8, 16, 32].contains n

/-- The partition that a request describes. -/
def NewPart.part' (r : NewPart) (pid : Nat) : Part :=
  let p : Part := { pid, part := r.part, slot := r.slot, ox := r.ox, oy := r.oy, w := r.w, h := r.h, mgr := r.mgr, wrapKey := r.wrapKey }
  let p := r.quotas.foldl (fun p q => p.setReg q.1 q.2 false) p
  let p := p.setReg 0x045 (wordOf r.qscope) false
  r.keys.foldl (fun p k => p.setReg (0x060 + k / 64) (wordOf (p.reg (0x060 + k / 64) ||| 2 ^ (k % 64))) false) p

/-- Whether a partition may be created (R362, R432, R433, R449). -/
def Chip.createOk (c : Chip) (r : NewPart) (p : Part) : Bool :=
  sizeOk r.w && sizeOk r.h && r.ox % r.w == 0 && r.oy % r.h == 0 && r.ox + r.w ≤ 32 && r.oy + r.h ≤ 32 && r.slot < 4 &&
    !c.slotTaken p && (r.quotas.all fun q => 0x040 ≤ q.1 && q.1 ≤ 0x044 && fieldsOk q.1 q.2.toNat) &&
    onlyFields r.qscope [(0, 3), (4, 3), (8, 3), (12, 3), (16, 3), (20, 3)] &&
    ([0, 4, 8, 12, 16, 20].all fun b => 1 ≤ bits r.qscope b 3 && bits r.qscope b 3 ≤ 5) &&
    (r.keys.all fun k => 1 ≤ k && k < 2 ^ 11) && c.placementOk p

/-- Lowest command window that is assigned to no partition (R357); the manual does not say when a window is assigned (notes/assumptions
19). -/
def Sys.freeWindow (y : Sys) : Option Nat := (List.range 256).find? fun n => (y.window n).pid.isNone

/-- Service 1: a partition, its slots, and a command window. -/
def createPartition (r : NewPart) : Service := fun s =>
  match s.chip.freePid with
  | none => refuseService s
  | some pid =>
    let p := r.part' pid
    if !s.chip.createOk r p then refuseService s
    else
      let c := { s.chip with
        parts := s.chip.parts ++ [p]
        slots := s.chip.slots ++ p.cores.map fun k => ({ core := k, pid } : Slot) }
      let y := match s.sys.freeWindow with
        | some n => s.sys.setWindow { id := n, pid := some pid }
        | none => s.sys
      some ({ s with chip := c, sys := y }, 0, .pidr p.pidr)

/-- R449 service 1. -/
def execCreatePartition (s : State) : Out :=
  mgmtService (fun r => match r with | .create p => some (createPartition p) | _ => none) s

/-! ### Service 2 -/

/-- The memory that a partition's quotas hold is zeroed (R449): scratchpad, cluster and tower ranges. -/
def Chip.wipe (c : Chip) (p : Part) : Chip := { c with mem := p.held.foldl (fun m r => m.zero r.1 r.2) c.mem }

/-- Everything of a partition goes (R449 service 2): memory, images, tiles, instances, keys, slots. -/
def Chip.removePartition (c : Chip) (pid : Nat) : Chip :=
  let p := c.part pid
  let c := c.wipe p
  let gone := (c.insts.filter fun i => i.pid == pid).map (·.iid)
  let c := gone.foldl (fun c k => { c.dropInst k with mem := c.mem.zero (locSlice k 0) (2 ^ 12) }) c
  { c with
    keys := c.keys.filter fun k => !p.hasKey k.id
    slots := c.slots.filter fun s => s.pid != pid
    parts := c.parts.filter fun q => q.pid != pid
    tlb := c.tlb.filter fun t => t.pid != pid
    flights := c.flights.filter fun t => t.pid != pid
    waiting := c.waiting.filter fun t => t.pid != pid
    creds := c.creds.filter fun r => r.pid != pid
    credSeen := c.credSeen.filter fun k => k.head? != some pid
    contribs := c.contribs.filter fun m => m.key[1]? != some pid
    vals := c.vals.filter fun v => !gone.contains v.iid
    scq := c.scq.filter fun q => !gone.contains q.iid
    cores := c.cores.map fun k => { k with
      blocks := k.blocks.filter fun b => b.pid != pid
      portq := k.portq.filter fun x => x.2.1 != pid
      binds := k.binds.filter fun b => b.1 != pid
      sp7 := k.sp7.filter fun x => x.pid != pid
      sp7run := k.sp7run.filter fun x => x.pid != pid } }

/-- Service 2: the partition is pre-empted first, then removed. -/
def endPartition (pid : Nat) : Service := fun s =>
  let c := s.chip
  if !c.hasPart pid then refuseService s
  else if c.wholly pid .out then
    some ({ s with
      chip := c.removePartition pid
      sys := { s.sys with windows := mapIf (fun w => w.pid == some pid) (fun w => { id := w.id }) s.sys.windows } }, 0, .none)
  else none

/-- The partition that service 2 is at work on and has yet to ask out. -/
def Mgmt.askOut (m : Mgmt) (c : Chip) : Option Nat :=
  match m.request, m.outcome with
  | some (.endPart pid), none => if m.busy && c.hasPart pid && !c.wantedOut pid && !c.wholly pid .out then some pid else none
  | _, _ => none

/-- R449 service 2. A partition that is not out is asked out once, and the service goes on when it is. -/
def execEndPartition (s : State) : Out :=
  match s.sys.mgmt.askOut s.chip with
  | some pid => .next { s with chip := s.chip.addRequest pid (.pswap (some pid) none false 0) { pid, none := true } }
  | none => mgmtService (fun r => match r with | .endPart pid => some (endPartition pid) | _ => none) s

/-! ### Services 3 to 5 -/

/-- Measurement register `k` of the package or of a partition (R450). -/
def measOf (y : Sys) (p : Part) (k : Nat) : Nat := if k < 4 then lookupNat y.meas k else lookupNat p.meas k

/-- Extending a measurement (R450). -/
def extendMeas (m d : Nat) : Nat := Crypto.beNat (Crypto.sha384 (Crypto.beBytes 48 m ++ Crypto.beBytes 48 d))

/-- Bytes 0 to 447 of a report (R451). -/
def reportBody (s : State) (p : Part) (nonce : Nat) : List Nat :=
  let c := s.chip
  Crypto.beBytes 48 nonce ++ (List.range 8).flatMap (fun k => Crypto.beBytes 48 (measOf s.sys p k)) ++
    (leBytes 8 (p.pidr + c.tx % 32 * 2 ^ 40 + c.ty % 32 * 2 ^ 48 + c.tz % 16 * 2 ^ 56)).map BitVec.toNat ++
    (leBytes 8 s.sys.version).map BitVec.toNat

/-- The signature of a digest with the device identity key (R451): ECDSA with a nonce that gives one (notes/assumptions 13). -/
def deviceSign (digest : List Nat) : Nat × Nat :=
  let inOrder := fun x => 1 + x % (Crypto.orderQ - 1)
  ((List.range 4).findSome? fun k =>
    Crypto.sign (inOrder Config.deviceKey) (inOrder (Config.deviceNonce (Crypto.beNat digest) k)) digest).getD (0, 0)

/-- Service 3: the signed report, or with a zero nonce the certificate. -/
def attest (pid nonce : Nat) : Service := fun s =>
  if !s.chip.hasPart pid then refuseService s
  else if nonce = 0 then some (s, 0, .bytes ((List.range 1792).map fun k => (Config.certificate k).toNat))
  else
    let body := reportBody s (s.chip.part pid) nonce
    let (r, t) := deviceSign (Crypto.sha384 body)
    some (s, 0, .bytes (body ++ Crypto.beBytes 48 r ++ Crypto.beBytes 48 t))

/-- R451, R449 service 3. -/
def execAttest (s : State) : Out :=
  mgmtService (fun r => match r with | .attest pid nonce => some (attest pid nonce) | _ => none) s

/-- Bytes of host memory, as the host holds them. -/
def Chip.hostBytes (c : Chip) (a n : Nat) : List Nat :=
  ((((linesOf (locHost a) n).flatMap c.mem.hostLine).drop (a % 64)).take n).map BitVec.toNat

/-- Little-endian number of bytes. -/
def leOf : List Nat → Nat
  | [] => 0
  | b :: t => b + 256 * leOf t

/-- Whether an object's section entries obey R133, R134: known types, each at most once, CODE and FLAGS present, SIG last and of 104 bytes,
every section on an 8-byte boundary and within the object, FLAGS of 8 bytes. An entry is its type, offset and size. That SIG is last is
read of the section table: the last entry is SIG; that every section lies within the object's size is no refusal that R133 names
(notes/assumptions 92 for both). -/
def sectionsOk (size : Nat) (l : List (Nat × Nat × Nat)) : Bool :=
  (l.all fun e => 1 ≤ e.1 && e.1 ≤ 11 && e.2.1 % 8 == 0 && e.2.1 + e.2.2 ≤ size) && noTwice (l.map (·.1)) &&
    (l.any fun e => e.1 == 1) && (l.any fun e => e.1 == 10 && e.2.2 == 8) && match l.getLast? with
      | some e => e.1 == 11 && e.2.2 == 104
      | none => false

/-- The signature check of R135 on an object in host memory: its digest where it passes. -/
def Chip.checkObject (c : Chip) (a : Nat) : Option Nat :=
  let h := c.hostBytes a 16
  let n := leOf ((h.drop 6).take 2)
  let size := leOf (h.drop 8)
  if h.take 6 != [0x47, 0x52, 0x4F, 0x31, 1, 0] || n < 3 || 11 < n then none
  else
    let es := (List.range n).map fun k => c.hostBytes (a + 16 + 24 * k) 24
    let l := es.map fun b => (leOf (b.take 4), leOf ((b.drop 8).take 8), leOf (b.drop 16))
    let flags := ((l.find? fun e => e.1 == 10).map fun e => leOf (c.hostBytes (a + e.2.1) 8)).getD 0
    if !sectionsOk size l || 1 < flags || (es.any fun b => leOf ((b.drop 4).take 4) != 0) then none
    else
      let off := (l.getLast?.map fun e => e.2.1).getD 0
      let sig := c.hostBytes (a + off) 104
      let k := leOf (sig.take 4)
      let d := Crypto.sha384 (c.hostBytes a off)
      if leOf ((sig.drop 4).take 4) = 0 &&
          Crypto.verify (Config.signerX k) (Config.signerY k) d (Crypto.beNat ((sig.drop 8).take 48)) (Crypto.beNat (sig.drop 56)) then
        some (Crypto.beNat d)
      else none

/-- Extend a measurement of a partition (R450). -/
def State.extendPart (s : State) (pid k d : Nat) : State :=
  { s with chip := s.chip.modPart pid fun p => { p with meas := setNat p.meas k (extendMeas (lookupNat p.meas k) d) } }

/-- Service 4. -/
def verifyObject (pid a : Nat) : Service := fun s =>
  if !s.chip.hasPart pid then refuseService s
  else match s.chip.checkObject a with
    | none => refuseService s
    | some d => some (s.extendPart pid 4 d, 0, .none)

/-- R135, R449 service 4. -/
def execVerifyObject (s : State) : Out :=
  mgmtService (fun r => match r with | .verify pid a => some (verifyObject pid a) | _ => none) s

/-- Service 5. -/
def extendPartition (pid k d : Nat) : Service := fun s =>
  if !s.chip.hasPart pid || k < 5 || 7 < k then refuseService s else some (s.extendPart pid k d, 0, .none)

/-- R450, R449 service 5. -/
def execExtend (s : State) : Out :=
  mgmtService (fun r => match r with | .extend pid k d => some (extendPartition pid k d) | _ => none) s

/-! ### Services 6 to 8 -/

/-- The bytes of the firmware image at an address of host memory (notes/assumptions 105). -/
def Chip.hostImage (c : Chip) (a : Nat) : List Nat := c.hostBytes a (Config.imageSize (c.hostBytes a 64))

/-- Service 6: refused below the rollback counter; it becomes active at the next boot. -/
def updateFirmware (a : Nat) : Service := fun s =>
  let img := s.chip.hostImage a
  if Config.imageVersion img < s.sys.fuse then refuseService s else some ({ s with sys := { s.sys with update := some img } }, 0, .none)

/-- R449 service 6. -/
def execFirmwareUpdate (s : State) : Out :=
  mgmtService (fun r => match r with | .firmware a => some (updateFirmware a) | _ => none) s

def Sys.sumacOf (y : Sys) (t : Nat) : Sumac := (y.sumac.find? fun x => x.tower == t).getD { tower := t }
def Sys.setSumac (y : Sys) (x : Sumac) : Sys := { y with sumac := upsert (fun z => z.tower == x.tower) x y.sumac }

/-- Service 7: tracing of a partition on a tower, by a mask of events (R457). -/
def controlSumac (t pid mask : Nat) (enable : Bool) : Service := fun s =>
  if 4 ≤ t then refuseService s
  else
    let x := s.sys.sumacOf t
    let masks := x.masks.filter fun m => m.1 != pid
    some ({ s with sys := s.sys.setSumac { x with masks := if enable then masks ++ [(pid, mask)] else masks } }, 0, .none)

/-- R457, R449 service 7. -/
def execSumacControl (s : State) : Out :=
  mgmtService (fun r => match r with | .sumac t pid m e => some (controlSumac t pid m e) | _ => none) s

/-- Words of a Sumac entry (R457). -/
def SumacEntry.words (e : SumacEntry) : List Nat := [e.cyc, e.ev % 2 ^ 8 * 2 ^ 56 + e.pid % 2 ^ 8 * 2 ^ 40 + e.lin % 2 ^ 10 * 2 ^ 30, e.d2, e.d3]

/-- Bytes of a response (R449). -/
def responseRoom : Nat := 1792

/-- Service 8 on the event log: the oldest entries, as many as the response holds, which it removes. -/
def readLog (n : Nat) : Service := fun s =>
  let n := min n (responseRoom / (Config.eventRoom + 1))
  some ({ s with sys := { s.sys with log := s.sys.log.drop n } }, 0, .log (s.sys.log.take n))

/-- Service 8 on a tower's Sumac buffer: the oldest entries of one partition, as many as the response holds, which it removes. -/
def readTrace (t pid n : Nat) : Service := fun s =>
  let x := s.sys.sumacOf t
  let mine := (x.entries.filter fun e => e.pid == pid).take (min n (responseRoom / 32))
  some ({ s with sys := s.sys.setSumac { x with entries := mine.foldl (fun l e => l.erase e) x.entries } }, 0, .trace (mine.map SumacEntry.words))

/-- R449 service 8. -/
def execReadEvents (s : State) : Out :=
  mgmtService (fun r => match r with
    | .events n => some (readLog n)
    | .trace t pid n => some (readTrace t pid n)
    | _ => none) s

/-- R449. A request is over: its response and STATUS appear; that of a request for another package is what that package answers. A request
for a service that does not exist fails. -/
def execMgmtServiceComplete (s : State) : Out :=
  let m := s.sys.mgmt
  match m.outcome, s.inputs with
  | some (n, a), _ => .next { s with sys := { s.sys with mgmt := { m with busy := false, result := n, response := a, outcome := none } } }
  | none, .answer n a :: t =>
    let ended : Mgmt := if m.busy && m.request.isNone then { m with busy := false, result := n, response := a } else m
    .next { s with inputs := t, sys := { s.sys with mgmt := ended } }
  | none, _ => mgmtService (fun r => match r with | .other _ => some refuseService | _ => none) s

/-- STATUS of the management window (R449). -/
def Mgmt.status (m : Mgmt) : Nat := b2n m.busy * 2 ^ 63 + b2n m.lost * 2 ^ 62 + m.result % 2 ^ 8

/-- The bytes of a response, from `0x100` on (R449): little-endian words; how an entry of the event log lies there the manual does not say
(notes/assumptions 75). -/
def Response.image : Response → List Byte
  | .none => []
  | .pidr v => leBytes 8 v
  | .bytes l => l.map (BitVec.ofNat 8)
  | .log l => l.flatMap fun e => (List.range (Config.eventRoom + 1)).map (Config.eventByte [e.code, e.phys, e.core, e.pid, e.cyc])
  | .trace l => l.flatMap fun ws => ws.flatMap (leBytes 8)

/-- What the host reads from 8 bytes of the management window (R449): STATUS, or the response, zero where it has no byte; none for bytes whose
reading the manual does not state. -/
def Mgmt.read (m : Mgmt) (offset : Nat) : Option Nat :=
  if offset = 0x800 then some m.status
  else if 0x100 ≤ offset && offset < 0x800 then some (leNat ((m.response.image.drop (offset - 0x100)).take 8)) else none

/-! ### Bring-up (R446, R448) -/

/-- A package at power-on: nothing is left but the fuses and the firmware installed. The rollback counter starts at what the fuses hold. -/
def State.powerUp (s : State) : State :=
  { s with
    chip := { free := s.chip.free }
    sys := { powered := true, update := s.sys.update, fuse := max s.sys.fuse Config.rollbackFuse }
    turn := none }

/-- R446. Power-on: at first, and again whenever an input says so, as it must for an update to become active (R449). -/
def execPowerOn (s : State) : Out :=
  if !s.sys.powered then .next s.powerUp
  else match s.inputs with
    | .powerOn :: t => .next ({ s with inputs := t } : State).powerUp
    | _ => .next s

/-- The firmware image that runs: the one an update has installed, else that of manufacture (R446, R449). -/
def Sys.image (y : Sys) : List Nat := y.update.getD ((List.range Config.factoryLength).map fun k => (Config.factoryByte k).toNat)

/-- The management ROM's checks of an image (R446): the digest of the root public key it carries, its signature, its version. -/
def imageOk (fuse : Nat) (img : List Nat) : Bool :=
  let x := Config.imageKeyX img
  let y := Config.imageKeyY img
  Crypto.beNat (Crypto.sha384 (Crypto.beBytes 48 x ++ Crypto.beBytes 48 y)) == Config.rootDigest &&
    Crypto.verify x y (Crypto.sha384 (img.take (Config.imageSigned img))) (Config.imageSignR img) (Config.imageSignS img) &&
    fuse ≤ Config.imageVersion img

/-- Whether every mesh row of the package has sixteen cores that passed self-test (R448). -/
def rowsOk : Bool := (List.range 4).all fun t => (List.range 16).all fun r =>
  decide (16 ≤ (rowPassed (coreAt (t % 2 * 16) (t / 2 * 16 + r))).length)

/-- Whether a stage succeeds (R446, R448). -/
def Sys.stageOk (y : Sys) (n : Nat) : Bool :=
  if n = 1 then imageOk y.fuse y.image else if n = 3 then rowsOk else Config.stagePasses n

/-- A measurement of bring-up (R446). -/
def Sys.measure (y : Sys) (k d : Nat) : Sys := { y with meas := setNat y.meas k (extendMeas (lookupNat y.meas k) d) }

/-- What a stage does (R446); the extents are at most 32, 32 and 16, and the package lies within them (R335). -/
def stageDone (n : Nat) (s : State) : State :=
  let y := { s.sys with stage := n }
  match n with
  | 1 =>
    let v := Config.imageVersion y.image
    { s with sys := { y.measure 0 (Crypto.beNat (Crypto.sha384 y.image)) with
      version := v, fuse := if y.update.isSome then max y.fuse v else y.fuse } }
  | 2 => { s with sys := y.measure 1 (Config.bootDigest 1).toNat }
  | 4 =>
    let ex := 1 + Config.extentX % 32
    let ey := 1 + Config.extentY % 32
    let ez := 1 + Config.extentZ % 16
    { s with
      chip := { s.chip with tx := Config.torusX % ex, ty := Config.torusY % ey, tz := Config.torusZ % ez, ex, ey, ez }
      sys := y.measure 2 (Config.bootDigest 2).toNat }
  | _ => { s with sys := y }

/-- R446. The next bring-up stage ends: the one after it begins, or the package is left out and the failure logged. -/
def execBootStageComplete (s : State) : Out :=
  let n := s.sys.stage + 1
  if !s.sys.powered || s.sys.failed || 5 < n then .next s
  else if s.sys.stageOk n then .next (stageDone n s)
  else .next { s with sys := { s.sys with failed := true }, chip := s.chip.report evBringUp 0 0 }

end Sys2Proof.Machine
end

