-- ==== Sys2Proof/Machine/Commit.lean ====
section
/-! DEFINITION. The commit of a block (R110): what it waits for (R112, R159, R377, R400, R401), the checks of all its actions (R62, R193),
its register writes (R110 step 1), and the turn of its first action. -/

namespace Sys2Proof.Machine

/-! ### What an action needs before its block commits -/

/-- Registers that must not be pending when a block commits (R112): those it writes, with g30 of a call, and its return registers. -/
def Frame.needsRegs (f : Frame) (l : List Doing) : List Nat :=
  (f.writes.filterMap fun w => match w.2 with
    | .null => none
    | .val _ _ => some w.1) ++
  (l.filterMap fun d => let w := f.word d.act.idx; if hasReturn (opOf w) && bitAt w 8 then some (bits w 0 5) else none) ++
  (match f.branch with
    | some b => if isCall (f.word b.idx) then [30] else []
    | none => [])

/-- Whether a committing block of a partition has still to perform a `CRANGE`. -/
def Chip.crangeDue (c : Chip) (pid : Nat) : Bool :=
  c.insts.any fun j => j.pid == pid && j.state == .committing && match j.frame with
    | some f => f.doings.any fun d => d.ins == .crange
    | none => false

/-- Whether an action is a `.sc` atomic. -/
def Frame.isSc (f : Frame) (d : Doing) : Bool := 0x12E ≤ opOf (f.word d.act.idx) && opOf (f.word d.act.idx) ≤ 0x139

/-- Whether a completed block may commit now: its slot runs (R438), its creator has committed (R377), and nothing it needs is missing. No
`CRANGE` takes effect between the check and the performance of a `.sc` atomic or of a copy's chunk, whichever of them began first (R181,
R217). -/
def Chip.mayCommit (c : Chip) (i : Inst) (f : Frame) : Bool :=
  let l := f.doings
  i.state == .complete && (c.slot i.core i.pid).pstate == .run && !i.speculative &&
    ((f.needsRegs l).all fun g => !(i.regs.toList.getD g {}).pend) && c.queuesTake i l && c.storesTake i l &&
    !((c.scWaits i.pid || c.midCopy i.pid) && l.any fun d => d.ins == .crange) && !(c.crangeDue i.pid && l.any f.isSc)

/-! ### The checks of a block's actions (R193) -/

/-- The check of one action: the fault it would raise, and the chip with what its checks left behind and, for the checks of later
actions, with what it would change of the partition's registers and range table (R217). -/
def Chip.checkDoing (c : Chip) (i : Inst) (f : Frame) (d : Doing) : Option AFault × Chip :=
  let o := d.ops
  let w := f.word d.act.idx
  let keep := fun (r : Except AFault Place × Chip) => match r with
    | (.error e, c) => (some e, c)
    | (.ok _, c) => (none, c)
  match storeOf w d.act with
  | some st => keep (c.access i.actor .write true st.ea st.size)
  | none =>
    if 0x122 ≤ opOf w && opOf w ≤ 0x139 then
      let k := atomicOps.getD ((opOf w - 0x122) % 12) .add
      keep (c.checkAtomic i.actor k (0x12E ≤ opOf w) (eaA o.a) (if bits w 9 4 = 1 then 8 else 4) true)
    else
      let swr := fun (r : BitVec 12) => match c.checkSwr i r.toNat o.a with
        | some e => (some e, c)
        | none => (none, if isPlacement r.toNat then c.modPart i.pid fun p => p.setReg r.toNat o.a o.taint else c)
      match d.ins with
      | .spawn _ _ => (c.checkSpawn i o.a.toNat, c)
      | .send r => (c.checkSend i r.toNat o.b.toNat, c)
      | .sendm r => (c.checkSendm i r.toNat o.b.toNat o.c.toNat, c)
      | .eos r => (c.checkSend i r.toNat o.a.toNat, c)
      | .tagfree => (c.checkTagfree i o.a.toNat, c)
      | .cfgld _ _ => (c.checkRegion i o.b.toNat, c)
      | .cfgsw _ _ => (c.checkRegion i o.a.toNat, c)
      | .swr r => swr r
      | .quotaWrite r => swr r
      | .pclrClear => (checkPclr o.a, c)
      | .keyldLd => c.checkKeyld i true o.a.toNat o.b.toNat
      | .keyldClr => c.checkKeyld i false o.a.toNat 0
      | .cred _ _ _ wide => keep (c.checkCred i.actor o.a.toNat (if wide then 8 else 4))
      | .crange => match c.checkCrange i.actor o.a.toNat o.b.toNat with
        | (.error e, c) => (some e, c)
        | (.ok _, c) => (none, c.performCrange i.actor o.a.toNat o.b.toNat)
      -- an abandoned collective's entries are not in effect for later actions (R193, R353)
      | .collAbn _ _ => (none, c.modPart i.pid fun p => { p with ranges := ((c.abandonColl i.core i.pid).part i.pid).ranges })
      | _ => (none, c)

/-- The check of a block's branch (R386, R427). -/
def Chip.checkBranch (c : Chip) (i : Inst) (f : Frame) (b : Branch) : Option AFault :=
  match f.instrOf b.idx with
  | some (.exit free) => if free then c.checkTagfree i i.tag else none
  | some .eretRes => c.checkEret i b
  -- the write of g28 may meet a poisoned line of the slice (R445)
  | some .eretRv => (c.checkEret i b).or ((c.byHandle i.core i.pid b.handle).bind fun j => c.regPoison j.iid 28)
  | some .eretGo => c.checkEret i b
  | some .eretKill => c.checkEret i b
  | _ => none

/-- What a call writes to g30 (R385): the address after its block, with slot a's taint for `CALLI`. -/
def Frame.linkWrite (f : Frame) : List (Nat × Tok) :=
  match f.branch with
  | some b => if isCall (f.word b.idx) then [(30, .val (BitVec.ofNat 64 (f.addr + blockSize f.hdr)) b.op.tainted)] else []
  | none => []

/-- The register writes of a block that meet a poisoned line (R445), with the `WRITE`s or the call that make them. -/
def Chip.poisonedWrites (c : Chip) (i : Inst) (f : Frame) : List (Nat × AFault) :=
  let at_ := fun (x : Nat × Tok) (idx : Nat) => match x.2 with
    | .null => none
    | .val _ _ => (c.regPoison i.iid x.1).map fun e => (idx, e)
  (f.writes.filterMap fun x => at_ x (f.words.findIdx fun w => opOf w == 0x002 && bits w 18 5 == x.1)) ++
    f.linkWrite.filterMap fun x => at_ x ((f.branch.map (·.idx)).getD 0)

/-- Every failing check of a block with its instruction, and the chip that the checks leave. -/
def Chip.checkAll (c : Chip) (i : Inst) (f : Frame) : List (Nat × AFault) × Chip :=
  let (l, c') := f.doings.foldl (fun (l, c) d => match c.checkDoing i f d with
    | (some e, c) => (l ++ [(d.act.idx, e)], c)
    | (none, c) => (l, c)) (([] : List (Nat × AFault)), c)
  let b := match f.branch with
    | some b => match c.checkBranch i f b with
      | some e => [(b.idx, e)]
      | none => []
    | none => []
  (l ++ b ++ c.poisonedWrites i f, { c' with parts := c.parts })

/-- Where a store, atomic or `CRED` goes, which the checks have let through. -/
def Chip.placeOf (c : Chip) (i : Inst) (f : Frame) (a : Act) : Option Place :=
  match f.instrOf a.idx with
  | some (.cred _ _ _ wide) =>
    if a.null then none else (c.checkCred i.actor (operandsOf a.ops a.ptaint).a.toNat (if wide then 8 else 4)).1.toOption
  | _ => c.accessPlace i f a

/-- A block's actions with the places that their accesses were checked for. -/
def Chip.placeActs (c : Chip) (i : Inst) (f : Frame) : Frame := { f with acts := f.acts.map fun a => { a with place := c.placeOf i f a } }

/-- The failing check of the lowest instruction (R62). -/
def lowestFault : List (Nat × AFault) → Option (Nat × AFault)
  | [] => none
  | x :: t => match lowestFault t with
    | none => some x
    | some y => if y.1 < x.1 then some y else some x

/-! ### The commit -/

/-- Register writes of a block (R107, R110 step 1): a null token writes nothing. -/
def writeRegs (l : List (Nat × Tok)) (r : Vector Reg 32) : Vector Reg 32 :=
  l.foldl (fun r w => match w.2 with
    | .null => r
    | .val v t => r.set (w.1 % 32) { v := v, taint := t, pend := false } (Nat.mod_lt _ (by decide))) r

/-- An instance after step 1 of R110: its registers and FPC are written (R241, R242), its actions stand in store-ID order, and `BRK` is
armed again (R427). -/
def Inst.commit (i : Inst) (f : Frame) : Inst :=
  { i with
    regs := writeRegs (f.writes ++ f.linkWrite) i.regs
    fpc := { i.fpc with flags := i.fpc.flags.or f.flags, taint := i.fpc.taint || f.fpTaint }
    state := .committing
    brkOff := false
    frame := some { f with acts := sortActs f.acts } }

/-- R110. A completed block whose checks pass writes its registers, and its actions follow one after the other, then its branch (see
`nextTurn`); with a failing check it is discarded whole (R193). -/
def commitBlock (s : State) : State :=
  let fo := s.focus
  match s.chip.inst? fo.iid with
  | none => s
  | some i =>
    match i.frame with
    | none => s
    | some f =>
      if s.chip.mayCommit i f then
        match s.chip.checkAll i f with
        | (bad, c) =>
          match lowestFault bad with
          | some (k, e) => { s with chip := c.takeFault i.iid k e }
          | none =>
            let f := c.placeActs i f
            let i' := i.commit f
            let c := (c.setInst i').modSlot i.core i.pid fun t => t.commitPosts i.iid []
            { s with
              chip := c.commitMarks i f
              turn := nextTurn { fo with core := i.core, pid := i.pid } { f with acts := sortActs f.acts } }
      else s

/-- R110. See `commitBlock`. -/
def execBlockCommit (s : State) : Out := .next (commitBlock s)

end Sys2Proof.Machine
end

