-- ==== Sys2Proof/Machine/Drain.lean ====
section
/-! DEFINITION. The drain engine (R294 to R314): `ACCST` rounds a tile's elements to words, `QST` quantises a tile's rows into
selector-encoded groups, `LVLLD` replaces a level table. The rows of a command are its chunks. -/

namespace Sys2Proof.Machine

/-! ### Descriptors and acceptance (R297, R300, R302, R309) -/

/-- Fields of an `ACCST` descriptor (R297). -/
def Cmd.drRowStr (q : Cmd) : Int := sgn (bits (q.desc.getD 1 0) 32 32) 32
def Cmd.drColStr (q : Cmd) : Int := sgn (bits (q.desc.getD 1 0) 0 32) 32
def Cmd.drFmt (q : Cmd) : Nat := bits (q.desc.getD 2 0) 0 4
def Cmd.drMode (q : Cmd) : Nat := bits (q.desc.getD 2 0) 8 3

/-- A word format of a drain descriptor (R297). -/
def drainFmt (code : Nat) : FFmt :=
  match code with
  | 8 => .f16
  | 9 => .bf16
  | 10 => .f32
  | _ => .f64

/-- The checks of R297 in table order: the failing word and lowest bit. -/
def accstBad (w : List Nat) : Option (Nat × Nat) :=
  let q : Cmd := { op := .accst, desc := w }
  let w2 := w.getD 2 0
  let known := 8 ≤ q.drFmt && q.drFmt ≤ 11
  let size : Nat := if known then (fmtOf (drainFmt q.drFmt)).width / 8 else 1
  firstFail [
    (w.getD 0 0 % size != 0, 0, 0), (q.drRowStr % size != 0, 1, 32), (q.drColStr % size != 0, 1, 0), (bits w2 11 53 != 0, 2, 11),
    (4 < q.drMode, 2, 8), (bits w2 4 4 != 0, 2, 4), (!known, 2, 0)]

/-- Fields of a `QST` descriptor (R300). -/
def Cmd.qsOut (q : Cmd) : Nat := bits (q.desc.getD 2 0) 32 32
def Cmd.qsCt (q : Cmd) : Nat := bits (q.desc.getD 2 0) 16 16
def Cmd.qsM0 (q : Cmd) : Nat := bits (q.desc.getD 2 0) 0 16
def Cmd.qsK0 (q : Cmd) : Nat := bits (q.desc.getD 3 0) 32 32
def Cmd.qsKlen (q : Cmd) : Nat := bits (q.desc.getD 3 0) 0 32
def Cmd.qsThr (q : Cmd) : Nat := bits (q.desc.getD 4 0) 32 16
def Cmd.qsMask (q : Cmd) : Nat := bits (q.desc.getD 4 0) 24 8
def Cmd.qsInfsat (q : Cmd) : Bool := bitAt (q.desc.getD 4 0) 19
def Cmd.qsGsz (q : Cmd) : Nat := bits (q.desc.getD 4 0) 17 2
def Cmd.qsWid (q : Cmd) : Nat := bits (q.desc.getD 4 0) 10 7
def Cmd.qsSize (q : Cmd) : Nat := 32 * 2 ^ q.qsGsz

/-- Selectors a mask allows, ascending. -/
def Cmd.qsSels (q : Cmd) : List Nat := (List.range 8).filter fun s => bitAt q.qsMask s

/-- The checks of R302 at acceptance, in table order: the failing word and lowest bit. -/
def qstBad (w : List Nat) : Option (Nat × Nat) :=
  let q : Cmd := { op := .qst, desc := w }
  let base := w.getD 0 0
  let w4 := w.getD 4 0
  let peer : Bool := 0xFFFF820000000000 ≤ base && base < 0xFFFF820000000000 + 2 ^ 31
  let size := if q.qsGsz = 3 then 1 else q.qsSize
  firstFail [
    (!(inOwnPad base || peer) || base % 2048 != 0, 0, 0),
    (w.getD 1 0 % 4 != 0, 1, 0),
    (q.qsCt == 0, 2, 16),
    (q.qsK0 % size != 0 || q.qsCt * 512 < q.qsK0 + size, 3, 32),
    (q.qsKlen == 0 || q.qsCt * 512 < q.qsKlen, 3, 0),
    (bits w4 48 16 != 0, 4, 48),
    (q.qsMask == 0 || q.qsSels.any fun s => selReserved s q.qsWid, 4, 24),
    (bits w4 20 4 != 0, 4, 20),
    (q.qsGsz == 3, 4, 17),
    (q.qsWid != 4 && q.qsWid != 6 && q.qsWid != 8, 4, 10),
    (bits w4 0 10 != 0, 4, 0)]

/-- A drain command is accepted: its descriptor is read and checked. -/
def Chip.acceptDrain (c : Chip) (core pid : Nat) (q : Cmd) (words : Nat) (bad : List Nat → Option (Nat × Nat)) : Chip :=
  let (r, c) := c.readDescT (q.actor core pid) q.a.toNat words
  c.acceptTile core pid 6 <| match r with
    | .error f => { q with err := some f, onlyAbandon := true }
    | .ok (w, t) => match bad w with
      | some (k, b) => { q with err := some (descF 0x60 q.a.toNat k b), onlyAbandon := true }
      | none => { q with desc := w, taint := q.taint || t }

/-- R299. Queues the rounding of a tile to a block of words. -/
def execAccst (dch : BitVec 7) (dn : Bool) (tile : BitVec 3) (cz : Bool) (s : State) : Out :=
  classC (fun c i a o => c.acceptDrain i.core i.pid { i.tileCmd .accst a.idx o dn dch tile 0 with flag := cz } 3 accstBad) s

/-- R301. Queues the quantising of a tile, or of a group's tiles. -/
def execQst (dch : BitVec 7) (dn : Bool) (tile : BitVec 3) (cz : Bool) (s : State) : Out :=
  classC (fun c i a o => c.acceptDrain i.core i.pid { i.tileCmd .qst a.idx o dn dch tile 0 with flag := cz } 5 qstBad) s

/-- R309. Queues the loading of a level table. -/
def execLvlld (dch : BitVec 7) (dn : Bool) (tbl : BitVec 2) (wc : BitVec 2) (s : State) : Out :=
  classC (fun c i a o =>
    let q := { i.cmd .lvlld a.idx o dn dch.toNat with sel := tbl.toNat, port := 4 + 2 * wc.toNat }
    let q := if q.a.toNat % 8 ≠ 0 then { q with err := some (operandF 0x60 0), onlyAbandon := true } else q
    c.acceptTile i.core i.pid 6 q) s

/-- R310. Resumes the halted command from its faulting row; after `DQ_RANGE` its trap is disarmed (R308). -/
def execAccstRes (dch : BitVec 7) (dn : Bool) (s : State) : Out :=
  classC (fun c i a _ =>
    let c := match (c.slot i.core i.pid).haltedCmd 6 with
      | some (q, r) => if r.cause = 0x61 then c.modSlot i.core i.pid fun s => s.modCmd 6 q.num fun q => { q with extra := [0, 1] } else c
      | none => c
    c.resumeQueue i a.idx 6 dn dch.toNat) s

/-- R310. Ends the halted command; its CZ zeroing does not happen. -/
def execAccstAbn (dch : BitVec 7) (dn : Bool) (s : State) : Out :=
  classC (fun c i a _ => c.abandonQueue i a.idx 6 dn dch.toNat) s

/-! ### Starting (R294, R301, R302) -/

/-- The drain command that may start: the oldest, not started, its tiles free (R286). -/
def Slot.drainHead (s : Slot) : Option Cmd :=
  match s.headCmd 6 with
  | some q =>
    if !q.started && s.engRuns 6 && (q.err.isSome || !(s.drainTiles q).any fun t => s.planeBefore q t) then some q else none
  | none => none

/-- The checks of a start: tiles within the quota and outside RESIDUE groups, of one mode, the mask's tables loaded. Each fault with
whether the command can then only be abandoned. A set that breaks both rules of R301 raises `PE_TILE` (notes/assumptions 113). -/
def Slot.drainBad (s : Slot) (quota : Nat) (q : Cmd) : Option (AFault × Bool) :=
  if q.op == .lvlld then none
  else
    let ts := s.drainTiles q
    if ts.any fun t => !s.tileOk quota t (s.tile t).mode then some ({ cause := 0x5A }, true)
    else if q.op == .qst then
      if ts.any fun t => (s.tile t).mode != (s.tile q.sel).mode then some (descF 0x60 q.a.toNat 4 17, true)
      else if q.qsSels.any fun n => 4 ≤ n && (s.table? q.qsWid (n - 4)).isNone then some ({ cause := 0x44 }, false)
      else none
    else none

/-- Whether a written table is tainted. -/
def Slot.tableTaint (s : Slot) (w t : Nat) : Bool := s.tabTaint.contains (tableKey w t)

/-- R294. The next drain command of a slot starts. `parts` keeps its tiles, `extra` its trap count and whether the trap is disarmed. -/
def Chip.startDrain (c : Chip) (fo : Focus) : Chip :=
  let s := c.slot fo.core fo.pid
  match s.drainHead with
  | none => c
  | some q =>
    match q.err with
    | some f => c.haltEngine fo.core fo.pid 6 q 0 f true
    | none =>
      match s.drainBad (c.part fo.pid).tileQuota q with
      | some (f, only) => c.haltEngine fo.core fo.pid 6 q 0 f only
      | none =>
        let ts := s.drainTiles q
        let t := ts.any (fun t => (s.tile t).taint) ||
          (q.op == .qst && q.qsSels.any fun n => 4 ≤ n && s.tableTaint q.qsWid (n - 4))
        c.modSlot fo.core fo.pid fun s => s.modCmd 6 q.num fun q =>
          { q with started := true, parts := ts, taint := q.taint || t, extra := if q.extra.isEmpty then [0, 0] else q.extra }

/-- R294. See `Chip.startDrain`. -/
def execDrainCmdStart (s : State) : Out := onChip Chip.startDrain s

/-- The drain command that runs in a slot. -/
def Slot.drainRunning (s : Slot) : Option Cmd :=
  match s.headCmd 6 with
  | some q => if q.started && s.engRuns 6 then some q else none
  | none => none

/-! ### Element values (R298, R303) -/

/-- T of R298: the exact sum of an element's lanes; none where a lane is NaN. -/
def laneSum (lanes : List A80) : Option Dyad :=
  if lanes.any (·.nan) then none
  else some (lanes.zipIdx.foldl (fun t (l, r) => t.add ⟨l.s * residueConst r, l.e - 63⟩) ⟨0, 0⟩)

/-- ts of R298: the product of the two tensor scales in FP32. -/
def Tile.ts (t : Tile) : FVal :=
  match t.scale with
  | none => .fin false 1 0
  | some x => (fmtOf .f32).decode (fMul (fmtOf .f32) .rne (bits x 32 32) (bits x 0 32)).1

/-- Drain of R298: the code, whether it was written as NaN, whether it rounded to an infinity from a finite value. -/
def drainElem (f : Fmt) (mode : RMode) (t : Option Dyad) (ts : FVal) : Nat × Bool × Bool :=
  match t with
  | none => (f.nan, true, false)
  | some t =>
    match ts with
    | .nan _ _ => (f.nan, true, false)
    | .inf n => if t.v = 0 then (f.nan, true, false) else (f.signBit (xor n (decide (t.v < 0))) + f.infBits, false, false)
    | .fin n m e =>
      if t.v = 0 then (f.signBit n, false, false)
      else
        let neg := xor n (decide (t.v < 0))
        if m = 0 then (f.signBit neg, false, false)
        else
          let code := (f.round mode neg (t.v.natAbs * m) (t.e + e)).1
          (code, false, code % 2 ^ (f.width - 1) == f.infBits)

/-- z of R303: T × ts × q_out, rounded once to FP32; an exact zero counts as positive (notes/assumptions 61). -/
def quantValue (t : Option Dyad) (ts qout : FVal) : FVal :=
  match t with
  | none => .nan false false
  | some t =>
    if ts.isNan || qout.isNan then .nan false false
    else
      let zero := t.v == 0 || ts.isZero || qout.isZero
      let inf := ts.isInf || qout.isInf
      let neg := xor (xor (decide (t.v < 0)) ts.neg) qout.neg
      if zero && inf then .nan false false
      else if inf then .inf neg
      else if zero then .fin false 0 0
      else
        let d := (t.mul ts.dyad).mul qout.dyad
        (fmtOf .f32).decode ((fmtOf .f32).round .rne neg d.v.natAbs d.e).1

/-! ### Saffron (R304, R305) -/

/-- Dec(c, s) of R304. -/
def decCode (tab : Option LevelTable) (w sel c : Nat) : Dyad :=
  let (l, r, g) := lattice tab c sel w
  ⟨l * residueConst r, -g - 63⟩

/-- Val(σ) of a finite scale (R85). -/
def scaleValue (x : Nat) : Dyad :=
  match s20 x with
  | some (m, e) => ⟨m, (e : Int) - 139⟩
  | none => ⟨0, 0⟩

/-- The largest finite S20 scale. -/
def topScale : Nat := 0xFEFFF

/-- Least scale in `[lo, hi]` that suffices, where `hi` does; `n` bounds the halvings. -/
def leastScale (ok : Nat → Bool) : Nat → Nat → Nat → Nat
  | 0, _, hi => hi
  | n + 1, lo, hi =>
    if hi ≤ lo then hi
    else
      let mid := (lo + hi) / 2
      if ok mid then leastScale ok n lo mid else leastScale ok n (mid + 1) hi

def Dyad.abs (x : Dyad) : Dyad := ⟨x.v.natAbs, x.e⟩

/-- Whether value `v` is a better neighbour of `z` than `u` (R305): nearer, then smaller, then of z's sign, which a zero of FP32 has too. -/
def betterCode (neg : Bool) (z v u : Dyad) : Bool :=
  let dv := (v.add z.neg).abs
  let du := (u.add z.neg).abs
  if dv.lt du then true
  else if !dv.eq du then false
  else if v.abs.lt u.abs then true
  else if !v.abs.eq u.abs then false
  else (v.v < 0) == neg && (u.v < 0) != neg

/-- The first element of a list that no later one beats, with its place. -/
def pickCode (better : Dyad → Dyad → Bool) : List Dyad → Nat
  | [] => 0
  | x :: l => (l.zipIdx.foldl (fun (b : Nat × Dyad) (y, k) => if better y b.2 then (k + 1, y) else b) (0, x)).1

/-- A group's outcome (R304, R307). -/
structure Group where
  sel   : Nat
  scale : Nat
  codes : List Nat
  clamp : Bool := false
  flush : Bool := false
  nan   : Bool := false
  inf   : Bool := false
  err   : Nat := 0
  deriving DecidableEq, Repr

/-- One candidate of the search: its scale, codes and error. -/
def candidate (tab : Option LevelTable) (w sel : Nat) (zs : List (Option FVal)) (zmax : Dyad) (someInf : Bool) : Group :=
  let decs := (List.range (2 ^ w)).map (decCode tab w sel)
  let hi := decs.foldl (fun a b => if a.lt b then b else a) ⟨0, 0⟩
  let lo := decs.foldl (fun a b => if b.lt a then b else a) ⟨0, 0⟩
  let vmax := if hi.lt lo.neg then hi else lo.neg
  let ok := fun x => zmax.le ((scaleValue x).mul vmax)
  let clamp := (zmax.v == 0 && someInf) || !ok topScale
  let scale := if clamp then topScale else leastScale ok 20 0 topScale
  let vals := decs.map ((scaleValue scale).mul ·)
  let f := fmtOf .f64
  let code := fun (z : FVal) => match z with
    | .inf n => pickCode (fun a b => if n then a.lt b else b.lt a) vals
    | z => pickCode (betterCode z.neg z.dyad) vals
  let codes := zs.map fun z => match z with
    | none => 0
    | some z => code z
  let err := (zs.zip codes).foldl (fun e (z, k) => match z with
    | some (.fin n m x) =>
      let v := (f.roundDyad .rne false (vals.getD k ⟨0, 0⟩)).1
      let d := (fSub f .rne (f.roundDyad .rne n (FVal.fin n m x).dyad).1 v).1
      (fAdd f .rne e (fMul f .rne d d).1).1
    | _ => e) 0
  let fin := (zs.zip codes).filter fun (z, _) => match z with
    | some (.fin _ _ _) => true
    | _ => false
  let flush := (fin.any fun (z, _) => match z with
    | some z => !z.isZero
    | none => false) && fin.all fun (_, k) => (vals.getD k ⟨0, 0⟩).v == 0
  { sel, scale, codes, clamp, flush, inf := someInf, err }

/-- Saffron of R304; `zs` holds none for an invalid element. -/
def saffron (tab : Nat → Option LevelTable) (w : Nat) (sels : List Nat) (infsat : Bool) (zs : List (Option FVal)) : Group :=
  let someInf := zs.any fun z => match z with
    | some z => z.isInf
    | none => false
  let someNan := zs.any fun z => match z with
    | some z => z.isNan
    | none => false
  if someNan || (someInf && !infsat) then
    { sel := sels.headD 0, scale := 0xFF000, codes := zs.map fun _ => 0, nan := true, inf := someInf }
  else
    let zmax := zs.foldl (fun (a : Dyad) z => match z with
      | some (.fin n m x) => if a.lt (FVal.fin n m x).dyad.abs then (FVal.fin n m x).dyad.abs else a
      | _ => a) ⟨0, 0⟩
    let cands := sels.map fun s => candidate (tab s) w s zs zmax someInf
    let f := fmtOf .f64
    (cands.foldl (fun (b : Option Group) g => match b with
      | none => some g
      | some h => if ltVal (f.decode g.err) (f.decode h.err) then some g else b) none).getD { sel := 0, scale := 0, codes := [] }

/-! ### Rows (R299, R306, R308, R310) -/

/-- Neighbouring writes as one. -/
def mergeWrites (ws : List (Nat × List Byte)) : List (Nat × List Byte) :=
  (ws.foldl (fun (acc : List (Nat × List Byte)) w => match acc with
    | x :: t => if x.1 + x.2.length = w.1 then (x.1, x.2 ++ w.2) :: t else w :: x :: t
    | [] => [w]) []).reverse

/-- The writes of a row with one taint, after its destination has been checked whole: a line that the command has written whole takes
exactly that taint (R299). -/
def Chip.putRow (c : Chip) (core pid : Nat) (q : Cmd) (ws : List (Nat × List Byte)) : List (Nat × Nat × Bool) × Chip :=
  ws.foldl (fun (cover, c) w =>
    match c.enginePlaces (q.actor core pid) w.1 w.2.length with
    | (.error _, c) => (cover, c)
    | (.ok ps, c) =>
      ps.foldl (fun (cover, c) (pl, o, k) =>
        let va := w.1 + o
        let mask := Nat.lor (((cover.find? fun x => x.1 == va / 64).map (·.2.1)).getD 0) (lineMask va k)
        let line := pl.loc / 64
        let whole := mask == 2 ^ 64 - 1 && !q.taint
        (upsert (fun x => x.1 == va / 64) (va / 64, mask, q.taint) cover,
          if whole then { c with mem := { c.mem with taint := c.mem.taint.filter (· != line) } } else c))
        (cover, c.putPlaces ps w.2 q.taint)) (q.cover, c)

/-- What a row writes and counts: the writes, the counters of R307 by index, and whether its group clamped or flushed. -/
structure Row where
  writes : List (Nat × List Byte)
  counts : List Nat
  ranged : Bool := false
  deriving DecidableEq, Repr

/-- Row `i` of an `ACCST` (R297 to R299). -/
def accstRow (q : Cmd) (t : Tile) (i : Nat) : Row :=
  let f := fmtOf (drainFmt q.drFmt)
  let els := (List.range 32).map fun n => drainElem f (modeOf q.drMode) (laneSum (t.lanesAt (32 * i + n))) t.ts
  let ws := els.zipIdx.map fun (e, n) =>
    (wrap ((q.desc.getD 0 0 : Int) + i * q.drRowStr + n * q.drColStr) 64, leBytes (f.width / 8) e.1)
  let sats := ((List.range 32).filter fun n => (t.lanesAt (32 * i + n)).any (·.sat)).length
  { writes := mergeWrites ws, counts := [(els.filter (·.2.1)).length, (els.filter (·.2.2)).length, sats, 0, 0, 0] }

/-- Row `i` of a `QST` (R301 to R307): its group word, then its codes plane by plane. -/
def qstRow (s : Slot) (q : Cmd) (i : Nat) : Row :=
  let w := q.qsWid
  let size := q.qsSize
  let cells := q.parts.zipIdx.flatMap fun (t, j) => (List.range 32).map fun n =>
    let tile := s.tile t
    let lanes := tile.lanesAt (32 * i + n)
    if q.qsKlen ≤ q.qsK0 + 32 * j + n then (none, false)
    else (some (quantValue (laneSum lanes) tile.ts ((fmtOf .f32).decode q.qsOut)), lanes.any (·.sat))
  let g := saffron (fun n => if 4 ≤ n then s.table? w (n - 4) else none) w q.qsSels q.qsInfsat (cells.map (·.1))
  let m := q.qsM0 + i
  let ch := q.qsK0 / 512
  let gn := 512 / size
  let idx := ch * gn + q.qsK0 % 512 / size
  let word := (wrap (q.desc.getD 1 0 + 4 * (m * q.qsCt * gn + idx) : Nat) 64, leBytes 4 (mkGroupWord idx g.sel g.scale))
  let planes := (List.range w).map fun j =>
    (wrap (segAddr (q.desc.getD 0 0) m j ch w q.qsCt + q.qsK0 % 512 / 8 : Nat) 64, (planeBytes g.codes j).take (size / 8))
  { writes := word :: planes
    counts := [b2n g.nan, 0, (cells.filter (·.2)).length, b2n g.clamp, b2n g.flush, b2n g.inf]
    ranged := g.clamp || g.flush }

/-- Whether a slot has a row ready for the drain. -/
def Slot.rowReady (s : Slot) : Bool := s.drainRunning.any fun q => q.op != .lvlld && decide (q.pos < 32)

/-- The slot of a core that the drain serves next (R294). -/
def Chip.drainTurn (c : Chip) (core : Nat) : Option Nat :=
  c.servedNext (c.coreSt core).drLast (c.slots.filter fun s => s.core == core && s.rowReady)

/-- The fault of a poisoned line of accumulator memory among those of row `i` of a command's tiles (R90, R444, R445). -/
def Slot.rowPoison (s : Slot) (q : Cmd) (i : Nat) : Option AFault :=
  (if q.op == .accst then [q.sel] else q.parts).findSome? fun t => (s.tile t).poisonF fun l => l % 160 / 5 == i

/-- R294, R310. The next row of the running command, when it is the slot's turn: its destination is checked whole, its group counted, then
it is written. -/
def Chip.drainRow (c : Chip) (fo : Focus) : Chip :=
  let s := c.slot fo.core fo.pid
  match s.drainRunning with
  | none => c
  | some q =>
    if !s.rowReady || c.drainTurn fo.core != some fo.pid then c
    else
      let c := c.modCore fo.core fun k => { k with drLast := (c.part fo.pid).slot }
      match s.rowPoison q q.pos with
      | some f => c.haltEngine fo.core fo.pid 6 q q.pos f false
      | none =>
      let r := if q.op == .accst then accstRow q (s.tile q.sel) q.pos else qstRow s q q.pos
      match c.writable (q.actor fo.core fo.pid) (r.writes.map fun w => (w.1, w.2, q.taint)) with
      | (some f, c) => c.haltEngine fo.core fo.pid 6 q q.pos f false
      | (none, c) =>
        let n := q.extra.getD 0 0 + b2n r.ranged
        if r.ranged && q.extra.getD 1 0 == 0 && q.qsThr != 0 && q.qsThr ≤ n && q.op == .qst then
          c.haltEngine fo.core fo.pid 6 q q.pos { cause := 0x61 } false
        else
          let (cover, c) := c.putRow fo.core fo.pid q r.writes
          c.modSlot fo.core fo.pid fun s =>
            (r.counts.zipIdx.foldl (fun s (d, k) => if d = 0 then s else s.bump (0x09 * 256 + k) d) s).modCmd 6 q.num fun q =>
              { q with pos := q.pos + 1, cover, extra := [n, q.extra.getD 1 0] }

/-- R310. See `Chip.drainRow`. -/
def execDrainRow (s : State) : Out := onChip Chip.drainRow s

/-! ### Level tables (R79, R309) -/

/-- Whether a command that has started and not completed holds the table that an `LVLLD` is to replace. -/
def Slot.tableHeld (s : Slot) (q : Cmd) : Bool := (s.eng 5).cmds.any fun x => x.started && x.tableWidths.contains q.lvlTable.1

/-- R79, R309. The waiting `LVLLD` reads its image, checks it, and replaces its table, or is refused whole. -/
def Chip.replaceTable (c : Chip) (fo : Focus) : Chip :=
  let s := c.slot fo.core fo.pid
  match s.drainRunning with
  | none => c
  | some q =>
    if q.op != .lvlld || s.tableHeld q then c
    else
      let (w, t) := q.lvlTable
      match c.engineRead (q.actor fo.core fo.pid) q.a.toNat (levelImageLen w) with
      | (.error f, c) =>
        (c.modSlot fo.core fo.pid fun s => s.modCmd 6 q.num fun q => { q with started := false }).haltEngine fo.core fo.pid 6 q 0 f false
      | (.ok (bs, taint), c) =>
        match parseLevels w (bs.map BitVec.toNat) with
        | .inr tab =>
          let key := tableKey w t
          (c.modSlot fo.core fo.pid fun s =>
            { s with
              tables := upsert (fun x => x.1 == key) (key, tab) s.tables
              tabTaint := if taint || q.taint then addNat s.tabTaint key else s.tabTaint.filter (· != key) }).completeCmd
            fo.core fo.pid 6 q
        | .inl off =>
          let c := c.modSlot fo.core fo.pid fun s =>
            (s.advance 6 q.num).modEng 6 fun e => { e with cmds := e.cmds.filter fun x => x.num != q.num }
          c.errorDone q.who 3 6 q.num q.dn q.dch q.num { cause := 0x62, addr := q.a.toNat, info0 := off }

/-- R79. See `Chip.replaceTable`. -/
def execLvlldReplace (s : State) : Out := onChip Chip.replaceTable s

/-- R295, R299. After the last row the tiles of a CZ command are zeroed in their own mode, `tl6` advances, DONE is sent. -/
def execDrainCmdComplete (s : State) : Out :=
  onChip (fun c fo => match (c.slot fo.core fo.pid).drainRunning with
    | none => c
    | some q =>
      if q.op == .lvlld || q.pos < 32 then c
      else
        (c.modSlot fo.core fo.pid fun s =>
          if q.flag then q.parts.foldl (fun s t => s.zeroTile t (s.tile t).mode) s else s).completeCmd fo.core fo.pid 6 q) s

end Sys2Proof.Machine
end

