-- ==== Sys2Proof/Machine/FloatExec.lean ====
section
/-! DEFINITION. Meanings of the floating-point instructions (R236 to R260): class T; those that can raise a flag add their flags and the
taint of their operands to the block's set (R241, R242). -/

namespace Sys2Proof.Machine

/-- R246. Floating addition rounded once under FPC.RM. -/
def execFadd (f : FFmt) (t1 : Option Target) (t0 : Option Target) (s : State) : Out :=
  onChip (fun c fo => c.fireFloat fo [t1, t0] fun r a b _ => fAdd (fmtOf f) r a b) s

/-- R246. Floating subtraction rounded once. -/
def execFsub (f : FFmt) (t1 : Option Target) (t0 : Option Target) (s : State) : Out :=
  onChip (fun c fo => c.fireFloat fo [t1, t0] fun r a b _ => fSub (fmtOf f) r a b) s

/-- R246. Floating multiplication rounded once. -/
def execFmul (f : FFmt) (t1 : Option Target) (t0 : Option Target) (s : State) : Out :=
  onChip (fun c fo => c.fireFloat fo [t1, t0] fun r a b _ => fMul (fmtOf f) r a b) s

/-- R246. Fused multiply-add rounded once. -/
def execFma (f : FFmt) (t1 : Option Target) (t0 : Option Target) (s : State) : Out :=
  onChip (fun c fo => c.fireFloat fo [t1, t0] fun r a b d => fMa (fmtOf f) r a b d) s

/-- R246. Computes c minus a times b rounded once. -/
def execFnma (f : FFmt) (t1 : Option Target) (t0 : Option Target) (s : State) : Out :=
  onChip (fun c fo => c.fireFloat fo [t1, t0] fun r a b d => fNma (fmtOf f) r a b d) s

/-- R246. Correctly rounded floating division on the iterative divider. -/
def execFdiv (f : FFmt) (t1 : Option Target) (t0 : Option Target) (s : State) : Out :=
  onChip (fun c fo => c.fireFloat fo [t1, t0] fun r a b _ => fDiv (fmtOf f) r a b) s

/-- R246. Correctly rounded square root on the iterative divider. -/
def execFsqrt (f : FFmt) (t1 : Option Target) (t0 : Option Target) (s : State) : Out :=
  onChip (fun c fo => c.fireFloat fo [t1, t0] fun r a _ _ => fSqrt (fmtOf f) r a) s

/-- R247. IEEE minimumNumber. -/
def execFmin (f : FFmt) (t1 : Option Target) (t0 : Option Target) (s : State) : Out :=
  onChip (fun c fo => c.fireFloat fo [t1, t0] fun _ a b _ => fMinMax (fmtOf f) false a b) s

/-- R247. IEEE maximumNumber. -/
def execFmax (f : FFmt) (t1 : Option Target) (t0 : Option Target) (s : State) : Out :=
  onChip (fun c fo => c.fireFloat fo [t1, t0] fun _ a b _ => fMinMax (fmtOf f) true a b) s

/-- R247. Clears the sign bit. -/
def execFabs (f : FFmt) (t1 : Option Target) (t0 : Option Target) (s : State) : Out :=
  onChip (fun c fo => c.fireNat fo [t1, t0] fun a _ _ => fAbs (fmtOf f) a) s

/-- R247. Inverts the sign bit. -/
def execFneg (f : FFmt) (t1 : Option Target) (t0 : Option Target) (s : State) : Out :=
  onChip (fun c fo => c.fireNat fo [t1, t0] fun a _ _ => fNeg (fmtOf f) a) s

/-- R247. Copies the sign of b onto the magnitude of a. -/
def execFcpys (f : FFmt) (t1 : Option Target) (t0 : Option Target) (s : State) : Out :=
  onChip (fun c fo => c.fireNat fo [t1, t0] fun a b _ => fCpys (fmtOf f) a b) s

/-- R248. Floating equality compare. -/
def execFteq (f : FFmt) (t1 : Option Target) (t0 : Option Target) (s : State) : Out :=
  onChip (fun c fo => c.fireFloat fo [t1, t0] fun _ a b _ => fTeq (fmtOf f) a b) s

/-- R248. Floating less-than compare, NV for any NaN. -/
def execFtlt (f : FFmt) (t1 : Option Target) (t0 : Option Target) (s : State) : Out :=
  onChip (fun c fo => c.fireFloat fo [t1, t0] fun _ a b _ => fTlt (fmtOf f) a b) s

/-- R248. Floating less-or-equal compare, NV for any NaN. -/
def execFtle (f : FFmt) (t1 : Option Target) (t0 : Option Target) (s : State) : Out :=
  onChip (fun c fo => c.fireFloat fo [t1, t0] fun _ a b _ => fTle (fmtOf f) a b) s

/-- R248. Returns 1 when either operand is a NaN. -/
def execFtun (f : FFmt) (t1 : Option Target) (t0 : Option Target) (s : State) : Out :=
  onChip (fun c fo => c.fireFloat fo [t1, t0] fun _ a b _ => fTun (fmtOf f) a b) s

/-- R249. Returns a one-hot class word. -/
def execFclass (f : FFmt) (t1 : Option Target) (t0 : Option Target) (s : State) : Out :=
  onChip (fun c fo => c.fireNat fo [t1, t0] fun a _ _ => fClass (fmtOf f) a) s

/-- R250. Rounds to an integral value in a given mode, optionally raising NX. -/
def execFrnd (f : FFmt) (flag : Bool) (mode : RMode) (t0 : Option Target) (s : State) : Out :=
  onChip (fun c fo => c.fireFloat fo [t0] fun _ a _ _ => fRnd (fmtOf f) mode flag a) s

/-- R251. Multiplies by 2^n rounded once. -/
def execFscale (f : FFmt) (t1 : Option Target) (t0 : Option Target) (s : State) : Out :=
  onChip (fun c fo => c.fireFloat fo [t1, t0] fun r a b _ => fScale (fmtOf f) r a b) s

/-- R251. Returns floor(log2|x|) as a signed integer. -/
def execFgetexp (f : FFmt) (t1 : Option Target) (t0 : Option Target) (s : State) : Out :=
  onChip (fun c fo => c.fireFloat fo [t1, t0] fun _ a _ _ => fGetexp (fmtOf f) a) s

/-- R253. Converts between floating formats with one rounding. -/
def execCvtff (mode : RMode) (src : FFmt) (dst : FFmt) (t0 : Option Target) (s : State) : Out :=
  onChip (fun c fo => c.fireFloat fo [t0] fun _ a _ _ => cvtFF (fmtOf src) (fmtOf dst) mode a) s

/-- R254. Converts floating to integer with saturation. -/
def execCvtfi (mode : RMode) (src : FFmt) (dst : IFmt) (t0 : Option Target) (s : State) : Out :=
  onChip (fun c fo => c.fireFloat fo [t0] fun _ a _ _ => cvtFI (fmtOf src) dst mode a) s

/-- R255. Converts integer to floating with one rounding. -/
def execCvtif (mode : RMode) (src : IFmt) (dst : FFmt) (t0 : Option Target) (s : State) : Out :=
  onChip (fun c fo => c.fireFloat fo [t0] fun _ a _ _ => cvtIF src (fmtOf dst) mode a) s

/-- R256. Stochastically rounds to a narrower format using supplied random bits. -/
def execCvtsr (src : FFmt) (dst : FFmt) (t0 : Option Target) (s : State) : Out :=
  onChip (fun c fo => c.fireFloat fo [t0] fun _ a b _ => cvtSR (fmtOf src) (fmtOf dst) a b) s

/-- R257. Reciprocal rounded to 14 significand bits on the SFU. -/
def execFrcpa (single : Bool) (t1 : Option Target) (t0 : Option Target) (s : State) : Out :=
  onChip (fun c fo => c.fireFloat fo [t1, t0] fun _ a _ _ => fRcpa (if single then fmtOf .f32 else fmtOf .f64) a) s

/-- R257. Reciprocal square root rounded to 14 bits. -/
def execFrsqa (single : Bool) (t1 : Option Target) (t0 : Option Target) (s : State) : Out :=
  onChip (fun c fo => c.fireFloat fo [t1, t0] fun _ a _ _ => fRsqa (if single then fmtOf .f32 else fmtOf .f64) a) s

/-- R257. 2^x rounded to 22 bits. -/
def execFexp2a (t1 : Option Target) (t0 : Option Target) (s : State) : Out :=
  onChip (fun c fo => c.fireFloat fo [t1, t0] fun _ a _ _ => fExp2a a) s

/-- R257. log2 x rounded to 22 bits. -/
def execFlog2a (t1 : Option Target) (t0 : Option Target) (s : State) : Out :=
  onChip (fun c fo => c.fireFloat fo [t1, t0] fun _ a _ _ => fLog2a a) s

/-- R257. sin of x turns rounded to 22 bits. -/
def execFsina (t1 : Option Target) (t0 : Option Target) (s : State) : Out :=
  onChip (fun c fo => c.fireFloat fo [t1, t0] fun _ a _ _ => fSina a) s

/-- R257. cos of x turns rounded to 22 bits. -/
def execFcosa (t1 : Option Target) (t0 : Option Target) (s : State) : Out :=
  onChip (fun c fo => c.fireFloat fo [t1, t0] fun _ a _ _ => fCosa a) s

/-- R259. Computes a stateless 64-bit random word from key and counter. -/
def execRand (t1 : Option Target) (t0 : Option Target) (s : State) : Out :=
  onChip (fun c fo => c.fireNat fo [t1, t0] fun a b _ => randWord a b) s

end Sys2Proof.Machine
end

