-- ==== Sys2Proof/Machine/Gather.lean ====
section
/-! DEFINITION. The gather unit (R175 to R179, R181, R182): `GATH` and `SCAT` with their index tokens, the chunk bitmap, and `CHKWAIT`. -/

namespace Sys2Proof.Machine

/-! ### The descriptor (R175) -/

def Cmd.tstr (q : Cmd) : Nat := bits (q.desc.getD 0 0) 0 32
def Cmd.posStr (q : Cmd) : Nat := bits (q.desc.getD 1 0) 32 32
def Cmd.rowSize (q : Cmd) : Nat := bits (q.desc.getD 1 0) 0 32

/-- The checks of a gather descriptor in the order of its table: the failing word and bit. -/
def gatherBad (scope : Nat) (w : List Nat) : Option (Nat × Nat) :=
  let q : Cmd := { op := .gath, desc := w }
  let w2 := w.getD 2 0
  firstFail [
    (q.nrows == 0, 0, 32), (q.tstr % 8 != 0, 0, 0), (q.posStr % 8 != 0, 1, 32),
    (q.rowSize < 8 || 65536 < q.rowSize || q.rowSize % 8 != 0, 1, 0), (bits w2 43 21 != 0, 2, 43), (bits w2 32 3 != scope, 2, 32),
    (bitAt w2 31, 2, 31), (125 < q.ich, 2, 24),
    (q.positions == 0 || 2 ^ 19 < (q.positions - 1) * q.posStr + q.rowSize, 2, 0)]

/-- R175, R176. A gather command is accepted: its descriptor is read and checked, and its index channel is bound from now on. -/
def Chip.acceptGather (c : Chip) (core pid : Nat) (q : Cmd) (ret : Option (BitVec 5)) : Chip :=
  let (r, c) := c.readDesc (q.actor core pid) q.a.toNat 3
  let q := match r with
    | .error f => { q with err := some f, onlyAbandon := true }
    | .ok w =>
      let q := { q with desc := w, dn := bitAt (w.getD 2 0) 35, dch := bits (w.getD 2 0) 36 7 }
      match gatherBad ((c.part pid).ctxScope 4) w with
      | some (k, b) => { q with err := some (descF 0x48 q.a.toNat k b), onlyAbandon := true }
      | none => q
  let (num, c) := c.accept core pid 4 q
  c.returnVal q.who.iid ret (wordOf num) q.taint

/-- R177. Rows of a table to positions. -/
def execGath (ret : Option (BitVec 5)) (s : State) : Out :=
  classC (fun c i a o => c.acceptGather i.core i.pid (i.cmd .gath a.idx o false 0) ret) s

/-- R178. Positions to rows of a table. -/
def execScat (ret : Option (BitVec 5)) (s : State) : Out :=
  classC (fun c i a o => c.acceptGather i.core i.pid (i.cmd .scat a.idx o false 0) ret) s

/-! ### The bitmap (R177) -/

/-- Whether position `p` overlaps chunk `j` of the position area. -/
def Cmd.touches (q : Cmd) (p j : Nat) : Bool := p * q.posStr < 512 * (j + 1) && 512 * j < p * q.posStr + q.rowSize

/-- Positions done so far: `extra` holds row × 2^24 + position for each arrival. -/
def Cmd.donePos (q : Cmd) : List Nat := q.extra.map (· % 2 ^ 24)

/-- Whether the bit of chunk `j` is set: every position that overlaps it is done. -/
def Cmd.chunkDone (q : Cmd) (j : Nat) : Bool := (List.range q.positions).all fun p => !q.touches p j || q.donePos.contains p

/-- The bitmap's sixteen words. -/
def Cmd.bitmap (q : Cmd) : List Nat :=
  (List.range 16).map fun w => sumNat ((List.range 64).map fun b => if q.chunkDone (64 * w + b) then 2 ^ b else 0)

/-! ### Running -/

/-- The command at the head of the gather queue that may start. -/
def Slot.gatherHead (s : Slot) : Option Cmd :=
  match s.headCmd 4 with
  | some q => if !q.started && s.engRuns 4 then some q else none
  | none => none

/-- R177. The next gather command starts: the bitmap is cleared but for chunks that no position overlaps. -/
def execGatherStart (s : State) : Out :=
  onChip (fun c fo => match (c.slot fo.core fo.pid).gatherHead with
    | none => c
    | some q =>
      match q.err with
      | some f => c.haltEngine fo.core fo.pid 4 q 0 f true
      | none => c.modSlot fo.core fo.pid fun s => { s.modCmd 4 q.num (fun q => { q with started := true }) with bitmap := q.bitmap }) s

/-- The running gather command of a slot. -/
def Slot.gatherRunning (s : Slot) : Option Cmd :=
  match s.headCmd 4 with
  | some q => if q.started && s.engRuns 4 then some q else none
  | none => none

/-- Index tokens that the running command may take now (R176, R177): those of its channel up to an EOS, in any order; the EOS when it
comes first. The list gives their places among the tokens waiting. -/
def Slot.indexChoices (s : Slot) (q : Cmd) : List Nat :=
  let mine := s.mat.index.zipIdx.filter fun x => hdrChan x.1.hdr == q.ich
  let before := mine.takeWhile fun x => hdrFmt x.1.hdr == 1
  if q.positions ≤ q.pos then []
  else if before.isEmpty then (mine.take 1).map (·.2) else (before.take (q.positions - q.pos)).map (·.2)

/-- A token of a gather names itself in the record (R420). -/
def indexF (cause : Nat) (t : Token) (info1 : Nat) : AFault := { cause, sub := t.link, info0 := t.hdr.toNat, info1 }

/-- Whether two numbered pieces of a size at a stride overlap. -/
def strideMeet (stride size a b : Nat) : Bool := decide (stride * (max a b - min a b) < size)

/-- Whether the bytes of a row at its destination have been written by another index that no order puts before it or after (R177, R415): a
gather's position or one that overlaps it, a scatter's other table row. -/
def Cmd.rewrites (q : Cmd) (p row : Nat) : Bool :=
  if q.op == .scat then q.extra.any fun e => e / 2 ^ 24 != row && strideMeet q.tstr q.rowSize (e / 2 ^ 24) row
  else q.donePos.any fun e => strideMeet q.posStr q.rowSize e p

/-- One row moves (R177, R178): the chip, or the fault. A scatter leaves a row alone that a higher position has already written, as if it
had come before. -/
def Chip.moveRow (c : Chip) (core pid : Nat) (q : Cmd) (p row : Nat) (t : Bool) : Except AFault Chip × Chip :=
  let x := q.actor core pid
  let scat := q.op == .scat
  let posAddr := wrap ((if scat then q.b.toNat else q.c.toNat) + p * q.posStr : Nat) 64
  let rowAddr := wrap ((if scat then q.c.toNat else q.b.toNat) + row * q.tstr : Nat) 64
  let (src, dst) := if scat then (posAddr, rowAddr) else (rowAddr, posAddr)
  match c.engineRead x src q.rowSize with
  | (.error f, c) => (.error f, c)
  | (.ok (bs, u), c) =>
    if scat && q.extra.any fun e => e / 2 ^ 24 == row && p < e % 2 ^ 24 then (.ok c, c)
    else
      match c.engineWrite x dst bs (u || t || q.rewrites p row) with
      | (.error f, c) => (.error f, c)
      | (.ok _, c) => (.ok c, c)

/-- Whether a fault at position `p` is the lowest there will be, every position below it done (R181): each has been counted, or every index
has come and none that waits has a lower position. -/
def Slot.lowestFault (s : Slot) (q : Cmd) (p : Nat) : Bool :=
  let mine := s.mat.index.filter fun t => hdrChan t.hdr == q.ich
  let before := mine.takeWhile fun t => hdrFmt t.hdr == 1
  (List.range (min p q.positions)).all q.donePos.contains ||
    ((decide (q.positions ≤ q.pos + before.length) || decide (before.length < mine.length)) &&
      (before.take (q.positions - q.pos)).all fun t => decide (p ≤ t.position))

/-- R177, R178, R181. The token at place `n` of those waiting moves its row, or halts the queue: an index out of range, an EOS before
the last index, a fault of the row's accesses. A fault waits for the positions below it. -/
def Chip.gatherRow (c : Chip) (fo : Focus) : Chip :=
  let s := c.slot fo.core fo.pid
  match s.gatherRunning with
  | none => c
  | some q =>
    if !(s.indexChoices q).contains fo.n then c
    else match s.mat.index[fo.n]? with
      | none => c
      | some t =>
        let taken := fun (c : Chip) => c.modSlot fo.core fo.pid fun s => { s with mat := { s.mat with index := s.mat.index.eraseIdx fo.n } }
        let p := t.position
        let row := t.row
        if hdrFmt t.hdr ≠ 1 then (taken c).haltEngine fo.core fo.pid 4 q 0 (indexF 0x4A t q.pos) false
        else if q.positions ≤ p || q.nrows ≤ row then
          if s.lowestFault q p then (taken c).haltEngine fo.core fo.pid 4 q p (indexF 0x49 t t.payload.toNat) false else c
        else match c.moveRow fo.core fo.pid q p row (hdrTaint t.hdr) with
          | (.error f, c') => if s.lowestFault q p then c'.haltEngine fo.core fo.pid 4 q p f false else c
          | (.ok c, _) =>
            (taken c).modSlot fo.core fo.pid fun s =>
              let q := { q with pos := q.pos + 1, extra := q.extra ++ [row * 2 ^ 24 + p] }
              { s.modCmd 4 q.num (fun _ => q) with bitmap := q.bitmap }

/-- R177, R178. See `Chip.gatherRow`. -/
def execGatherRowWrite (s : State) : Out := onChip Chip.gatherRow s

/-- R177. After the COUNT-th row every bit is set and the command completes. -/
def execGatherComplete (s : State) : Out :=
  onChip (fun c fo => match (c.slot fo.core fo.pid).gatherRunning with
    | none => c
    | some q =>
      if q.pos = q.positions then
        (c.modSlot fo.core fo.pid fun s => { s with bitmap := List.replicate 16 (2 ^ 64 - 1) }).completeCmd fo.core fo.pid 4 q
      else c) s

/-- R182. Resumes the halted gather queue. -/
def execGathRes (ret : Option (BitVec 5)) (s : State) : Out := classC (fun c i _ o => c.resumeEngine i 4 ret o.taint) s

/-- R182. Abandons the halted gather command. -/
def execGathAbn (ret : Option (BitVec 5)) (s : State) : Out := classC (fun c i _ o => c.abandonEngine i 4 ret o.taint) s

/-- R182. As `GATH.res`. -/
def execScatRes (ret : Option (BitVec 5)) (s : State) : Out := classC (fun c i _ o => c.resumeEngine i 4 ret o.taint) s

/-- R182. As `GATH.abn`. -/
def execScatAbn (ret : Option (BitVec 5)) (s : State) : Out := classC (fun c i _ o => c.abandonEngine i 4 ret o.taint) s

/-! ### `CHKWAIT` (R179) -/

/-- R179. Fires with the mask and holds; a scope wider than the gather context's faults. -/
def execChkwait (scope : Scope) (_word : BitVec 4) (t0 : Option Target) (s : State) : Out :=
  onChip (fun c fo => c.fireW fo [t0] fun c i o =>
    let ctx := (c.part i.pid).ctxScope 4
    if ctx < scope.code then (.error (scopeF 4 scope.code ctx), c) else (.ok (o.b, o.taint), c)) s

/-- Whether a held `CHKWAIT` may go on: tl4 has reached t, or command t runs and the mask's bits are set. -/
def Chip.chkwaitDone (c : Chip) (i : Inst) (w : Wait) (word : Nat) : Bool :=
  match i.frame with
  | none => false
  | some f =>
    let s := c.slot i.core i.pid
    let t := ((f.cell w.idx).a.getD .null).value.toNat
    opOf word == 0x186 &&
      (t ≤ s.tl 4 ||
        match s.headCmd 4 with
        | some q => q.started && q.num == t && Nat.land (s.bitmap.getD (bits word 9 4) 0) w.n.toNat == w.n.toNat
        | none => false)

/-- R179. The chunks are there: acquire at SCOPE, send the mask. -/
def execChkwaitRelease (s : State) : Out :=
  onChip (fun c fo => match c.waitAt fo with
    | none => c
    | some (i, w, word) =>
      if c.chkwaitDone i w word then (c.acquire i.core i.iid (bits word 13 3)).release i.iid w [t0Of word] else c) s

end Sys2Proof.Machine
end

