-- ==== Sys2Proof/Machine/Integer.lean ====
section
/-! DEFINITION. Meanings of the integer instructions (R220 to R235): every one is class T and computes with the operations of IntOps at
its width; comparisons, counts and fields likewise. -/

namespace Sys2Proof.Machine

/-- R225. Adds two operands modulo 2^N. -/
def execAdd (w : Width) (t1 : Option Target) (t0 : Option Target) (s : State) : Out :=
  onChip (fun c fo => c.fireNat fo [t1, t0] fun a b _ => iAdd w.bits a b) s

/-- R225. Adds a signed 9-bit immediate modulo 2^N. -/
def execAddi (w : Width) (imm : BitVec 9) (t0 : Option Target) (s : State) : Out :=
  onChip (fun c fo => c.fireNat fo [t0] fun a _ _ => iAdd w.bits a (immOf imm w.bits)) s

/-- R225. Subtracts b from a modulo 2^N. -/
def execSub (w : Width) (t1 : Option Target) (t0 : Option Target) (s : State) : Out :=
  onChip (fun c fo => c.fireNat fo [t1, t0] fun a b _ => iSub w.bits a b) s

/-- R225. Multiplies two operands modulo 2^N. -/
def execMul (w : Width) (t1 : Option Target) (t0 : Option Target) (s : State) : Out :=
  onChip (fun c fo => c.fireNat fo [t1, t0] fun a b _ => iMul w.bits a b) s

/-- R225. Multiplies by a signed immediate modulo 2^N. -/
def execMuli (w : Width) (imm : BitVec 9) (t0 : Option Target) (s : State) : Out :=
  onChip (fun c fo => c.fireNat fo [t0] fun a _ _ => iMul w.bits a (immOf imm w.bits)) s

/-- R225. Returns the high half of the signed 2N-bit product. -/
def execMulh (w : Width) (t1 : Option Target) (t0 : Option Target) (s : State) : Out :=
  onChip (fun c fo => c.fireNat fo [t1, t0] fun a b _ => iMulh w.bits a b) s

/-- R225. Returns the high half of the natural 2N-bit product. -/
def execMulhn (w : Width) (t1 : Option Target) (t0 : Option Target) (s : State) : Out :=
  onChip (fun c fo => c.fireNat fo [t1, t0] fun a b _ => iMulhn w.bits a b) s

/-- R225. Computes a times b plus c with a single wrap modulo 2^N. -/
def execMadd (w : Width) (t1 : Option Target) (t0 : Option Target) (s : State) : Out :=
  onChip (fun c fo => c.fireNat fo [t1, t0] fun a b d => iMadd w.bits a b d) s

/-- R226. Signed division truncating toward zero, with defined results for zero and overflow. -/
def execDiv (w : Width) (t1 : Option Target) (t0 : Option Target) (s : State) : Out :=
  onChip (fun c fo => c.fireNat fo [t1, t0] fun a b _ => iDiv w.bits a b) s

/-- R226. Natural division, all ones for a zero divisor. -/
def execDivn (w : Width) (t1 : Option Target) (t0 : Option Target) (s : State) : Out :=
  onChip (fun c fo => c.fireNat fo [t1, t0] fun a b _ => iDivn w.bits a b) s

/-- R226. Signed remainder with the sign of the dividend. -/
def execRem (w : Width) (t1 : Option Target) (t0 : Option Target) (s : State) : Out :=
  onChip (fun c fo => c.fireNat fo [t1, t0] fun a b _ => iRem w.bits a b) s

/-- R226. Natural remainder, the dividend for a zero divisor. -/
def execRemn (w : Width) (t1 : Option Target) (t0 : Option Target) (s : State) : Out :=
  onChip (fun c fo => c.fireNat fo [t1, t0] fun a b _ => iRemn w.bits a b) s

/-- R225. Negates modulo 2^N. -/
def execNeg (w : Width) (t1 : Option Target) (t0 : Option Target) (s : State) : Out :=
  onChip (fun c fo => c.fireNat fo [t1, t0] fun a _ _ => iNeg w.bits a) s

/-- R225. Returns the absolute value of the signed operand. -/
def execAbs (w : Width) (t1 : Option Target) (t0 : Option Target) (s : State) : Out :=
  onChip (fun c fo => c.fireNat fo [t1, t0] fun a _ _ => iAbs w.bits a) s

/-- R225. Signed minimum. -/
def execMin (w : Width) (t1 : Option Target) (t0 : Option Target) (s : State) : Out :=
  onChip (fun c fo => c.fireNat fo [t1, t0] fun a b _ => iMin w.bits a b) s

/-- R225. Signed maximum. -/
def execMax (w : Width) (t1 : Option Target) (t0 : Option Target) (s : State) : Out :=
  onChip (fun c fo => c.fireNat fo [t1, t0] fun a b _ => iMax w.bits a b) s

/-- R225. Natural minimum. -/
def execMinn (w : Width) (t1 : Option Target) (t0 : Option Target) (s : State) : Out :=
  onChip (fun c fo => c.fireNat fo [t1, t0] fun a b _ => iMinn w.bits a b) s

/-- R225. Natural maximum. -/
def execMaxn (w : Width) (t1 : Option Target) (t0 : Option Target) (s : State) : Out :=
  onChip (fun c fo => c.fireNat fo [t1, t0] fun a b _ => iMaxn w.bits a b) s

/-- R225. Signed saturating addition. -/
def execAddsat (w : Width) (t1 : Option Target) (t0 : Option Target) (s : State) : Out :=
  onChip (fun c fo => c.fireNat fo [t1, t0] fun a b _ => iAddsat w.bits a b) s

/-- R225. Signed saturating subtraction. -/
def execSubsat (w : Width) (t1 : Option Target) (t0 : Option Target) (s : State) : Out :=
  onChip (fun c fo => c.fireNat fo [t1, t0] fun a b _ => iSubsat w.bits a b) s

/-- R227. Bitwise AND. -/
def execAnd (w : Width) (t1 : Option Target) (t0 : Option Target) (s : State) : Out :=
  onChip (fun c fo => c.fireNat fo [t1, t0] fun a b _ => iAnd w.bits a b) s

/-- R227. Bitwise AND with a sign-extended immediate. -/
def execAndi (w : Width) (imm : BitVec 9) (t0 : Option Target) (s : State) : Out :=
  onChip (fun c fo => c.fireNat fo [t0] fun a _ _ => iAnd w.bits a (immOf imm w.bits)) s

/-- R227. Bitwise OR. -/
def execOr (w : Width) (t1 : Option Target) (t0 : Option Target) (s : State) : Out :=
  onChip (fun c fo => c.fireNat fo [t1, t0] fun a b _ => iOr w.bits a b) s

/-- R227. Bitwise OR with an immediate. -/
def execOri (w : Width) (imm : BitVec 9) (t0 : Option Target) (s : State) : Out :=
  onChip (fun c fo => c.fireNat fo [t0] fun a _ _ => iOr w.bits a (immOf imm w.bits)) s

/-- R227. Bitwise XOR. -/
def execXor (w : Width) (t1 : Option Target) (t0 : Option Target) (s : State) : Out :=
  onChip (fun c fo => c.fireNat fo [t1, t0] fun a b _ => iXor w.bits a b) s

/-- R227. Bitwise XOR with an immediate. -/
def execXori (w : Width) (imm : BitVec 9) (t0 : Option Target) (s : State) : Out :=
  onChip (fun c fo => c.fireNat fo [t0] fun a _ _ => iXor w.bits a (immOf imm w.bits)) s

/-- R227. a AND NOT b. -/
def execAndn (w : Width) (t1 : Option Target) (t0 : Option Target) (s : State) : Out :=
  onChip (fun c fo => c.fireNat fo [t1, t0] fun a b _ => iAndn w.bits a b) s

/-- R227. Bitwise complement. -/
def execNot (w : Width) (t1 : Option Target) (t0 : Option Target) (s : State) : Out :=
  onChip (fun c fo => c.fireNat fo [t1, t0] fun a _ _ => iNot w.bits a) s

/-- R227. Logical left shift by a 64-bit count. -/
def execShl (w : Width) (t1 : Option Target) (t0 : Option Target) (s : State) : Out :=
  onChip (fun c fo => c.fireNat fo [t1, t0] fun a b _ => iShl w.bits a b) s

/-- R227. Logical left shift by an immediate in 0 to N-1. -/
def execShli (w : Width) (imm : BitVec 9) (t0 : Option Target) (s : State) : Out :=
  onChip (fun c fo => c.fireNat fo [t0] fun a _ _ => iShl w.bits a imm.toNat) s

/-- R227. Logical right shift. -/
def execShr (w : Width) (t1 : Option Target) (t0 : Option Target) (s : State) : Out :=
  onChip (fun c fo => c.fireNat fo [t1, t0] fun a b _ => iShr w.bits a b) s

/-- R227. Logical right shift by an immediate. -/
def execShri (w : Width) (imm : BitVec 9) (t0 : Option Target) (s : State) : Out :=
  onChip (fun c fo => c.fireNat fo [t0] fun a _ _ => iShr w.bits a imm.toNat) s

/-- R227. Arithmetic right shift. -/
def execSar (w : Width) (t1 : Option Target) (t0 : Option Target) (s : State) : Out :=
  onChip (fun c fo => c.fireNat fo [t1, t0] fun a b _ => iSar w.bits a b) s

/-- R227. Arithmetic right shift by an immediate. -/
def execSari (w : Width) (imm : BitVec 9) (t0 : Option Target) (s : State) : Out :=
  onChip (fun c fo => c.fireNat fo [t0] fun a _ _ => iSar w.bits a imm.toNat) s

/-- R227. Rotate left by the count modulo N. -/
def execRol (w : Width) (t1 : Option Target) (t0 : Option Target) (s : State) : Out :=
  onChip (fun c fo => c.fireNat fo [t1, t0] fun a b _ => iRol w.bits a b) s

/-- R227. Rotate right by the count modulo N. -/
def execRor (w : Width) (t1 : Option Target) (t0 : Option Target) (s : State) : Out :=
  onChip (fun c fo => c.fireNat fo [t1, t0] fun a b _ => iRor w.bits a b) s

/-- R228. Computes a plus b scaled by 1 to 16, without access or check. -/
def execLea (sc : Scale) (t1 : Option Target) (t0 : Option Target) (s : State) : Out :=
  onChip (fun c fo => c.fireNat fo [t1, t0] fun a b _ => iLea sc a b) s

/-- R229. Sign-extends the low N bits to 64 bits. -/
def execSext (w : Width) (t1 : Option Target) (t0 : Option Target) (s : State) : Out :=
  onChip (fun c fo => c.fireNat fo [t1, t0] fun a _ _ => iSext w.bits a) s

/-- R229. Zero-extends the low N bits to 64 bits. -/
def execZext (w : Width) (t1 : Option Target) (t0 : Option Target) (s : State) : Out :=
  onChip (fun c fo => c.fireNat fo [t1, t0] fun a _ _ => low w.bits a) s

/-- R230. Returns 1 when a equals b. -/
def execTeq (w : Width) (t1 : Option Target) (t0 : Option Target) (s : State) : Out :=
  onChip (fun c fo => c.fireNat fo [t1, t0] fun a b _ => iTeq w.bits a b) s

/-- R230. Returns 1 when a differs from b. -/
def execTne (w : Width) (t1 : Option Target) (t0 : Option Target) (s : State) : Out :=
  onChip (fun c fo => c.fireNat fo [t1, t0] fun a b _ => iTne w.bits a b) s

/-- R230. Signed less-than compare. -/
def execTlt (w : Width) (t1 : Option Target) (t0 : Option Target) (s : State) : Out :=
  onChip (fun c fo => c.fireNat fo [t1, t0] fun a b _ => iTlt w.bits a b) s

/-- R230. Signed less-or-equal compare. -/
def execTle (w : Width) (t1 : Option Target) (t0 : Option Target) (s : State) : Out :=
  onChip (fun c fo => c.fireNat fo [t1, t0] fun a b _ => iTle w.bits a b) s

/-- R230. Natural less-than compare. -/
def execTltn (w : Width) (t1 : Option Target) (t0 : Option Target) (s : State) : Out :=
  onChip (fun c fo => c.fireNat fo [t1, t0] fun a b _ => iTltn w.bits a b) s

/-- R230. Natural less-or-equal compare. -/
def execTlen (w : Width) (t1 : Option Target) (t0 : Option Target) (s : State) : Out :=
  onChip (fun c fo => c.fireNat fo [t1, t0] fun a b _ => iTlen w.bits a b) s

/-- R230. Compares a with an immediate for equality. -/
def execTeqi (w : Width) (imm : BitVec 9) (t0 : Option Target) (s : State) : Out :=
  onChip (fun c fo => c.fireNat fo [t0] fun a _ _ => iTeq w.bits a (immOf imm w.bits)) s

/-- R230. Compares a with an immediate for inequality. -/
def execTnei (w : Width) (imm : BitVec 9) (t0 : Option Target) (s : State) : Out :=
  onChip (fun c fo => c.fireNat fo [t0] fun a _ _ => iTne w.bits a (immOf imm w.bits)) s

/-- R230. Signed less-than against an immediate. -/
def execTlti (w : Width) (imm : BitVec 9) (t0 : Option Target) (s : State) : Out :=
  onChip (fun c fo => c.fireNat fo [t0] fun a _ _ => iTlt w.bits a (immOf imm w.bits)) s

/-- R230. Signed less-or-equal against an immediate. -/
def execTlei (w : Width) (imm : BitVec 9) (t0 : Option Target) (s : State) : Out :=
  onChip (fun c fo => c.fireNat fo [t0] fun a _ _ => iTle w.bits a (immOf imm w.bits)) s

/-- R230. Natural less-than against an immediate. -/
def execTltni (w : Width) (imm : BitVec 9) (t0 : Option Target) (s : State) : Out :=
  onChip (fun c fo => c.fireNat fo [t0] fun a _ _ => iTltn w.bits a (immOf imm w.bits)) s

/-- R230. Natural less-or-equal against an immediate. -/
def execTleni (w : Width) (imm : BitVec 9) (t0 : Option Target) (s : State) : Out :=
  onChip (fun c fo => c.fireNat fo [t0] fun a _ _ => iTlen w.bits a (immOf imm w.bits)) s

/-- R231. Returns slot a when bit 0 of slot c is 1, otherwise slot b. -/
def execSel (t1 : Option Target) (t0 : Option Target) (s : State) : Out :=
  onChip (fun c fo => c.fireNat fo [t1, t0] fun a b d => iSel a b d) s

/-- R232. Counts leading zero bits. -/
def execClz (w : Width) (t1 : Option Target) (t0 : Option Target) (s : State) : Out :=
  onChip (fun c fo => c.fireNat fo [t1, t0] fun a _ _ => iClz w.bits a) s

/-- R232. Counts trailing zero bits. -/
def execCtz (w : Width) (t1 : Option Target) (t0 : Option Target) (s : State) : Out :=
  onChip (fun c fo => c.fireNat fo [t1, t0] fun a _ _ => iCtz w.bits a) s

/-- R232. Counts one bits. -/
def execPopc (w : Width) (t1 : Option Target) (t0 : Option Target) (s : State) : Out :=
  onChip (fun c fo => c.fireNat fo [t1, t0] fun a _ _ => iPopc w.bits a) s

/-- R232. Reverses the N bits. -/
def execBrev (w : Width) (t1 : Option Target) (t0 : Option Target) (s : State) : Out :=
  onChip (fun c fo => c.fireNat fo [t1, t0] fun a _ _ => iBrev w.bits a) s

/-- R232. Reverses the bytes of the N-bit operand. -/
def execBswap (w : Width) (t1 : Option Target) (t0 : Option Target) (s : State) : Out :=
  onChip (fun c fo => c.fireNat fo [t1, t0] fun a _ _ => iBswap w.bits a) s

/-- R233. Extracts an unsigned bit field named by a field word. -/
def execBfx (w : Width) (t1 : Option Target) (t0 : Option Target) (s : State) : Out :=
  onChip (fun c fo => c.fireNat fo [t1, t0] fun a b _ => iBfx w.bits a b) s

/-- R233. Extracts a sign-extended bit field. -/
def execBfxs (w : Width) (t1 : Option Target) (t0 : Option Target) (s : State) : Out :=
  onChip (fun c fo => c.fireNat fo [t1, t0] fun a b _ => iBfxs w.bits a b) s

/-- R233. Inserts the low bits of b into a field of a. -/
def execBfi (w : Width) (t1 : Option Target) (t0 : Option Target) (s : State) : Out :=
  onChip (fun c fo => c.fireNat fo [t1, t0] fun a b d => iBfi w.bits a b d) s

/-- R234. Returns bit k of a, or 0 for k at or beyond N. -/
def execBitt (w : Width) (t1 : Option Target) (t0 : Option Target) (s : State) : Out :=
  onChip (fun c fo => c.fireNat fo [t1, t0] fun a b _ => iBitt w.bits a b) s

/-- R234. Returns the taint bit of its operand as an untainted 0 or 1. -/
def execTaintq (t1 : Option Target) (t0 : Option Target) (s : State) : Out :=
  onChip (fun c fo => c.fireT fo [t1, t0] fun c _ _ o => (.ok (BitVec.ofNat 64 (b2n o.ta), false), c)) s

end Sys2Proof.Machine
end

