-- ==== Sys2Proof/Machine/Plumbing.lean ====
section
/-! DEFINITION. Meanings of the plumbing instructions (R122 to R128). -/

namespace Sys2Proof.Machine

/-- R122. Never fires. -/
def execNop (s : State) : Out := .next s

/-- Register of an instance (R112, R123). -/
def Inst.reg (i : Inst) (g : BitVec 5) : Reg := i.regs.get g.toFin

/-- R123. Sends the committed value and taint of gN; it does not fire while gN is pending (R112), and a poisoned line faults (R445). -/
def execRead (g : BitVec 5) (t1 t0 : Option Target) (s : State) : Out :=
  onChip (fun c fo => c.fireT fo [t1, t0] fun c i _ _ =>
    match c.regPoison i.iid g.toNat with
    | some e => (.error e, c)
    | none => (.ok ((i.reg g).v, (i.reg g).taint), c)) s

/-- R107, R108, R123. Records its token, null or not, as the block's write of gN. -/
def execWrite (g : BitVec 5) (s : State) : Out :=
  onChip (fun c fo => c.fire fo fun c i f =>
    c.setFrame i.iid { f with writes := f.writes ++ [(g.toNat, (f.cell fo.idx).a.getD .null)] }) s

/-- R124. Sends argument n with its taint; `BLK_ARG` at or beyond the arity. -/
def execArg (g : BitVec 5) (t1 t0 : Option Target) (s : State) : Out :=
  onChip (fun c fo => c.fireT fo [t1, t0] fun c i _ _ =>
    match i.args[g.toNat]? with
    | some t => (.ok (t.value, t.tainted), c)
    | none => (.error { cause := 0x16 }, c)) s

/-- R122. Passes slot a on. -/
def execMov (t1 t0 : Option Target) (s : State) : Out := onChip (fun c fo => c.firePure fo [t1, t0] (·.a)) s

/-- R125. The immediate, sign-extended from 14 bits. -/
def execConst (imm : BitVec 14) (t0 : Option Target) (s : State) : Out :=
  onChip (fun c fo => c.fireNat fo [t0] fun _ _ _ => wrap imm.toInt 64) s

/-- R125. ((a << 14) OR v) mod 2^64. -/
def execConsth (imm : BitVec 14) (t0 : Option Target) (s : State) : Out :=
  onChip (fun c fo => c.fireNat fo [t0] fun a _ _ => (a * 2 ^ 14 + imm.toNat) % 2 ^ 64) s

/-- R122. Sends a null token. -/
def execNull (t1 t0 : Option Target) (s : State) : Out :=
  onChip (fun c fo => c.fire fo fun c i _ => c.sendTo i.iid [t1, t0] .null) s

/-- R126. Resolves its store ID. -/
def execNullst (s : State) : Out :=
  onChip (fun c fo => c.fire fo fun c i f => c.resolveId i.iid fo.idx f none) s

/-- Field of an instance's tag, or its channel (R127, R375). -/
def tagView (v : TagField) (tag chan : Nat) : Nat :=
  match v with
  | .tag => bits tag 0 48
  | .iter => bits tag 0 26
  | .ctx => bits tag 26 12
  | .orig => bits tag 38 10
  | .chan => bits chan 0 7

/-- R127. A field of the tag, untainted. -/
def execGettag (view : TagField) (t1 t0 : Option Target) (s : State) : Out :=
  onChip (fun c fo => c.fireT fo [t1, t0] fun c i _ _ => (.ok (BitVec.ofNat 64 (tagView view i.tag i.chan), false), c)) s

/-- A coordinate word (R128). -/
def Chip.coordWord (c : Chip) (v : CoordView) (pid core : Nat) : Nat :=
  match v with
  | .rect =>
    let (ox, oy, w, h) := c.rect pid core
    c.lin pid core * 2 ^ 32 + h * 2 ^ 24 + w * 2 ^ 16 + (coreY core - oy) * 2 ^ 8 + (coreX core - ox)
  | .abs => memberOf core * 2 ^ 24 + (c.part pid).slot * 2 ^ 20 + towerOf core * 2 ^ 16 + coreY core * 2 ^ 8 + coreX core
  | .pkg => c.tz * 2 ^ 16 + c.ty * 2 ^ 8 + c.tx

/-- R128. A coordinate word of the logical core, untainted. -/
def execCoord (view : CoordView) (t1 t0 : Option Target) (s : State) : Out :=
  onChip (fun c fo => c.fireT fo [t1, t0] fun c i _ _ => (.ok (BitVec.ofNat 64 (c.coordWord view i.pid i.core), false), c)) s

end Sys2Proof.Machine
end

