-- ==== Sys2Proof/Machine/Dispatch.lean ====
section
/-! DEFINITION. Dispatch: one arm per constructor of `Instr`, each a direct call of its meaning. -/

namespace Sys2Proof.Machine

/-- The effect of one instruction, or of one step of the opcode table that carries no word, on the state; what it is about stands in
the state's focus. -/
def exec (i : Instr) (s : State) : Host.Outcome State Fault Refusal :=
  match i with
  | .read g t1 t0 => Sys2Proof.Machine.execRead g t1 t0 s
  | .write g => Sys2Proof.Machine.execWrite g s
  | .arg g t1 t0 => Sys2Proof.Machine.execArg g t1 t0 s
  | .mov t1 t0 => Sys2Proof.Machine.execMov t1 t0 s
  | .const imm t0 => Sys2Proof.Machine.execConst imm t0 s
  | .consth imm t0 => Sys2Proof.Machine.execConsth imm t0 s
  | .null t1 t0 => Sys2Proof.Machine.execNull t1 t0 s
  | .gettag view t1 t0 => Sys2Proof.Machine.execGettag view t1 t0 s
  | .coord view t1 t0 => Sys2Proof.Machine.execCoord view t1 t0 s
  | .add w t1 t0 => Sys2Proof.Machine.execAdd w t1 t0 s
  | .addi w imm t0 => Sys2Proof.Machine.execAddi w imm t0 s
  | .sub w t1 t0 => Sys2Proof.Machine.execSub w t1 t0 s
  | .mul w t1 t0 => Sys2Proof.Machine.execMul w t1 t0 s
  | .muli w imm t0 => Sys2Proof.Machine.execMuli w imm t0 s
  | .mulh w t1 t0 => Sys2Proof.Machine.execMulh w t1 t0 s
  | .mulhn w t1 t0 => Sys2Proof.Machine.execMulhn w t1 t0 s
  | .madd w t1 t0 => Sys2Proof.Machine.execMadd w t1 t0 s
  | .div w t1 t0 => Sys2Proof.Machine.execDiv w t1 t0 s
  | .divn w t1 t0 => Sys2Proof.Machine.execDivn w t1 t0 s
  | .rem w t1 t0 => Sys2Proof.Machine.execRem w t1 t0 s
  | .remn w t1 t0 => Sys2Proof.Machine.execRemn w t1 t0 s
  | .neg w t1 t0 => Sys2Proof.Machine.execNeg w t1 t0 s
  | .abs w t1 t0 => Sys2Proof.Machine.execAbs w t1 t0 s
  | .min w t1 t0 => Sys2Proof.Machine.execMin w t1 t0 s
  | .max w t1 t0 => Sys2Proof.Machine.execMax w t1 t0 s
  | .minn w t1 t0 => Sys2Proof.Machine.execMinn w t1 t0 s
  | .maxn w t1 t0 => Sys2Proof.Machine.execMaxn w t1 t0 s
  | .addsat w t1 t0 => Sys2Proof.Machine.execAddsat w t1 t0 s
  | .subsat w t1 t0 => Sys2Proof.Machine.execSubsat w t1 t0 s
  | .and w t1 t0 => Sys2Proof.Machine.execAnd w t1 t0 s
  | .andi w imm t0 => Sys2Proof.Machine.execAndi w imm t0 s
  | .or w t1 t0 => Sys2Proof.Machine.execOr w t1 t0 s
  | .ori w imm t0 => Sys2Proof.Machine.execOri w imm t0 s
  | .xor w t1 t0 => Sys2Proof.Machine.execXor w t1 t0 s
  | .xori w imm t0 => Sys2Proof.Machine.execXori w imm t0 s
  | .andn w t1 t0 => Sys2Proof.Machine.execAndn w t1 t0 s
  | .not w t1 t0 => Sys2Proof.Machine.execNot w t1 t0 s
  | .shl w t1 t0 => Sys2Proof.Machine.execShl w t1 t0 s
  | .shli w imm t0 => Sys2Proof.Machine.execShli w imm t0 s
  | .shr w t1 t0 => Sys2Proof.Machine.execShr w t1 t0 s
  | .shri w imm t0 => Sys2Proof.Machine.execShri w imm t0 s
  | .sar w t1 t0 => Sys2Proof.Machine.execSar w t1 t0 s
  | .sari w imm t0 => Sys2Proof.Machine.execSari w imm t0 s
  | .rol w t1 t0 => Sys2Proof.Machine.execRol w t1 t0 s
  | .ror w t1 t0 => Sys2Proof.Machine.execRor w t1 t0 s
  | .lea sc t1 t0 => Sys2Proof.Machine.execLea sc t1 t0 s
  | .sext w t1 t0 => Sys2Proof.Machine.execSext w t1 t0 s
  | .zext w t1 t0 => Sys2Proof.Machine.execZext w t1 t0 s
  | .teq w t1 t0 => Sys2Proof.Machine.execTeq w t1 t0 s
  | .tne w t1 t0 => Sys2Proof.Machine.execTne w t1 t0 s
  | .tlt w t1 t0 => Sys2Proof.Machine.execTlt w t1 t0 s
  | .tle w t1 t0 => Sys2Proof.Machine.execTle w t1 t0 s
  | .tltn w t1 t0 => Sys2Proof.Machine.execTltn w t1 t0 s
  | .tlen w t1 t0 => Sys2Proof.Machine.execTlen w t1 t0 s
  | .teqi w imm t0 => Sys2Proof.Machine.execTeqi w imm t0 s
  | .tnei w imm t0 => Sys2Proof.Machine.execTnei w imm t0 s
  | .tlti w imm t0 => Sys2Proof.Machine.execTlti w imm t0 s
  | .tlei w imm t0 => Sys2Proof.Machine.execTlei w imm t0 s
  | .tltni w imm t0 => Sys2Proof.Machine.execTltni w imm t0 s
  | .tleni w imm t0 => Sys2Proof.Machine.execTleni w imm t0 s
  | .sel t1 t0 => Sys2Proof.Machine.execSel t1 t0 s
  | .clz w t1 t0 => Sys2Proof.Machine.execClz w t1 t0 s
  | .ctz w t1 t0 => Sys2Proof.Machine.execCtz w t1 t0 s
  | .popc w t1 t0 => Sys2Proof.Machine.execPopc w t1 t0 s
  | .brev w t1 t0 => Sys2Proof.Machine.execBrev w t1 t0 s
  | .bswap w t1 t0 => Sys2Proof.Machine.execBswap w t1 t0 s
  | .bfx w t1 t0 => Sys2Proof.Machine.execBfx w t1 t0 s
  | .bfxs w t1 t0 => Sys2Proof.Machine.execBfxs w t1 t0 s
  | .bfi w t1 t0 => Sys2Proof.Machine.execBfi w t1 t0 s
  | .bitt w t1 t0 => Sys2Proof.Machine.execBitt w t1 t0 s
  | .taintq t1 t0 => Sys2Proof.Machine.execTaintq t1 t0 s
  | .fadd f t1 t0 => Sys2Proof.Machine.execFadd f t1 t0 s
  | .fsub f t1 t0 => Sys2Proof.Machine.execFsub f t1 t0 s
  | .fmul f t1 t0 => Sys2Proof.Machine.execFmul f t1 t0 s
  | .fma f t1 t0 => Sys2Proof.Machine.execFma f t1 t0 s
  | .fnma f t1 t0 => Sys2Proof.Machine.execFnma f t1 t0 s
  | .fdiv f t1 t0 => Sys2Proof.Machine.execFdiv f t1 t0 s
  | .fsqrt f t1 t0 => Sys2Proof.Machine.execFsqrt f t1 t0 s
  | .fmin f t1 t0 => Sys2Proof.Machine.execFmin f t1 t0 s
  | .fmax f t1 t0 => Sys2Proof.Machine.execFmax f t1 t0 s
  | .fabs f t1 t0 => Sys2Proof.Machine.execFabs f t1 t0 s
  | .fneg f t1 t0 => Sys2Proof.Machine.execFneg f t1 t0 s
  | .fcpys f t1 t0 => Sys2Proof.Machine.execFcpys f t1 t0 s
  | .fteq f t1 t0 => Sys2Proof.Machine.execFteq f t1 t0 s
  | .ftlt f t1 t0 => Sys2Proof.Machine.execFtlt f t1 t0 s
  | .ftle f t1 t0 => Sys2Proof.Machine.execFtle f t1 t0 s
  | .ftun f t1 t0 => Sys2Proof.Machine.execFtun f t1 t0 s
  | .fclass f t1 t0 => Sys2Proof.Machine.execFclass f t1 t0 s
  | .frnd f flag mode t0 => Sys2Proof.Machine.execFrnd f flag mode t0 s
  | .fscale f t1 t0 => Sys2Proof.Machine.execFscale f t1 t0 s
  | .fgetexp f t1 t0 => Sys2Proof.Machine.execFgetexp f t1 t0 s
  | .cvtff mode src dst t0 => Sys2Proof.Machine.execCvtff mode src dst t0 s
  | .cvtfi mode src dst t0 => Sys2Proof.Machine.execCvtfi mode src dst t0 s
  | .cvtif mode src dst t0 => Sys2Proof.Machine.execCvtif mode src dst t0 s
  | .cvtsr src dst t0 => Sys2Proof.Machine.execCvtsr src dst t0 s
  | .frcpa single t1 t0 => Sys2Proof.Machine.execFrcpa single t1 t0 s
  | .frsqa single t1 t0 => Sys2Proof.Machine.execFrsqa single t1 t0 s
  | .fexp2a t1 t0 => Sys2Proof.Machine.execFexp2a t1 t0 s
  | .flog2a t1 t0 => Sys2Proof.Machine.execFlog2a t1 t0 s
  | .fsina t1 t0 => Sys2Proof.Machine.execFsina t1 t0 s
  | .fcosa t1 t0 => Sys2Proof.Machine.execFcosa t1 t0 s
  | .rand t1 t0 => Sys2Proof.Machine.execRand t1 t0 s
  | .ldS8 off t0 => Sys2Proof.Machine.execLdS8 off t0 s
  | .ldN8 off t0 => Sys2Proof.Machine.execLdN8 off t0 s
  | .ldS16 off t0 => Sys2Proof.Machine.execLdS16 off t0 s
  | .ldN16 off t0 => Sys2Proof.Machine.execLdN16 off t0 s
  | .ldS32 off t0 => Sys2Proof.Machine.execLdS32 off t0 s
  | .ldN32 off t0 => Sys2Proof.Machine.execLdN32 off t0 s
  | .ldD64 off t0 => Sys2Proof.Machine.execLdD64 off t0 s
  | .ldaS8 scope t0 => Sys2Proof.Machine.execLdaS8 scope t0 s
  | .ldaN8 scope t0 => Sys2Proof.Machine.execLdaN8 scope t0 s
  | .ldaS16 scope t0 => Sys2Proof.Machine.execLdaS16 scope t0 s
  | .ldaN16 scope t0 => Sys2Proof.Machine.execLdaN16 scope t0 s
  | .ldaS32 scope t0 => Sys2Proof.Machine.execLdaS32 scope t0 s
  | .ldaN32 scope t0 => Sys2Proof.Machine.execLdaN32 scope t0 s
  | .ldaD64 scope t0 => Sys2Proof.Machine.execLdaD64 scope t0 s
  | .ldntS8 off t0 => Sys2Proof.Machine.execLdntS8 off t0 s
  | .ldntN8 off t0 => Sys2Proof.Machine.execLdntN8 off t0 s
  | .ldntS16 off t0 => Sys2Proof.Machine.execLdntS16 off t0 s
  | .ldntN16 off t0 => Sys2Proof.Machine.execLdntN16 off t0 s
  | .ldntS32 off t0 => Sys2Proof.Machine.execLdntS32 off t0 s
  | .ldntN32 off t0 => Sys2Proof.Machine.execLdntN32 off t0 s
  | .ldntD64 off t0 => Sys2Proof.Machine.execLdntD64 off t0 s
  | .stN8 off => Sys2Proof.Machine.execStN8 off s
  | .stN16 off => Sys2Proof.Machine.execStN16 off s
  | .stN32 off => Sys2Proof.Machine.execStN32 off s
  | .stD64 off => Sys2Proof.Machine.execStD64 off s
  | .strN8 scope => Sys2Proof.Machine.execStrN8 scope s
  | .strN16 scope => Sys2Proof.Machine.execStrN16 scope s
  | .strN32 scope => Sys2Proof.Machine.execStrN32 scope s
  | .strD64 scope => Sys2Proof.Machine.execStrD64 scope s
  | .stntN8 off => Sys2Proof.Machine.execStntN8 off s
  | .stntN16 off => Sys2Proof.Machine.execStntN16 off s
  | .stntN32 off => Sys2Proof.Machine.execStntN32 off s
  | .stntD64 off => Sys2Proof.Machine.execStntD64 off s
  | .pref off => Sys2Proof.Machine.execPref off s
  | .aadd scope wide ret => Sys2Proof.Machine.execAadd scope wide ret s
  | .amin scope wide ret => Sys2Proof.Machine.execAmin scope wide ret s
  | .amax scope wide ret => Sys2Proof.Machine.execAmax scope wide ret s
  | .aminn scope wide ret => Sys2Proof.Machine.execAminn scope wide ret s
  | .amaxn scope wide ret => Sys2Proof.Machine.execAmaxn scope wide ret s
  | .aand scope wide ret => Sys2Proof.Machine.execAand scope wide ret s
  | .aor scope wide ret => Sys2Proof.Machine.execAor scope wide ret s
  | .axor scope wide ret => Sys2Proof.Machine.execAxor scope wide ret s
  | .axchg scope wide ret => Sys2Proof.Machine.execAxchg scope wide ret s
  | .acas scope wide ret => Sys2Proof.Machine.execAcas scope wide ret s
  | .aincw scope wide ret => Sys2Proof.Machine.execAincw scope wide ret s
  | .afadd scope wide ret => Sys2Proof.Machine.execAfadd scope wide ret s
  | .aaddSc wide ret => Sys2Proof.Machine.execAaddSc wide ret s
  | .aminSc wide ret => Sys2Proof.Machine.execAminSc wide ret s
  | .amaxSc wide ret => Sys2Proof.Machine.execAmaxSc wide ret s
  | .aminnSc wide ret => Sys2Proof.Machine.execAminnSc wide ret s
  | .amaxnSc wide ret => Sys2Proof.Machine.execAmaxnSc wide ret s
  | .aandSc wide ret => Sys2Proof.Machine.execAandSc wide ret s
  | .aorSc wide ret => Sys2Proof.Machine.execAorSc wide ret s
  | .axorSc wide ret => Sys2Proof.Machine.execAxorSc wide ret s
  | .axchgSc wide ret => Sys2Proof.Machine.execAxchgSc wide ret s
  | .acasSc wide ret => Sys2Proof.Machine.execAcasSc wide ret s
  | .aincwSc wide ret => Sys2Proof.Machine.execAincwSc wide ret s
  | .afaddSc wide ret => Sys2Proof.Machine.execAfaddSc wide ret s
  | .fence scope => Sys2Proof.Machine.execFence scope s
  | .waittl scope tl t0 => Sys2Proof.Machine.execWaittl scope tl t0 s
  | .tlget view t1 t0 => Sys2Proof.Machine.execTlget view t1 t0 s
  | .tlsig scope tl => Sys2Proof.Machine.execTlsig scope tl s
  | .br off => Sys2Proof.Machine.execBr off s
  | .call off => Sys2Proof.Machine.execCall off s
  | .exit free => Sys2Proof.Machine.execExit free s
  | .yield off => Sys2Proof.Machine.execYield off s
  | .spawn n ret => Sys2Proof.Machine.execSpawn n ret s
  | .send route => Sys2Proof.Machine.execSend route s
  | .sendm route => Sys2Proof.Machine.execSendm route s
  | .expect t0 => Sys2Proof.Machine.execExpect t0 s
  | .tagnew ret => Sys2Proof.Machine.execTagnew ret s
  | .iter n => Sys2Proof.Machine.execIter n s
  | .launch scope trap cores ordered ret => Sys2Proof.Machine.execLaunch scope trap cores ordered ret s
  | .cfgld dch dn => Sys2Proof.Machine.execCfgld dch dn s
  | .cfgsw dch dn => Sys2Proof.Machine.execCfgsw dch dn s
  | .eos route => Sys2Proof.Machine.execEos route s
  | .drainq peer t1 t0 => Sys2Proof.Machine.execDrainq peer t1 t0 s
  | .prio age cls => Sys2Proof.Machine.execPrio age cls s
  | .mark t0 => Sys2Proof.Machine.execMark t0 s
  | .cpy port cc ret => Sys2Proof.Machine.execCpy port cc ret s
  | .cpyRes cc ret => Sys2Proof.Machine.execCpyRes cc ret s
  | .cpyAbn cc ret => Sys2Proof.Machine.execCpyAbn cc ret s
  | .cpypl port cc ret => Sys2Proof.Machine.execCpypl port cc ret s
  | .cpyplRes cc ret => Sys2Proof.Machine.execCpyplRes cc ret s
  | .cpyplAbn cc ret => Sys2Proof.Machine.execCpyplAbn cc ret s
  | .cpyun port cc ret => Sys2Proof.Machine.execCpyun port cc ret s
  | .cpyunRes cc ret => Sys2Proof.Machine.execCpyunRes cc ret s
  | .cpyunAbn cc ret => Sys2Proof.Machine.execCpyunAbn cc ret s
  | .gath ret => Sys2Proof.Machine.execGath ret s
  | .gathRes ret => Sys2Proof.Machine.execGathRes ret s
  | .gathAbn ret => Sys2Proof.Machine.execGathAbn ret s
  | .scat ret => Sys2Proof.Machine.execScat ret s
  | .scatRes ret => Sys2Proof.Machine.execScatRes ret s
  | .scatAbn ret => Sys2Proof.Machine.execScatAbn ret s
  | .wpwait scope peer cp t0 => Sys2Proof.Machine.execWpwait scope peer cp t0 s
  | .chkwait scope word t0 => Sys2Proof.Machine.execChkwait scope word t0 s
  | .ttload dch dn la => Sys2Proof.Machine.execTtload dch dn la s
  | .tfetch dch dn src dst => Sys2Proof.Machine.execTfetch dch dn src dst s
  | .tevict dch dn src dst => Sys2Proof.Machine.execTevict dch dn src dst s
  | .tres view t0 => Sys2Proof.Machine.execTres view t0 s
  | .mma dch dn tile => Sys2Proof.Machine.execMma dch dn tile s
  | .mmaRes dch dn => Sys2Proof.Machine.execMmaRes dch dn s
  | .mmaAbn dch dn => Sys2Proof.Machine.execMmaAbn dch dn s
  | .mmal dch dn tile => Sys2Proof.Machine.execMmal dch dn tile s
  | .accz dch dn tile mode => Sys2Proof.Machine.execAccz dch dn tile mode s
  | .accld dch dn tile mode => Sys2Proof.Machine.execAccld dch dn tile mode s
  | .accst dch dn tile cz => Sys2Proof.Machine.execAccst dch dn tile cz s
  | .accstRes dch dn => Sys2Proof.Machine.execAccstRes dch dn s
  | .accstAbn dch dn => Sys2Proof.Machine.execAccstAbn dch dn s
  | .qst dch dn tile cz => Sys2Proof.Machine.execQst dch dn tile cz s
  | .lvlld dch dn tbl wc => Sys2Proof.Machine.execLvlld dch dn tbl wc s
  | .ainit dch dn sid keep => Sys2Proof.Machine.execAinit dch dn sid keep s
  | .agate dch dn sid => Sys2Proof.Machine.execAgate dch dn sid s
  | .agateRes dch dn => Sys2Proof.Machine.execAgateRes dch dn s
  | .agateAbn dch dn => Sys2Proof.Machine.execAgateAbn dch dn s
  | .aswap dch dn sid => Sys2Proof.Machine.execAswap dch dn sid s
  | .amap view t0 => Sys2Proof.Machine.execAmap view t0 s
  | .ameas dch dn sid col => Sys2Proof.Machine.execAmeas dch dn sid col s
  | .afree dch dn sid => Sys2Proof.Machine.execAfree dch dn sid s
  | .coll dch dn => Sys2Proof.Machine.execColl dch dn s
  | .collRes dch dn => Sys2Proof.Machine.execCollRes dch dn s
  | .collAbn dch dn => Sys2Proof.Machine.execCollAbn dch dn s
  | .cred dch dn fn wide => Sys2Proof.Machine.execCred dch dn fn wide s
  | .trap code => Sys2Proof.Machine.execTrap code s
  | .srd t1 t0 => Sys2Proof.Machine.execSrd t1 t0 s
  | .swr reg => Sys2Proof.Machine.execSwr reg s
  | .quotaWrite reg => Sys2Proof.Machine.execQuotaWrite reg s
  | .brk t1 t0 => Sys2Proof.Machine.execBrk t1 t0 s
  | .pswapOut dch dn => Sys2Proof.Machine.execPswapOut dch dn s
  | .pswapIn dch dn => Sys2Proof.Machine.execPswapIn dch dn s
  | .pswapXchg dch dn => Sys2Proof.Machine.execPswapXchg dch dn s
  | .perfr t1 t0 => Sys2Proof.Machine.execPerfr t1 t0 s
  | .nop => Sys2Proof.Machine.execNop s
  | .nullst => Sys2Proof.Machine.execNullst s
  | .bri => Sys2Proof.Machine.execBri s
  | .calli => Sys2Proof.Machine.execCalli s
  | .ret => Sys2Proof.Machine.execRet s
  | .tagfree => Sys2Proof.Machine.execTagfree s
  | .squash => Sys2Proof.Machine.execSquash s
  | .crange => Sys2Proof.Machine.execCrange s
  | .eretRes => Sys2Proof.Machine.execEretRes s
  | .eretRv => Sys2Proof.Machine.execEretRv s
  | .eretGo => Sys2Proof.Machine.execEretGo s
  | .eretKill => Sys2Proof.Machine.execEretKill s
  | .swrFpc => Sys2Proof.Machine.execSwrFpc s
  | .pclrClear => Sys2Proof.Machine.execPclrClear s
  | .tlbiVa => Sys2Proof.Machine.execTlbiVa s
  | .tlbiAsid => Sys2Proof.Machine.execTlbiAsid s
  | .tlbiAll => Sys2Proof.Machine.execTlbiAll s
  | .tlbiVag => Sys2Proof.Machine.execTlbiVag s
  | .cinvBlk => Sys2Proof.Machine.execCinvBlk s
  | .cinvPg => Sys2Proof.Machine.execCinvPg s
  | .cinvAll => Sys2Proof.Machine.execCinvAll s
  | .keyldLd => Sys2Proof.Machine.execKeyldLd s
  | .keyldClr => Sys2Proof.Machine.execKeyldClr s
  | .hostLaunchPacket => Sys2Proof.Machine.execHostLaunchPacket s
  | .hostPacketExecute => Sys2Proof.Machine.execHostPacketExecute s
  | .clrOvf => Sys2Proof.Machine.execClrOvf s
  | .createPartition => Sys2Proof.Machine.execCreatePartition s
  | .endPartition => Sys2Proof.Machine.execEndPartition s
  | .attest => Sys2Proof.Machine.execAttest s
  | .verifyObject => Sys2Proof.Machine.execVerifyObject s
  | .extend => Sys2Proof.Machine.execExtend s
  | .firmwareUpdate => Sys2Proof.Machine.execFirmwareUpdate s
  | .sumacControl => Sys2Proof.Machine.execSumacControl s
  | .readEvents => Sys2Proof.Machine.execReadEvents s
  | .mgmtServiceComplete => Sys2Proof.Machine.execMgmtServiceComplete s
  | .powerOn => Sys2Proof.Machine.execPowerOn s
  | .bootStageComplete => Sys2Proof.Machine.execBootStageComplete s
  | .tokenArrival => Sys2Proof.Machine.execTokenArrival s
  | .creditGrant => Sys2Proof.Machine.execCreditGrant s
  | .instanceForm => Sys2Proof.Machine.execInstanceForm s
  | .frameGrant => Sys2Proof.Machine.execFrameGrant s
  | .blockMap => Sys2Proof.Machine.execBlockMap s
  | .blockComplete => Sys2Proof.Machine.execBlockComplete s
  | .blockCommit => Sys2Proof.Machine.execBlockCommit s
  | .blkIncomplete => Sys2Proof.Machine.execBlkIncomplete s
  | .pendingValueArrival => Sys2Proof.Machine.execPendingValueArrival s
  | .loadPerform => Sys2Proof.Machine.execLoadPerform s
  | .waittlRelease => Sys2Proof.Machine.execWaittlRelease s
  | .wpwaitRelease => Sys2Proof.Machine.execWpwaitRelease s
  | .chkwaitRelease => Sys2Proof.Machine.execChkwaitRelease s
  | .expectRelease => Sys2Proof.Machine.execExpectRelease s
  | .markRelease => Sys2Proof.Machine.execMarkRelease s
  | .iterDeferredCreate => Sys2Proof.Machine.execIterDeferredCreate s
  | .squashAck => Sys2Proof.Machine.execSquashAck s
  | .recordDelivery => Sys2Proof.Machine.execRecordDelivery s
  | .copyStart => Sys2Proof.Machine.execCopyStart s
  | .copyUnitDelivered => Sys2Proof.Machine.execCopyUnitDelivered s
  | .copyFault => Sys2Proof.Machine.execCopyFault s
  | .copyComplete => Sys2Proof.Machine.execCopyComplete s
  | .portBindingIssue => Sys2Proof.Machine.execPortBindingIssue s
  | .mcastCreditReturn => Sys2Proof.Machine.execMcastCreditReturn s
  | .inboundStreamStart => Sys2Proof.Machine.execInboundStreamStart s
  | .gatherStart => Sys2Proof.Machine.execGatherStart s
  | .gatherRowWrite => Sys2Proof.Machine.execGatherRowWrite s
  | .gatherComplete => Sys2Proof.Machine.execGatherComplete s
  | .peCmdStart => Sys2Proof.Machine.execPeCmdStart s
  | .peChunkVerify => Sys2Proof.Machine.execPeChunkVerify s
  | .peCmdComplete => Sys2Proof.Machine.execPeCmdComplete s
  | .heatRefill => Sys2Proof.Machine.execHeatRefill s
  | .thermalRevise => Sys2Proof.Machine.execThermalRevise s
  | .thermalEmergency => Sys2Proof.Machine.execThermalEmergency s
  | .drainCmdStart => Sys2Proof.Machine.execDrainCmdStart s
  | .drainRow => Sys2Proof.Machine.execDrainRow s
  | .lvlldReplace => Sys2Proof.Machine.execLvlldReplace s
  | .drainCmdComplete => Sys2Proof.Machine.execDrainCmdComplete s
  | .ttEntryStart => Sys2Proof.Machine.execTtEntryStart s
  | .ttEntryComplete => Sys2Proof.Machine.execTtEntryComplete s
  | .ttEntryFail => Sys2Proof.Machine.execTtEntryFail s
  | .ttDetachComplete => Sys2Proof.Machine.execTtDetachComplete s
  | .ampCmdStart => Sys2Proof.Machine.execAmpCmdStart s
  | .ampCmdComplete => Sys2Proof.Machine.execAmpCmdComplete s
  | .collSegment => Sys2Proof.Machine.execCollSegment s
  | .collComplete => Sys2Proof.Machine.execCollComplete s
  | .credPerform => Sys2Proof.Machine.execCredPerform s
  | .credAck => Sys2Proof.Machine.execCredAck s
  | .credFilterExpire => Sys2Proof.Machine.execCredFilterExpire s
  | .scTokenVisit => Sys2Proof.Machine.execScTokenVisit s
  | .linkFrameReceive => Sys2Proof.Machine.execLinkFrameReceive s
  | .linkRetry => Sys2Proof.Machine.execLinkRetry s
  | .laneDegrade => Sys2Proof.Machine.execLaneDegrade s
  | .portFailover => Sys2Proof.Machine.execPortFailover s
  | .lkUnreach => Sys2Proof.Machine.execLkUnreach s
  | .cfgldComplete => Sys2Proof.Machine.execCfgldComplete s
  | .cfgswDrainEnd => Sys2Proof.Machine.execCfgswDrainEnd s
  | .planeExchange => Sys2Proof.Machine.execPlaneExchange s
  | .cfgswComplete => Sys2Proof.Machine.execCfgswComplete s
  | .launchEnd => Sys2Proof.Machine.execLaunchEnd s
  | .preemptRequest => Sys2Proof.Machine.execPreemptRequest s
  | .preemptMarkerArrival => Sys2Proof.Machine.execPreemptMarkerArrival s
  | .preemptDrainDone => Sys2Proof.Machine.execPreemptDrainDone s
  | .saveComplete => Sys2Proof.Machine.execSaveComplete s
  | .swapIn => Sys2Proof.Machine.execSwapIn s
  | .restoreComplete => Sys2Proof.Machine.execRestoreComplete s
  | .pswapComplete => Sys2Proof.Machine.execPswapComplete s
  | .coreRetire => Sys2Proof.Machine.execCoreRetire s
  | .migrationComplete => Sys2Proof.Machine.execMigrationComplete s
  | .softError => Sys2Proof.Machine.execSoftError s
  | .agingStep => Sys2Proof.Machine.execAgingStep s
  | .recallThreshold => Sys2Proof.Machine.execRecallThreshold s
  | .translationWalk => Sys2Proof.Machine.execTranslationWalk s
  | .tlbiComplete => Sys2Proof.Machine.execTlbiComplete s
  | .keyldComplete => Sys2Proof.Machine.execKeyldComplete s
  | .timetableAttach => Sys2Proof.Machine.execTimetableAttach s
  | .cinvComplete => Sys2Proof.Machine.execCinvComplete s
  | .swrRegionComplete => Sys2Proof.Machine.execSwrRegionComplete s
  | .transportRetransmission => Sys2Proof.Machine.execTransportRetransmission s

end Sys2Proof.Machine
end

