-- ==== Sys2Proof/Machine/Enabled.lean ====
section
/-! DEFINITION. Which steps may come next, which of them does, and what a step fetches and leaves behind. A step of the part that carries no
word does nothing where its conditions are not met, so it may come next exactly where it would change the machine. -/

namespace Sys2Proof.Machine

/-- Whether an event at a focus would change the machine. -/
def moves (s : State) (i : Instr) (f : Focus) : Bool :=
  match exec i { s with focus := f } with
  | .next t => t != { s with focus := f }
  | _ => false

/-- The events among candidates that may come next. -/
def eventSels (s : State) (l : List (Instr × Focus)) : List Sel :=
  (l.filter fun x => moves s x.1 x.2).map fun x => .event x.1 x.2

/-! ### Instances -/

/-- The instructions of a block that may fire in the next cycle in which any may (R107, R108), by index. One that waits for the issue slot
leaves the list as the first of them takes it. -/
def Inst.firingNow (i : Inst) (f : Frame) : List Nat :=
  let ready := (List.range f.words.length).filter (i.canFire f)
  match leastOf (ready.map f.fireTime) with
  | none => []
  | some t => ready.filter fun k => f.fireTime k == t

/-- The instruction of a block that fires next (R107, R108): of one cycle the lowest index comes first, as R113 ranks its faults. -/
def Inst.nextFire (i : Inst) (f : Frame) : Option Nat := (i.firingNow f).head?

/-- Steps of an instance that runs its block on a slot in RUN (R104, R105, R109, R111, R113, R116). A token that has reached a filled slot
faults (R106), and a cycle in which something fires without an issue slot goes before all else (R107); otherwise the next instruction issues, a fired load is performed, a
held wait is released, or the block completes. A block that is done fires nothing of a later cycle (R109). -/
def runningSels (s : State) (i : Inst) (f : Frame) : List Sel :=
  let fo : Focus := { core := i.core, pid := i.pid, iid := i.iid }
  let next := (i.nextFire f).filter fun k => !f.isDone || decide (f.fireTime k ≤ f.last)
  if let some k := i.clashDue f then [Sel.word { fo with idx := k }]
  else if next.isSome && (i.firingNow f).any fun k => !f.takesSlot k then (next.map fun k => Sel.word { fo with idx := k }).toList
  else
    (next.map fun k => Sel.word { fo with idx := k }).toList ++
      eventSels s (
        [(.blockComplete, fo), (.blkIncomplete, fo), (.iterDeferredCreate, fo)] ++
        (f.loads.flatMap fun l => [(.loadPerform, { fo with idx := l.idx }), (.translationWalk, { fo with n := l.ea })]) ++
        (f.waits.flatMap fun w =>
          [Instr.waittlRelease, .wpwaitRelease, .chkwaitRelease, .expectRelease, .markRelease].map fun e => (e, { fo with idx := w.idx })))

/-- Steps of an instance: nothing of a slot that is not in RUN issues or commits (R438). -/
def instSels (s : State) (i : Inst) : List Sel :=
  let fo : Focus := { core := i.core, pid := i.pid, iid := i.iid }
  let age := eventSels s [(.agingStep, fo), (.recallThreshold, fo)]
  if (s.chip.slot i.core i.pid).pstate != .run then []
  else match i.state, i.frame with
    | .running, none => eventSels s [(.blockMap, fo), (.translationWalk, { fo with n := i.block })] ++ age
    | .running, some f => runningSels s i f ++ age
    | .complete, some _ => eventSels s [(.blockCommit, fo), (.iterDeferredCreate, fo)] ++ age
    | _, _ => age

/-! ### Slots and cores -/

/-- Events of a slot on a core. -/
def slotEvents (s : State) (x : Slot) : List (Instr × Focus) :=
  let c := s.chip
  let fo : Focus := { core := x.core, pid := x.pid }
  let nums := fun (k : Nat) => (x.eng k).cmds.map (·.num)
  let at_ := fun (l : List Nat) (es : List Instr) => l.flatMap fun n => es.map fun e => (e, { fo with n })
  let here := [Instr.instanceForm, .frameGrant, .recordDelivery, .gatherStart, .gatherComplete, .peCmdStart, .peCmdComplete,
    .drainCmdStart, .drainRow, .lvlldReplace, .drainCmdComplete, .ampCmdStart, .ampCmdComplete, .cfgswDrainEnd, .planeExchange,
    .portBindingIssue].map fun e => (e, fo)
  let tier := match c.ttAt x.core x.pid with
    | some (l, tt) =>
      if l.origin == x.core then
        (Instr.ttDetachComplete, fo) :: at_ (List.range tt.entries.length) [.ttEntryStart, .ttEntryComplete, .ttEntryFail]
      else []
    | none => []
  let moved := (nums 7).flatMap fun n => [Instr.ttEntryStart, .ttEntryComplete, .ttEntryFail].map fun e => (e, { fo with n, k := 1 })
  let streams := (List.range 4).flatMap fun n => match c.copyRunning x.core x.pid n with
    | some q => (c.copyCores x.core x.pid q).map fun k => (Instr.mcastCreditReturn, { fo with n, k })
    | none => []
  here ++ tier ++ moved ++ streams ++ at_ (nums 7) [.timetableAttach] ++
    at_ (List.range 4) [.copyUnitDelivered, .copyFault, .copyComplete, .peChunkVerify] ++ at_ (List.range x.mat.index.length) [.gatherRowWrite] ++
    at_ (nums 9) [.collSegment, .collComplete, .credPerform, .credAck, .transportRetransmission] ++
    at_ ((x.outq.flatMap fun o => o.tokens.map (·.dst)).eraseDups) [.creditGrant] ++
    at_ (if x.pstate == .run then c.preTranslations x else []) [.translationWalk]

/-- Events of pre-emption on a core of a partition's region (R438 to R441). -/
def preemptEvents (core pid : Nat) : List (Instr × Focus) :=
  let fo : Focus := { core, pid }
  ([Instr.preemptRequest, .preemptDrainDone, .saveComplete, .swapIn, .restoreComplete].map fun e => (e, fo)) ++
    [1, 2, 3, 4].map fun n => (.preemptMarkerArrival, { fo with n })

/-- Events of a core that belong to no one slot. -/
def coreEvents (k : Core) : List (Instr × Focus) :=
  let fo : Focus := { core := k.id }
  ([Instr.heatRefill, .coreRetire, .migrationComplete, .inboundStreamStart].map fun e => (e, fo)) ++
    (List.range 8).map fun n => (.copyStart, { fo with n })

/-- Events of a partition. -/
def partEvents (p : Part) : List (Instr × Focus) :=
  let fo : Focus := { pid := p.pid }
  [(.cfgldComplete, fo), (.cfgswComplete, fo)] ++ (p.launches.map fun l => (.launchEnd, { fo with n := l.lid })) ++
    (p.pends.flatMap fun q =>
      [Instr.squashAck, .tlbiComplete, .cinvComplete, .keyldComplete, .swrRegionComplete, .pswapComplete].map fun e => (e, { fo with n := q.n }))

/-- Whether some pre-emption request stands. -/
def Chip.swapping (c : Chip) : Bool := c.parts.any fun p => p.pends.any fun q => match q.kind with
  | .pswap _ _ _ _ => true
  | _ => false

/-! ### The package and the outside world -/

/-- Events that the next input brings about (notes/assumptions 6), and the first power-on. -/
def inputEvents : List (Instr × Focus) :=
  ([Instr.powerOn, .hostLaunchPacket, .clrOvf, .createPartition, .endPartition, .attest, .verifyObject, .extend, .firmwareUpdate, .sumacControl,
    .readEvents, .linkFrameReceive, .linkRetry, .laneDegrade, .portFailover, .lkUnreach, .softError, .thermalRevise,
    .thermalEmergency].map fun e => (e, ({} : Focus))) ++
    [Instr.preemptRequest, .swapIn, .coreRetire].map fun e => (e, { k := 1 })

/-- Events of the package as a whole. -/
def packageEvents (s : State) : List (Instr × Focus) :=
  let c := s.chip
  let no : Focus := {}
  let each := fun (l : Nat) (e : Instr) (k : Nat) => (List.range l).map fun n => (e, ({ n, k } : Focus))
  [(Instr.bootStageComplete, no), (.mgmtServiceComplete, no)] ++
    (if c.parts.isEmpty then [] else [(.scTokenVisit, no)]) ++
    each c.flights.length .tokenArrival 0 ++ each c.waiting.length .creditGrant 1 ++ each c.vals.length .pendingValueArrival 0 ++ each c.creds.length .credPerform 1 ++
    each c.credSeen.length .credFilterExpire 0 ++ s.sys.windows.map fun w => (.hostPacketExecute, { n := w.id })

/-- Every step that may come next. -/
def enabled (s : State) : List Sel :=
  let c := s.chip
  c.insts.flatMap (instSels s) ++
    eventSels s (c.slots.flatMap (slotEvents s) ++ (c.parts.flatMap fun p =>
        (p.cores.filter fun k => c.swapping || c.slots.any fun x => x.core == k && x.pid == p.pid).flatMap fun k => preemptEvents k p.pid) ++
      c.cores.flatMap coreEvents ++ c.parts.flatMap partEvents ++ packageEvents s ++ inputEvents)

/-- The step that comes next, and the state with the choice used up (notes/assumptions 2): the turn that is due; else the only step
enabled; else the one the oracle names, or a free choice. -/
def choose (s : State) : Option Sel × State :=
  match s.turn with
  | some x => (some x, { s with turn := none })
  | none =>
    match enabled s with
    | [] => (none, s)
    | [x] => (some x, s)
    | l =>
      match s.oracle with
      | n :: t => (l[n % l.length]?, { s with oracle := t })
      | [] => (l[Config.pick s.freeCtr % l.length]?, { s with freeCtr := s.freeCtr + 1 })

/-- The word at a focus: instruction `idx` of the block that its instance executes (R97, R99). -/
def fetchWord (s : State) (f : Focus) : Option Nat :=
  match s.chip.inst? f.iid with
  | none => none
  | some i => match i.frame with
    | none => none
    | some fr => fr.words[f.idx]?

/-! ### Reports -/

/-- Entries that the log and a Sumac buffer hold (R447, R457). -/
def logCap : Nat := 4096
def sumacCap : Nat := 131072

/-- An entry joins a bounded buffer: when that is full the oldest goes, and the loss counter rises. -/
def pushBounded (cap : Nat) (l : List α) (lost : Nat) (x : α) : List α × Nat :=
  if cap ≤ l.length then (l.drop 1 ++ [x], lost + 1) else (l ++ [x], lost)

/-- One report reaches Ebgokai's log, with the CYCLE of its core (R447), which counts from stage 3 of bring-up on (R446, R456). -/
def logOne (s : State) (e : LogEntry) : State :=
  let (cyc, chip) := if s.sys.stage < 3 then ((s.chip.coreSt e.core).cycle, s.chip) else s.chip.readCycle e.core
  let (log, logLost) := pushBounded logCap s.sys.log s.sys.logLost { e with cyc }
  { s with chip, sys := { s.sys with log, logLost } }

/-- One event reaches its tower's Sumac buffer, with the CYCLE of its core, where its partition has it enabled (R449, R457). -/
def traceOne (s : State) (e : SumacEntry) : State :=
  let b := s.sys.sumacOf e.tower
  if bitAt (lookupNat b.masks e.pid) e.ev then
    let (cyc, chip) := s.chip.readCycle e.core
    let (entries, lost) := pushBounded sumacCap b.entries b.lost { e with cyc }
    { s with chip, sys := s.sys.setSumac { b with entries, lost } }
  else s

/-- The counters of a slot whose cycles may pass in a state, as group × 256 + index (R172, R280, R411, R434): a sender waits for a branch's
credit; a plane command runs, and waits for group words, for an empty bucket or for another slot; a READY instance waits for a frame; the slot
is under back-pressure; a block waits to commit. -/
def Chip.waitsNow (c : Chip) (x : Slot) : List Nat :=
  let here := fun (st : IState) => c.insts.any fun i => i.core == x.core && i.pid == x.pid && i.state == st
  let runs := fun (y : Slot) => !(y.eng 5).halted && (y.eng 5).cmds.any (·.started)
  let only := fun (b : Bool) (n : Nat) => if b then [n] else []
  let credits := (List.range 4).flatMap fun n => match x.headCmd n with
    | some q => if q.started && !(x.eng n).halted then
        (q.bpos.zipIdx.filter fun p => q.window + p.1 ≤ q.buf.length).map fun p => n * 256 + 2 + p.2 else []
    | none => []
  let heat := ((c.coreSt x.core).heat.zipIdx.filter fun h => runs x && h.1 == 0).map fun h => 0x800 + h.2
  credits ++ heat ++ only (runs x && c.slots.any fun y => y.core == x.core && y.pid != x.pid && runs y) 0x804 ++ only (runs x) 0x805 ++
    only (here .ready) 0xA18 ++ only (c.pressed x.core x.pid) 0xA19 ++ only (here .complete) 0xA1A

/-- The issue of an instruction: core, slot, and the first width bin of its pipe (R409, R411). -/
abbrev Issue := Nat × Nat × Nat

/-- What a step issues that carries the word at a focus: nothing at a commit, nor where no slot is taken (R107, R108). -/
def issueOf (s : State) (f : Focus) : Option Issue :=
  match s.chip.inst? f.iid with
  | none => none
  | some i => match i.frame with
    | none => none
    | some fr =>
      let w := fr.word f.idx
      let memory := classOf w == .L || classOf w == .W || opOf w == 0x13C
      let special := 0x0D8 ≤ opOf w && opOf w ≤ 0x0DD
      if f.phase == .fire && fr.takesSlot f.idx then some (i.core, i.pid, 0xA00 + if memory then 16 else if special then 8 else 0) else none

/-- The bins that a group of a slot may count in (R411): those of a width that its instances can make up. -/
def Chip.binsOf (c : Chip) (x : Slot) (issue : Option Issue) : List Nat :=
  match issue with
  | none => []
  | some (core, pid, base) =>
    if x.core != core || x.pid != pid then []
    else ([1, 2, 5, 9, 13, 17, 25, 32].zipIdx.filter fun b => b.1 ≤ (c.insts.filter fun i => i.core == core && i.pid == pid).length).map (base + ·.2)

/-- What the counters of R411 count in a step is marked (notes/assumptions 1). -/
def Chip.markWaits (c : Chip) (issue : Option Issue) : Chip :=
  { c with slots := c.slots.map fun x => { x with waited := (c.waitsNow x ++ c.binsOf x issue).foldl addNat x.waited } }

/-- Reports of a step reach Ebgokai's log and the Sumac buffers, in their order, its writes the plane commands that they race with (R287),
and its waits and its issue the counters (R411). -/
def drain (s : State) (issue : Option Issue := none) : State :=
  let t := { s with chip := { s.chip.markRaces.markWaits issue with logq := [], sumacq := [] } }
  s.chip.sumacq.foldl traceOne (s.chip.logq.foldl logOne t)

/-- The outcome of a step, its reports drained. -/
def settle (o : Out) (issue : Option Issue := none) : Out :=
  match o with
  | .next s => .next (drain s issue)
  | o => o

end Sys2Proof.Machine
end

