-- ==== Sys2Proof/Machine/Step.lean ====
section
/-! DEFINITION. One step of the machine, and the state in which the next step runs a given word. -/

namespace Sys2Proof.Machine

/-- One step: the step chosen is an event of the opcode table, or the instruction at a focus, which is fetched from the decoded copy of
its block (R99) and decoded. With nothing to do the machine waits. -/
def step (s : State) : Host.Outcome State Fault Refusal :=
  match choose s with
  | (none, s) => .next s
  | (some (.event i f), s) => settle (exec i { s with focus := f })
  | (some (.word f), s) =>
    match fetchWord s f with
    | none => .fault .noBlock
    | some w =>
      match decodeWord w with
      | .error _ => .refused .undecodable
      | .ok d => settle (exec d.instr { s with focus := f }) (issueOf s f)

/-- The block header of a one-instruction block that may hold anything (R98). -/
def oneHdr : Nat := 0xB7070040

/-- The machine of `State.reset` brought up, with one partition, a launch on core 0 and one instance there whose block is the one word
`w`, its slots filled with zeros; the next step fires it (notes/assumptions 4). -/
def State.withFetchWord (s : State) (_nbits w : Nat) : State :=
  let part : Part := { pid := 1, part := 1, launches := [{ lid := 0, ox := 0, oy := 0, lw := 0, lh := 0 }] }
  let z : Option Tok := some (.val 0 false)
  let o : Option Tok := some (.val (if bits w 21 2 = 1 then 1 else 0) false)
  let n := slotCount w
  let cell : Cell := { a := if n < 1 then none else z, b := if n < 2 then none else z, c := if n < 3 then none else z, p := o }
  let frame : Frame := { addr := 0, hdr := oneHdr, words := [w], cells := [cell] }
  let inst : Inst := { iid := s.chip.nextIid, core := 0, pid := 1, state := .running, frame := some frame }
  { s with
    chip := { s.chip with
      parts := [part], slots := [{ core := 0, pid := 1 }], insts := [inst], nextIid := s.chip.nextIid + 1 }
    turn := some (.word { iid := s.chip.nextIid }) }

end Sys2Proof.Machine
end

