-- ==== Sys2Proof/Safety.lean ====
section
/-! DEFINITION. What counts as a safe run, in the terms claims use. -/

namespace Sys2Proof

/-- A run of `n` steps from a state that stops with no fault and no refusal. -/
def runsSafely (n : Nat) (s : Machine.State) : Prop := ∃ t, Host.Core.run core n s = .next t

end Sys2Proof
end

