-- ==== Sys2Proof/Certificates/Slice0/Obligations.lean ====
section
/-! DEFINITION. The statements for the provers, `def Obligations.<Name> : Prop`, over the vocabulary of `Sys2Proof.Claims`: what it is for an
instruction to fire, to act at commit, to be released, and what the machine then looks like. Each docstring names the rules it follows;
where a clause rests on a choice of the model it names the log entry. -/

open Sys2Proof Sys2Proof.Machine

namespace Sys2Proof.Claims

/-! ### Firing -/

/-- The instruction at the focus fires (R104): its instance runs a block in which no token has reached a filled slot (R106), every slot is filled
and the predicate, if any, matches. -/
structure Fires (s : State) (i : Inst) (f : Frame) : Prop where
  here  : s.chip.inst? s.focus.iid = some i
  block : i.frame = some f
  runs  : i.state = .running
  clear : i.clashDue f = none
  may   : i.canFire f s.focus.idx = true
  phase : s.focus.phase = .fire

/-- The block once instruction `k` has fired: marked so, with the cycle of the next issue, that in which the
divider is free again (R226, R260) and that of the arrival of its result (R108; the latencies order tokens alone, notes/assumptions 99). -/
def mark (f : Frame) (k : Nat) : Frame :=
  let t := f.fireTime k
  { f with
    cells := f.cells.set k { f.cell k with fired := true }
    now := if f.takesSlot k then t + 1 else max f.now t
    last := t
    div := if f.takesSlot k && divides (f.word k) then t + latencyOf (f.word k) - 4 else f.div
    arrival := t + if f.onNull k then 1 else latencyOf (f.word k) }

/-- The state after the instance's block has become `g`: an instruction that took an issue slot also starts the instance's aging anew
(R108, R406). Nothing else changes. -/
def become (s : State) (i : Inst) (f : Frame) (g : Frame) : State :=
  let j := if f.takesSlot s.focus.idx then { i with steps := 0 } else i
  { s with chip := s.chip.setInst { j with frame := some g } }

/-- The operands of the instruction at the focus. -/
def operands (s : State) (f : Frame) : Operands := operandsOf (f.data s.focus.idx) (f.predTaint s.focus.idx)

/-- The block fault that the instruction at index `n` of the block takes, the instruction at the focus having fired (R114). -/
def faults (s : State) (i : Inst) (f : Frame) (n : Nat) (e : AFault) : State :=
  let t := become s i f (mark f s.focus.idx)
  { t with chip := t.chip.takeFault i.iid n e }

/-- The two targets of a word (R102), or the one. -/
abbrev Targets := List (Option Target)

/-! ### Integer, compare and bit results (chapter 07), in the arithmetic of bit vectors -/

/-- One operand of N bits (R220, R221). -/
def low (w : Width) (x : Word) : BitVec w.bits := x.setWidth w.bits
/-- An immediate: sign-extended, modulo `2^N` (R221). -/
def imm9 (w : Width) (x : BitVec 9) : BitVec w.bits := x.signExtend w.bits
/-- A result in its 64-bit token, zero-extended (R220). -/
def token {n : Nat} (x : BitVec n) : Word := x.setWidth 64
/-- 1 where a relation holds, else 0 (R230). -/
def truth (b : Bool) : Word := if b then 1 else 0

/-- A signed value clamped to N bits (R225). -/
def saturate (n : Nat) (v : Int) : BitVec n := BitVec.ofInt n (max (-2 ^ (n - 1)) (min v (2 ^ (n - 1) - 1)))
/-- Number of the leading bits, seen through `f`, that are 0. -/
def zeroRun (n : Nat) (f : Nat → Bool) : Nat := ((List.range n).takeWhile fun k => !f k).length
/-- POS and LEN of a field word (R233). -/
def pos (b : Word) : Nat := (b.extractLsb' 0 6).toNat
def len (b : Word) : Nat := (b.extractLsb' 8 7).toNat
/-- LEN one bits. -/
def ones (n l : Nat) : BitVec n := BitVec.ofNat n (2 ^ l - 1)

def unary (w : Width) (t1 t0 : Option Target) (g : (n : Nat) → BitVec n → BitVec n) : Option (Targets × (Operands → Word)) :=
  some ([t1, t0], fun o => token (g w.bits (low w o.a)))
def binary (w : Width) (t1 t0 : Option Target) (g : (n : Nat) → BitVec n → BitVec n → BitVec n) : Option (Targets × (Operands → Word)) :=
  some ([t1, t0], fun o => token (g w.bits (low w o.a) (low w o.b)))
def immediate (w : Width) (i : BitVec 9) (t0 : Option Target) (g : (n : Nat) → BitVec n → BitVec n → BitVec n) :
    Option (Targets × (Operands → Word)) :=
  some ([t0], fun o => token (g w.bits (low w o.a) (imm9 w i)))
/-- A shift: the count is all 64 bits of slot b. -/
def shift (w : Width) (t1 t0 : Option Target) (g : (n : Nat) → BitVec n → Nat → BitVec n) : Option (Targets × (Operands → Word)) :=
  some ([t1, t0], fun o => token (g w.bits (low w o.a) o.b.toNat))
def shiftImm (w : Width) (i : BitVec 9) (t0 : Option Target) (g : (n : Nat) → BitVec n → Nat → BitVec n) :
    Option (Targets × (Operands → Word)) :=
  some ([t0], fun o => token (g w.bits (low w o.a) i.toNat))
def compare (w : Width) (t1 t0 : Option Target) (g : (n : Nat) → BitVec n → BitVec n → Bool) : Option (Targets × (Operands → Word)) :=
  some ([t1, t0], fun o => truth (g w.bits (low w o.a) (low w o.b)))
def compareImm (w : Width) (i : BitVec 9) (t0 : Option Target) (g : (n : Nat) → BitVec n → BitVec n → Bool) :
    Option (Targets × (Operands → Word)) :=
  some ([t0], fun o => truth (g w.bits (low w o.a) (imm9 w i)))
def count (w : Width) (t1 t0 : Option Target) (g : (n : Nat) → BitVec n → Nat) : Option (Targets × (Operands → Word)) :=
  some ([t1, t0], fun o => BitVec.ofNat 64 (g w.bits (low w o.a)))

/-- Targets and result of the instructions of chapter 07: R225 (arithmetic), R226 (division), R227 (logic and shifts), R228, R229,
R230 (compares), R231, R232 (counts and reversals), R233 (fields), R234. -/
def integerResult : Instr → Option (Targets × (Operands → Word))
  | .add w t1 t0 => binary w t1 t0 fun _ x y => x + y
  | .addi w i t0 => immediate w i t0 fun _ x y => x + y
  | .sub w t1 t0 => binary w t1 t0 fun _ x y => x - y
  | .mul w t1 t0 => binary w t1 t0 fun _ x y => x * y
  | .muli w i t0 => immediate w i t0 fun _ x y => x * y
  | .mulh w t1 t0 => binary w t1 t0 fun n x y => (x.signExtend (2 * n) * y.signExtend (2 * n)).extractLsb' n n
  | .mulhn w t1 t0 => binary w t1 t0 fun n x y => (x.setWidth (2 * n) * y.setWidth (2 * n)).extractLsb' n n
  | .madd w t1 t0 => some ([t1, t0], fun o => token (low w o.a * low w o.b + low w o.c))
  | .div w t1 t0 => binary w t1 t0 fun n x y => if y = 0 then BitVec.allOnes n else x.sdiv y
  | .divn w t1 t0 => binary w t1 t0 fun n x y => if y = 0 then BitVec.allOnes n else x.udiv y
  | .rem w t1 t0 => binary w t1 t0 fun _ x y => if y = 0 then x else x.srem y
  | .remn w t1 t0 => binary w t1 t0 fun _ x y => if y = 0 then x else x.umod y
  | .neg w t1 t0 => unary w t1 t0 fun _ x => -x
  | .abs w t1 t0 => unary w t1 t0 fun _ x => if x.msb then -x else x
  | .min w t1 t0 => binary w t1 t0 fun _ x y => if x.sle y then x else y
  | .max w t1 t0 => binary w t1 t0 fun _ x y => if y.sle x then x else y
  | .minn w t1 t0 => binary w t1 t0 fun _ x y => if x.ule y then x else y
  | .maxn w t1 t0 => binary w t1 t0 fun _ x y => if y.ule x then x else y
  | .addsat w t1 t0 => binary w t1 t0 fun n x y => saturate n (x.toInt + y.toInt)
  | .subsat w t1 t0 => binary w t1 t0 fun n x y => saturate n (x.toInt - y.toInt)
  | .and w t1 t0 => binary w t1 t0 fun _ x y => x &&& y
  | .andi w i t0 => immediate w i t0 fun _ x y => x &&& y
  | .or w t1 t0 => binary w t1 t0 fun _ x y => x ||| y
  | .ori w i t0 => immediate w i t0 fun _ x y => x ||| y
  | .xor w t1 t0 => binary w t1 t0 fun _ x y => x ^^^ y
  | .xori w i t0 => immediate w i t0 fun _ x y => x ^^^ y
  | .andn w t1 t0 => binary w t1 t0 fun _ x y => x &&& ~~~y
  | .not w t1 t0 => unary w t1 t0 fun _ x => ~~~x
  | .shl w t1 t0 => shift w t1 t0 fun n x k => if n ≤ k then 0 else x <<< k
  | .shli w i t0 => shiftImm w i t0 fun n x k => if n ≤ k then 0 else x <<< k
  | .shr w t1 t0 => shift w t1 t0 fun n x k => if n ≤ k then 0 else x >>> k
  | .shri w i t0 => shiftImm w i t0 fun n x k => if n ≤ k then 0 else x >>> k
  | .sar w t1 t0 => shift w t1 t0 fun n x k => x.sshiftRight (min k (n - 1))
  | .sari w i t0 => shiftImm w i t0 fun n x k => x.sshiftRight (min k (n - 1))
  | .rol w t1 t0 => shift w t1 t0 fun _ x k => x.rotateLeft k
  | .ror w t1 t0 => shift w t1 t0 fun _ x k => x.rotateRight k
  | .lea sc t1 t0 => some ([t1, t0], fun o => o.a + o.b <<< sc.code)
  | .sext w t1 t0 => some ([t1, t0], fun o => (low w o.a).signExtend 64)
  | .zext w t1 t0 => some ([t1, t0], fun o => (low w o.a).setWidth 64)
  | .teq w t1 t0 => compare w t1 t0 fun _ x y => x == y
  | .tne w t1 t0 => compare w t1 t0 fun _ x y => x != y
  | .tlt w t1 t0 => compare w t1 t0 fun _ x y => x.slt y
  | .tle w t1 t0 => compare w t1 t0 fun _ x y => x.sle y
  | .tltn w t1 t0 => compare w t1 t0 fun _ x y => x.ult y
  | .tlen w t1 t0 => compare w t1 t0 fun _ x y => x.ule y
  | .teqi w i t0 => compareImm w i t0 fun _ x y => x == y
  | .tnei w i t0 => compareImm w i t0 fun _ x y => x != y
  | .tlti w i t0 => compareImm w i t0 fun _ x y => x.slt y
  | .tlei w i t0 => compareImm w i t0 fun _ x y => x.sle y
  | .tltni w i t0 => compareImm w i t0 fun _ x y => x.ult y
  | .tleni w i t0 => compareImm w i t0 fun _ x y => x.ule y
  | .sel t1 t0 => some ([t1, t0], fun o => if o.c.getLsbD 0 then o.a else o.b)
  | .clz w t1 t0 => count w t1 t0 fun n x => zeroRun n x.getMsbD
  | .ctz w t1 t0 => count w t1 t0 fun n x => zeroRun n x.getLsbD
  | .popc w t1 t0 => count w t1 t0 fun n x => ((List.range n).filter x.getLsbD).length
  | .brev w t1 t0 => unary w t1 t0 fun _ x => x.reverse
  | .bswap w t1 t0 => unary w t1 t0 fun n x => BitVec.ofNat n (leNat (leBytes (n / 8) x.toNat).reverse)
  | .bfx w t1 t0 => some ([t1, t0], fun o => token ((low w o.a >>> pos o.b) &&& ones w.bits (len o.b)))
  | .bfxs w t1 t0 => some ([t1, t0], fun o =>
      token (((low w o.a >>> pos o.b).setWidth (min (len o.b) (w.bits - pos o.b))).signExtend w.bits))
  | .bfi w t1 t0 => some ([t1, t0], fun o =>
      let m := ones w.bits (len o.c)
      token ((low w o.a &&& ~~~(m <<< pos o.c)) ||| ((low w o.b &&& m) <<< pos o.c)))
  | .bitt w t1 t0 => some ([t1, t0], fun o => truth ((low w o.a).getLsbD o.b.toNat))
  | _ => none

/-! ### Bit patterns of the floating formats (R63) -/

/-- The low bits of a token in a format, and the sign's place. -/
def pattern (f : FFmt) (x : Word) : BitVec (fmtOf f).width := x.setWidth (fmtOf f).width
def signMask (f : FFmt) : BitVec (fmtOf f).width := 1#_ <<< ((fmtOf f).width - 1)

/-- Exponent field, fraction field and sign of a pattern (R63). -/
def expOf (f : FFmt) (x : Word) : Nat := x.toNat / 2 ^ (fmtOf f).frac % 2 ^ (fmtOf f).ebits
def fracOf (f : FFmt) (x : Word) : Nat := x.toNat % 2 ^ (fmtOf f).frac
def negative (f : FFmt) (x : Word) : Bool := x.getLsbD ((fmtOf f).width - 1)
def topExp (f : FFmt) : Nat := 2 ^ (fmtOf f).ebits - 1

/-- The class word of a pattern (R249), from its fields. -/
def classWord (f : FFmt) (x : Word) : Word :=
  let bit := fun (pos neg : Nat) => 1#64 <<< (if negative f x then neg else pos)
  if expOf f x = topExp f then
    if fracOf f x = 0 then bit 7 0
    else if x.getLsbD ((fmtOf f).frac - 1) then 1#64 <<< 9 else 1#64 <<< 8
  else if expOf f x = 0 then if fracOf f x = 0 then bit 4 3 else bit 5 2
  else bit 6 1

def isNan (f : FFmt) (x : Word) : Bool := expOf f x == topExp f && fracOf f x != 0
def isSignalling (f : FFmt) (x : Word) : Bool := isNan f x && !x.getLsbD ((fmtOf f).frac - 1)
def isInfinite (f : FFmt) (x : Word) : Bool := expOf f x == topExp f && fracOf f x == 0
def isZero (f : FFmt) (x : Word) : Bool := expOf f x == 0 && fracOf f x == 0
/-- The canonical NaN of each format, and an infinity (R63). -/
def canonicalNan : FFmt → Nat
  | .f64 => 0x7FF8000000000000 | .f32 => 0x7FC00000 | .bf16 => 0x7FC0 | .f16 => 0x7E00
def infinity (f : FFmt) (neg : Bool) : Nat :=
  (match f with | .f64 => 0x7FF0000000000000 | .f32 => 0x7F800000 | .bf16 => 0x7F80 | .f16 => 0x7C00) +
    (if neg then 2 ^ ((fmtOf f).width - 1) else 0)

/-- Results of chapter 08 that raise no flag: the sign operations and the class word (R247, R249), the random word (R259). -/
def patternResult : Instr → Option (Targets × (Operands → Word))
  | .fabs f t1 t0 => some ([t1, t0], fun o => token (pattern f o.a &&& ~~~signMask f))
  | .fneg f t1 t0 => some ([t1, t0], fun o => token (pattern f o.a ^^^ signMask f))
  | .fcpys f t1 t0 => some ([t1, t0], fun o => token ((pattern f o.a &&& ~~~signMask f) ||| (pattern f o.b &&& signMask f)))
  | .fclass f t1 t0 => some ([t1, t0], fun o => classWord f o.a)
  | .rand t1 t0 => some ([t1, t0], fun o =>
      let z0 := o.b + o.a * 0x9E3779B97F4A7C15
      let z1 := (z0 ^^^ (z0 >>> 30)) * 0xBF58476D1CE4E5B9
      let z2 := (z1 ^^^ (z1 >>> 27)) * 0x94D049BB133111EB
      z2 ^^^ (z2 >>> 31))
  | _ => none

/-- Targets, result and flags of the floating instructions that can raise a flag (R246 to R258), as functions of the rounding mode and
the three operands. -/
def floatResult : Instr → Option (Targets × (RMode → Nat → Nat → Nat → Nat × FFlags))
  | .fadd f t1 t0 => some ([t1, t0], fun r a b _ => fAdd (fmtOf f) r a b)
  | .fsub f t1 t0 => some ([t1, t0], fun r a b _ => fSub (fmtOf f) r a b)
  | .fmul f t1 t0 => some ([t1, t0], fun r a b _ => fMul (fmtOf f) r a b)
  | .fma f t1 t0 => some ([t1, t0], fun r a b c => fMa (fmtOf f) r a b c)
  | .fnma f t1 t0 => some ([t1, t0], fun r a b c => fNma (fmtOf f) r a b c)
  | .fdiv f t1 t0 => some ([t1, t0], fun r a b _ => fDiv (fmtOf f) r a b)
  | .fsqrt f t1 t0 => some ([t1, t0], fun r a _ _ => fSqrt (fmtOf f) r a)
  | .fmin f t1 t0 => some ([t1, t0], fun _ a b _ => fMinMax (fmtOf f) false a b)
  | .fmax f t1 t0 => some ([t1, t0], fun _ a b _ => fMinMax (fmtOf f) true a b)
  | .fteq f t1 t0 => some ([t1, t0], fun _ a b _ => fTeq (fmtOf f) a b)
  | .ftlt f t1 t0 => some ([t1, t0], fun _ a b _ => fTlt (fmtOf f) a b)
  | .ftle f t1 t0 => some ([t1, t0], fun _ a b _ => fTle (fmtOf f) a b)
  | .ftun f t1 t0 => some ([t1, t0], fun _ a b _ => fTun (fmtOf f) a b)
  | .frnd f flag mode t0 => some ([t0], fun _ a _ _ => fRnd (fmtOf f) mode flag a)
  | .fscale f t1 t0 => some ([t1, t0], fun r a b _ => fScale (fmtOf f) r a b)
  | .fgetexp f t1 t0 => some ([t1, t0], fun _ a _ _ => fGetexp (fmtOf f) a)
  | .cvtff mode src dst t0 => some ([t0], fun _ a _ _ => cvtFF (fmtOf src) (fmtOf dst) mode a)
  | .cvtfi mode src dst t0 => some ([t0], fun _ a _ _ => cvtFI (fmtOf src) dst mode a)
  | .cvtif mode src dst t0 => some ([t0], fun _ a _ _ => cvtIF src (fmtOf dst) mode a)
  | .cvtsr src dst t0 => some ([t0], fun _ a b _ => cvtSR (fmtOf src) (fmtOf dst) a b)
  | .frcpa single t1 t0 => some ([t1, t0], fun _ a _ _ => fRcpa (fmtOf (if single then .f32 else .f64)) a)
  | .frsqa single t1 t0 => some ([t1, t0], fun _ a _ _ => fRsqa (fmtOf (if single then .f32 else .f64)) a)
  | .fexp2a t1 t0 => some ([t1, t0], fun _ a _ _ => fExp2a a)
  | .flog2a t1 t0 => some ([t1, t0], fun _ a _ _ => fLog2a a)
  | .fsina t1 t0 => some ([t1, t0], fun _ a _ _ => fSina a)
  | .fcosa t1 t0 => some ([t1, t0], fun _ a _ _ => fCosa a)
  | _ => none

/-! ### Results read from the machine's state -/

/-- The word of `DRAINQ` for a core (R393): instances of the active plane, its tokens in the matching store and on their way, the plane and
whether the other is armed, the switch. -/
def switchWord (s : State) (core pid : Nat) : Word :=
  let g := (s.chip.slot core pid).cfg
  BitVec.ofNat 64 (min (s.chip.planeInsts core pid) 65535 * 2 ^ 48 + min (s.chip.planeTokens core pid) 65535 * 2 ^ 32 + g.act * 2 ^ 4 +
    (if g.armed then 8 else 0) + match g.sw with | .active => 0 | .draining => 1 | .switching => 2)

/-- Whether the 64-byte line of the slice that holds a register is poisoned (R30, R445). -/
def poisonedReg (s : State) (i : Inst) (g : BitVec 5) : Bool := s.chip.mem.poison.contains (locSlice i.iid (8 * g.toNat) / 64)

/-- Targets, value and taint for given operands of the instructions of class T that pass an operand on or read the state of their instance,
slot and launch without changing it: the plumbing instructions (R122 to R125, R127, R128), `TAINTQ` (R234), `TLGET` (R213), `DRAINQ` of its own core
or of one within the rectangle (R393), `BRK` where it does not trap (R425, R427), `TRES` (R154), `AMAP` (R334). A register on a poisoned
line, a page state on a poisoned line, an argument at or beyond the arity, a core outside the rectangle and an armed `BRK` have no result. -/
def readResult (s : State) (i : Inst) (o : Operands) : Instr → Option (Targets × Word × Bool)
  | .read g t1 t0 =>
    if poisonedReg s i g then none else some ([t1, t0], (i.regs.get g.toFin).v, (i.regs.get g.toFin).taint)
  | .arg g t1 t0 => (i.args[g.toNat]?).map fun t => ([t1, t0], t.value, t.tainted)
  | .mov t1 t0 => some ([t1, t0], o.a, o.taint)
  | .const imm t0 => some ([t0], imm.signExtend 64, o.taint)
  | .consth imm t0 => some ([t0], o.a <<< 14 ||| imm.setWidth 64, o.taint)
  | .gettag view t1 t0 => some ([t1, t0], BitVec.ofNat 64 (match view with
      | .tag => i.tag % 2 ^ 48
      | .iter => i.tag % 2 ^ 26
      | .ctx => i.tag / 2 ^ 26 % 2 ^ 12
      | .orig => i.tag / 2 ^ 38 % 2 ^ 10
      | .chan => i.chan % 2 ^ 7), false)
  | .coord view t1 t0 =>
    let (ox, oy, w, h) := s.chip.rect i.pid i.core
    some ([t1, t0], BitVec.ofNat 64 (match view with
      | .rect => ((coreY i.core - oy) * w + (coreX i.core - ox)) * 2 ^ 32 + h * 2 ^ 24 + w * 2 ^ 16 + (coreY i.core - oy) * 2 ^ 8 +
          (coreX i.core - ox)
      | .abs => memberOf i.core * 2 ^ 24 + (s.chip.part i.pid).slot * 2 ^ 20 + towerOf i.core * 2 ^ 16 + coreY i.core * 2 ^ 8 + coreX i.core
      | .pkg => s.chip.tz * 2 ^ 16 + s.chip.ty * 2 ^ 8 + s.chip.tx), false)
  | .taintq t1 t0 => some ([t1, t0], if o.ta then 1 else 0, false)
  | .tlget view t1 t0 =>
    let sl := s.chip.slot i.core i.pid
    some ([t1, t0], match view with
      | .tl => sl.tls.getD (o.a.extractLsb' 0 4).toNat 0
      | .wp => BitVec.ofNat 64 (sl.cp (o.a.extractLsb' 0 2).toNat).wp
      | .chk => BitVec.ofNat 64 (sl.bitmap.getD (o.a.extractLsb' 0 4).toNat 0), true)
  | .drainq peer t1 t0 =>
    let (ox, oy, w, h) := s.chip.rect i.pid i.core
    let (dx, dy) := ((o.a.extractLsb' 0 5).toNat, (o.a.extractLsb' 8 5).toNat)
    let word := fun core => some ([t1, t0], switchWord s core i.pid, true)
    if peer then if dx < w ∧ dy < h then word (coreAt (ox + dx) (oy + dy)) else none else word i.core
  | .brk t1 t0 =>
    if (s.chip.part i.pid).reg 0x034 % 2 = 1 ∧ i.brkOff = false then none else some ([t1, t0], o.a, o.taint)
  | .tres view t0 => match s.chip.tresWord i.core i.pid view o.a.toNat with
    | .ok v => some ([t0], BitVec.ofNat 64 v, true)
    | .error _ => none
  | .amap view t0 =>
      let sl := s.chip.slot i.core i.pid
      let sid := (o.a.extractLsb' 8 3).toNat
      some ([t0], BitVec.ofNat 64 (ampView view.toNat (o.a.extractLsb' 0 6).toNat (sl.amp? sid)), o.taint || (sl.eng 8).cmds.any fun q => q.sel == sid)
  | _ => none

/-- The faults that the reading instructions raise as they fire (R122, R154, R393, R428, R445). INFO0 of the record of a `READ` is the
register's place within its slice, which has no physical address: the model's choice (notes/assumptions 53). -/
def readFault (s : State) (i : Inst) (o : Operands) : Instr → Option AFault
  | .read g _ _ =>
    if poisonedReg s i g then some { cause := 0x0A, addr := 0xFFFF800000000000 + 8 * g.toNat, info0 := 8 * g.toNat } else none
  | .arg g _ _ => if i.args.length ≤ g.toNat then some { cause := 0x16 } else none
  | .drainq true _ _ =>
    let (_, _, w, h) := s.chip.rect i.pid i.core
    if w ≤ (o.a.extractLsb' 0 5).toNat ∨ h ≤ (o.a.extractLsb' 8 5).toNat then some { cause := 0x22 } else none
  | .brk _ _ => if (s.chip.part i.pid).reg 0x034 % 2 = 1 ∧ i.brkOff = false then some { cause := 0x02 } else none
  | .tres view _ => match s.chip.tresWord i.core i.pid view o.a.toNat with
    | .ok _ => none
    | .error e => some e
  | _ => none

end Sys2Proof.Claims

/-! ## Firing and results -/

open Sys2Proof.Claims

/-- R104 to R106, R220 to R234. An instruction of chapter 07 that fires on data sends its result, with the OR of its operands' taints, to
its targets, and changes nothing else of the machine: its registers, memory, slots and the rest of the
state are as before. The results are those of the rules, in the arithmetic of N-bit vectors. -/
def Obligations.IntegerResults : Prop :=
  ∀ (s : State) (i : Inst) (f g : Frame) (ins : Instr) (ts : Targets) (r : Operands → Word),
    integerResult ins = some (ts, r) → Fires s i f → f.onNull s.focus.idx = false →
    (mark f s.focus.idx).sendAll ts (.val (r (operands s f)) (operands s f).taint) = g →
    exec ins s = .next (become s i f g)

/-- R63, R247, R249, R259. The sign operations and the random word, in bit-vector arithmetic, and the class word: as above, with no flag. -/
def Obligations.BitPatternResults : Prop :=
  ∀ (s : State) (i : Inst) (f g : Frame) (ins : Instr) (ts : Targets) (r : Operands → Word),
    patternResult ins = some (ts, r) → Fires s i f → f.onNull s.focus.idx = false →
    (mark f s.focus.idx).sendAll ts (.val (r (operands s f)) (operands s f).taint) = g →
    exec ins s = .next (become s i f g)

/-- R241, R242, R246 to R258. A floating instruction rounds with the RM committed before its block, its flags join the block's set and the
OR of its operands' taints the block's FPC taint; FPC itself, and all else, stays as it was. On a null operand (R107) it computes nothing, raises no flag and sends null. -/
def Obligations.FloatResults : Prop :=
  ∀ (s : State) (i : Inst) (f g : Frame) (ins : Instr) (ts : Targets) (r : RMode → Nat → Nat → Nat → Nat × FFlags),
    floatResult ins = some (ts, r) → Fires s i f →
    let o := operands s f
    let x := r i.fpc.rm o.a.toNat o.b.toNat o.c.toNat
    let h := { mark f s.focus.idx with flags := f.flags.or x.2, fpTaint := f.fpTaint || o.taint }
    (f.onNull s.focus.idx = false → h.sendAll ts (.val (BitVec.ofNat 64 x.1) o.taint) = g → exec ins s = .next (become s i f g)) ∧
    (f.onNull s.focus.idx = true → { mark f s.focus.idx with fpTaint := f.fpTaint || o.taint }.sendAll ts .null = g →
      exec ins s = .next (become s i f g))

/-- R122 to R125, R127, R128, R154, R213, R234, R334, R393, R425, R428, R445. What the plumbing and state-reading instructions send; nothing
else changes. A `READ` of a register on a poisoned line raises `MC_POISON`, `ARG` of an argument at or beyond the arity `BLK_ARG`, `DRAINQ`
of a core outside the rectangle `ADDR_PEER`, and `BRK` with BRKEN set and not just returned from it `SYS_BRK`, each as it fires. The
record of a `READ` that raises `MC_POISON` holds in INFO0 the place within the slice (8 times the register's number), because a slice has no
physical address: the model's choice (notes/assumptions 53), no clause of R420. -/
def Obligations.StateReadingResults : Prop :=
  (∀ (s : State) (i : Inst) (f g : Frame) (ins : Instr) (ts : Targets) (r : Word × Bool),
    readResult s i (operands s f) ins = some (ts, r) → Fires s i f → f.onNull s.focus.idx = false →
    (mark f s.focus.idx).sendAll ts (.val r.1 r.2) = g →
    exec ins s = .next (become s i f g)) ∧
  (∀ (s : State) (i : Inst) (f : Frame) (ins : Instr) (e : AFault), Fires s i f → f.onNull s.focus.idx = false →
    readFault s i (operands s f) ins = some e → exec ins s = .next (faults s i f s.focus.idx e))

namespace Sys2Proof.Claims

/-- The targets of an instruction of class T, L or W that has data slots. -/
def nullTargets (s : State) (i : Inst) : Instr → Option Targets
  | .null t1 t0 => some [t1, t0]
  | .ldS8 _ t0 | .ldN8 _ t0 | .ldS16 _ t0 | .ldN16 _ t0 | .ldS32 _ t0 | .ldN32 _ t0 | .ldD64 _ t0 | .ldaS8 _ t0 | .ldaN8 _ t0
  | .ldaS16 _ t0 | .ldaN16 _ t0 | .ldaS32 _ t0 | .ldaN32 _ t0 | .ldaD64 _ t0 | .ldntS8 _ t0 | .ldntN8 _ t0 | .ldntS16 _ t0
  | .ldntN16 _ t0 | .ldntS32 _ t0 | .ldntN32 _ t0 | .ldntD64 _ t0 | .waittl _ _ t0 | .expect t0 | .mark t0 | .wpwait _ _ _ t0
  | .chkwait _ _ t0 => some [t0]
  | .srd t1 t0 | .perfr t1 t0 | .brk t1 t0 | .drainq _ t1 t0 | .read _ t1 t0 => some [t1, t0]
  | ins => ((integerResult ins).map Prod.fst).or (((patternResult ins).map Prod.fst).or ((readResult s i {} ins).map Prod.fst))

end Sys2Proof.Claims

/-- R107. An instruction of class T, L or W that fires on a null data token, and `NULL` itself, sends a null to every target and does
nothing else: nothing is computed, accessed or waited for, and the instance's aging goes on as before unless `NULL` took a slot. -/
def Obligations.NullOperandSendsNull : Prop :=
  ∀ (s : State) (i : Inst) (f g : Frame) (ins : Instr) (ts : Targets),
    nullTargets s i ins = some ts → Fires s i f → (f.onNull s.focus.idx = true ∨ ∃ t1 t0, ins = .null t1 t0) →
    (mark f s.focus.idx).sendAll ts .null = g →
    exec ins s = .next (become s i f g)

/-- R105, R106, R108, R113. Of two tokens for one slot the one that arrives first fills it, and the other will reach a filled slot, unless the
receiver's predicate has failed by then; a token that comes after that is discarded. Sending a token changes no other slot, word or record.
A token that reaches a filled slot, by the cycle in which the block is done and before any instruction can fire (of one cycle the lowest
index comes first), faults the block with `BLK_SLOT_TWICE` at its receiver, of one cycle the lowest, and no instruction fires. That the record names the receiver is the model's choice (notes/assumptions
99). -/
def Obligations.SentTokensFillTheirSlots : Prop :=
  (∀ (s : State) (i : Inst) (f : Frame) (t n : Nat) (ins : Instr) (ts : Targets) (r : Operands → Word),
     integerResult ins = some (ts, r) → s.chip.inst? s.focus.iid = some i → i.frame = some f → i.state = .running →
     (t, n) ∈ f.clash → (∀ x ∈ f.clash, t < x.1 ∨ t = x.1 ∧ n ≤ x.2) → (f.isDone = true → t ≤ f.last) →
     (∀ k < f.words.length, i.canFire f k = true → t < f.fireTime k ∨ t = f.fireTime k ∧ n ≤ k) →
     exec ins s = .next { s with chip := s.chip.takeFault i.iid n { cause := 0x11 } }) ∧
  (∀ (f : Frame) (k : BitVec 6) (sl : Sys2Proof.Slot) (t : Tok),
     k.toNat < f.cells.length →
     let c := f.cell k.toNat
     let g := f.send ⟨sl, k⟩ t
     let d := g.cell k.toNat
     (predFailed (f.word k.toNat) c = true → c.cp ≤ f.arrival → g = f) ∧
     ((predFailed (f.word k.toNat) c = true → f.arrival < c.cp) →
       ((c.at sl = none ∨ f.arrival < c.when sl) → d.at sl = some t ∧ d.when sl = f.arrival) ∧
       (c.at sl ≠ none → c.when sl ≤ f.arrival → d = c) ∧
       (∀ x, x ∈ g.clash ↔ (x ∈ f.clash ∨ c.at sl ≠ none ∧ x = (max f.arrival (c.when sl), k.toNat)) ∧
         ¬(x.2 = k.toNat ∧ predFailed (f.word k.toNat) d = true ∧ d.cp ≤ x.1)) ∧
       (∀ sl', sl' ≠ sl → d.at sl' = c.at sl' ∧ d.when sl' = c.when sl') ∧ d.fired = c.fired ∧
       (∀ j, j ≠ k.toNat → g.cell j = f.cell j) ∧ { g with cells := f.cells, clash := f.clash } = f))

/-- R101, R104, R105, R112. When an instruction may fire: once, not if it is a `NOP`, with every data slot filled, with its predicate (if
its PM asks for one) arrived, not null and of the value that PM names; and a `READ` not while its register is pending. -/
def Obligations.InstructionsFireWhenReady : Prop :=
  ∀ (i : Inst) (f : Frame) (k : Nat),
    i.canFire f k = true ↔
      k < f.words.length ∧ (f.cell k).fired = false ∧ opOf (f.word k) ≠ 0 ∧
      (pmOf (f.word k) = 0 ∨ ∃ v t, (f.cell k).p = some (.val v t) ∧ (if pmOf (f.word k) = 1 then v.getLsbD 0 = true else v.getLsbD 0 = false)) ∧
      (0 < slotCount (f.word k) → (f.cell k).a ≠ none) ∧ (1 < slotCount (f.word k) → (f.cell k).b ≠ none) ∧
      (2 < slotCount (f.word k) → (f.cell k).c ≠ none) ∧
      (opOf (f.word k) = 1 → (i.regs.get ⟨bits (f.word k) 18 5, by have : bits (f.word k) 18 5 < 2 ^ 5 := Nat.mod_lt _ (by decide); exact this⟩).pend = false)

/-- R108, R109, R122, R123, R126, R195. Of the instructions that send nothing: `NOP` changes nothing at all; `WRITE` records its token,
null or not, as the block's write; `NULLST` resolves its store ID, where that was not resolved before; `PREF` never faults and moves
no register, byte of memory (A bits of page tables apart), partition or slot. -/
def Obligations.InstructionsThatSendNothing : Prop :=
  (∀ s, exec .nop s = .next s) ∧
  (∀ (s : State) (i : Inst) (f : Frame) (g : BitVec 5) (t : Tok), Fires s i f → (f.cell s.focus.idx).a = some t →
    exec (.write g) s = .next (become s i f { mark f s.focus.idx with writes := f.writes ++ [(g.toNat, t)] })) ∧
  (∀ (s : State) (i : Inst) (f : Frame), Fires s i f → lsidOf (f.word s.focus.idx) ∉ f.resolved →
    exec .nullst s = .next (become s i f { mark f s.focus.idx with resolved := f.resolved ++ [lsidOf (f.word s.focus.idx)] })) ∧
  (∀ (s : State) (i : Inst) (f : Frame) (off : BitVec 7), Fires s i f → s.chip.mem.wf = true →
    ∃ t, exec (.pref off) s = .next t ∧ t.chip.insts = (become s i f (mark f s.focus.idx)).chip.insts ∧
      t.chip.slots = s.chip.slots ∧ t.chip.parts = s.chip.parts ∧ ∀ x, t.chip.mem.get x &&& 0x9F = s.chip.mem.get x &&& 0x9F)


/-! ## Loads, waits, commit-class and branch-class firing -/

namespace Sys2Proof.Claims

/-- Effective address of format M: base plus the signed offset times the size, modulo 2^64 (R191). -/
def eaOff (size : Nat) (off : BitVec 7) (a : Word) : Nat := (a + off.signExtend 64 * BitVec.ofNat 64 size).toNat

/-- A load's target, effective address and form (R190 to R192, R194, R200): plain loads take an offset and may fill the load cache,
non-temporal ones do not fill it, acquiring loads take the address alone and a scope. -/
def loadForm : Instr → Option (Option Target × (Word → Nat) × LoadForm)
  | .ldS8 off t0 => some (t0, eaOff 1 off, { size := 1, signed := true })
  | .ldN8 off t0 => some (t0, eaOff 1 off, { size := 1, signed := false })
  | .ldS16 off t0 => some (t0, eaOff 2 off, { size := 2, signed := true })
  | .ldN16 off t0 => some (t0, eaOff 2 off, { size := 2, signed := false })
  | .ldS32 off t0 => some (t0, eaOff 4 off, { size := 4, signed := true })
  | .ldN32 off t0 => some (t0, eaOff 4 off, { size := 4, signed := false })
  | .ldD64 off t0 => some (t0, eaOff 8 off, { size := 8, signed := false })
  | .ldaS8 sc t0 => some (t0, BitVec.toNat, { size := 1, signed := true, acquire := some sc.code })
  | .ldaN8 sc t0 => some (t0, BitVec.toNat, { size := 1, signed := false, acquire := some sc.code })
  | .ldaS16 sc t0 => some (t0, BitVec.toNat, { size := 2, signed := true, acquire := some sc.code })
  | .ldaN16 sc t0 => some (t0, BitVec.toNat, { size := 2, signed := false, acquire := some sc.code })
  | .ldaS32 sc t0 => some (t0, BitVec.toNat, { size := 4, signed := true, acquire := some sc.code })
  | .ldaN32 sc t0 => some (t0, BitVec.toNat, { size := 4, signed := false, acquire := some sc.code })
  | .ldaD64 sc t0 => some (t0, BitVec.toNat, { size := 8, signed := false, acquire := some sc.code })
  | .ldntS8 off t0 => some (t0, eaOff 1 off, { size := 1, signed := true, alloc := false, nt := true })
  | .ldntN8 off t0 => some (t0, eaOff 1 off, { size := 1, signed := false, alloc := false, nt := true })
  | .ldntS16 off t0 => some (t0, eaOff 2 off, { size := 2, signed := true, alloc := false, nt := true })
  | .ldntN16 off t0 => some (t0, eaOff 2 off, { size := 2, signed := false, alloc := false, nt := true })
  | .ldntS32 off t0 => some (t0, eaOff 4 off, { size := 4, signed := true, alloc := false, nt := true })
  | .ldntN32 off t0 => some (t0, eaOff 4 off, { size := 4, signed := false, alloc := false, nt := true })
  | .ldntD64 off t0 => some (t0, eaOff 8 off, { size := 8, signed := false, alloc := false, nt := true })
  | _ => none

/-- The load at the focus of a running block (R111): it has fired and has not been performed. -/
structure Loads (s : State) (i : Inst) (f : Frame) (l : Load) : Prop where
  here  : s.chip.inst? s.focus.iid = some i
  block : i.frame = some f
  runs  : i.state = .running
  held  : f.loads.find? (fun x => x.idx == s.focus.idx) = some l

/-- The chip with the block's list of outstanding loads one shorter. -/
def unload (s : State) (i : Inst) (f : Frame) (l : Load) : Chip :=
  s.chip.setFrame i.iid { f with loads := f.loads.filter fun x => x.idx != l.idx }

/-- The value of `size` bytes as a load delivers it: sign- or zero-extended to 64 bits (R192). -/
def extended (m : LoadForm) (v : Nat) : Word :=
  if m.signed then (BitVec.ofNat (8 * m.size) v).signExtend 64 else (BitVec.ofNat (8 * m.size) v).setWidth 64

/-- A store to a place: its bytes cover location `x`. -/
def coversByte (x : Nat) (st : StoreOp × Nat) : Bool := st.2 ≤ x && x < st.2 + st.1.size

end Sys2Proof.Claims

/-- R111, R190, R191. A load that fires computes its effective address and waits, with its store ID; nothing is read yet. -/
def Obligations.LoadsFireAndWait : Prop :=
  ∀ (s : State) (i : Inst) (f : Frame) (ins : Instr) (t0 : Option Target) (ea : Word → Nat) (m : LoadForm),
    loadForm ins = some (t0, ea, m) → Fires s i f → f.onNull s.focus.idx = false →
    exec ins s = .next (become s i f { mark f s.focus.idx with
      loads := f.loads ++ [{ idx := s.focus.idx, lsid := (lsidOf (f.word s.focus.idx)), ea := ea (operands s f).a, taint := (operands s f).taint }] })

/-- R111, R186. A fired load is performed once every store ID below its own (of the block's NST) has been resolved, in any order of the two
events, and no fired load of a lower store ID is still to read a byte of it; until then `LOAD_PERFORM` changes nothing. That loads of one
place keep the order of their store IDs in this way is the model's reading (notes/assumptions 97). -/
def Obligations.LoadsWaitForLowerStores : Prop :=
  ∀ (s : State) (i : Inst) (f : Frame) (l : Load), Loads s i f l →
    ((∀ k, k < l.lsid → k < f.hdr / 2 ^ 6 % 2 ^ 5 → k ∈ f.resolved) → (∀ m ∈ f.loads, m.lsid < l.lsid → s.chip.loadsMeet i f l m = false) →
      exec .loadPerform s = .next { s with turn := some (.word { s.focus with phase := .perform }) }) ∧
    ((∃ k, k < l.lsid ∧ k < f.hdr / 2 ^ 6 % 2 ^ 5 ∧ k ∉ f.resolved) → exec .loadPerform s = .next s) ∧
    ((∃ m ∈ f.loads, m.lsid < l.lsid ∧ s.chip.loadsMeet i f l m = true) → exec .loadPerform s = .next s)

/-- R192, R196, R200, R218. The performance of a load: its address is checked as an access of its size for reading; the bytes found there, with
those of the block's own lower stores laid over them (R111), are extended to 64 bits and sent, with the taint of the lines read, of the
stores taken from and of the address; the frame keeps what was read. An access that breaks a rule faults the block instead, at the load.
Where a load of a higher store ID has been performed and read other bytes at the place (R186), the block runs again from its start: the
model's way of keeping the order (notes/assumptions 97). -/
def Obligations.LoadsDeliver : Prop :=
  ∀ (s : State) (i : Inst) (f : Frame) (l : Load) (ins : Instr) (t0 : Option Target) (ea : Word → Nat) (m : LoadForm),
    loadForm ins = some (t0, ea, m) → Loads s i f l → s.focus.phase = .perform →
    (∀ c pl v t d, (unload s i f l).access i.actor .read false l.ea m.size = (.ok pl, c) → c.loadBytes i.core i.iid pl m = (v, t, d) →
      (∀ w u g, f.outrun l.lsid pl.loc (leBytes m.size v) = false → forward pl.loc m.size v t (c.storesBelow i f l.lsid) = (w, u) →
        Frame.sendAll { f with
            loads := f.loads.filter fun x => x.idx != l.idx
            arrival := f.now
            seen := f.seen ++ [(l.lsid, pl.loc, leBytes m.size v)] } [t0] (.val (extended m w) (u || l.taint)) = g →
        exec ins s = .next { s with chip := (d.markFirst pl m.nt).setFrame i.iid g }) ∧
      (f.outrun l.lsid pl.loc (leBytes m.size v) = true → exec ins s = .next { s with chip := d.discardBlock i.iid })) ∧
    (∀ c e, (unload s i f l).access i.actor .read false l.ea m.size = (.error e, c) →
      exec ins s = .next { s with chip := c.takeFault i.iid l.idx e })

/-- R111. Forwarding, byte by byte: byte `k` of what a load delivers is that of the last store in ascending store ID that covers it, and
the byte read from memory where none does; the taint is that of the bytes read or of a store that meets them. -/
def Obligations.ForwardingTakesTheHighestStore : Prop :=
  ∀ (loc n v : Nat) (t : Bool) (l : List (StoreOp × Nat)) (k : Nat), k < n →
    (∀ (front back : List (StoreOp × Nat)) (st : StoreOp × Nat), l = front ++ st :: back → coversByte (loc + k) st = true →
      (∀ x ∈ back, coversByte (loc + k) x = false) →
      (forward loc n v t l).1 / 256 ^ k % 256 = st.1.data / 256 ^ (loc + k - st.2) % 256) ∧
    ((∀ x ∈ l, coversByte (loc + k) x = false) → (forward loc n v t l).1 / 256 ^ k % 256 = v / 256 ^ k % 256) ∧
    ((∀ x ∈ l, 0 < x.1.size) →
      ((forward loc n v t l).2 = true ↔ t = true ∨ ∃ x ∈ l, x.1.taint = true ∧ ∃ j, j < n ∧ coversByte (loc + j) x = true))

namespace Sys2Proof.Claims

/-- The four forms of `ERET`. -/
def isEret : Instr → Bool
  | .eretRes | .eretRv | .eretGo | .eretKill => true
  | _ => false

/-- Whether an instance may write a register: FPC and PCLR always, the others that `SWR` names as a supervisor where R430 says so. -/
def mayWrite (sup : Bool) (reg : BitVec 12) : Bool :=
  reg == 0x000 || reg == 0x090 ||
    (sup && (reg == 0x010 || reg == 0x011 || (0x020 ≤ reg.toNat && reg.toNat ≤ 0x02F) || (0x030 ≤ reg.toNat && reg.toNat ≤ 0x034)
      || (0x040 ≤ reg.toNat && reg.toNat ≤ 0x044)))

/-- The commit-class instructions that fire without a check of their own (R116): loads and stores of R190 that store, atomics, `FENCE`,
`TLSIG`, token, tag and loop instructions, engine and configuration commands with their resume and abandon forms, `LAUNCH`, `CRANGE`,
`PRIO`, `TRAP`, `SWR` of FPC and of PCLR, `CINV`. -/
def commitClass : Instr → Bool
  | .stN8 _ | .stN16 _ | .stN32 _ | .stD64 _ | .strN8 _ | .strN16 _ | .strN32 _ | .strD64 _ | .stntN8 _ | .stntN16 _ | .stntN32 _
  | .stntD64 _ | .aadd .. | .amin .. | .amax .. | .aminn .. | .amaxn .. | .aand .. | .aor .. | .axor .. | .axchg .. | .acas ..
  | .aincw .. | .afadd .. | .aaddSc .. | .aminSc .. | .amaxSc .. | .aminnSc .. | .amaxnSc .. | .aandSc .. | .aorSc .. | .axorSc ..
  | .axchgSc .. | .acasSc .. | .aincwSc .. | .afaddSc .. | .fence _ | .tlsig .. | .spawn .. | .send _ | .sendm _ | .tagnew _
  | .launch .. | .cfgld .. | .cfgsw .. | .eos _ | .prio .. | .cpy .. | .cpyRes .. | .cpyAbn .. | .cpypl .. | .cpyplRes .. | .cpyplAbn ..
  | .cpyun .. | .cpyunRes .. | .cpyunAbn .. | .gath _ | .gathRes _ | .gathAbn _ | .scat _ | .scatRes _ | .scatAbn _ | .ttload ..
  | .tfetch .. | .tevict .. | .mma .. | .mmaRes .. | .mmaAbn .. | .mmal .. | .accz .. | .accld .. | .accst .. | .accstRes .. | .accstAbn ..
  | .qst .. | .lvlld .. | .ainit .. | .agate .. | .agateRes .. | .agateAbn .. | .aswap .. | .ameas .. | .afree .. | .coll ..
  | .collRes .. | .collAbn .. | .cred .. | .trap _ | .tagfree | .squash | .crange
  | .swrFpc | .pclrClear | .cinvBlk | .cinvPg | .cinvAll => true
  | _ => false

/-- Whether a commit-class instruction may fire for an instance, or the fault of R417 that it takes instead: `PSWAP` also needs the MGR
right of the partition (R416, R441). -/
def privFault (s : State) (i : Inst) : Instr → Option (Option AFault)
  | .swr reg | .quotaWrite reg =>
    some (if mayWrite i.supervisor reg then none else some { cause := 0x03, info0 := reg.toNat })
  | .tlbiVa | .tlbiAsid | .tlbiAll | .tlbiVag => some (if i.supervisor then none else some { cause := 0x03, info0 := 0x1C4 })
  | .keyldLd | .keyldClr => some (if i.supervisor then none else some { cause := 0x03, info0 := 0x1C8 })
  | .pswapOut .. | .pswapIn .. | .pswapXchg .. =>
    some (if i.supervisor && (s.chip.part i.pid).mgr then none else some { cause := 0x03, info0 := 0x1C7 })
  | ins => if commitClass ins then some none else none

end Sys2Proof.Claims

namespace Sys2Proof.Claims

/-- A class-B instruction as it fires (R385, R386, R427): the branch it records, or the fault of a target that is no multiple of 8.
Offsets count 8 bytes from the block's address. -/
def branchOf (s : State) (i : Inst) (o : Operands) : Instr → Option (Except AFault Branch)
  | .br off | .call off | .yield off =>
    some (.ok { idx := s.focus.idx, target := BitVec.ofNat 64 i.block + off.signExtend 64 * 8, taint := o.taint })
  | .bri | .calli | .ret =>
    some (if o.a.toNat % 8 = 0 then .ok { idx := s.focus.idx, target := o.a, op := .val o.a o.ta, taint := o.taint }
      else .error { cause := 0x23, addr := o.a.toNat })
  | .exit _ => some (.ok { idx := s.focus.idx, taint := o.taint })
  | .eretRes | .eretRv | .eretKill => some (.ok (ret o))
  | .eretGo => some (if o.b.toNat % 8 = 0 then .ok (ret o) else .error { cause := 0x23, addr := o.b.toNat })
  | _ => none
where
  /-- `ERET` keeps its handle, the low 32 bits of slot a, and slot b. -/
  ret (o : Operands) : Branch :=
    { idx := s.focus.idx, op := .val ((o.a.extractLsb' 0 32).setWidth 64) o.ta, op2 := .val o.b o.tb, taint := o.taint }

end Sys2Proof.Claims

/-- R107, R109, R110, R113, R116, R385, R386, R417, R427. What fires and waits for the commit. A commit-class instruction resolves its store ID and keeps its
operands, a null operand included; a store ID resolved before raises `BLK_LSID_TWICE`, and an instruction or register above the instance's
level `SYS_PRIV` with its opcode or register number: that privilege comes before all else is log entry 21. A branch-class instruction records
where the block will go; in this order, the model's own (notes/assumptions 107), it faults instead: `ERET` below supervisor level with `SYS_PRIV`, on a null operand with `BLK_NULL_BRANCH`, where the block has branched already with
`BLK_BRANCH_TWICE`, at a target that is no multiple of 8 with `ADDR_ALIGN`. A fault discards the block. -/
def Obligations.CommitAndBranchClassesFire : Prop :=
  (∀ (s : State) (i : Inst) (f : Frame) (ins : Instr) (p : Option AFault), privFault s i ins = some p → Fires s i f →
     match p with
     | some e => exec ins s = .next (faults s i f s.focus.idx e)
     | none =>
       let n := lsidOf (f.word s.focus.idx)
       (n ∉ f.resolved → exec ins s = .next (become s i f { mark f s.focus.idx with
         resolved := f.resolved ++ [n]
         acts := f.acts ++ [{ lsid := n, idx := s.focus.idx, ops := f.data s.focus.idx, ptaint := f.predTaint s.focus.idx,
                              null := f.onNull s.focus.idx }] })) ∧
       (n ∈ f.resolved → exec ins s = .next (faults s i f s.focus.idx { cause := 0x12 }))) ∧
  (∀ (s : State) (i : Inst) (f : Frame) (ins : Instr) (r : Except AFault Branch), branchOf s i (operands s f) ins = some r → Fires s i f →
     exec ins s = .next (
       if isEret ins = true ∧ i.supervisor = false then faults s i f s.focus.idx { cause := 0x03, info0 := 0x1C1 }
       else if f.onNull s.focus.idx = true then faults s i f s.focus.idx { cause := 0x14 }
       else if f.branch ≠ none then faults s i f s.focus.idx { cause := 0x13 }
       else match r with
         | .ok b => become s i f { mark f s.focus.idx with branch := some b }
         | .error e => faults s i f s.focus.idx e))
/-! ## Actions at commit -/

namespace Sys2Proof.Claims

/-- The commit-class instruction at the focus is performed (R110): its block is committing, and its action is among those still to come. -/
structure Acts (s : State) (i : Inst) (f : Frame) (a : Act) : Prop where
  here  : s.chip.inst? s.focus.iid = some i
  block : i.frame = some f
  state : i.state = .committing
  found : f.acts.find? (fun x => x.idx == s.focus.idx) = some a
  phase : s.focus.phase = .commit

/-- The block with an action taken from those still to come. -/
def rest (f : Frame) (a : Act) : Frame := { f with acts := f.acts.filter fun x => x.idx != a.idx }

/-- The chip as an action finds it. -/
def before (s : State) (i : Inst) (f : Frame) (a : Act) : Chip := s.chip.setFrame i.iid (rest f a)

/-- The turn after an action (R110): the next action of the block, and after the last one its branch. -/
def turnAfter (s : State) (f : Frame) (a : Act) : Option Sel :=
  match (rest f a).acts.head?, f.branch with
  | some b, _ => some (.word { s.focus with idx := b.idx, phase := .commit })
  | none, some b => some (.word { s.focus with idx := b.idx, phase := .commit })
  | none, none => none

/-- The state after an action that has made the chip `c`: the next action, or the branch, has its turn. -/
def after (s : State) (f : Frame) (a : Act) (c : Chip) : State := { s with chip := c, turn := turnAfter s f a }

/-- The operands of an action. -/
def actOperands (a : Act) : Operands := operandsOf a.ops a.ptaint

/-- Every commit-class instruction that acts by itself when its turn comes. -/
def acting (ins : Instr) : Bool :=
  commitClass ins || match ins with
    | .swr _ | .quotaWrite _ | .tlbiVa | .tlbiAsid | .tlbiAll | .tlbiVag | .keyldLd | .keyldClr | .pswapOut .. | .pswapIn ..
    | .pswapXchg .. => true
    | _ => false

/-- Size, effective address and form of a store (R190, R191, R193, R194, R201). -/
def storeForm : Instr → Option (Nat × (Word → Nat) × Bool)
  | .stN8 off => some (1, eaOff 1 off, false)
  | .stN16 off => some (2, eaOff 2 off, false)
  | .stN32 off => some (4, eaOff 4 off, false)
  | .stD64 off => some (8, eaOff 8 off, false)
  | .strN8 _ => some (1, BitVec.toNat, false)
  | .strN16 _ => some (2, BitVec.toNat, false)
  | .strN32 _ => some (4, BitVec.toNat, false)
  | .strD64 _ => some (8, BitVec.toNat, false)
  | .stntN8 off => some (1, eaOff 1 off, true)
  | .stntN16 off => some (2, eaOff 2 off, true)
  | .stntN32 off => some (4, eaOff 4 off, true)
  | .stntD64 off => some (8, eaOff 8 off, true)
  | _ => none

/-- What the rest of the machine keeps across a store or an atomic: partitions, slots, towers, tokens under way or
waiting to come in, keys, and all that is not the chip. -/
def restKept (s t : State) : Prop :=
  t.chip.parts = s.chip.parts ∧ t.chip.slots = s.chip.slots ∧ t.chip.towers = s.chip.towers ∧ t.chip.flights = s.chip.flights ∧
  t.chip.waiting = s.chip.waiting ∧ t.chip.scq = s.chip.scq ∧ t.chip.creds = s.chip.creds ∧ t.chip.keys = s.chip.keys ∧ t.chip.contribs = s.chip.contribs ∧
  t.sys = s.sys ∧ t.inputs = s.inputs ∧ t.focus = s.focus

end Sys2Proof.Claims

/-- R107, R110. An action whose data token was null performs nothing: no memory, register, queue or value changes, and the next action has
its turn. -/
def Obligations.NullActionsPerformNothing : Prop :=
  ∀ (s : State) (i : Inst) (f : Frame) (a : Act) (ins : Instr), acting ins = true → Acts s i f a → a.null = true →
    exec ins s = .next (after s f a (before s i f a))

/-- R20, R191, R193, R194, R201, R218. A store at its turn writes the low bytes of slot b, the lowest first, at the place its effective
address reaches, or, where the address leads nowhere any more, at the place that the checks before the commit found (notes/assumptions 96);
every other byte of memory keeps the value it has once the address is translated (that changes A and D bits alone:
`TranslationTouchesOnlyAccessBits`; bytes of a line last written under another key are free, R452). The lines written become tainted where
an operand is tainted, and no line loses its taint. No register of any instance and nothing else of `restKept` changes. -/
def Obligations.StoresWriteTheirBytes : Prop :=
  ∀ (s : State) (i : Inst) (f : Frame) (a : Act) (ins : Instr) (size : Nat) (ea : Word → Nat) (nt : Bool) (pl : Place) (c : Chip),
    storeForm ins = some (size, ea, nt) → Acts s i f a → a.null = false → s.chip.mem.wf = true →
    ((before s i f a).access i.actor .write true (ea (actOperands a).a) size = (.ok pl, c) ∨
      (∃ e d, (before s i f a).access i.actor .write true (ea (actOperands a).a) size = (.error e, d)) ∧ a.place = some pl ∧
        c = before s i f a) →
    ∃ t, exec ins s = .next t ∧ t.turn = turnAfter s f a ∧
      (∀ k, k < size → t.chip.mem.get (pl.loc + k) = (actOperands a).b.extractLsb' (8 * k) 8) ∧
      (∀ x, x < pl.loc ∨ pl.loc + size ≤ x →
        (isKeyed pl.loc = true → x / 64 ∈ linesOf pl.loc size → lookupNat c.mem.keyed (x / 64) = pl.key) →
        t.chip.mem.get x = c.mem.get x) ∧
      (∀ l, t.chip.mem.taint.contains l = (c.mem.taint.contains l || ((actOperands a).taint && (linesOf pl.loc size).contains l))) ∧
      (∀ j, (t.chip.inst j).regs = (s.chip.inst j).regs ∧ (t.chip.inst j).fpc = (s.chip.inst j).fpc) ∧ t.chip.vals = s.chip.vals ∧
      restKept s t

namespace Sys2Proof.Claims

/-- The byte that a window address leads to, or the cause of its refusal (R29 to R32, R36 to R39, R47), for a core, an instance and the
registers of a partition: QSPAD, QCLU and QTWR give the parts. -/
def windowRule (c : Chip) (x : Actor) (k : AKind) (va : Nat) : Except Nat Nat :=
  let p := c.part x.pid
  let size := fun r w => p.reg r / 2 ^ 32 % 2 ^ w
  let base := fun r w => p.reg r % 2 ^ w
  let pad : Nat → Nat → Except Nat Nat := fun core o =>
    if o < size 0x040 6 * 65536 then .ok (locCore core (base 0x040 5 * 65536 + o)) else .error 0x21
  let rect := c.rect x.pid x.core
  if va < 0xFFFF800000000000 then .error 0x20
  else if va < 0xFFFF800000001000 then
    let o := va - 0xFFFF800000000000
    match c.inst? x.iid with
    | none => .error 0x21
    | some i =>
      if i.slice * 256 ≤ o then .error 0x21
      else if o < 256 ∧ (k = .write ∨ k = .atomic) then .error 0x24
      else .ok (locSlice i.iid o)
  else if va < 0xFFFF810000000000 then .error 0x20
  else if va < 0xFFFF810000200000 then pad x.core (va - 0xFFFF810000000000)
  else if va < 0xFFFF820000000000 then .error 0x20
  else if va < 0xFFFF820080000000 then
    let o := va - 0xFFFF820000000000
    let dx := o / 2 ^ 21 % 32
    let dy := o / 2 ^ 26
    if rect.2.2.1 ≤ dx ∨ rect.2.2.2 ≤ dy then .error 0x22 else pad (coreAt (rect.1 + dx) (rect.2.1 + dy)) (o % 2 ^ 21)
  else if va < 0xFFFF830000000000 then .error 0x20
  else if va < 0xFFFF830001000000 then
    let a := va - 0xFFFF830000000000
    let m := a / 128 % 16
    if a < size 0x041 5 * 2 ^ 20 then
      .ok (locCore (coreAt (coreX x.core / 4 * 4 + m % 4) (coreY x.core / 4 * 4 + m / 4))
        (2 ^ 21 + base 0x041 4 * 65536 + (a / 2048 * 128 + a % 128)))
    else .error 0x21
  else if va < 0xFFFF840000000000 then .error 0x20
  else
    let t := (va - 0xFFFF840000000000) / 2 ^ 28
    let o := (va - 0xFFFF840000000000) % 2 ^ 28
    if 4 ≤ t ∨ 2 ^ 27 ≤ o then .error 0x20
    else if o < size 0x042 8 * 2 ^ 20 then .ok (locTower t (base 0x042 7 * 2 ^ 20 + o)) else .error 0x21

/-- Where the entry lies that an address selects in a table of a level (R50); `small` tells the 64 KiB granule. -/
def tableEntry (level table va : Nat) (small : Bool) : Nat :=
  table + 8 * (match level with
    | 3 => va / 2 ^ 39 % 8192
    | 2 => va / 2 ^ 30 % 512
    | 1 => va / 2 ^ 21 % 512
    | _ => if small then va / 2 ^ 16 % 32 else va / 2 ^ 12 % 512)

/-- DRAM of a package (R43): four towers of 96 GiB. -/
abbrev inDram (a : Nat) : Prop := a < 4 * 2 ^ 37 ∧ a % 2 ^ 37 < 0x1800000000

/-- An entry that the walker can read: plaintext and not poisoned. -/
def legible (m : Mem) (a : Nat) : Prop := lookupNat m.keyed (a / 64) = 0 ∧ m.poisoned a 8 = none

/-- A pointer entry with no reserved bit set, at a level above 0 (R51). -/
def pointerOk (level e : Nat) : Prop :=
  let small := level = 1 ∧ e / 2 ^ 6 % 2 = 1
  e % 16 = 1 ∧ e / 2 ^ 4 % 2 = 0 ∧ e / 2 ^ 7 % 2 = 0 ∧ e / 2 ^ 48 = 0 ∧ (level ≠ 1 → e / 2 ^ 6 % 2 = 0) ∧ (¬small → e / 2 ^ 8 % 16 = 0)

/-- A walk from the root of a partition's tables has come down to a table of a level (R50, R51). -/
inductive WalksTo (m : Mem) (root va : Nat) : Nat → Nat → Bool → Prop
  | root : WalksTo m root va 3 root false
  | down {level table : Nat} {small : Bool} (e : Nat) : WalksTo m root va (level + 1) table small → inDram table →
      legible m (tableEntry (level + 1) table va small) → m.read (tableEntry (level + 1) table va small) 8 = e → pointerOk (level + 1) e →
      inDram (e / 2 ^ 12 % 2 ^ 36 * 2 ^ 12 + e / 2 ^ 8 % 16 * 256) →
      WalksTo m root va level (e / 2 ^ 12 % 2 ^ 36 * 2 ^ 12 + e / 2 ^ 8 % 16 * 256) (decide (level = 0 ∧ e / 2 ^ 6 % 2 = 1))

/-- The page that a leaf of a level maps. -/
def leafSize (level : Nat) (small : Bool) : Nat :=
  match level with
  | 2 => 2 ^ 30
  | 1 => 2 ^ 21
  | _ => if small then 2 ^ 16 else 2 ^ 12

/-- A leaf that is well formed (R52, R53). -/
def leafOk (level : Nat) (small : Bool) (e : Nat) : Prop :=
  level ≠ 3 ∧ e / 2 ^ 9 % 8 = 0 ∧ e / 2 ^ 59 = 0 ∧ ¬(e / 2 ^ 2 % 2 = 1 ∧ e / 2 % 2 = 0) ∧ e / 2 ^ 12 % 2 ^ 36 * 2 ^ 12 % leafSize level small = 0

/-- Where the byte at an offset of a leaf's page lies, or the refusal (R43 to R45, R52 to R54): the permission first, then the physical
address, then the key. That a window address which its package has no DRAM for is a hole is the model's choice (notes/assumptions 102). -/
def leafRule (c : Chip) (pid : Nat) (k : AKind) (va level e offset : Nat) : Except AFault Place :=
  let refuse : Nat → Except AFault Place := fun cause => .error { cause, sub := level, addr := va, info0 := e }
  let rd := e / 2 % 2 == 1
  let wr := e / 2 ^ 2 % 2 == 1
  let pa := e / 2 ^ 12 % 2 ^ 36 * 2 ^ 12 + offset
  let id := e / 2 ^ 48 % 2 ^ 11
  let keyed : Place → Except AFault Place := fun pl =>
    if id = 0 then .ok pl
    else if (c.part pid).reg (0x060 + id / 64) / 2 ^ (id % 64) % 2 = 0 then refuse 0x2D
    else match c.keys.find? fun x => x.id == id with
      | none => refuse 0x2D
      | some x => .ok { pl with key := x.content + 1, kid := id }
  let permitted := match k with
    | .read => rd
    | .write => wr
    | .atomic => rd && wr
    | .fetch => e / 2 ^ 3 % 2 == 1
  let far := (c.part pid).reg (0x020 + pa / 2 ^ 43 % 16)
  let host := far / 2 ^ 62 % 2 == 1
  let base := far / 2 ^ 36 % 2 ^ 21
  let x := far / 2 ^ 9 % 32
  let y := far / 2 ^ 4 % 32
  let z := far % 16
  let target := base * 2 ^ 43 + pa % 2 ^ 43
  if permitted = false then refuse 0x29
  else if pa / 2 ^ 47 % 2 = 0 then
    if inDram pa then keyed { loc := pa, home := .dram, cacheable := decide (e / 2 ^ 8 % 2 = 0) } else refuse 0x2B
  else if far / 2 ^ 63 % 2 = 0 ∨ far / 2 ^ 57 % 32 ≠ 0 ∨ far / 2 ^ 14 % 2 ^ 22 ≠ 0 ∨ (host = true ∧ (x ≠ 0 ∨ y ≠ 0 ∨ z ≠ 0)) ∨
      (host = false ∧ (2 ^ 5 ≤ base ∨ (x = c.tx ∧ y = c.ty ∧ z = c.tz))) then refuse 0x2C
  else if host = true then keyed { loc := locHost target, home := .host }
  else if inDram target then keyed { loc := locRemote x y z target, home := .remote }
  else refuse 0x2B

/-- No cached translation serves an address of a partition, and none shortens its walk. -/
def uncached (c : Chip) (pid va : Nat) : Prop := ∀ u ∈ c.tlb, u.pid = pid → va < u.base ∨ u.base + u.size ≤ va

end Sys2Proof.Claims

/-- R29 to R32, R36 to R39, R43 to R54, R56, R57, R61, R216, R445. Where an access goes. A misaligned one is refused first. A window address leads where
`windowRule` says, or is refused with its cause. A paged one that nothing is cached for walks from PGROOT: a table outside DRAM, an invalid or
malformed entry refuses it, at that level; a leaf leads where `leafRule` says, and an access that gets there has set A in it, and D if it is to
write. A place that a range entry refuses is refused; one that none refuses and that is not poisoned is reached (which cached translation
serves, and a tier-managed page, are for other statements). Whatever the access is, and whether it is refused or not, it changes no byte of
memory but the A and D bits (bits 5 and 6) of page-table entries, and beside memory only the cached translations and the free values used;
through a window it changes nothing. -/
def Obligations.TranslationTouchesOnlyAccessBits : Prop :=
  ∀ (c : Chip) (x : Actor) (k : AKind) (setD : Bool) (va n : Nat), c.mem.wf = true →
    let r := (c.access x k setD va n).1
    let d := (c.access x k setD va n).2
    let root := (c.part x.pid).reg 0x010
    let refusing := fun pl : Place => ∃ e ∈ (c.part x.pid).ranges, e.refuses x k pl.loc n = true
    let clean := fun pl : Place => ∀ l ∈ linesOf pl.loc n, l ∉ c.mem.poison
    let goes := fun pl : Place => (refusing pl → ∃ f, r = .error f ∧ f.addr = va ∧ (f.cause = 0x34 ∨ f.cause = 0x51)) ∧
      (¬refusing pl → clean pl → r = .ok pl)
    (∀ y, d.mem.get y &&& 0x9F = c.mem.get y &&& 0x9F) ∧
    d = { c with mem := { c.mem with cells := d.mem.cells }, tlb := d.tlb, free := d.free } ∧ d.mem.wf = true ∧
    (2 ^ 52 ≤ va → d = c) ∧
    (va % n ≠ 0 → r = .error { cause := 0x23, addr := va }) ∧
    (va % n = 0 → 2 ^ 52 ≤ va → (∀ cause, windowRule c x k va = .error cause → r = .error { cause, addr := va }) ∧
      (∀ loc, windowRule c x k va = .ok loc → goes { loc })) ∧
    (va % n = 0 → va < 2 ^ 52 → uncached c x.pid va → root % 2 ^ 16 = 0 → ∀ level table small, WalksTo c.mem root va level table small →
      let a := tableEntry level table va small
      let e := c.mem.read a 8
      (¬inDram table → ∃ f, r = .error f ∧ f.cause = 0x2A ∧ f.sub = level ∧ f.addr = va) ∧
      (inDram table → legible c.mem a →
        (e % 2 = 0 → r = .error { cause := 0x28, sub := level, addr := va, info0 := e }) ∧
        (e % 2 = 1 → e / 2 % 8 = 0 → (level = 0 ∨ ¬pointerOk level e ∨ ¬inDram (e / 2 ^ 12 % 2 ^ 36 * 2 ^ 12 + e / 2 ^ 8 % 16 * 256)) →
          r = .error { cause := 0x2A, sub := level, addr := va, info0 := e }) ∧
        (e % 2 = 1 → e / 2 % 8 ≠ 0 →
          (¬leafOk level small e → r = .error { cause := 0x2A, sub := level, addr := va, info0 := e }) ∧
          (leafOk level small e →
            (∀ f, leafRule c x.pid k va level e (va % leafSize level small) = .error f → r = .error f) ∧
            (∀ pl, leafRule c x.pid k va level e (va % leafSize level small) = .ok pl → e / 2 ^ 7 % 2 = 0 → goes pl ∧
              (∀ q, r = .ok q → d.mem.read a 8 / 2 ^ 5 % 2 = 1 ∧ (setD = true → d.mem.read a 8 / 2 ^ 6 % 2 = 1)))))))

namespace Sys2Proof.Claims

/-- New value of an N-bit location (R198), none where nothing is written; whether PCIe carries the operation to host memory (R199); whether
the line written becomes tainted whatever the data (R218). -/
structure AtomicSpec where
  new    : (n : Nat) → BitVec n → BitVec n → BitVec n → Option (BitVec n)
  pcie   : Bool := false
  taints : Bool := false

/-- The atomics: their operation, scope, width and return register. -/
def atomicForm : Instr → Option (AtomicSpec × Scope × Bool × Option (BitVec 5))
  | .aadd sc w r => some ({ new := fun _ m b _ => some (m + b), pcie := true }, sc, w, r)
  | .amin sc w r => some ({ new := fun _ m b _ => some (if m.sle b then m else b) }, sc, w, r)
  | .amax sc w r => some ({ new := fun _ m b _ => some (if b.sle m then m else b) }, sc, w, r)
  | .aminn sc w r => some ({ new := fun _ m b _ => some (if m.ule b then m else b) }, sc, w, r)
  | .amaxn sc w r => some ({ new := fun _ m b _ => some (if b.ule m then m else b) }, sc, w, r)
  | .aand sc w r => some ({ new := fun _ m b _ => some (m &&& b) }, sc, w, r)
  | .aor sc w r => some ({ new := fun _ m b _ => some (m ||| b) }, sc, w, r)
  | .axor sc w r => some ({ new := fun _ m b _ => some (m ^^^ b) }, sc, w, r)
  | .axchg sc w r => some ({ new := fun _ _ b _ => some b, pcie := true, taints := true }, sc, w, r)
  | .acas sc w r => some ({ new := fun _ m b c => if m = b then some c else none, pcie := true, taints := true }, sc, w, r)
  | .aincw sc w r => some ({ new := fun _ m b _ => some (if b.ule m then 0 else m + 1) }, sc, w, r)
  | .afadd sc w r => some ({
      new := fun n m b _ => some (BitVec.ofNat n (fAdd (fmtOf (if n = 64 then .f64 else .f32)) .rne m.toNat b.toNat).1), taints := true },
      sc, w, r)
  | _ => none

end Sys2Proof.Claims

/-- R197, R198, R199, R203, R218. An atomic at its turn: unless relaxed it acquires at its scope; it reads its location past the load cache,
writes what R198 gives (`ACAS` only where the location held b), and its old value, tainted, sets out for its return register. Its one
translation, for reading and writing, sets D (R56; for an `ACAS` that does not match too: notes/assumptions 28). An address that leads
nowhere any more leaves the place that the checks found (notes/assumptions 96). -/
def Obligations.AtomicsReadModifyWrite : Prop :=
  ∀ (s : State) (i : Inst) (f : Frame) (a : Act) (ins : Instr) (op : AtomicSpec) (sc : Scope) (wide : Bool) (ret : Option (BitVec 5))
    (pl : Place) (c d : Chip) (old : Nat) (t : Bool),
    atomicForm ins = some (op, sc, wide, ret) → Acts s i f a → a.null = false →
    let o := actOperands a
    let size := if wide then 8 else 4
    ((before s i f a).access i.actor .atomic true o.a.toNat size = (.ok pl, c) ∧ (pl.home = .host → op.pcie = true) ∨
      (∃ e d', (before s i f a).access i.actor .atomic true o.a.toNat size = (.error e, d')) ∧ a.place = some pl ∧ c = before s i f a) →
    ((if sc = .inst then c else c.acquire i.core i.iid sc.code).dropLine i.core pl.loc).readPlace pl size = (old, t, d) →
    match op.new (8 * size) (BitVec.ofNat _ old) (o.b.setWidth _) (o.c.setWidth _) with
    | none => exec ins s = .next (after s f a (d.returnVal i.iid ret (BitVec.ofNat 64 old) true))
    | some v => exec ins s = .next (after s f a
        ((d.writePlace i.core pl size v.toNat (op.taints || o.taint)).returnVal i.iid ret (BitVec.ofNat 64 old) true))

namespace Sys2Proof.Claims

/-- The sequentially consistent atomics. -/
def isSc : Instr → Bool
  | .aaddSc .. | .aminSc .. | .amaxSc .. | .aminnSc .. | .amaxnSc .. | .aandSc .. | .aorSc .. | .axorSc .. | .axchgSc .. | .acasSc ..
  | .aincwSc .. | .afaddSc .. => true
  | _ => false

end Sys2Proof.Claims

/-- R40, R214, R215. A `.sc` atomic at its turn joins, as the last, the queue of the ordering point of its DRAM location (its tower and L2 slice), and
no later action of its block has its turn yet. The serialising token at an ordering point: with nothing queued there it goes on to the
next of the 64; otherwise the oldest of that point's queue is performed and leaves it, and its block's next action, or its branch, has its
turn; after sixteen the token goes on. An atomic whose address leads nowhere any more is performed at the place that its checks found
(notes/assumptions 96). -/
def Obligations.ScAtomicsWaitForTheToken : Prop :=
  (∀ (s : State) (i : Inst) (f : Frame) (a : Act) (ins : Instr) (pl : Place) (c : Chip),
     isSc ins = true → Acts s i f a → a.null = false →
     (before s i f a).access i.actor .atomic false (actOperands a).a.toNat (if bits (f.word a.idx) 9 4 = 1 then 8 else 4) = (.ok pl, c) →
     exec ins s = .next { s with chip := { c with scq := s.chip.scq ++ [{
       point := pl.loc / 2 ^ 37 % 4 * 16 + pl.loc / 128 % 16, iid := i.iid, idx := a.idx, word := f.word a.idx, ops := a.ops,
       taint := a.ptaint, loc := pl.loc, place := some pl }] } }) ∧
  (∀ (s : State),
     let p := scRing.getD (s.chip.scAt / 16 % 64) 0
     ((∀ q ∈ s.chip.scq, q.point ≠ p) →
       exec .scTokenVisit s = .next { s with chip := { s.chip with scAt := (s.chip.scAt / 16 + 1) * 16 % 1024 } }) ∧
     (∀ (front back : List ScOp) (q : ScOp), s.chip.scq = front ++ q :: back → q.point = p → (∀ x ∈ front, x.point ≠ p) →
       ∃ t, exec .scTokenVisit s = .next t ∧ t.chip.scAt = (s.chip.scAt + 1) % 1024 ∧
         t.chip.scq = s.chip.scq.filter (fun x => !(x.iid == q.iid && x.idx == q.idx)) ∧
         (let d := ({ s.chip with scAt := (s.chip.scAt + 1) % 1024 } : Chip).performAtomic (s.chip.inst q.iid)
             (atomicOps.getD ((opOf q.word - 0x12E) % 12) .add) true 4 (if bits q.word 9 4 = 1 then 8 else 4) (operandsOf q.ops q.taint)
             (if bitAt q.word 8 then some (BitVec.ofNat 5 q.word) else none) q.place;
           t.chip.mem = d.mem ∧ t.chip.vals = d.vals ∧ t.chip.insts = d.insts) ∧
         t.turn = (match (s.chip.inst q.iid).frame with
           | some f => nextTurn { core := (s.chip.inst q.iid).core, pid := (s.chip.inst q.iid).pid, iid := q.iid } f
           | none => none)))

namespace Sys2Proof.Claims

/-- A token as it sets out: plane, taint, format, slot, channel and tag of R118. -/
def outgoing (c : Chip) (i : Inst) (dst fmt slot chan : Nat) (tag : Nat) (v : Word) (taint : Bool) : Token :=
  { hdr := mkHdr (c.slot i.core i.pid).cfg.act taint fmt slot chan tag, payload := v, pid := i.pid, dst, src := i.core }

/-- The core's pool with a context taken (R375): the lowest of 1 to 4095 that is free. -/
def taking (c : Chip) (i : Inst) (k : Nat) : Chip := c.modSlot i.core i.pid fun sl => { sl with ctx := sl.ctx ++ [k] }
/-- The tag of a fresh context: ORIG is the core's linear index, ITER 0. -/
def freshTag (c : Chip) (i : Inst) (k : Nat) : Nat := c.lin i.pid i.core * 2 ^ 38 + k * 2 ^ 26

/-- What the tag and token instructions do at their turn (R375, R387 to R390). -/
def sendEffect (c : Chip) (i : Inst) (o : Operands) : Instr → Option Chip
  | .spawn n ret => match c.spawnDest i o.a.toNat with
    | none => none
    | some (dst, fmt, chan) => match (c.slot i.core i.pid).freeCtx with
      | none => some (c.returnVal i.iid ret (BitVec.allOnes 64) o.taint)
      | some k =>
        let t0 := outgoing (taking c i k) i dst fmt 0 chan (freshTag c i k) o.b o.taint
        let t1 := outgoing (taking c i k) i dst fmt 1 chan (freshTag c i k) o.c o.taint
        let ts := if n = 0 then [] else if n = 1 then [t0] else [t0, t1]
        some (((taking c i k).sendTokens i.core i.pid ts).returnVal i.iid ret (BitVec.ofNat 64 (freshTag c i k)) o.taint)
  | .tagnew ret => match (c.slot i.core i.pid).freeCtx with
    | none => some (c.returnVal i.iid ret (BitVec.allOnes 64) o.taint)
    | some k => some ((taking c i k).returnVal i.iid ret (BitVec.ofNat 64 (freshTag c i k)) o.taint)
  | .send r => match c.routeOf i r.toNat with
    | some (some dst, fmt, slot, chan) =>
      some ((c.sendTokens i.core i.pid [outgoing c i dst fmt slot chan (o.b.toNat % 2 ^ 48) o.a o.taint]).modSlot i.core i.pid
        fun sl => { sl with cfg := { sl.cfg with eos := setNat sl.cfg.eos r.toNat ((lookupNat sl.cfg.eos r.toNat + 1) % 2 ^ 64) } })
    | _ => none
  | .sendm r => match c.routeOf i r.toNat, c.subRect i o.c.toNat with
    | some (_, fmt, slot, chan), some cores =>
      some (c.sendTokens i.core i.pid (cores.map fun dst => outgoing c i dst fmt slot chan (o.b.toNat % 2 ^ 48) o.a o.taint))
    | _, _ => none
  | .eos r => match c.routeOf i r.toNat with
    | some (some dst, _, slot, chan) =>
      some ((c.sendTokens i.core i.pid [outgoing c i dst 6 slot chan (o.a.toNat % 2 ^ 48)
          (BitVec.ofNat 64 (lookupNat (c.slot i.core i.pid).cfg.eos r.toNat)) o.taint]).modSlot i.core i.pid
        fun sl => { sl with cfg := { sl.cfg with eos := setNat sl.cfg.eos r.toNat 0 } })
    | _ => none
  | .tagfree => match c.coreOfLin i.pid i.core (o.a.toNat / 2 ^ 38) with
    | none => none
    | some k =>
      let (ox, oy, w, h) := c.rect i.pid i.core
      let d := c.modSlot k i.pid fun sl => { sl with ctx := sl.ctx.filter fun x => x != o.a.toNat / 2 ^ 26 % 2 ^ 12 }
      some (if o.a.toNat / 2 ^ 26 % 2 ^ 12 ∉ (c.slot k i.pid).ctx then c
        else { d with slots := d.slots.map fun sl =>
          if sl.pid == i.pid && (rectCores ox oy w h).contains sl.core then
            { sl with bounds := sl.bounds.filter fun b => b.1 != o.a.toNat / 2 ^ 26 % 2 ^ 22 }
          else sl })
  | _ => none

end Sys2Proof.Claims

/-- R366, R375, R387 to R390. `SPAWN` takes the lowest free context of its core and sends one token a slot, or answers all ones with an
empty pool; `SEND` sends on its route and counts the token; `SENDM` sends to every core of the sub-rectangle; `EOS` sends the route's
count, which starts anew; `TAGNEW` takes a context and `TAGFREE` returns one that is in use, with its squash bound on the cores of the
launch. Tokens and tags of `SPAWN`, `EOS` and `TAGNEW` carry the OR of all operand taints, as R388 says of `SEND`: the model's reading
(notes/assumptions 89). -/
def Obligations.TagAndTokenInstructions : Prop :=
  ∀ (s : State) (i : Inst) (f : Frame) (a : Act) (ins : Instr) (c : Chip), Acts s i f a → a.null = false →
    sendEffect (before s i f a) i (actOperands a) ins = some c → exec ins s = .next (after s f a c)

/-- R118, R401. What leaves an instruction: tokens for the own core set out at once, in order; the others enter the outbound queue as one
item, at its end; each knows its partition, its core and the side by which it will come in. Nothing else changes. And the fields of a
header read back as they were put in. -/
def Obligations.TokensLeaveInOrder : Prop :=
  (∀ (c : Chip) (core pid : Nat) (ts : List Token),
    let out := ts.map fun t => { t with pid, src := core, link := linkCode core t.dst }
    let d := c.sendTokens core pid ts
    d.flights = c.flights ++ out.filter (fun t => t.dst == core) ∧
    ((∃ t ∈ ts, t.dst ≠ core) → (d.slot core pid).outq = (c.slot core pid).outq ++ [{ tokens := out.filter fun t => t.dst != core }]) ∧
    ((∀ t ∈ ts, t.dst = core) → d.slots = c.slots) ∧ d = { c with flights := d.flights, slots := d.slots }) ∧
  (∀ (plane fmt slot chan tag : Nat) (taint : Bool), plane < 2 → fmt < 8 → slot < 4 → chan < 128 → tag < 2 ^ 48 →
    let h := mkHdr plane taint fmt slot chan tag
    hdrPlane h = plane ∧ hdrTaint h = taint ∧ hdrFmt h = fmt ∧ hdrSlot h = slot ∧ hdrChan h = chan ∧ hdrTag h = tag ∧
      h.toNat / 2 ^ 62 = 0)

namespace Sys2Proof.Claims

/-- FPC after an `SWR` of it (R240, R241 point 5): a word with a reserved bit or a rounding mode 5 to 7 changes nothing. -/
def fpcAfter (old : Fpc) (v : Word) (taint : Bool) : Fpc :=
  if v.extractLsb' 5 3 ≠ 0 ∨ v.extractLsb' 11 53 ≠ 0 then old
  else
    let fl : FFlags := ⟨v.getLsbD 4, v.getLsbD 3, v.getLsbD 2, v.getLsbD 1, v.getLsbD 0⟩
    match (v.extractLsb' 8 3).toNat with
    | 0 => ⟨.rne, fl, taint⟩
    | 1 => ⟨.rtz, fl, taint⟩
    | 2 => ⟨.rdn, fl, taint⟩
    | 3 => ⟨.rup, fl, taint⟩
    | 4 => ⟨.rna, fl, taint⟩
    | _ => old

/-- What the instructions that act on their own instance, core and slot alone do at their turn. -/
def controlEffect (c : Chip) (i : Inst) (o : Operands) : Instr → Option Chip
  | .fence sc => some (if sc = .inst then c.staleFor i.core i.iid else c.modCore i.core fun k => { k with lcache := [] })
  | .tlsig _ tl => some (c.modSlot i.core i.pid fun sl =>
      { sl with tls := sl.tls.setIfInBounds tl.toNat (if (sl.tls.getD tl.toNat 0).ult o.a then o.a else sl.tls.getD tl.toNat 0) })
  | .prio age cls => some (c.modInst i.iid fun j => { j with cls := cls.toNat, aging := age })
  | .swrFpc => some (c.modInst i.iid fun j => { j with fpc := fpcAfter j.fpc o.a o.ta })
  | .pclrClear =>
    let g := (o.a.extractLsb' 8 8).toNat
    let k := (o.a.extractLsb' 0 8).toNat
    some (if k = 0xFF then (List.range ((counterGroup g).getD 0)).foldl (fun c j => c.clearCounter i.core i.pid g j) c
      else c.clearCounter i.core i.pid g k)
  | _ => none

end Sys2Proof.Claims

/-- R41, R202, R208, R212, R240 to R242, R395, R434. `FENCE` with a scope wider than its instance drops its core's load cache, and at instance
scope no line of it serves that instance any more; `TLSIG` raises its
timeline to its operand and never lowers it; `PRIO` sets class and aging; an `SWR` of FPC replaces it, with the taint of its data, or is
refused whole; an `SWR` of PCLR clears one counter, or every counter of its group. -/
def Obligations.ControlInstructions : Prop :=
  ∀ (s : State) (i : Inst) (f : Frame) (a : Act) (ins : Instr) (c : Chip), Acts s i f a → a.null = false →
    controlEffect (before s i f a) i (actOperands a) ins = some c → exec ins s = .next (after s f a c)

/-! ## Branches, exceptions and returns -/

namespace Sys2Proof.Claims

/-- Every instance has a number of its own, below the next to be given, and an iteration's creator is an older instance (R377). -/
def Numbered (c : Chip) : Prop :=
  (c.insts.map Inst.iid).Nodup ∧ (∀ i ∈ c.insts, i.iid < c.nextIid) ∧ (∀ i ∈ c.insts, ∀ k, i.creator = some k → k < i.iid)

/-- The branch of the focus's block has its turn: the block is committing and its actions are done (R110 step 3). -/
structure Branches (s : State) (i : Inst) (f : Frame) (b : Branch) : Prop where
  here  : s.chip.inst? s.focus.iid = some i
  block : i.frame = some f
  state : i.state = .committing
  taken : f.branch = some b
  phase : s.focus.phase = .commit
  number : Numbered s.chip

/-- The branches that go on to a block; `true` for `YIELD`. -/
def goesOn : Instr → Option Bool
  | .br _ | .bri | .call _ | .calli | .ret => some false
  | .yield _ => some true
  | _ => none

/-- A block as it begins: no token in any slot, nothing recorded. -/
def freshFrame (b : Mapped) : Frame := { addr := b.addr, hdr := b.hdr, words := b.words, cells := b.words.map fun _ => {} }

end Sys2Proof.Claims

/-- R110, R385, R386, R404, R406, R426. A branch at its turn moves the instance to the block it names. It keeps its frame and begins that block at
once where its core has it mapped and no operation of the last block is awaited; after `YIELD`, or when recalled, it is READY, holds no
frame, and its aging goes on; after a `TRAP` it is suspended there. Its registers, arguments, tag, channel and FPC and all of memory are as the commit left
them. -/
def Obligations.BranchesMoveTheInstance : Prop :=
  ∀ (s : State) (i : Inst) (f : Frame) (b : Branch) (ins : Instr) (yields : Bool), goesOn ins = some yields → Branches s i f b →
    ∃ t, exec ins s = .next t ∧ t.turn = none ∧ t.chip.mem = s.chip.mem ∧ t.sys = s.sys ∧
      let j := t.chip.inst i.iid
      j.block = b.target.toNat ∧ j.regs = i.regs ∧ j.args = i.args ∧ j.tag = i.tag ∧ j.chan = i.chan ∧ j.fpc = i.fpc ∧
      (i.handle ≠ 0 → j.state = .suspended ∧ j.frame = none) ∧
      (i.handle = 0 → (yields = true ∨ i.recalled = true) → j.state = .ready ∧ j.frame = none ∧ j.steps = i.steps) ∧
      (i.handle = 0 → yields = false → i.recalled = false → j.state = .running ∧
        j.frame = if i.holds = [] then
          ((s.chip.coreSt i.core).blocks.find? fun m => m.pid == i.pid && m.addr == b.target.toNat).map freshFrame else none)

/-- R112, R386, R390. `EXIT` at its turn ends the instance: with no return value pending it is gone and the 4 KiB of its slice read 0;
otherwise it stays, ended and without a frame, until the values have come. `.free` also returns its context to its core's pool. -/
def Obligations.ExitEndsTheInstance : Prop :=
  ∀ (s : State) (i : Inst) (f : Frame) (b : Branch) (free : Bool), Branches s i f b →
    ∃ t, exec (.exit free) s = .next t ∧ t.turn = none ∧
      ((∀ r ∈ i.regs.toList, r.pend = false) → t.chip.inst? i.iid = none ∧
        ∀ x, x < 4096 → t.chip.mem.get (locSlice i.iid x) = 0) ∧
      ((∃ r ∈ i.regs.toList, r.pend = true) → (t.chip.inst i.iid).state = .ended ∧ (t.chip.inst i.iid).frame = none ∧
        t.chip.mem = s.chip.mem) ∧
      (free = true → ∀ k, s.chip.coreOfLin i.pid i.core (i.tag / 2 ^ 38) = some k →
        i.tag / 2 ^ 26 % 2 ^ 12 ∉ (t.chip.slot k i.pid).ctx)

namespace Sys2Proof.Claims

/-- What `ERET` makes of the suspended instance `j` (R427): its block and its registers, or none where it ends. -/
def eretOutcome (j : Inst) (b : Branch) : Instr → Option (Option (Nat × Vector Reg 32))
  | .eretRes => some (some (j.block, j.regs))
  | .eretRv => some (some (j.block, j.regs.set 28 { v := b.op2.value, taint := b.op2.tainted, pend := false }))
  | .eretGo => some (some (b.op2.value.toNat, j.regs))
  | .eretKill => some none
  | _ => none

/-- The handle that an `ERET`'s branch carries: the low 32 bits of slot a. -/
def handleOf (b : Branch) : Nat := b.op.value.toNat % 2 ^ 32

/-- An instance is over (R112): gone, or, with return values pending, ended and without a frame until they come. -/
def isOver (i : Inst) (c : Chip) : Prop :=
  ((∀ r ∈ i.regs.toList, r.pend = false) → c.inst? i.iid = none) ∧
  ((∃ r ∈ i.regs.toList, r.pend = true) → ∃ j, c.inst? i.iid = some j ∧ j.state = .ended ∧ j.frame = none)

end Sys2Proof.Claims

/-- R41, R112, R405, R427. `ERET` at its turn ends its own instance: it is gone, or, with return values pending, ended and without a frame
until they have come. The instance that its handle names, suspended in the slot on this core, becomes READY with no frame, at its own block
(`.res`, `.rv` with g28 written, taint included) or at block b (`.go`), keeping all its other registers, and its core's load cache is
dropped; `.kill` ends it in the same way. Handle 0 disposes of nothing: every other instance keeps its state and block. A handle that names
no such instance raises `SYS_HANDLE` before the commit, at the `ERET`: the block is discarded. -/
def Obligations.EretDisposesOfTheInstance : Prop :=
  (∀ (s : State) (i : Inst) (f : Frame) (b : Branch) (ins : Instr), isEret ins = true → Branches s i f b →
    (handleOf b = 0 → ∃ t, exec ins s = .next t ∧ t.turn = none ∧ isOver i t.chip ∧
      ∀ k, k ≠ i.iid → t.chip.inst? k = (s.chip.closeCommit i.iid).inst? k) ∧
    (∀ j o, handleOf b ≠ 0 → (s.chip.closeCommit i.iid).byHandle i.core i.pid (handleOf b) = some j → j.iid ≠ i.iid →
      (s.chip.closeCommit i.iid).inst? j.iid = some j → eretOutcome j b ins = some o →
      ∃ t, exec ins s = .next t ∧ t.turn = none ∧ isOver i t.chip ∧
        match o with
        | some (block, regs) => ∃ u, t.chip.inst? j.iid = some u ∧ u.state = .ready ∧ u.block = block ∧ u.regs = regs ∧ u.frame = none ∧
            u.handle = 0 ∧ u.args = j.args ∧ u.tag = j.tag ∧ u.fpc = j.fpc ∧ (t.chip.coreSt j.core).lcache = []
        | none => isOver j t.chip)) ∧
  (∀ (s : State) (i : Inst) (f : Frame) (b : Branch) (ins : Instr), s.chip.inst? s.focus.iid = some i → i.frame = some f →
    f.branch = some b → f.instrOf b.idx = some ins → isEret ins = true → handleOf b ≠ 0 →
    s.chip.byHandle i.core i.pid (handleOf b) = none → s.chip.mayCommit i f = true →
    (∀ x ∈ (s.chip.checkAll i f).1, b.idx ≤ x.1 ∧ (x.1 = b.idx → x.2 = { cause := 0x05 })) →
    exec .blockCommit s = .next { s with chip := (s.chip.checkAll i f).2.takeFault i.iid b.idx { cause := 0x05 } })

/-- R99, R114, R378, R418, R419, R422, R424. Taking a fault: the block is discarded whole, to be begun anew; the instance's
registers, arguments and FPC and all memory outside the slices of the iterations it had created stay as they were. An instance that is
not speculative is suspended under the slot's next handle, and its record (cause, index, block, channel, tag) is queued with the slot's
next number; a speculative one holds the record, which is queued nowhere; a supervisor's fault stops the slot on its core. That the first
cause stays where the slot has stopped already is the model's choice (notes/assumptions 81). -/
def Obligations.FaultsSuspendTheInstance : Prop :=
  ∀ (c : Chip) (i : Inst) (f : Frame) (n : Nat) (e : AFault), c.inst? i.iid = some i → i.frame = some f →
    Numbered c →
    let d := c.takeFault i.iid n e
    let j := d.inst i.iid
    let sl := c.slot i.core i.pid
    let r : FaultRec := { cause := e.cause, sub := e.sub, addr := e.addr, info0 := e.info0, info1 := e.info1, index := n, block := i.block,
                          chan := i.chan, tag := i.tag }
    j.state = .suspended ∧ j.regs = i.regs ∧ j.args = i.args ∧ j.fpc = i.fpc ∧ j.block = i.block ∧
    j.frame = none ∧
    (∀ x, (∀ k ∈ c.descendants c.insts.length [i.iid], x < locSlice k 0 ∨ locSlice k 4096 ≤ x) → d.mem.get x = c.mem.get x) ∧
    (i.creator ≠ none → j.held = some r ∧ (d.slot i.core i.pid).recs.wait = sl.recs.wait) ∧
    (i.creator = none → i.chan < 126 → j.handle = sl.recs.handle ∧ (d.slot i.core i.pid).recs.handle = nextHandle sl.recs.handle ∧
      ((c.part i.pid).canTrap = true →
        (d.slot i.core i.pid).recs.wait = sl.recs.wait ++ [(sl.recs.next, { r with handle := sl.recs.handle })] ∧
        (d.slot i.core i.pid).recs.next = sl.recs.next + 1)) ∧
    (i.creator = none → 126 ≤ i.chan → (d.slot i.core i.pid).stop = some (sl.stop.getD e.cause))

/-- R419, R424, R426. `TRAP` at its turn: its record (`SYS_TRAP`, INFO0 = slot a, INFO1 = CODE, BLOCK the block that the branch names)
is queued with the slot's next number, and the instance gets the handle under which its next block suspends it; it goes on committing. A
supervisor's `TRAP` stops the slot. A second `TRAP` of the block names the first one's handle (notes/assumptions 20), and the first cause
of a stopped slot stays (81): the model's choices. -/
def Obligations.TrapQueuesItsRecord : Prop :=
  ∀ (s : State) (i : Inst) (f : Frame) (a : Act) (b : Branch) (code : BitVec 16), Acts s i f a → a.null = false → f.branch = some b →
    let sl := s.chip.slot i.core i.pid
    let h := if i.handle = 0 then sl.recs.handle else i.handle
    ∃ t, exec (.trap code) s = .next t ∧ t.turn = turnAfter s f a ∧ t.chip.mem = s.chip.mem ∧
      (t.chip.inst i.iid).state = .committing ∧ (t.chip.inst i.iid).handle = h ∧ (t.chip.inst i.iid).regs = i.regs ∧
      (i.chan < 126 → (s.chip.part i.pid).canTrap = true →
        (t.chip.slot i.core i.pid).recs.next = sl.recs.next + 1 ∧
        (t.chip.slot i.core i.pid).recs.wait = sl.recs.wait ++ [(sl.recs.next,
          { cause := 0x01, index := a.idx, handle := h, block := b.target.toNat, info0 := (actOperands a).a.toNat, info1 := code.toNat,
            chan := i.chan, tag := i.tag, taint := (actOperands a).taint })]) ∧
      (126 ≤ i.chan → (t.chip.slot i.core i.pid).stop = some (sl.stop.getD 0x01))

namespace Sys2Proof.Claims

/-- The eight words of a record (R419), field by field. -/
def recordFits (r : FaultRec) (lin q : Nat) (w : List Nat) : Prop :=
  w.length = 8 ∧ (∀ x ∈ w, x < 2 ^ 64) ∧
  bits (w.getD 0 0) 56 8 = r.cause ∧ bits (w.getD 0 0) 48 8 = r.sub ∧ bitAt (w.getD 0 0) 47 = r.eng ∧ bits (w.getD 0 0) 44 3 = r.src ∧
  bits (w.getD 0 0) 42 2 = 0 ∧ bits (w.getD 0 0) 36 6 = r.index ∧ bits (w.getD 0 0) 32 4 = r.tl ∧ bits (w.getD 0 0) 0 32 = r.handle ∧
  w.getD 1 0 = r.block ∧ w.getD 2 0 = r.addr ∧ bits (w.getD 3 0) 32 32 = r.num ∧ bits (w.getD 3 0) 0 32 = r.chunk ∧
  w.getD 4 0 = r.info0 ∧ w.getD 5 0 = r.info1 ∧ bits (w.getD 6 0) 55 9 = 0 ∧ bits (w.getD 6 0) 48 7 = r.chan ∧
  bits (w.getD 6 0) 0 48 = r.tag ∧ bits (w.getD 7 0) 42 22 = 0 ∧ bits (w.getD 7 0) 32 10 = lin ∧ bits (w.getD 7 0) 0 32 = q

/-- The values that the fields of a record can hold. -/
def recordInRange (r : FaultRec) : Prop :=
  r.cause < 2 ^ 8 ∧ r.sub < 2 ^ 8 ∧ r.src < 2 ^ 3 ∧ r.index < 2 ^ 6 ∧ r.tl < 2 ^ 4 ∧ r.handle < 2 ^ 32 ∧ r.block < 2 ^ 64 ∧ r.addr < 2 ^ 64 ∧
  r.num < 2 ^ 32 ∧ r.chunk < 2 ^ 32 ∧ r.info0 < 2 ^ 64 ∧ r.info1 < 2 ^ 64 ∧ r.chan < 2 ^ 7 ∧ r.tag < 2 ^ 48

end Sys2Proof.Claims

/-- R418, R419, R422, R424. Every field of a record stands in its bits, and the bits that are zero are zero. When the place of the record at
the head of the slot's queue is free, its 64 bytes are written at place q mod 64 of the slot's area, the place is allocated, and a token of format DESC sets out
on channel 127 with the instance's tag and the record's window address. Where the write faults the slot stops instead, with the record's
cause unless it has stopped before (the model's choice, notes/assumptions 81), and no token is sent. -/
def Obligations.RecordsAreDelivered : Prop :=
  (∀ (r : FaultRec) (lin q : Nat), recordInRange r → lin < 2 ^ 10 → q < 2 ^ 32 → recordFits r lin q (recordWords r lin q)) ∧
  (∀ (s : State) (q : Nat) (r : FaultRec), s.chip.recordReady s.focus.core s.focus.pid = some (q, r) →
     (s.chip.part s.focus.pid).canTrap = true →
     let k := s.focus.core
     let n := s.focus.pid
     let c := s.chip.modSlot k n fun sl => { sl with recs := { sl.recs with wait := sl.recs.wait.drop 1 } }
     let va := 0xFFFF81 * 2 ^ 40 + bits ((s.chip.part n).reg 0x030) 12 9 * 4096 + 64 * (q % 64)
     (∀ d, c.engineWrite { pid := n, core := k } va ((recordWords r (s.chip.lin n k) q).flatMap (leBytes 8)) r.taint = (.ok (), d) →
       exec .recordDelivery s = .next { s with chip :=
         let e := d.modSlot k n fun sl => { sl with recs := { sl.recs with used := sl.recs.used ++ [(q % 64, q)] } }
         { e with flights := s.chip.flights ++ [{
             hdr := mkHdr (s.chip.slot k n).cfg.act false 4 0 127 r.tag, payload := BitVec.ofNat 64 va, pid := n, dst := k, src := k }] } }) ∧
     (∀ d e, c.engineWrite { pid := n, core := k } va ((recordWords r (s.chip.lin n k) q).flatMap (leBytes 8)) r.taint = (.error e, d) →
       ∃ t, exec .recordDelivery s = .next t ∧ (t.chip.slot k n).stop = some ((s.chip.slot k n).stop.getD r.cause) ∧
         t.chip.flights = s.chip.flights))

/-! ## System registers and operations -/

namespace Sys2Proof.Claims

/-- The levels of R430: registers that an instance reads, and those that only a supervisor reads. -/
def readable (sup : Bool) (n : Nat) : Bool :=
  n == 0 || n == 1 || n == 0x090 ||
    (sup && (n == 0x010 || n == 0x011 || (0x020 ≤ n && n ≤ 0x02F) || (0x030 ≤ n && n ≤ 0x034) || (0x040 ≤ n && n ≤ 0x045) ||
      (0x050 ≤ n && n ≤ 0x052) || (0x060 ≤ n && n ≤ 0x07F)))
/-- The numbers that R430 assigns. -/
def assigned (n : Nat) : Bool := readable true n

/-- What `SRD` reads (R240, R429, R432), CYCLE apart: value and taint. -/
def registerValue (c : Chip) (i : Inst) (n : Nat) : Word × Bool :=
  let p := c.part i.pid
  if n = 0x000 then (BitVec.ofNat 64 (i.fpc.rm.code * 2 ^ 8 + i.fpc.flags.code), i.fpc.taint)
  else if n = 0x090 then (0, false)
  else if n = 0x050 then (BitVec.ofNat 64 (p.part % 2 ^ 16 * 2 ^ 16 + p.pid % 2 ^ 8), false)
  else if n = 0x051 then (if p.mgr then 1 else 0, false)
  else if n = 0x052 then
    (BitVec.ofNat 64 ((match (c.slot i.core i.pid).stop with | some cause => 2 ^ 63 + cause % 2 ^ 8 * 2 ^ 48 | none => 0) +
      (c.slot i.core i.pid).pstate.code), true)
  else (BitVec.ofNat 64 (p.reg n), p.rtaint.contains n)

end Sys2Proof.Claims

/-- R240, R417, R429, R430, R432, R434. `SRD`: the register that slot a `<11:0>` names, whole, with its taint bit, where the instance's level reads
it; `SYS_REG` for a number that R430 does not assign, `SYS_PRIV` above the level; the bits of slot a above the number are ignored
(notes/assumptions 52). CYCLE has gone on by an amount the model leaves free, never back and not beyond 64 bits (notes/assumptions 5), which
its core then keeps, and is tainted. `PERFR`: the counter that slot a names (group `<15:8>`, index `<7:0>`; the bits above are ignored,
52), tainted; `SYS_REG`, with the opcode, for a reserved group or index. A counter of cycles or issue groups, which the model does not time,
has gone on by a free amount, saturating, if what it counts has occurred since it was last read or cleared, and keeps the value read (notes/assumptions 1);
every other counter reads as it stands, and nothing changes. -/
def Obligations.RegistersAndCountersAreRead : Prop :=
  (∀ (s : State) (i : Inst) (f g : Frame) (t1 t0 : Option Target), Fires s i f → f.onNull s.focus.idx = false →
     let n := ((operands s f).a.extractLsb' 0 12).toNat
     (assigned n = false → exec (.srd t1 t0) s = .next (faults s i f s.focus.idx { cause := 0x04, info0 := n })) ∧
     (assigned n = true → readable i.supervisor n = false →
       exec (.srd t1 t0) s = .next (faults s i f s.focus.idx { cause := 0x03, info0 := n })) ∧
     (readable i.supervisor n = true → n ≠ 0x001 →
       (mark f s.focus.idx).sendAll [t1, t0] (.val (registerValue s.chip i n).1 (registerValue s.chip i n).2) = g →
       exec (.srd t1 t0) s = .next (become s i f g)) ∧
     (n = 0x001 →
       let k := (s.chip.coreSt i.core).cycle
       let v := min (k + 1 + (Config.freeWord s.chip.free).toNat % (2 ^ 64 - 1 - k)) (2 ^ 64 - 1)
       (mark f s.focus.idx).sendAll [t1, t0] (.val (BitVec.ofNat 64 v) true) = g →
       ∃ t, exec (.srd t1 t0) s = .next t ∧ t.chip.insts = (become s i f g).chip.insts ∧ (t.chip.coreSt i.core).cycle = v ∧
         t.chip.mem = s.chip.mem ∧ t.chip.parts = s.chip.parts ∧ t.chip.slots = s.chip.slots)) ∧
  (∀ (s : State) (i : Inst) (f h : Frame) (t1 t0 : Option Target), Fires s i f → f.onNull s.focus.idx = false →
     let g := ((operands s f).a.extractLsb' 8 8).toNat
     let k := ((operands s f).a.extractLsb' 0 8).toNat
     ((∀ n, counterGroup g = some n → n ≤ k) →
       exec (.perfr t1 t0) s = .next (faults s i f s.focus.idx { cause := 0x04, info0 := 0x1C9 })) ∧
     (∀ n, counterGroup g = some n → k < n → untimedCounter g k = false ∨ g * 256 + k ∉ (s.chip.slot i.core i.pid).waited →
       (mark f s.focus.idx).sendAll [t1, t0] (.val (BitVec.ofNat 64 (s.chip.perfCounter i.core i.pid g k).1) true) = h →
       exec (.perfr t1 t0) s = .next (become s i f h)) ∧
     (∀ n, counterGroup g = some n → k < n → untimedCounter g k = true → g * 256 + k ∈ (s.chip.slot i.core i.pid).waited →
       let v := min (lookupNat (s.chip.slot i.core i.pid).counts (g * 256 + k) + (Config.freeWord s.chip.free).toNat % 2 ^ 32) (2 ^ 32 - 1)
       (mark f s.focus.idx).sendAll [t1, t0] (.val (BitVec.ofNat 64 v) true) = h →
       let c := { (become s i f h).chip with free := s.chip.free + 1 }
       exec (.perfr t1 t0) s = .next { become s i f h with
         chip := c.modSlot i.core i.pid fun sl =>
           { sl with counts := setNat sl.counts (g * 256 + k) v, waited := sl.waited.filter fun x => x != g * 256 + k } }))

namespace Sys2Proof.Claims

/-- An operation that has begun: numbered in its partition, with its issuer, whose next block waits for it. -/
def underWay (c : Chip) (i : Inst) (idx : Nat) (kind : PendKind) : Chip :=
  let p := c.part i.pid
  (c.setPart { p with
    pends := p.pends ++ [{ n := p.nextPend, kind, who := { iid := i.iid, core := i.core, pid := i.pid, lid := i.lid, chan := i.chan,
                                                           tag := i.tag, block := i.block, index := idx } }]
    nextPend := p.nextPend + 1 }).modInst i.iid fun j => { j with holds := j.holds ++ [.op p.nextPend] }

/-- The system instructions whose effect completes later, and what they ask for (R429, R435 to R437); a quota register has its value at
once on every core (R433). -/
def operationOf (o : Operands) : Instr → Option PendKind
  | .swr r | .quotaWrite r => some (.swr r.toNat o.a o.taint)
  | .tlbiVa => some (.tlbi 0 o.a.toNat (o.b.toNat % 2 ^ 16))
  | .tlbiAsid => some (.tlbi 1 0 (o.a.toNat % 2 ^ 16))
  | .tlbiAll => some (.tlbi 2 0 0)
  | .tlbiVag => some (.tlbi 3 o.a.toNat 0)
  | .cinvBlk => some (.cinv 0 o.a.toNat)
  | .cinvPg => some (.cinv 1 o.a.toNat)
  | .cinvAll => some (.cinv 2 o.a.toNat)
  | .keyldClr => some (.key o.a.toNat none)
  | _ => none

/-- A partition with a register written: its value, its taint bit, no other register. -/
def withRegister (c : Chip) (pid n : Nat) (v : Word) (taint : Bool) : Chip := c.setPart ((c.part pid).setReg n v taint)

end Sys2Proof.Claims

/-- R429, R431, R433, R435 to R437. A system operation at its turn is under way: its issuer's next block waits until it completes, and
nothing has changed yet, except that a quota or placement register has its new value. `KEYLD.ld` carries the unwrapped keys of its
image. A register keeps the OR of the taints of all operands of its `SWR`, the predicate's included: the model's reading
(notes/assumptions 22). -/
def Obligations.SystemOperationsAreUnderWay : Prop :=
  (∀ (s : State) (i : Inst) (f : Frame) (a : Act) (ins : Instr) (kind : PendKind), Acts s i f a → a.null = false →
    operationOf (actOperands a) ins = some kind → (∀ r, ins ≠ .quotaWrite r) →
    exec ins s = .next (after s f a (underWay (before s i f a) i a.idx kind))) ∧
  (∀ (s : State) (i : Inst) (f : Frame) (a : Act) (r : BitVec 12), Acts s i f a → a.null = false →
    let o := actOperands a
    exec (.quotaWrite r) s = .next (after s f a
      (underWay (withRegister (before s i f a) i.pid r.toNat o.a o.taint) i a.idx (.swr r.toNat o.a o.taint)))) ∧
  (∀ (s : State) (i : Inst) (f : Frame) (a : Act) (bs : List Nat) (d : Chip), Acts s i f a → a.null = false →
    (before s i f a).keyImage i (actOperands a).b.toNat = (.ok bs, d) →
    exec .keyldLd s = .next (after s f a (underWay d i a.idx (.key (actOperands a).a.toNat
      ((Crypto.unwrap (Crypto.beBytes 32 (d.part i.pid).wrapKey) bs).map Crypto.beNat)))))

namespace Sys2Proof.Claims

/-- The chip with an operation over: it leaves its partition, and its issuer no longer waits for it and may begin its block. -/
def pendOver (c : Chip) (pid : Nat) (q : Pend) : Chip :=
  let p := c.part pid
  ((c.setPart { p with pends := p.pends.filter fun x => x.n != q.n }).modInst q.who.iid
    fun j => { j with holds := j.holds.filter fun h => h != .op q.n }).begin q.who.iid

/-- Whether `TLBI` takes a cached translation away (R435). -/
def invalidates (pid kind va asid : Nat) (t : Tlb) : Bool :=
  t.pid == pid && match kind with
    | 0 => (t.base ≤ va && va < t.base + t.size) && (t.asid == none || t.asid == some asid)
    | 1 => t.asid == some asid
    | 2 => true
    | _ => t.base ≤ va && va < t.base + t.size

/-- The chip after an operation has its effect (R379, R429, R435 to R437), as the event named completes it. -/
def completed (c : Chip) (pid : Nat) : PendKind → Instr → Option Chip
  | .tlbi kind va asid, .tlbiComplete => some { c with tlb := c.tlb.filter fun t => !invalidates pid kind va asid t }
  | .key id content, .keyldComplete =>
    some { c with keys := c.keys.filter (fun k => k.id != id) ++ (match content with | some x => [{ id, content := x }] | none => []) }
  | .swr n v t, .swrRegionComplete =>
    some (if n = 0x030 ∨ (0x040 ≤ n ∧ n ≤ 0x044) then c else withRegister c pid n v t)
  | .squash _ _ _, .squashAck => some c
  | _, _ => none

/-- Whether an operation is not to complete yet: an earlier one on the same register or key slot is under way; a `.sc` atomic of the
partition waits, where the operation changes a translation, a region register or a key; an engine is in a chunk, for a `TLBI`. -/
def waiting (s : State) (q : Pend) : Bool :=
  ((s.chip.part s.focus.pid).pends.any fun x => x.n < s.focus.n && x.kind.target.isSome && x.kind.target == q.kind.target) ||
  match q.kind with
  | .tlbi _ _ _ => s.chip.scWaits s.focus.pid || s.chip.midChunk s.focus.pid
  | .key _ _ => s.chip.scWaits s.focus.pid
  | .swr n _ _ => !(n == 0x030 || (0x040 ≤ n && n ≤ 0x044)) && s.chip.scWaits s.focus.pid
  | _ => false

end Sys2Proof.Claims

/-- R60, R99, R379, R429, R435 to R437. The completion of a system operation: the translations that a `TLBI` covers are gone, a key slot holds
its new keys or none, a register has the value written. After `CINV` its partition's block at its address (`.blk`), those that begin in its
4 KiB page (`.pg`) or all (`.all`) are mapped on no core of the region, and every other block stays. Then the issuer waits for it no more.
Of two operations on one register or key slot the later one does nothing while the earlier is under way, the model's choice
(notes/assumptions 76); nor does one that changes translations, registers or keys while a `.sc` atomic waits that was checked under them
(96), nor a `TLBI` while an engine is in the middle of a chunk. -/
def Obligations.SystemOperationsComplete : Prop :=
  (∀ (s : State) (q : Pend) (ins : Instr) (c : Chip),
     (s.chip.part s.focus.pid).pends.find? (fun x => x.n == s.focus.n) = some q →
     completed s.chip s.focus.pid q.kind ins = some c →
     (waiting s q = false → exec ins s = .next { s with chip := pendOver c s.focus.pid q }) ∧
     (waiting s q = true → exec ins s = .next s)) ∧
  (∀ (s : State) (q : Pend) (kind addr : Nat),
     (s.chip.part s.focus.pid).pends.find? (fun x => x.n == s.focus.n) = some q → q.kind = .cinv kind addr →
     ∃ c, exec .cinvComplete s = .next { s with chip := pendOver c s.focus.pid q } ∧ c = { s.chip with cores := c.cores } ∧
       (∀ x ∈ ((pendOver c s.focus.pid q).part s.focus.pid).pends, x.n ≠ q.n) ∧
       Hold.op q.n ∉ ((pendOver c s.focus.pid q).inst q.who.iid).holds ∧
       ∀ k ∈ (s.chip.part s.focus.pid).cores, (c.coreSt k).blocks = (s.chip.coreSt k).blocks.filter fun b =>
         !(b.pid == s.focus.pid && (if kind = 0 then b.addr == addr else if kind = 1 then b.addr / 4096 == addr / 4096 else true)))
/-! ## Engine commands and waits -/

namespace Sys2Proof.Claims

/-- How an instruction uses an engine context (R210): the context's timeline, its operation, DN and DCH where the word holds them (a copy's and
a gather's descriptor holds its own), its return register; the number that its word names (tile, level table, state, arrangement, the two
tiers as source × 16 + destination, FN), its port or mode (the width of a level table), its bit (CZ, KEEP, COL, W). -/
structure EngineForm where
  k    : Nat
  op   : CmdOp
  done : Option (Bool × BitVec 7) := none
  ret  : Option (BitVec 5) := none
  sel  : Nat := 0
  port : Nat := 0
  flag : Bool := false

/-- The instructions that give an engine context a command. -/
def engineForm : Instr → Option EngineForm
  | .cpy p cc r => some { k := cc.toNat, op := .cpy, ret := r, port := p.toNat }
  | .cpypl p cc r => some { k := cc.toNat, op := .cpypl, ret := r, port := p.toNat }
  | .cpyun p cc r => some { k := cc.toNat, op := .cpyun, ret := r, port := p.toNat }
  | .gath r => some { k := 4, op := .gath, ret := r }
  | .scat r => some { k := 4, op := .scat, ret := r }
  | .mma c d t => some { k := 5, op := .mma, done := some (d, c), sel := t.toNat }
  | .mmal c d t => some { k := 5, op := .mmal, done := some (d, c), sel := t.toNat }
  | .accz c d t m => some { k := 5, op := .accz, done := some (d, c), sel := t.toNat, port := m.toNat }
  | .accld c d t m => some { k := 5, op := .accld, done := some (d, c), sel := t.toNat, port := m.toNat }
  | .accst c d t z => some { k := 6, op := .accst, done := some (d, c), sel := t.toNat, flag := z }
  | .qst c d t z => some { k := 6, op := .qst, done := some (d, c), sel := t.toNat, flag := z }
  | .lvlld c d t w => some { k := 6, op := .lvlld, done := some (d, c), sel := t.toNat, port := 4 + 2 * w.toNat }
  | .ttload c d l => some { k := 7, op := .ttload, done := some (d, c), sel := l.toNat }
  | .tfetch c d x y => some { k := 7, op := .tfetch, done := some (d, c), sel := x.toNat * 16 + y.toNat }
  | .tevict c d x y => some { k := 7, op := .tevict, done := some (d, c), sel := x.toNat * 16 + y.toNat }
  | .ainit c d n b => some { k := 8, op := .ainit, done := some (d, c), sel := n.toNat, flag := b }
  | .agate c d n => some { k := 8, op := .agate, done := some (d, c), sel := n.toNat }
  | .aswap c d n => some { k := 8, op := .aswap, done := some (d, c), sel := n.toNat }
  | .ameas c d n b => some { k := 8, op := .ameas, done := some (d, c), sel := n.toNat, flag := b }
  | .afree c d n => some { k := 8, op := .afree, done := some (d, c), sel := n.toNat }
  | .coll c d => some { k := 9, op := .coll, done := some (d, c) }
  | .cred c d f w => some { k := 9, op := .cred, done := some (d, c), sel := f.toNat, flag := w }
  | _ => none

/-- The values that set out for a return register (R112). -/
def returned (i : Inst) (ret : Option (BitVec 5)) (v : Word) (taint : Bool) : List PendVal :=
  match ret with
  | some g => [{ iid := i.iid, reg := g.toNat, v, taint }]
  | none => []

/-- A DONE token (R120, R376) as it sets out for the core of its command. -/
def doneToken (c : Chip) (who : Issuer) (dch : Nat) (payload : Word) : Token :=
  { hdr := mkHdr (c.slot who.core who.pid).cfg.act false 5 0 dch who.tag, payload, pid := who.pid, dst := who.core, src := who.core, resv := true }

end Sys2Proof.Claims

/-- R156, R159, R175, R210, R279, R294, R326, R343, R400, R458. An engine command at its turn enters the queue of its context, as the last, with
the next number; nothing has started. It keeps its operands, its issuer and the fields of its word (tile, table, state or tiers, port or mode,
CZ, KEEP, COL or W, DN and DCH), and reserves a place for its DONE token. A copy's pointer is reserved
too: its register gets the pointer's end value, and a gather's its number. Every other queue, the timelines and memory (A bits apart) stay.
(A `CRED` has passed its check of R351, now or before the commit.) -/
def Obligations.EngineCommandsQueue : Prop :=
  ∀ (s : State) (i : Inst) (f : Frame) (a : Act) (ins : Instr) (m : EngineForm), engineForm ins = some m → Acts s i f a → a.null = false →
    s.chip.mem.wf = true →
    (∀ c d fn w, ins = .cred c d fn w → a.place ≠ none ∨
      ∃ pl x, (before s i f a).checkCred i.actor (actOperands a).a.toNat (if w then 8 else 4) = (.ok pl, x)) →
    let o := actOperands a
    let old := s.chip.slot i.core i.pid
    ∃ t q, exec ins s = .next t ∧ t.turn = turnAfter s f a ∧
      let new := t.chip.slot i.core i.pid
      new.eng m.k = { old.eng m.k with given := (old.eng m.k).given + 1, cmds := (old.eng m.k).cmds ++ [q] } ∧
      q.num = (old.eng m.k).given + 1 ∧ q.op = m.op ∧ q.a = o.a ∧ q.b = o.b ∧ q.c = o.c ∧ q.started = false ∧ q.fail = none ∧
      q.sel = m.sel ∧ q.port = m.port ∧ q.flag = m.flag ∧
      (o.taint = true → q.taint = true) ∧
      q.who = { iid := i.iid, core := i.core, pid := i.pid, lid := i.lid, chan := i.chan, tag := i.tag, block := i.block, index := a.idx } ∧
      (∀ d, m.done = some d → q.dn = d.1 ∧ q.dch = d.2.toNat) ∧
      new.mat.reserved = old.mat.reserved + (if q.dn then 1 else 0) ∧
      (∀ j, j ≠ m.k → new.eng j = old.eng j) ∧ new.tls = old.tls ∧
      (m.k < 4 → q.w0 = (old.cp m.k).wend ∧ (new.cp m.k).wend = (q.w0 + q.len) % 2 ^ 64 ∧ (new.cp m.k).wp = (old.cp m.k).wp) ∧
      t.chip.vals = s.chip.vals ++ returned i m.ret (BitVec.ofNat 64 (if m.k < 4 then q.w0 + q.len else q.num)) q.taint ∧
      (∀ x, t.chip.mem.get x &&& 0x9F = s.chip.mem.get x &&& 0x9F)

namespace Sys2Proof.Claims

/-- The resume and abandon forms (R182, R283, R310, R330, R349): the context, whether it abandons, own DN and DCH, or the return register. -/
def serviceForm : Instr → Option (Nat × Bool × Option (Bool × BitVec 7) × Option (BitVec 5))
  | .cpyRes cc r | .cpyplRes cc r | .cpyunRes cc r => some (cc.toNat, false, none, r)
  | .cpyAbn cc r | .cpyplAbn cc r | .cpyunAbn cc r => some (cc.toNat, true, none, r)
  | .gathRes r | .scatRes r => some (4, false, none, r)
  | .gathAbn r | .scatAbn r => some (4, true, none, r)
  | .mmaRes c d => some (5, false, some (d, c), none)
  | .mmaAbn c d => some (5, true, some (d, c), none)
  | .accstRes c d => some (6, false, some (d, c), none)
  | .accstAbn c d => some (6, true, some (d, c), none)
  | .agateRes c d => some (8, false, some (d, c), none)
  | .agateAbn c d => some (8, true, some (d, c), none)
  | .collRes c d => some (9, false, some (d, c), none)
  | .collAbn c d => some (9, true, some (d, c), none)
  | _ => none

/-- The DONE tokens that a command sends with a payload. -/
def doneTokens (c : Chip) (q : Cmd) (err : Bool) (k : Nat) : List Token :=
  if q.dn then [doneToken c q.who q.dch (donePayload err (srcOf k) k q.num)] else []

end Sys2Proof.Claims

/-- R160, R182, R283, R310, R330, R349, R477. Resume and abandon. A context that is not halted stays as it is: the form answers the timeline's
value, in its register or in a DONE token of its own. A halted command that is resumed runs again from where it stopped, unless it may only be
abandoned: then it faults once more, with the same record. An abandoned command leaves, its number is reached on the timeline, and its DONE
token is sent; a copy's pointer goes to its end. -/
def Obligations.EngineContextsAreServed : Prop :=
  ∀ (s : State) (i : Inst) (f : Frame) (a : Act) (ins : Instr) (k : Nat) (abandon : Bool) (done : Option (Bool × BitVec 7))
    (ret : Option (BitVec 5)), serviceForm ins = some (k, abandon, done, ret) → Acts s i f a → a.null = false →
    let o := actOperands a
    let old := s.chip.slot i.core i.pid
    let e := old.eng k
    ∃ t, exec ins s = .next t ∧ t.turn = turnAfter s f a ∧ t.chip.mem = s.chip.mem ∧
      let new := t.chip.slot i.core i.pid
      (e.halted = false → new.eng k = e ∧ new.tls = old.tls ∧
        t.chip.vals = s.chip.vals ++ returned i ret (old.tls.getD k 0) o.taint ∧
        t.chip.flights = s.chip.flights ++ (match done with
          | some (true, dch) => [{ hdr := mkHdr old.cfg.act false 5 0 dch.toNat i.tag, pid := i.pid, dst := i.core, src := i.core, resv := true,
                                   payload := donePayload false (srcOf k) k (old.tls.getD k 0).toNat }]
          | _ => [])) ∧
      ∀ (front back : List Cmd) (q : Cmd) (r : FaultRec), e.halted = true → e.cmds = front ++ q :: back → (∀ x ∈ front, x.fail = none) →
        q.fail = some r →
        (abandon = false → q.onlyAbandon = false →
          (new.eng k).halted = false ∧ (new.eng k).cmds.map Cmd.num = e.cmds.map Cmd.num ∧
          (∀ x ∈ (new.eng k).cmds, x.num = q.num → x.fail = none) ∧ new.tls = old.tls ∧ t.chip.flights = s.chip.flights ∧
          t.chip.vals = s.chip.vals ++ returned i ret (BitVec.ofNat 64 q.num) o.taint) ∧
        (abandon = false → q.onlyAbandon = true →
          (new.eng k).halted = true ∧ (new.eng k).cmds.map Cmd.num = e.cmds.map Cmd.num ∧ new.tls = old.tls ∧
          t.chip.flights = s.chip.flights ++ doneTokens s.chip q true k ∧
          ((s.chip.part i.pid).canTrap = true → new.recs.wait = old.recs.wait ++ [(old.recs.next, r)])) ∧
        (abandon = true → (k = 9 → front = [] ∧ ∀ x ∈ back, x.done = false) →
          new.eng k = { e with halted := false, cmds := e.cmds.filter fun x => x.num != q.num } ∧
          new.tls = old.tls.setIfInBounds k (BitVec.ofNat 64 (max (old.tls.getD k 0).toNat q.num)) ∧
          t.chip.flights = s.chip.flights ++ doneTokens s.chip q false k ∧
          (k < 4 → (new.cp k).wp = (q.w0 + q.len) % 2 ^ 64) ∧
          t.chip.vals = s.chip.vals ++ returned i ret (BitVec.ofNat 64 q.num) o.taint)

namespace Sys2Proof.Claims

/-- What a wait of an engine's progress holds as it fires (R174, R179, R211): the value it will send, or its fault. A scope wider than the
context's release scope is `ORD_SCOPE`; a core word of `WPWAIT.peer` outside its fields is `CP_DESC`, a core outside the rectangle `ADDR_PEER`. -/
def waitHeld (s : State) (i : Inst) (o : Operands) : Instr → Option (Except AFault Word)
  | .waittl sc tl _ =>
    let x := (s.chip.part i.pid).ctxScope tl.toNat
    some (if tl.toNat ≤ 9 ∧ x < sc.code then .error { cause := 0x50, sub := tl.toNat, info0 := sc.code, info1 := x } else .ok o.a)
  | .chkwait sc _ _ =>
    let x := (s.chip.part i.pid).ctxScope 4
    some (if x < sc.code then .error { cause := 0x50, sub := 4, info0 := sc.code, info1 := x } else .ok o.b)
  | .wpwait sc peer cp _ =>
    let x := (s.chip.part i.pid).ctxScope cp.toNat
    let (ox, oy, w, h) := s.chip.rect i.pid i.core
    let dx := (o.b.extractLsb' 0 5).toNat
    let dy := (o.b.extractLsb' 8 5).toNat
    let core := if peer then coreAt (ox + dx) (oy + dy) else i.core
    some (
      if peer = true ∧ (o.b.extractLsb' 5 3 ≠ 0 ∨ o.b.extractLsb' 13 51 ≠ 0) then .error { cause := 0x48, sub := 0xFF, info0 := 1 }
      else if peer = true ∧ (w ≤ dx ∨ h ≤ dy) then .error { cause := 0x22 }
      else if x < sc.code ∨ sameDomain x i.core core = false then .error { cause := 0x50, sub := cp.toNat, info0 := sc.code, info1 := x }
      else .ok o.a)
  | _ => none

/-- The schedule miss at marker `n` of the entry at a place (R148, R420). -/
def missFault (n place : Nat) (e : TtEntry) : AFault :=
  { cause := 0x35, sub := if e.stage = 3 then 1 else 0, info0 := n, info1 := place + e.marker * 2 ^ 32 }

/-- A block that holds one wait more. -/
def holding (f : Frame) (n : Nat) (v : Word) (taint : Bool) : Frame := { f with waits := f.waits ++ [{ idx := n, n := v, taint }] }

end Sys2Proof.Claims

/-- R116, R148, R153, R174, R179, R211, R394, R411, R457. What waits, waits: the instruction has fired and its output is held. `EXPECT` also
posts its count on its channel; a count of 0, a bad word or a sum beyond 65535 posts nothing and sends all ones at once. `MARK` enters H, and
sends at once where no entry of its timetable is outstanding at its marker or none is attached, dropping the core's load cache; else Sumac has
the miss, and a trapping launch or a failed entry makes it `SCHED_MISS`, while any other `MARK` is held and counted, saturating, among the
launch's misses. What a `MARK` that faults counts and that Sumac has its miss (notes/assumptions 34), and that a `MARK` with no timetable
acquires (57), are the model's readings. -/
def Obligations.WaitsHold : Prop :=
  (∀ (s : State) (i : Inst) (f : Frame) (ins : Instr) (r : Except AFault Word), Fires s i f → f.onNull s.focus.idx = false →
    waitHeld s i (operands s f) ins = some r →
    exec ins s = .next (match r with
      | .ok v => become s i f (holding (mark f s.focus.idx) s.focus.idx v (operands s f).taint)
      | .error e => faults s i f s.focus.idx e)) ∧
  (∀ (s : State) (i : Inst) (f g : Frame) (t0 : Option Target), Fires s i f → f.onNull s.focus.idx = false →
    let o := operands s f
    let ch := (o.a.extractLsb' 0 7).toNat
    let n := (o.a.extractLsb' 16 16).toNat
    let x := (s.chip.slot i.core i.pid).cfg.chan ch
    let bad : Prop := n = 0 ∨ o.a.extractLsb' 7 9 ≠ 0 ∨ o.a.extractLsb' 32 32 ≠ 0 ∨ 65535 < (x.posts.map fun p => p.2.2).sum + n
    (bad → (mark f s.focus.idx).sendAll [t0] (.val (BitVec.allOnes 64) o.taint) = g → exec (.expect t0) s = .next (become s i f g)) ∧
    (¬bad → ∃ t, exec (.expect t0) s = .next t ∧
      t.chip.insts = (become s i f (holding (mark f s.focus.idx) s.focus.idx (BitVec.ofNat 64 n) o.taint)).chip.insts ∧
      (t.chip.slot i.core i.pid).cfg.chan ch = { x with posts := x.posts ++ [(i.iid, s.focus.idx, n)] } ∧ t.chip.mem = s.chip.mem)) ∧
  (∀ (s : State) (i : Inst) (f g : Frame) (t0 : Option Target), Fires s i f → f.onNull s.focus.idx = false →
    let o := operands s f
    let n := (o.a.extractLsb' 0 32).toNat
    let h : Frame := { mark f s.focus.idx with marks := f.marks ++ [n] }
    (s.chip.ttAt i.core i.pid = none → h.sendAll [t0] (.val (BitVec.ofNat 64 n) o.ta) = g →
      ∃ t, exec (.mark t0) s = .next t ∧ t.chip.insts = (become s i f g).chip.insts ∧ (t.chip.coreSt i.core).lcache = []) ∧
    (∀ l tt, s.chip.ttAt i.core i.pid = some (l, tt) →
      ((∀ e ∈ tt.entries, e.marker ≤ n → e.stage = 2) → h.sendAll [t0] (.val (BitVec.ofNat 64 n) o.ta) = g →
        ∃ t, exec (.mark t0) s = .next t ∧ t.chip.insts = (become s i f g).chip.insts ∧ (t.chip.coreSt i.core).lcache = []) ∧
      (∀ front e back, tt.entries = front ++ e :: back → (∀ x ∈ front, x.marker ≤ n → x.stage = 2) → e.marker ≤ n → e.stage ≠ 2 →
        (l.trap = true ∨ e.stage = 3 → exec (.mark t0) s = .next { become s i f h with 
          chip := ((become s i f h).chip.trace 3 i.core i.pid front.length 0).takeFault i.iid s.focus.idx (missFault n front.length e) }) ∧
        (l.trap = false → e.stage ≠ 3 → ∃ t, exec (.mark t0) s = .next t ∧
          t.chip.insts = (become s i f (holding h s.focus.idx (BitVec.ofNat 64 n) o.ta)).chip.insts ∧ t.chip.mem = s.chip.mem ∧
          t.chip.sumacq = s.chip.sumacq ++ [{
            tower := towerOf i.core, core := i.core, ev := 3, pid := i.pid, lin := s.chip.lin i.pid i.core, d2 := front.length }] ∧
          ((t.chip.part i.pid).launchAt i.core).map (·.misses) = some (min (l.misses + 1) (2 ^ 32 - 1))))))

namespace Sys2Proof.Claims

/-- The wait at the focus of a running block: its instruction has fired and holds its token. -/
structure Waits (s : State) (i : Inst) (f : Frame) (w : Wait) : Prop where
  here  : s.chip.inst? s.focus.iid = some i
  block : i.frame = some f
  runs  : i.state = .running
  held  : f.waits.find? (fun x => x.idx == s.focus.idx) = some w

/-- What each release event waits for (R149, R173, R174, R179, R211, R394), by the word that holds the wait: the timeline has reached n; the
write pointer is at or past n (a difference modulo 2^64 below 2^63); gather command t has completed, or runs with every bit of the mask set;
the channel's arrivals cover every post through this one; no entry is outstanding at the marker. -/
def released (s : State) (i : Inst) (f : Frame) (w : Wait) : Instr → Option Prop
  | .waittlRelease =>
    some (opOf (f.word w.idx) = 0x13B ∧ w.n.toNat ≤ ((s.chip.slot i.core i.pid).tls.getD (bits (f.word w.idx) 9 4) 0).toNat)
  | .wpwaitRelease => some (opOf (f.word w.idx) = 0x185 ∧
      ∃ k, (if bitAt (f.word w.idx) 12 then s.chip.peerCore i (f.slotB w.idx) else some i.core) = some k ∧
        (BitVec.ofNat 64 (s.chip.pointerSeen i.core k i.pid (bits (f.word w.idx) 9 2)) - w.n).msb = false)
  | .chkwaitRelease =>
    let sl := s.chip.slot i.core i.pid
    let t := ((f.cell w.idx).a.getD .null).value.toNat
    some (opOf (f.word w.idx) = 0x186 ∧ (t ≤ (sl.tls.getD 4 0).toNat ∨ ∃ q, (sl.eng 4).cmds.head? = some q ∧ q.started = true ∧ q.num = t ∧
      ∀ b < 64, w.n.getLsbD b = true → (sl.bitmap.getD (bits (f.word w.idx) 9 4) 0).testBit b = true))
  | .expectRelease => some (opOf (f.word w.idx) = 0x14A ∧ ∃ x ∈ (s.chip.slot i.core i.pid).cfg.chans,
      ∃ front p back, x.posts = front ++ p :: back ∧ p.1 = i.iid ∧ p.2.1 = w.idx ∧ (∀ y ∈ front, ¬(y.1 = i.iid ∧ y.2.1 = w.idx)) ∧
        x.cons + ((front ++ [p]).map fun y => y.2.2).sum ≤ x.arr)
  | .markRelease => some (opOf (f.word w.idx) = 0x155 ∧
      ∀ l tt, s.chip.ttAt i.core i.pid = some (l, tt) → ∀ e ∈ tt.entries, e.marker ≤ w.n.toNat → e.stage = 2)
  | _ => none

/-- The chip once a released wait has acquired at the scope of its word, at package scope for `MARK`, not at all for `EXPECT` (R41, R208): the
core's load cache is dropped, or, at instance scope, serves the instance no more. -/
def acquired (c : Chip) (i : Inst) (word : Nat) : Instr → Chip
  | .markRelease => c.modCore i.core fun k => { k with lcache := [] }
  | .expectRelease => c
  | _ => if bits word 13 3 = 0 then c.staleFor i.core i.iid else c.modCore i.core fun k => { k with lcache := [] }

end Sys2Proof.Claims

/-- R116, R148, R149, R173, R174, R179, R208, R211, R394. A wait is released when what it waits for has come, and not before: it leaves the
block, its acquire acts on the core's load cache, and its value is sent. A held `MARK` whose lowest outstanding entry has failed faults
instead. -/
def Obligations.WaitsAreReleased : Prop :=
  ∀ (s : State) (i : Inst) (f g : Frame) (w : Wait) (ins : Instr) (p : Prop), released s i f w ins = some p → Waits s i f w →
    (p → Frame.sendAll { f with waits := f.waits.filter (fun x => x.idx != w.idx), arrival := f.now } [t0Of (f.word w.idx)]
          (.val w.n w.taint) = g →
      exec ins s = .next { s with chip := (acquired s.chip i (f.word w.idx) ins).setFrame i.iid g }) ∧
    (¬p → ins ≠ .markRelease → exec ins s = .next s) ∧
    (ins = .markRelease → opOf (f.word w.idx) = 0x155 → ∀ l tt front e back, s.chip.ttAt i.core i.pid = some (l, tt) →
      tt.entries = front ++ e :: back → (∀ x ∈ front, x.marker ≤ w.n.toNat → x.stage = 2) → e.marker ≤ w.n.toNat →
      (e.stage = 3 → exec ins s = .next { s with chip := s.chip.takeFault i.iid w.idx (missFault w.n.toNat front.length e) }) ∧
      (e.stage ≠ 2 → e.stage ≠ 3 → exec ins s = .next s))

/-! ## Loops, launches, configurations and swaps -/

namespace Sys2Proof.Claims

/-- The iteration after an instance's (R242, R377): a READY instance of the same core, channel and launch with the tag of the next ITER, cleared
registers, the arguments given and the creator's rounding mode. The task of its channel gives it its block, class and slice (R365). -/
def nextIteration (c : Chip) (i : Inst) (args : List Tok) (j : Inst) : Prop :=
  j.iid = c.nextIid ∧ j.core = i.core ∧ j.pid = i.pid ∧ j.lid = i.lid ∧ j.chan = i.chan ∧ j.tag = i.tag + 1 ∧ j.args = args ∧
  j.creator = some i.iid ∧ j.state = .ready ∧ j.frame = none ∧ j.regs = Vector.replicate 32 {} ∧ j.fpc = { rm := i.fpc.rm, taint := i.fpc.taint } ∧
  ∀ h, c.handler i.core i.pid i.plane i.chan = some h → j.block = h.entry ∧ j.slice = h.slice ∧ j.cls = h.prio ∧ j.aging = h.age

/-- The block with the store ID of the instruction at the focus resolved. -/
def resolving (s : State) (f : Frame) : Frame :=
  { mark f s.focus.idx with resolved := f.resolved ++ [lsidOf (f.word s.focus.idx)] }

/-- Whether `ITER` is valid (R391): a loop body, as many arguments as the task has, an iteration number to come. -/
def iterValid (s : State) (i : Inst) (f : Frame) : Prop :=
  bitAt f.hdr 18 = true ∧ (f.data s.focus.idx).length = i.args.length ∧ i.tag % 2 ^ 26 ≠ 2 ^ 26 - 1

end Sys2Proof.Claims

/-- R242, R377, R391. `ITER` resolves its store ID as it fires and creates the next iteration at once, where the window and the places have room;
else, and in a block that writes FPC, the creation is deferred. An invalid `ITER` is `TK_TAG`. A deferred iteration is created as soon as there
is room. That a missing place or slice defers like a full window (notes/assumptions 44), and that the child's FPC keeps its creator's taint
bit (70), are the model's readings. -/
def Obligations.IterationsAreCreated : Prop :=
  (∀ (s : State) (i : Inst) (f : Frame) (n : BitVec 2), Fires s i f → f.onNull s.focus.idx = false →
    let t0 := become s i f (resolving s f)
    (¬iterValid s i f → exec (.iter n) s = .next (faults s i f s.focus.idx { cause := 0x7B })) ∧
    (iterValid s i f → lsidOf (f.word s.focus.idx) ∈ f.resolved → exec (.iter n) s = .next (faults s i f s.focus.idx { cause := 0x12 })) ∧
    (iterValid s i f → lsidOf (f.word s.focus.idx) ∉ f.resolved → (∀ w ∈ f.words, ¬(opOf w = 0x1C3 ∧ bits w 0 12 = 0)) →
      t0.chip.iterRoom i f.hdr = true →
      ∃ t j, exec (.iter n) s = .next t ∧ t.chip.insts = t0.chip.insts ++ [j] ∧ nextIteration s.chip i (f.data s.focus.idx) j ∧
        t.chip.nextIid = s.chip.nextIid + 1 ∧ t.chip.mem = s.chip.mem) ∧
    (iterValid s i f → lsidOf (f.word s.focus.idx) ∉ f.resolved →
      ((∃ w ∈ f.words, opOf w = 0x1C3 ∧ bits w 0 12 = 0) ∨ t0.chip.iterRoom i f.hdr = false) →
      ∃ t b, exec (.iter n) s = .next t ∧ t.chip.inst? i.iid = (t0.chip.inst? i.iid).map (fun j =>
        { j with deferred := j.deferred ++ [{ args := f.data s.focus.idx, atCommit := b }] }) ∧
        (b = true ↔ ∃ w ∈ f.words, opOf w = 0x1C3 ∧ bits w 0 12 = 0) ∧ t.chip.nextIid = s.chip.nextIid)) ∧
  (∀ (s : State) (i : Inst) (f : Frame) (d : Deferred), s.chip.inst? s.focus.iid = some i → i.frame = some f →
    i.deferred.find? (fun d => !d.atCommit) = some d →
    (s.chip.iterRoom i f.hdr = true → ∃ t j, exec .iterDeferredCreate s = .next t ∧
      t.chip.insts = (s.chip.modInst i.iid fun x => { x with deferred := x.deferred.erase d }).insts ++ [j] ∧ nextIteration s.chip i d.args j) ∧
    (s.chip.iterRoom i f.hdr = false → exec .iterDeferredCreate s = .next s))

namespace Sys2Proof.Claims

/-- The issuer that a command of an instance names. -/
def issuerOf (i : Inst) (idx : Nat) : Issuer :=
  { iid := i.iid, core := i.core, pid := i.pid, lid := i.lid, chan := i.chan, tag := i.tag, block := i.block, index := idx }

/-- An iteration of an instance's context beyond its own, on a core of the launch rectangle (R379). -/
def beyondOf (c : Chip) (i : Inst) (j : Inst) : Prop :=
  let (ox, oy, w, h) := c.rect i.pid i.core
  j.pid = i.pid ∧ j.core ∈ rectCores ox oy w h ∧ j.tag / 2 ^ 26 = i.tag / 2 ^ 26 ∧ i.tag % 2 ^ 26 < j.tag % 2 ^ 26

end Sys2Proof.Claims

/-- R112, R379. `SQUASH` at its turn: every later iteration of the context is gone from the launch's cores, or ended and awaiting only its
return values, and none that was still to be created is left; so are the later iterations' tokens, and each core keeps the bound. Other
instances stay as they are. The issuer's next block waits for the acknowledgements. That a deferred iteration of the same block goes too
(notes/assumptions 44), and that an iteration takes its own iterations with it (88), are the model's readings. -/
def Obligations.SquashDiscardsBeyond : Prop :=
  ∀ (s : State) (i : Inst) (f : Frame) (a : Act), Acts s i f a → a.null = false →
    let key := i.tag / 2 ^ 26
    let iter := i.tag % 2 ^ 26
    let p := s.chip.part i.pid
    ∃ t, exec .squash s = .next t ∧ t.turn = turnAfter s f a ∧
      (∀ j ∈ t.chip.insts, j.iid ≠ i.iid → beyondOf s.chip i j → j.state = .ended) ∧ (∀ j ∈ t.chip.insts, j.iid = i.iid → j.deferred = []) ∧
      (∀ j ∈ s.chip.insts, j.iid ≠ i.iid → (∀ x ∈ s.chip.insts, x.iid = j.iid → ¬beyondOf s.chip i x) → j ∈ t.chip.insts) ∧
      (let (ox, oy, w, h) := s.chip.rect i.pid i.core
       ∀ k ∈ rectCores ox oy w h,
         (∀ e ∈ (t.chip.slot k i.pid).mat.entries, e.tag / 2 ^ 26 = key → e.tag % 2 ^ 26 ≤ iter) ∧
         (∃ b, (t.chip.slot k i.pid).bounds.find? (fun x => x.1 == key) = some b ∧ b.2 ≤ iter)) ∧
      (t.chip.part i.pid).pends = p.pends ++
        [{ n := p.nextPend, kind := .squash (key / 2 ^ 12) (key % 2 ^ 12) iter, who := issuerOf i a.idx }]

namespace Sys2Proof.Claims

/-- The result word of a refused launch (R381). -/
def refusal (reason : Nat) : Word := BitVec.ofNat 64 (2 ^ 63 + reason * 2 ^ 56)

/-- The entry token of a core (R381): RAW, slot 0, on the entry channel, with the core's linear index as ORIG. -/
def entryOf (c : Chip) (i : Inst) (chan : Nat) (v : Word) (taint : Bool) (k : Nat) : Token :=
  { hdr := mkHdr (c.slot k i.pid).cfg.act taint 0 0 chan (c.lin i.pid k * 2 ^ 38), payload := v, pid := i.pid, dst := k, src := i.core,
    link := linkCode i.core k }

end Sys2Proof.Claims

/-- R363, R364, R368, R380, R381, R401, R413. `LAUNCH` at its turn. A descriptor or image that cannot be read (6), is malformed (3), routes
wrongly (4), finds no rectangle (1 and 5), asks for a CO-RESIDENT launch of no instance (3) or of more than a core has room for (2), or names
an entry channel without a task for it (3) launches nothing: its register gets the reason and nothing else changes. Otherwise the launch
stands under the partition's next LID, with its instances reserved if it is CO-RESIDENT, every core of its rectangle has the image as its
active plane with nothing armed and its contexts free, one entry token for each core waits in the outbound queue for its credit, and the
register gets LID and origin. The order of the reasons (notes/assumptions 45), the way of the entry tokens (73, 100) and their taint (89) are
the model's readings. -/
def Obligations.LaunchesPlaceAndStart : Prop :=
  ∀ (s : State) (i : Inst) (f : Frame) (a : Act) (sc : Scope) (trap cores ordered : Bool) (ret : Option (BitVec 5)),
    Acts s i f a → a.null = false →
    let o := actOperands a
    let r := o.b.toNat
    let refused (c : Chip) (n : Nat) : State := after s f a (c.returnVal i.iid ret (refusal n) o.taint)
    (∀ e c, (before s i f a).readDesc i.actor o.a.toNat 2 = (.error e, c) →
      exec (.launch sc trap cores ordered ret) s = .next (refused c 6)) ∧
    (∀ d c, (before s i f a).readDesc i.actor o.a.toNat 2 = (.ok d, c) →
      (launchBad (d.getD 1 0) r = true → exec (.launch sc trap cores ordered ret) s = .next (refused c 3)) ∧
      (launchBad (d.getD 1 0) r = false →
        (∀ e c2, c.readImage i.actor (d.getD 0 0) (bits r 16 3) (bits r 20 3) = (.error e, c2) →
          exec (.launch sc trap cores ordered ret) s = .next (refused c2 6)) ∧
        (∀ c2, c.readImage i.actor (d.getD 0 0) (bits r 16 3) (bits r 20 3) = (.ok none, c2) →
          exec (.launch sc trap cores ordered ret) s = .next (refused c2 3)) ∧
        (∀ g c2, c.readImage i.actor (d.getD 0 0) (bits r 16 3) (bits r 20 3) = (.ok (some g), c2) →
          (g.badRoute ≠ none → exec (.launch sc trap cores ordered ret) s = .next (refused c2 4)) ∧
          (∀ n, g.badRoute = none → (s.chip.part i.pid).placeLaunch g r = .error n →
            exec (.launch sc trap cores ordered ret) s = .next (refused c2 n)) ∧
          (∀ ox oy, g.badRoute = none → (s.chip.part i.pid).placeLaunch g r = .ok (ox, oy) →
            let p := s.chip.part i.pid
            let n := bits (d.getD 1 0) 48 16
            let l := rectCores ox oy (2 ^ g.lw) (2 ^ g.lh)
            let room := cores = true → n ≠ 0 ∧ ∀ k ∈ l, s.chip.residentRoom i.pid n g.bigSlice k = true
            (cores = true → n = 0 → exec (.launch sc trap cores ordered ret) s = .next (refused c2 3)) ∧
            (cores = true → n ≠ 0 → (∃ k ∈ l, s.chip.residentRoom i.pid n g.bigSlice k = false) →
              exec (.launch sc trap cores ordered ret) s = .next (refused c2 2)) ∧
            (room → g.entryOk (bits (d.getD 1 0) 0 7) = false → exec (.launch sc trap cores ordered ret) s = .next (refused c2 3)) ∧
            (room → g.entryOk (bits (d.getD 1 0) 0 7) = true → ∃ t l, exec (.launch sc trap cores ordered ret) s = .next t ∧ t.turn = turnAfter s f a ∧
              (t.chip.part i.pid).launches = p.launches ++ [l] ∧ (t.chip.part i.pid).nextLid = (p.nextLid + 1) % 2 ^ 16 ∧
              l.lid = p.nextLid ∧ l.ox = ox ∧ l.oy = oy ∧ l.lw = g.lw ∧ l.lh = g.lh ∧ l.ordered = ordered ∧ l.trap = trap ∧ l.tt = none ∧
              l.cores = cores ∧ l.ninst = n ∧ l.resSlice = n * g.bigSlice ∧
              (∀ k ∈ rectCores ox oy (2 ^ g.lw) (2 ^ g.lh), (s.chip.slot k i.pid).cfg.act < 2 →
                let h := t.chip.slot k i.pid
                h.cfg.active = g.plane ox oy ∧ h.cfg.armed = false ∧ h.cfg.sw = .active ∧ h.ctx = [] ∧ h.bounds = []) ∧
              t.chip.flights = s.chip.flights ∧
              (t.chip.slot i.core i.pid).outq = (s.chip.slot i.core i.pid).outq ++ [{
                tokens := (rectCores ox oy (2 ^ g.lw) (2 ^ g.lh)).map (entryOf t.chip i (bits (d.getD 1 0) 0 7) o.c o.taint) }] ∧
              t.chip.vals = s.chip.vals ++ returned i ret (BitVec.ofNat 64 (p.nextLid * 2 ^ 32 + oy * 2 ^ 8 + ox)) o.taint)))))

namespace Sys2Proof.Claims

/-- The partitions that a swap names to go out and to come in (R441). -/
def swapOf (o : Operands) : Instr → Option (Option Nat × Option Nat × Bool × BitVec 7)
  | .pswapOut c d => some (some (o.a.extractLsb' 0 8).toNat, none, d, c)
  | .pswapIn c d => some (none, some (o.a.extractLsb' 0 8).toNat, d, c)
  | .pswapXchg c d => some (some (o.a.extractLsb' 0 8).toNat, some (o.b.extractLsb' 0 8).toNat, d, c)
  | _ => none

/-- Every core of a partition's region has its slot in a state. -/
def allIn (c : Chip) (pid : Nat) (st : PState) : Prop := ∀ k ∈ (c.part pid).cores, (c.slot k pid).pstate = st

/-- Whether a swap may go ahead (R441): what goes out exists, is not the issuer's own and runs; what comes in exists and is out, its slot is not
occupied, or for `.xchg` the two share a slot number and a region. -/
def swapAllowed (c : Chip) (own : Nat) : Option Nat → Option Nat → Prop
  | some a, none => c.hasPart a = true ∧ a ≠ own ∧ allIn c a .run
  | none, some b => c.hasPart b = true ∧ allIn c b .out ∧ c.slotTaken (c.part b) = false
  | some a, some b =>
    c.hasPart a = true ∧ a ≠ own ∧ allIn c a .run ∧ c.hasPart b = true ∧ allIn c b .out ∧
      (let p := c.part a
       let q := c.part b
       p.slot = q.slot ∧ p.ox = q.ox ∧ p.oy = q.oy ∧ p.w = q.w ∧ p.h = q.h)
  | none, none => False

/-- The first command of a partition's sequencer that has not started. -/
def nextInSequence (p : Part) (q : Cmd) (k : Nat) : Prop :=
  p.cfgq[k]? = some q ∧ q.started = false ∧ ∀ j x, j < k → p.cfgq[j]? = some x → x.started = true

end Sys2Proof.Claims

/-- R353, R370, R371, R392, R400, R441. Configuration commands, `CRANGE` and swaps at their turn. `CFGLD` joins the sequencer's queue with its
region's cores and changes no core yet. `CFGSW` that finds nothing waiting before it starts at once where every core of its region is armed and no switch
is pending there, which brings them to DRAINING; otherwise it fails with `CF_STATE` and changes no core. `CRANGE` enters its buffer in the range table.
A swap that R441 allows is under way; one that it does not fails with `PS_STATE`. -/
def Obligations.SequencerAndSwaps : Prop :=
  ∀ (s : State) (i : Inst) (f : Frame) (a : Act), Acts s i f a → a.null = false →
    let o := actOperands a
    let p := s.chip.part i.pid
    let sl := s.chip.slot i.core i.pid
    (∀ dch dn cores, s.chip.subRect i o.b.toNat = some cores → (∀ q k, nextInSequence p q k → q.op ≠ .cfgsw) →
      ∃ t q, exec (.cfgld dch dn) s = .next t ∧ t.turn = turnAfter s f a ∧ (t.chip.part i.pid).cfgq = p.cfgq ++ [q] ∧
        q.op = .cfgld ∧ q.a = o.a ∧ q.extra = cores ∧ q.dn = dn ∧ q.dch = dch.toNat ∧ q.started = false ∧ q.who = issuerOf i a.idx ∧
        (∀ k n, (t.chip.slot k n).cfg = (s.chip.slot k n).cfg) ∧
        (t.chip.slot i.core i.pid).mat.reserved = sl.mat.reserved + (if dn then 1 else 0)) ∧
    (∀ dch dn cores, s.chip.subRect i o.a.toNat = some cores → (∀ q ∈ p.cfgq, q.started = true) →
      ((∀ k ∈ cores, (s.chip.slot k i.pid).cfg.sw = .active ∧ (s.chip.slot k i.pid).cfg.armed = true) →
        ∃ t q, exec (.cfgsw dch dn) s = .next t ∧ t.turn = turnAfter s f a ∧ (t.chip.part i.pid).cfgq = p.cfgq ++ [q] ∧ q.op = .cfgsw ∧
          q.started = true ∧ q.parts = cores ∧ q.dn = dn ∧ q.dch = dch.toNat ∧
          ∀ k ∈ cores, (t.chip.slot k i.pid).cfg = { (s.chip.slot k i.pid).cfg with sw := .draining }) ∧
      ((∃ k ∈ cores, (s.chip.slot k i.pid).cfg.sw ≠ .active ∨ (s.chip.slot k i.pid).cfg.armed = false) →
        ∃ t, exec (.cfgsw dch dn) s = .next t ∧ (t.chip.part i.pid).cfgq = p.cfgq ∧ (∀ k n, (t.chip.slot k n).cfg = (s.chip.slot k n).cfg) ∧
          t.chip.flights = s.chip.flights ++
            (if dn then [doneToken s.chip (issuerOf i a.idx) dch.toNat (donePayload true 7 0 0)] else []) ∧
          (p.canTrap = true → ∃ r, (t.chip.slot i.core i.pid).recs.wait = sl.recs.wait ++ [(sl.recs.next, r)] ∧ r.cause = 0x7E ∧ r.eng = true))) ∧
    (∀ num spans c, 0 < o.b.toNat → o.b.toNat ≤ 2 ^ 36 → p.freeRange = some num →
      (before s i f a).spans i.actor .read (o.a.toNat / 64 * 64) ((o.a.toNat + o.b.toNat + 63) / 64 * 64 - o.a.toNat / 64 * 64) = (.ok spans, c) →
      exec .crange s = .next (after s f a (c.setPart { p with
          ranges := p.ranges ++ [{ num, owner := .coll i.core 0, va := o.a.toNat, len := o.b.toNat, spans }] }))) ∧
    (∀ ins out inn dn dch, swapOf o ins = some (out, inn, dn, dch) →
      (swapAllowed s.chip i.pid out inn → ∃ t, exec ins s = .next t ∧ t.turn = turnAfter s f a ∧
        (t.chip.part i.pid).pends = p.pends ++ [{ n := p.nextPend, kind := .pswap out inn dn dch.toNat, who := issuerOf i a.idx }] ∧
        (t.chip.slot i.core i.pid).mat.reserved = sl.mat.reserved + (if dn then 1 else 0)) ∧
      (¬swapAllowed s.chip i.pid out inn → ∃ t, exec ins s = .next t ∧ (t.chip.part i.pid).pends = p.pends ∧
        t.chip.flights = s.chip.flights ++
          (if dn then [doneToken s.chip (issuerOf i a.idx) dch.toNat (donePayload true 7 0 0)] else []) ∧
        (p.canTrap = true → ∃ r, (t.chip.slot i.core i.pid).recs.wait = sl.recs.wait ++ [(sl.recs.next, r)] ∧ r.cause = 0x09)))

namespace Sys2Proof.Claims

/-- The DONE tokens of a configuration command that completes (R392), under a plane of the issuing core. -/
def configDone (plane : Nat) (q : Cmd) : List Token :=
  if q.dn then [{ hdr := mkHdr plane false 5 0 q.dch q.who.tag, payload := donePayload false 7 0 0, pid := q.who.pid, dst := q.who.core,
                  src := q.who.core, resv := true }] else []

end Sys2Proof.Claims

/-- R151, R368 to R372, R382, R392, R459. The events of configurations and launches. A `CFGLD` that completes leaves its image in the shadow
plane of every core of its region, armed, and the active plane alone. A DRAINING core with no token and no instance of its active plane enters SWITCHING; a
SWITCHING core exchanges its planes and is ACTIVE, nothing armed. The `CFGSW` whose last core has switched sends its DONE token, under the plane
that the issuing core had active at the last exchange. A launch with
nothing left ends and sends its own, once its timetable is gone. What counts as left (notes/assumptions 16), and that an image is held to the
quotas it names and to no minimum of R398 (46), are the model's readings. -/
def Obligations.ConfigurationEvents : Prop :=
  ∀ (s : State),
    let pid := s.focus.pid
    let k := s.focus.core
    let p := s.chip.part pid
    let g := (s.chip.slot k pid).cfg
    let runs := (s.chip.slot k pid).pstate = .run
    (∀ q n m c, nextInSequence p q n → q.op = .cfgld → (∀ x ∈ q.extra, (s.chip.slot x pid).cfg.sw = .active) →
      (s.chip.seqDrop pid n).readImage (q.actor q.who.core pid) q.a.toNat (q.desc2.getD 2 0) (q.desc2.getD 3 0) = (.ok (some m), c) →
      p.holdsQuotas m = true → m.badRoute = none →
      ∃ t l, exec .cfgldComplete s = .next t ∧ t.chip.flights = s.chip.flights ++ configDone (s.chip.slot q.who.core q.who.pid).cfg.act q ++ l ∧
        ∀ x ∈ q.extra, (s.chip.slot x pid).cfg.act < 2 →
          let h := (t.chip.slot x pid).cfg
          h.armed = true ∧ h.act = (s.chip.slot x pid).cfg.act ∧ h.shadow = m.plane (q.desc2.getD 0 0) (q.desc2.getD 1 0) ∧
            h.active = (s.chip.slot x pid).cfg.active) ∧
    (runs → g.sw = .draining → s.chip.planeTokens k pid = 0 → s.chip.planeInsts k pid = 0 →
      exec .cfgswDrainEnd s = .next { s with chip := s.chip.modSlot k pid fun x => { x with cfg := { g with sw := .switching } } }) ∧
    ((g.sw ≠ .draining ∨ s.chip.planeTokens k pid ≠ 0 ∨ s.chip.planeInsts k pid ≠ 0) → exec .cfgswDrainEnd s = .next s) ∧
    (runs → g.sw = .switching → g.act < 2 → ∃ t, exec .planeExchange s = .next t ∧
      let h := (t.chip.slot k pid).cfg
      h.act = 1 - g.act ∧ h.armed = false ∧ h.sw = .active ∧ h.eos = [] ∧ h.active = g.shadow ∧
        h.shadow = { g.active with routes := [] } ∧ (t.chip.slot k pid).mat.held = [] ∧
        (∀ q ∈ (t.chip.part pid).cfgq, q.started = true → k ∉ q.parts) ∧
        (∀ (n : Nat) (q : Cmd), p.cfgq[n]? = some q → q.started = true → q.parts ≠ [] → (∀ x ∈ q.parts, x = k) →
          ∃ r : Cmd, (t.chip.part pid).cfgq[n]? = some r ∧ r.parts = [] ∧ r.w0 = (t.chip.slot q.who.core pid).cfg.act)) ∧
    (∀ (q : Cmd) (n : Nat), p.cfgq[n]? = some q → q.started = true → q.parts = [] →
      (∀ j x, j < n → p.cfgq[j]? = some x → x.started = false ∨ x.parts ≠ []) →
      ∃ t, exec .cfgswComplete s = .next t ∧ (t.chip.part pid).cfgq = p.cfgq.eraseIdx n ∧
        t.chip.flights = s.chip.flights ++ configDone q.w0 q ∧ t.chip.mem = s.chip.mem) ∧
    (∀ l, p.launch s.focus.n = some l →
      ((∀ c ∈ l.coreList, s.chip.holdsLaunch pid c = false) → l.tt = none →
        ∃ t, exec .launchEnd s = .next t ∧ (t.chip.part pid).launches = p.launches.filter (fun m => m.lid != s.focus.n) ∧
          t.chip.flights = s.chip.flights ++
            (if l.nt then [doneToken s.chip l.who l.nch (donePayload false 7 0 s.focus.n)] else [])) ∧
      ((∀ c ∈ l.coreList, s.chip.holdsLaunch pid c = false) → l.tt ≠ none → l.ending = false →
        exec .launchEnd s = .next { s with chip := s.chip.setPart (p.setLaunch { l with ending := true }) }) ∧
      ((∃ c ∈ l.coreList, s.chip.holdsLaunch pid c = true) → exec .launchEnd s = .next s))

/-! ## The life of blocks and tokens -/

namespace Sys2Proof.Claims

/-- The instance at the focus is to begin a block (R99, R404): it runs, holds none yet and awaits no operation. -/
structure Wants (s : State) (i : Inst) : Prop where
  here  : s.chip.inst? s.focus.iid = some i
  runs  : i.state = .running
  block : i.frame = none
  free  : i.holds = []

/-- The block of an instance, as its core has it mapped. -/
def mappedBlock (c : Chip) (i : Inst) : Option Mapped := (c.coreSt i.core).blocks.find? fun m => m.pid == i.pid && m.addr == i.block

/-- R109: every register write has arrived, every store ID of the header is resolved, the branch is taken. -/
def done (f : Frame) : Prop := f.writes.length = bits f.hdr 11 5 ∧ (∀ n < bits f.hdr 6 5, n ∈ f.resolved) ∧ f.branch ≠ none

/-- R113: nothing is left that could complete the block. -/
def stuck (i : Inst) (f : Frame) : Prop :=
  f.clash = [] ∧ f.waits = [] ∧ f.loads = [] ∧ (∀ r ∈ i.regs.toList, r.pend = false) ∧ ∀ k < f.words.length, i.canFire f k = false

/-- R112, R159, R377, R400, R401, R438: a completed block may commit; one with a `CRANGE` waits for the partition's `.sc` atomics and for its
copies to be between chunks, one with a `.sc` atomic for the `CRANGE` of a committing block (notes/assumptions 96). -/
def commits (s : State) (i : Inst) (f : Frame) : Prop :=
  i.state = .complete ∧ (s.chip.slot i.core i.pid).pstate = .run ∧ i.creator = none ∧
  (∀ g ∈ f.needsRegs f.doings, (i.regs.toList.getD g {}).pend = false) ∧ s.chip.queuesTake i f.doings = true ∧ s.chip.storesTake i f.doings = true ∧
  (s.chip.scWaits i.pid = true ∨ s.chip.midCopy i.pid = true → ∀ d ∈ f.doings, d.ins ≠ .crange) ∧
  (s.chip.crangeDue i.pid = true → ∀ d ∈ f.doings, ¬(0x12E ≤ opOf (f.word d.act.idx) ∧ opOf (f.word d.act.idx) ≤ 0x139))

/-- A word of a sub-rectangle that an operation may name (R363). -/
def boxOk (c : Chip) (i : Inst) (w : Nat) : Prop :=
  let r := c.rect i.pid i.core
  let lw := w / 2 ^ 16 % 8
  let lh := w / 2 ^ 20 % 8
  let dx := w % 32
  let dy := w / 2 ^ 8 % 32
  w / 2 ^ 23 = 0 ∧ w / 2 ^ 19 % 2 = 0 ∧ w / 2 ^ 13 % 8 = 0 ∧ w / 2 ^ 5 % 8 = 0 ∧ lw ≤ 5 ∧ lh ≤ 5 ∧ 2 ^ lw ∣ dx ∧ 2 ^ lh ∣ dy ∧
    dx + 2 ^ lw ≤ r.2.2.1 ∧ dy + 2 ^ lh ≤ r.2.2.2

/-- The core that a route names for a sender lies in its rectangle (R366): relative to the sender, or absolute. -/
def routeInside (c : Chip) (i : Inst) (e : Nat) : Prop :=
  let r := c.rect i.pid i.core
  let dx := e / 2 ^ 19 % 64
  let dy := e / 2 ^ 25 % 64
  let signed := fun (v : Nat) => if 32 ≤ v then (v : Int) - 64 else v
  let x : Int := if e / 2 ^ 31 % 2 = 1 then coreX i.core + signed dx else dx
  let y : Int := if e / 2 ^ 31 % 2 = 1 then coreY i.core + signed dy else dy
  (r.1 : Int) ≤ x ∧ x < r.1 + r.2.2.1 ∧ (r.2.1 : Int) ≤ y ∧ y < r.2.1 + r.2.2.2

/-- A destination word that `SPAWN` may name (R387). -/
def spawnOk (c : Chip) (i : Inst) (w : Nat) : Prop :=
  let r := c.rect i.pid i.core
  let dx := w / 2 ^ 16 % 32
  let dy := w / 2 ^ 24 % 32
  w / 2 ^ 29 = 0 ∧ w / 2 ^ 21 % 8 = 0 ∧ w / 2 ^ 7 % 32 = 0 ∧ w % 128 < 126 ∧
    (if w / 2 ^ 15 % 2 = 1 then dx = 0 ∧ dy = 0 else dx < r.2.2.1 ∧ dy < r.2.2.2)

/-- A tag whose context `TAGFREE` may return (R390). -/
def tagOk (c : Chip) (i : Inst) (w : Nat) : Prop :=
  let r := c.rect i.pid i.core
  w / 2 ^ 48 = 0 ∧ w / 2 ^ 26 % 2 ^ 12 ≠ 0 ∧ w / 2 ^ 38 < r.2.2.1 * r.2.2.2

/-- The fields of a quota or placement register (R432). -/
def quotaFields (n v : Nat) : Prop :=
  match n with
  | 0x030 => v / 2 ^ 21 = 0 ∧ v / 2 % 2 ^ 11 = 0
  | 0x040 => v / 2 ^ 38 = 0 ∧ v / 2 ^ 5 % 2 ^ 27 = 0 ∧ v / 2 ^ 32 + v % 32 ≤ 32
  | 0x041 => v / 2 ^ 37 = 0 ∧ v / 2 ^ 4 % 2 ^ 28 = 0 ∧ v / 2 ^ 32 + v % 16 ≤ 16
  | 0x042 => v / 2 ^ 40 = 0 ∧ v / 2 ^ 7 % 2 ^ 25 = 0 ∧ v / 2 ^ 32 + v % 128 ≤ 128
  | 0x043 => v ≤ 8
  | 0x044 => v / 2 ^ 60 = 0 ∧ v / 2 ^ 43 % 32 = 0 ∧ v / 2 ^ 24 % 256 = 0 ∧ v / 2 ^ 14 % 4 = 0 ∧ v / 2 ^ 48 ≤ 2048 ∧ v / 2 ^ 32 % 2 ^ 11 ≤ 1024 ∧
      v / 2 ^ 16 % 256 ≤ 128 ∧ v % 2 ^ 14 ≤ 8192
  | _ => False

/-- Two ranges of units have a unit in common. -/
def overlap (a m b n : Nat) : Prop := ∃ u, a ≤ u ∧ u < a + m ∧ b ≤ u ∧ u < b + n

/-- What R433 asks of a partition with the registers that it would have: no launch; on every core of its region the tiles, matching-store
slots, frames, places and slice memory of the resident slots within a core's totals; no scratchpad or cluster range that meets that of a
partition with a core in common, no tower range that meets any; and the record area inside QSPAD while it is valid. -/
def quotaHolds (c : Chip) (p : Part) : Prop :=
  let others := fun core => c.parts.filter fun q => q.pid != p.pid && c.resident q.pid core
  let total := fun core (g : Part → Nat) => g p + ((others core).map g).sum
  let field := fun (n lo w : Nat) (q : Part) => q.reg n / 2 ^ lo % 2 ^ w
  p.launches = [] ∧
  (∀ core ∈ p.cores, total core (field 0x043 0 4) ≤ 32 ∧ total core (field 0x044 0 14) ≤ 8192 ∧ total core (field 0x044 16 8) ≤ 128 ∧
    total core (field 0x044 32 11) ≤ 1024 ∧ total core (field 0x044 48 12) ≤ 2048) ∧
  (∀ q ∈ c.parts, q.pid ≠ p.pid →
    ¬overlap (field 0x042 0 7 p) (field 0x042 32 8 p) (field 0x042 0 7 q) (field 0x042 32 8 q) ∧
    ((p.ox < q.ox + q.w ∧ q.ox < p.ox + p.w ∧ p.oy < q.oy + q.h ∧ q.oy < p.oy + p.h) →
      ¬overlap (field 0x040 0 5 p) (field 0x040 32 6 p) (field 0x040 0 5 q) (field 0x040 32 6 q) ∧
      ¬overlap (field 0x041 0 4 p) (field 0x041 32 5 p) (field 0x041 0 4 q) (field 0x041 32 5 q))) ∧
  (p.reg 0x030 % 2 = 1 → (p.reg 0x030 / 2 ^ 12 % 2 ^ 9 + 1) * 4096 ≤ field 0x040 32 6 p * 65536)

/-- How many counters a group has (R434). -/
def groupSize : Nat → Nat
  | 0 | 1 | 2 | 3 => 18
  | 8 => 9
  | 9 => 6
  | 10 => 29
  | 11 => 1
  | 12 => 3
  | _ => 0

/-- What the check of an action before its block commits answers, for the chip that the lower store IDs leave (R193, R217). -/
def refusedAsStated (c : Chip) (i : Inst) (f : Frame) (d : Doing) : Prop :=
  let o := d.ops
  let a := o.a.toNat
  let b := o.b.toNat
  let out := (c.checkDoing i f d).1
  let c' := (c.checkDoing i f d).2
  let yields := fun (ok : Prop) (e : AFault) => (ok → out = none) ∧ (¬ok → out = some e)
  let denied := fun (k : AKind) (ea n : Nat) => match (c.access i.actor k true ea n).1 with
    | .error e => some e
    | .ok _ => none
  let dest : AFault := { cause := 0x7A }
  let route := fun (r tag : Nat) => (c.slot i.core i.pid).cfg.active.routes[r]? ≠ none ∧ tag / 2 ^ 48 = 0
  let inside := fun (r : Nat) => ∀ e, (c.slot i.core i.pid).cfg.active.routes[r]? = some e → routeInside c i e
  let quota := fun (r : BitVec 12) => r.toNat ∈ [0x030, 0x040, 0x041, 0x042, 0x043, 0x044] →
    let p := (c.part i.pid).setReg r.toNat o.a false
    yields (quotaFields r.toNat a ∧ quotaHolds c p) { cause := 0x06 } ∧ (out = none → c.hasPart i.pid = true → (c'.part i.pid).reg r.toNat = a)
  let slotted := a ≠ 0 ∧ a < 2 ^ 11 ∧ (c.part i.pid).reg (0x060 + a / 64) / 2 ^ (a % 64) % 2 = 1
  (∀ size ea nt, storeForm d.ins = some (size, ea, nt) → out = denied .write (ea o.a) size ∧
    (ea o.a % size ≠ 0 → out = some { cause := 0x23, addr := ea o.a })) ∧
  (∀ g scope wide r, atomicForm d.ins = some (g, scope, wide, r) →
    let n := if wide then 8 else 4
    let ea := a
    (ea % n ≠ 0 → out = some { cause := 0x23, addr := ea }) ∧
    (∀ e, (c.access i.actor .atomic true ea n).1 = .error e → out = some e) ∧
    (∀ pl, (c.access i.actor .atomic true ea n).1 = .ok pl → yields (pl.home = .host → g.pcie = true) { cause := 0x53, addr := ea })) ∧
  (isSc d.ins = true →
    let n := if bits (f.word d.act.idx) 9 4 = 1 then 8 else 4
    (a % n ≠ 0 → out = some { cause := 0x23, addr := a }) ∧
    (∀ e, (c.access i.actor .atomic true a n).1 = .error e → out = some (if e.cause = 0x33 then { cause := 0x53, addr := a } else e)) ∧
    (∀ pl, (c.access i.actor .atomic true a n).1 = .ok pl →
      yields (pl.home = .dram ∧ ∀ t, pl.tier = some t → 3 ≤ t) { cause := 0x53, addr := a })) ∧
  (match d.ins with
    | .spawn _ _ => yields (spawnOk c i a) dest
    | .send r => yields (route r.toNat b ∧ inside r.toNat) dest
    | .sendm r => yields (route r.toNat b ∧ boxOk c i o.c.toNat) dest
    | .eos r => yields (route r.toNat a ∧ inside r.toNat) dest
    | .tagfree => yields (tagOk c i a) { cause := 0x7B }
    | .cfgld _ _ => yields (boxOk c i b) dest
    | .cfgsw _ _ => yields (boxOk c i a) dest
    | .swr r => quota r
    | .quotaWrite r => quota r
    | .pclrClear => yields (a % 256 < groupSize (a / 256 % 256) ∨ (a % 256 = 255 ∧ groupSize (a / 256 % 256) ≠ 0)) { cause := 0x04, info0 := 0x090 }
    | .keyldLd => (¬slotted → out = some { cause := 0x07, addr := b, info0 := a }) ∧
        (slotted → (∀ e x, c.keyImage i b = (.error e, x) → out = some e) ∧ ∀ bs x, c.keyImage i b = (.ok bs, x) →
          yields (Crypto.unwrap (Crypto.beBytes 32 (c.part i.pid).wrapKey) bs ≠ none) { cause := 0x08, addr := b, info0 := a })
    | .keyldClr => yields slotted { cause := 0x07, info0 := a }
    | .crange =>
        let base := a / 64 * 64
        let free := ∃ n, 1 ≤ n ∧ n ≤ 64 ∧ ∀ r ∈ (c.part i.pid).ranges, r.num ≠ n
        ((b = 0 ∨ 2 ^ 36 < b) → out = some { cause := 0x70 }) ∧
        (1 ≤ b → b ≤ 2 ^ 36 → ¬free → out = some { cause := 0x52 }) ∧
        (1 ≤ b → b ≤ 2 ^ 36 → free → out = match (c.spans i.actor .read base ((a + b + 63) / 64 * 64 - base)).1 with
          | .error e => some e
          | .ok _ => none)
    | .cred _ _ _ wide =>
        let n := if wide then 8 else 4
        (a % n ≠ 0 → out = some { cause := 0x23, addr := a }) ∧
        (a % n = 0 → 2 ^ 52 ≤ a → (windowRule c i.actor .write a = .error 0x20 → out = some { cause := 0x20, addr := a }) ∧
          (windowRule c i.actor .write a ≠ .error 0x20 → out = some { cause := 0x53, addr := a })) ∧
        (a % n = 0 → a < 2 ^ 52 → (∀ e x, c.translate i.core i.pid a = (.error e, x) → out = some e) ∧
          ∀ u x, c.translate i.core i.pid a = (.ok u, x) → u.base ≤ a →
            (∀ e, leafRule c i.pid .write a (levelOf u.size) u.entry (a - u.base) = .error e → out = some e) ∧
            (∀ pl, leafRule c i.pid .write a (levelOf u.size) u.entry (a - u.base) = .ok pl →
              ((pl.home = .host ∨ u.entry / 2 ^ 7 % 2 = 1) → out = some { cause := 0x53, addr := a }) ∧
              (pl.home ≠ .host → u.entry / 2 ^ 7 % 2 = 0 → out = match (x.access i.actor .write true a n).1 with
                | .error e => some e
                | .ok _ => none)))
    | ins => storeForm ins = none → atomicForm ins = none → isSc ins = false → out = none)

/-- What the checks of a list of actions find, each for the chip that those before it leave. -/
def findings (i : Inst) (f : Frame) : List Doing → Chip → List (Nat × AFault)
  | [], _ => []
  | d :: l, c => ((c.checkDoing i f d).1.map fun e => (d.act.idx, e)).toList ++ findings i f l (c.checkDoing i f d).2

/-- What the check of a branch answers (R386, R427): the tag of `EXIT.free`, and the handle of an `ERET`; what `.rv` writes may meet poison. -/
def branchRefused (c : Chip) (i : Inst) (f : Frame) (b : Branch) : Prop :=
  let out := c.checkBranch i f b
  let lost := b.handle ≠ 0 ∧ c.byHandle i.core i.pid b.handle = none
  match f.instrOf b.idx with
  | some (.exit true) => (tagOk c i i.tag → out = none) ∧ (¬tagOk c i i.tag → out = some { cause := 0x7B })
  | some .eretRes | some .eretGo | some .eretKill => (lost → out = some { cause := 0x05 }) ∧ (¬lost → out = none)
  | some .eretRv => (lost → out = some { cause := 0x05 }) ∧ (∀ e, ¬lost → out = some e → e.cause = 0x0A)
  | _ => out = none

end Sys2Proof.Claims

/-- R7, R47, R49, R99, R109, R110, R112 to R115, R153, R193, R241, R242, R377, R445. A block from mapping to commit. A mapped block begins at
once; another is fetched, checked and mapped, in a cache whose oldest blocks give way (notes/assumptions 7), or faults (address, access,
form). A block with everything done is complete: what has not fired, its waits with their markers and its loads go. One that can no longer
complete raises `BLK_INCOMPLETE`. A complete block commits when nothing it needs is missing: with a failing check it is discarded and the
lowest instruction's fault taken (what refuses an action is stated action by action, each for the chip that the lower store IDs leave, then
the branch's check and the writes of registers in poisoned lines); else its registers are written, its flags join FPC, and its actions follow in store-ID order, each with
the place that its check found (96), then its branch. A return value that arrives fills its register; one whose register lies in a poisoned
line of the slice raises `MC_POISON` in the block of its instance and comes again, or waits while there is none: the model's choice
(notes/assumptions 53). -/
def Obligations.BlocksLiveAndCommit : Prop :=
  (∀ (s : State) (i : Inst), Wants s i →
    (∀ m, mappedBlock s.chip i = some m → exec .blockMap s = .next { s with chip := s.chip.setFrame i.iid (freshFrame m) }) ∧
    (mappedBlock s.chip i = none →
      (i.block % 8 ≠ 0 → exec .blockMap s = .next { s with chip := s.chip.takeFault i.iid 0 { cause := 0x23, addr := i.block } }) ∧
      (i.block % 8 = 0 → inWindow i.block = true →
        exec .blockMap s = .next { s with chip := s.chip.takeFault i.iid 0 { cause := 0x25, addr := i.block } }) ∧
      (i.block % 8 = 0 → 2 ^ 52 ≤ i.block → inWindow i.block = false →
        exec .blockMap s = .next { s with chip := s.chip.takeFault i.iid 0 { cause := 0x20, addr := i.block } }) ∧
      (i.block % 8 = 0 → i.block < 2 ^ 52 →
        (∀ e c, s.chip.fetchBlock i i.block = (.error e, c) → exec .blockMap s = .next { s with chip := c.takeFault i.iid 0 e }) ∧
        (∀ hdr pad ws c, s.chip.fetchBlock i i.block = (.ok (hdr, pad, ws), c) →
          (∀ m, checkBlock hdr pad ws = some m →
            exec .blockMap s = .next { s with chip := c.takeFault i.iid m.idx { cause := 0x10, sub := m.sub, info0 := m.info } }) ∧
          (checkBlock hdr pad ws = none →
            let m : Mapped := { pid := i.pid, addr := i.block, hdr, words := ws }
            let d := c.modCore i.core fun k => { k with blocks := fitMap (k.blocks ++ [m]) }
            exec .blockMap s = .next { s with chip := d.setFrame i.iid (freshFrame m) }))))) ∧
  (∀ (s : State) (i : Inst) (f : Frame), s.chip.inst? s.focus.iid = some i → i.frame = some f → i.state = .running →
    (done f → ∃ t, exec .blockComplete s = .next t ∧
      t.chip.insts = (s.chip.modInst i.iid fun j => { j with state := .complete, frame := some { f with loads := [], waits := [], marks := f.marksLeft } }).insts ∧
      t.chip.mem = s.chip.mem ∧ t.chip.parts = s.chip.parts) ∧
    (¬done f → exec .blockComplete s = .next s) ∧
    (¬done f → stuck i f → exec .blkIncomplete s = .next { s with chip := s.chip.takeFault i.iid 0 { cause := 0x15 } }) ∧
    (done f ∨ ¬stuck i f → exec .blkIncomplete s = .next s)) ∧
  (∀ (s : State) (i : Inst) (f : Frame), s.chip.inst? s.focus.iid = some i → i.frame = some f →
    (¬commits s i f → exec .blockCommit s = .next s) ∧
    (commits s i f → ∀ bad c, s.chip.checkAll i f = (bad, c) →
      (∀ front k e back, bad = front ++ (k, e) :: back → (∀ x ∈ front, k < x.1) → (∀ x ∈ back, k ≤ x.1) →
        exec .blockCommit s = .next { s with chip := c.takeFault i.iid k e }) ∧
      (bad = [] → s.chip.mem.wf = true → ∃ t acts, exec .blockCommit s = .next t ∧
        List.Perm acts (f.acts.map fun a => { a with place := c.placeOf i f a }) ∧ acts.Pairwise (fun x y => x.lsid ≤ y.lsid) ∧
        t.turn = (match acts.head?, f.branch with
          | some b, _ => some (.word { s.focus with core := i.core, pid := i.pid, idx := b.idx, phase := .commit })
          | none, some b => some (.word { s.focus with core := i.core, pid := i.pid, idx := b.idx, phase := .commit })
          | none, none => none) ∧
        (let j := t.chip.inst i.iid
         j.state = .committing ∧ j.frame = some { f with acts } ∧
         j.fpc = { i.fpc with flags := i.fpc.flags.or f.flags, taint := i.fpc.taint || f.fpTaint } ∧
         ∀ r < 32, (∀ front v tt back, f.writes ++ f.linkWrite = front ++ (r, .val v tt) :: back → (∀ x ∈ back, x.1 % 32 = r → x.2 = .null) →
             j.regs.toList.getD r {} = { v := v, taint := tt, pend := false }) ∧
           ((∀ x ∈ f.writes ++ f.linkWrite, x.1 % 32 = r → x.2 = .null) → j.regs.toList.getD r {} = i.regs.toList.getD r {})) ∧
        (∀ k, k ≠ i.iid → t.chip.inst? k = s.chip.inst? k) ∧ (∀ x, t.chip.mem.get x &&& 0x9F = s.chip.mem.get x &&& 0x9F)))) ∧
  (∀ (c : Chip) (i : Inst) (f : Frame) (d : Doing), d ∈ f.doings → refusedAsStated c i f d) ∧
  (∀ (c : Chip) (i : Inst) (f : Frame), (∀ b, f.branch = some b → branchRefused c i f b) ∧
    (c.checkAll i f).1 = findings i f f.doings c ++ (match f.branch with
      | some b => ((c.checkBranch i f b).map fun e => (b.idx, e)).toList
      | none => []) ++ c.poisonedWrites i f) ∧
  (∀ (s : State) (v : PendVal) (i : Inst), s.chip.vals[s.focus.n]? = some v → s.chip.inst? v.iid = some i → i.state ≠ .ended → v.reg < 32 →
    let poisoned := s.chip.mem.poison.contains (locSlice v.iid (8 * v.reg) / 64)
    (poisoned = false → ∃ t, exec .pendingValueArrival s = .next t ∧ t.chip.vals = s.chip.vals.eraseIdx s.focus.n ∧
      (t.chip.inst v.iid).regs.toList = i.regs.toList.set v.reg { v := v.v, taint := v.taint, pend := false } ∧ t.chip.mem = s.chip.mem) ∧
    (poisoned = true → exec .pendingValueArrival s = .next (if i.state = .running ∨ i.state = .complete then
        { s with chip := s.chip.takeFault i.iid 0 { cause := 0x0A, addr := 0xFFFF800000000000 + 8 * v.reg, info0 := 8 * v.reg } } else s)))

namespace Sys2Proof.Claims

/-- The token at the focus's place of those in flight may arrive (R341, R399, R400, R438): no older one of its sender for its core is still on
its way, its slot takes tokens, and there is room for it unless its place was reserved or it is on channel 127. -/
def arriving (s : State) (t : Token) : Prop :=
  s.chip.flights[s.focus.n]? = some t ∧
  (∀ u ∈ s.chip.flights.take s.focus.n, ¬(u.src = t.src ∧ u.dst = t.dst ∧ u.pid = t.pid)) ∧
  (t.resv = true ∨ hdrChan t.hdr = 127 ∨ (s.chip.slot t.dst t.pid).occupancy < (s.chip.part t.pid).msQuota) ∧
  ((s.chip.slot t.dst t.pid).pstate = .run ∨ (s.chip.slot t.dst t.pid).pstate = .drain)

/-- The fault of a token (R461). -/
def tokenRecord (t : Token) (cause : Nat) : FaultRec :=
  { cause, sub := t.link, info0 := t.hdr.toNat, info1 := t.payload.toNat, taint := hdrTaint t.hdr }

/-- What R121 makes of a token that arrives, check by check: a fault, nothing, the gather unit's, held for the other plane, or matched by a task. -/
inductive Fate where
  | fault (cause : Nat)
  | gone
  | index
  | held
  | matched (h : Handler)

/-- R121, R176, R359, R372, R379, R397. -/
def fateOf (s : State) (t : Token) : Fate :=
  let sl := s.chip.slot t.dst t.pid
  let own := hdrPlane t.hdr == sl.cfg.act
  let chan := hdrChan t.hdr
  let form := t.hdr.extractLsb' 62 2 == 0
  if own = false ∧ ¬(sl.cfg.sw ≠ .active ∧ sl.cfg.armed = true) then .fault 0x78
  else if sl.squashed (hdrTag t.hdr) = true then .gone
  else if chan < 126 ∧ sl.gatherBound chan = true then
    if form = true ∧ (hdrFmt t.hdr = 1 ∨ hdrFmt t.hdr = 6) then .index else .fault 0x18
  else match s.chip.handler t.dst t.pid (hdrPlane t.hdr) chan with
    | none => if chan = 126 ∧ t.link = 7 then .gone else .fault 0x79
    | some h =>
      if form = false ∨ h.arity ≤ hdrSlot t.hdr ∨ bitAt h.accept (hdrFmt t.hdr) = false then .fault 0x18
      else if own = false then .held else .matched h

/-- Whether a token waits in a matching store in an entry that fits it (R373). -/
def waitsIn (sl : Machine.Slot) (h : Handler) (t : Token) : Prop :=
  ∃ e ∈ sl.mat.entries, e.chan = h.chan ∧ e.plane = hdrPlane t.hdr ∧ (h.um = false → e.tag = hdrTag t.hdr) ∧
    (t.payload, hdrTaint t.hdr) ∈ e.slots.getD (hdrSlot t.hdr) []

end Sys2Proof.Claims

/-- R118, R121, R176, R341, R372, R373, R394, R400, R401, R461. Tokens between cores. A token whose turn it is arrives and is no longer in flight: it
waits in the matching store under its channel and tag (and ARR counts it), joins the gather unit's indices, is held for the other plane, goes with a
squashed iteration, or raises its fault, which suspends nobody. The oldest token that waits for a core sets out when that core grants
it a credit and the links between the two are open (R438), and not before; no other token leaves the queue. A token of another package waits
for its credit in the same way, behind the older ones of its sender (that it waits here is the model's choice, notes/assumptions 100). -/
def Obligations.TokensArrive : Prop :=
  (∀ (s : State) (t : Token), arriving s t →
    let sl := s.chip.slot t.dst t.pid
    ∃ u, exec .tokenArrival s = .next u ∧ u.chip.flights = s.chip.flights.eraseIdx s.focus.n ∧ u.chip.insts = s.chip.insts ∧ u.chip.mem = s.chip.mem ∧
      let new := u.chip.slot t.dst t.pid
      new.mat.reserved = sl.mat.reserved - (if t.resv then 1 else 0) ∧
      match fateOf s t with
      | .fault cause => new.mat.entries = sl.mat.entries ∧ new.mat.held = sl.mat.held ∧ new.mat.index = sl.mat.index ∧
          ((s.chip.part t.pid).canTrap = true → new.recs.wait = sl.recs.wait ++ [(sl.recs.next, tokenRecord t cause)])
      | .gone => new.mat.entries = sl.mat.entries ∧ new.mat.held = sl.mat.held ∧ new.mat.index = sl.mat.index ∧ new.recs = sl.recs
      | .index => new.mat.entries = sl.mat.entries ∧ new.mat.index = sl.mat.index ++ [t] ∧
          (new.cfg.chan (hdrChan t.hdr)).arr = (sl.cfg.chan (hdrChan t.hdr)).arr + (if hdrPlane t.hdr = sl.cfg.act then 1 else 0)
      | .held => new.mat.entries = sl.mat.entries ∧ new.mat.held = sl.mat.held ++ [t] ∧ new.cfg = sl.cfg
      | .matched h => ((∀ e ∈ sl.mat.entries, e.slots.length = 4) → waitsIn new h t) ∧ new.mat.held = sl.mat.held ∧
          (new.cfg.chan (hdrChan t.hdr)).arr = (sl.cfg.chan (hdrChan t.hdr)).arr + 1) ∧
  (∀ (s : State), (∀ t, ¬arriving s t) → exec .tokenArrival s = .next s) ∧
  (∀ (s : State) (front back : List OutItem) (x : OutItem) (before after : List Token) (t : Token),
    let sl := s.chip.slot s.focus.core s.focus.pid
    let room := s.chip.creditFree s.focus.n s.focus.pid && s.chip.linksOpen s.focus.core s.focus.n s.focus.pid
    s.focus.k ≠ 1 → sl.outq = front ++ x :: back → (∀ y ∈ front, ∀ u ∈ y.tokens, u.dst ≠ s.focus.n) → x.tokens = before ++ t :: after →
    (∀ u ∈ before, u.dst ≠ s.focus.n) → t.dst = s.focus.n →
    (room = true → exec .creditGrant s = .next { s with chip :=
      let c := s.chip.modSlot s.focus.core s.focus.pid fun y =>
        { y with outq := front ++ (if before ++ after = [] then back else { tokens := before ++ after } :: back) }
      { c with flights := s.chip.flights ++ [t] } }) ∧
    (room = false → exec .creditGrant s = .next s)) ∧
  (∀ (s : State) (t : Token), s.focus.k = 1 → s.chip.waiting[s.focus.n]? = some t →
    let p := (s.chip.slot t.dst t.pid).pstate
    let goes : Prop := (∀ u ∈ s.chip.waiting.take s.focus.n, ¬(u.src = t.src ∧ u.dst = t.dst ∧ u.pid = t.pid)) ∧
      (hdrChan t.hdr = 127 ∨ s.chip.creditFree t.dst t.pid = true) ∧ (p = .run ∨ p = .drain)
    (goes → exec .creditGrant s = .next { s with chip :=
      { s.chip with waiting := s.chip.waiting.eraseIdx s.focus.n, flights := s.chip.flights ++ [t] } }) ∧
    (¬goes → exec .creditGrant s = .next s))

namespace Sys2Proof.Claims

/-- A READY instance of a slot that could have the next frame (R399, R404). -/
def candidate (s : State) (j : Inst) : Prop :=
  j ∈ s.chip.insts ∧ j.core = s.focus.core ∧ j.pid = s.focus.pid ∧ j.state = .ready ∧ s.chip.mayHaveFrame j = true

end Sys2Proof.Claims

/-- R30, R373, R374, R402 to R406, R411, R413. The complete entry that ranks first becomes a READY instance of its task (on a core with a CO-RESIDENT
launch the first of the launch's own channels, or of channels 126 and 127, where one of the other kind finds no place), with cleared registers, the entry's
tag and its oldest token of every slot as arguments. A free frame goes to the READY instance that ranks first, which begins its block where
its core has it mapped. An aging instance that does not issue rises a class, whatever it waits for; one that holds a frame too long, while
another of its class or higher waits, is recalled: at any moment, since the model counts no cycles (notes/assumptions 1). -/
def Obligations.InstancesFormAndRun : Prop :=
  (∀ (s : State) (e : Entry) (h : Handler), s.chip.formReady s.focus.core s.focus.pid = some (e, h) →
    let k := s.focus.core
    let n := s.focus.pid
    (∀ x ∈ (s.chip.slot k n).mat.entries, x.done ≠ none → (s.chip.coResident k n = true → decide (126 ≤ x.chan) = decide (126 ≤ e.chan)) →
      lexLt (s.chip.entryKey k n x) (s.chip.entryKey k n e) = false) ∧
    (∀ y, s.chip.nextEntry k n = some y → y ≠ e → s.chip.withRoom k n y = none) ∧
    s.chip.handler k n e.plane e.chan = some h ∧
    ∃ t j, exec .instanceForm s = .next t ∧ t.chip.insts = s.chip.insts ++ [j] ∧ t.chip.nextIid = s.chip.nextIid + 1 ∧
      j.iid = s.chip.nextIid ∧ j.core = k ∧ j.pid = n ∧ j.chan = h.chan ∧ j.tag = e.tag ∧ j.plane = e.plane ∧ j.block = h.entry ∧
      j.slice = h.slice ∧ j.cls = h.prio ∧ j.aging = h.age ∧ j.state = .ready ∧ j.frame = none ∧ j.creator = none ∧
      j.regs = Vector.replicate 32 ({ } : Reg) ∧ j.fpc = ({ } : Fpc) ∧ j.args.length = h.arity ∧
      (∀ m v tt rest, m < h.arity → e.slots.getD m [] = (v, tt) :: rest → j.args[m]? = some (.val v (tt || e.twice || h.um))) ∧
      (t.chip.coreSt k).lcache = [] ∧ t.chip.mem = s.chip.mem) ∧
  (∀ (s : State) (i : Inst), s.chip.nextForFrame s.focus.core s.focus.pid = some i → s.chip.inst? i.iid = some i → i.frame = none → i.holds = [] →
    (∀ j, candidate s j → lexLt (s.chip.rankKey j) (s.chip.rankKey i) = false) ∧
    ∃ t j, exec .frameGrant s = .next t ∧ t.chip.inst? i.iid = some j ∧ j.state = .running ∧ j.steps = 0 ∧
      j.frame = (mappedBlock s.chip i).map freshFrame ∧ j.regs = i.regs ∧ j.block = i.block ∧
      (∀ k, k ≠ i.iid → t.chip.inst? k = s.chip.inst? k) ∧ t.chip.slots = s.chip.slots) ∧
  (∀ (s : State), ((s.chip.slot s.focus.core s.focus.pid).pstate ≠ .run ∨ (s.chip.slot s.focus.core s.focus.pid).stop ≠ none ∨
    ∀ j, ¬candidate s j) → exec .frameGrant s = .next s) ∧
  (∀ (s : State) (i : Inst), s.chip.inst? s.focus.iid = some i →
    (i.aging = true → i.effClass < 7 → i.state ≠ .ended →
      ∃ t j, exec .agingStep s = .next t ∧ t.chip.inst? i.iid = some j ∧ j.effClass = i.effClass + 1 ∧ j.cls = i.cls ∧ j.state = i.state ∧
        j.frame = i.frame) ∧
    ((i.aging = false ∨ i.effClass = 7 ∨ i.state = .ended) → exec .agingStep s = .next s) ∧
    (i.state ≠ .ready → i.state ≠ .ended → (∃ j ∈ s.chip.insts, j.core = i.core ∧ j.pid = i.pid ∧ j.state = .ready ∧ i.effClass ≤ j.effClass) →
      i.recalled = false → exec .recallThreshold s = .next { s with chip := s.chip.modInst i.iid fun j => { j with recalled := true } }) ∧
    ((∀ j ∈ s.chip.insts, j.core = i.core → j.pid = i.pid → j.state = .ready → j.effClass < i.effClass) → exec .recallThreshold s = .next s))

/-! ## Engines at work -/

namespace Sys2Proof.Claims

/-- A command runs: it is the oldest of its context, it has started, the context is not halted and the slot runs (R156, R210, R438). -/
def running (c : Chip) (core pid k : Nat) (q : Cmd) : Prop :=
  ((c.slot core pid).eng k).cmds.head? = some q ∧ q.started = true ∧ ((c.slot core pid).eng k).halted = false ∧ (c.slot core pid).pstate = .run

/-- A command that may start: as above, but it has not. -/
def startable (c : Chip) (core pid k : Nat) (q : Cmd) : Prop :=
  ((c.slot core pid).eng k).cmds.head? = some q ∧ q.started = false ∧ ((c.slot core pid).eng k).halted = false ∧ (c.slot core pid).pstate = .run

/-- Normal completion (R160, R210, R376): the command leaves its queue, its number is reached on the timeline, its DONE token sets out. -/
def completing (c d : Chip) (core pid k : Nat) (q : Cmd) : Prop :=
  let old := c.slot core pid
  let new := d.slot core pid
  new.eng k = { old.eng k with cmds := (old.eng k).cmds.filter fun x => x.num != q.num } ∧
  new.tls = old.tls.setIfInBounds k (BitVec.ofNat 64 (max (old.tls.getD k 0).toNat q.num)) ∧
  d.flights = c.flights ++ doneTokens c q false k

/-- The record of an engine's fault (R419, R423): zero for what a command without an issuing instance has not. -/
def engineRecord (q : Cmd) (k chunk : Nat) (f : AFault) : FaultRec :=
  let r : FaultRec := {
    cause := f.cause, sub := f.sub, addr := f.addr, info0 := f.info0, info1 := f.info1, eng := true, src := srcOf k, tl := k
    num := q.num % 2 ^ 32, chunk }
  if q.who.none then r else { r with index := q.who.index, block := q.who.block, chan := q.who.chan, tag := q.who.tag }

/-- An engine's fault (R423): the context halts with the command where it is, DONE with ERR sets out, the record is queued, no timeline moves. -/
def halting (c d : Chip) (core pid k : Nat) (q : Cmd) (chunk : Nat) (f : AFault) : Prop :=
  let old := c.slot core pid
  let new := d.slot core pid
  (new.eng k).halted = true ∧ (new.eng k).cmds.map Cmd.num = (old.eng k).cmds.map Cmd.num ∧
  (∀ x ∈ (new.eng k).cmds, x.num = q.num → x.fail = some (engineRecord q k chunk f)) ∧ new.tls = old.tls ∧
  d.flights = c.flights ++ doneTokens c q true k ∧
  ((c.part pid).canTrap = true → new.recs.wait = old.recs.wait ++ [(old.recs.next, engineRecord q k chunk f)])

/-- Address of the element at a position of a copy's pattern (R164): the base and each coordinate times its stride, modulo 2^64. -/
def elementAt (base : Word) (str : List Int) (at_ : List Nat) : Nat :=
  (base + BitVec.ofInt 64 (((at_.zip str).map fun x => (x.1 : Int) * x.2).sum)).toNat

/-- Units of an ordinary copy move in order (R164, R170): each is read, counted once, and written at its core; the command passes it and
knows what it has covered. From command and chip to command and chip. -/
def moved (core pid cp : Nat) : List Nat → Cmd → Chip → Cmd → Chip → Prop
  | [], q, c, r, d => r = q ∧ d = c
  | u :: t, q, c, r, d => ∃ un c1 cover c2, c.unitOf core pid q u = (.ok un, c1) ∧
      (if u < q.counted then c1 else c1.modSlot core pid fun x => x.setCp cp { x.cp cp with
          satc := min ((x.cp cp).satc + un.sat) (2 ^ 32 - 1), nanc := min ((x.cp cp).nanc + un.nan) (2 ^ 32 - 1) }).putUnit
        core pid core q q.cover un.writes = (.ok cover, c2) ∧
      moved core pid cp t { q with pos := u + 1, cover, counted := max q.counted (u + 1) } c2 r d

/-- A stream waits for the port of a core or has it (R462). -/
def queued (c : Chip) (me : Inbound) (core : Nat) : Prop := me ∈ (c.coreSt core).sp7 ∨ (c.coreSt core).sp7run = some me

end Sys2Proof.Claims

/-- R156, R159, R160, R163 to R165, R170, R172, R181, R210, R367, R423, R462, R464. Copies. The command at the head of a port starts, or halts
its channel where its descriptor failed. A running copy delivers the units that are due one after the other: its pointer passes their bytes,
its counters count what was clamped; a word copy between equal formats writes the bytes read. It waits for each other core that it writes to.
A multicast sends its units as beats, never more than its window ahead of a branch; a branch that has written a beat passes its units, and
the write pointer is at the slowest branch. A unit that cannot be moved halts the channel at its chunk. With every unit written everywhere
the command completes. A port binding with a free place issues its command, which sends no DONE. An inbound stream takes the free port of
its core. How streams queue, and what a beat holds, are the model's readings (notes/assumptions 98). -/
def Obligations.CopiesMove : Prop :=
  ∀ (s : State),
    let k := s.focus.core
    let n := s.focus.pid
    let ch := s.focus.n
    (∀ pid cp q, s.chip.copyHead k ch = some (pid, cp, q) → cp < 4 → startable s.chip k pid cp q →
      (q.err = none → ∃ t, exec .copyStart s = .next t ∧
        ((t.chip.slot k pid).eng cp).cmds = mapIf (fun x => x.num == q.num) (fun x => { x with started := true }) ((s.chip.slot k pid).eng cp).cmds ∧
        (t.chip.coreSt k).portq = (s.chip.coreSt k).portq.filter (fun x => !(x.2.1 == pid && x.2.2.1 == cp && x.2.2.2 == q.num)) ∧
        t.chip.mem = s.chip.mem) ∧
      (∀ f, q.err = some f → ∃ t, exec .copyStart s = .next t ∧ halting s.chip t.chip k pid cp q 0 f)) ∧
    (s.chip.copyHead k ch = none → exec .copyStart s = .next s) ∧
    (∀ q, ch < 4 → running s.chip k n ch q →
      let me : Inbound := { core := k, pid := n, cp := ch, num := q.num }
      let stops := fun (m : Nat) (f : AFault) => ∃ t, exec .copyFault s = .next t ∧ halting s.chip t.chip k n ch q m f ∧
        ((t.chip.slot k n).cp ch).wp = (q.w0 + q.chunkFirst m * q.unitBytes) % 2 ^ 64
      (∀ c, q.ready = true → s.chip.checkUnits k n q q.due = (none, c) → (copyDesc q.desc).mc = 0 →
        (∀ r d, (∀ x ∈ c.foreign k n q (c.clearRun k n q), (c.coreSt x).sp7run = some me) → moved k n ch (c.clearRun k n q) q c r d →
          ∃ t, exec .copyUnitDelivered s = .next t ∧ t.chip.mem = d.mem ∧ ((t.chip.slot k n).eng ch).cmds.head? = some r ∧
            (t.chip.slot k n).cp ch = { (d.slot k n).cp ch with wp := (q.w0 + r.pos * q.unitBytes) % 2 ^ 64 }) ∧
        ((∃ x ∈ c.foreign k n q (c.clearRun k n q), (c.coreSt x).sp7run ≠ some me) → ∃ t, exec .copyUnitDelivered s = .next t ∧
          t.chip.mem = c.mem ∧ t.chip.slots = s.chip.slots ∧
          ∀ x ∈ c.foreign k n q ((List.range q.units).filter fun u => decide (q.pos ≤ u)), queued t.chip me x)) ∧
      (∀ c, q.ready = true → s.chip.checkUnits k n q q.due = (none, c) → (copyDesc q.desc).mc ≠ 0 →
        ∃ t x, exec .copyUnitDelivered s = .next t ∧ ((t.chip.slot k n).eng ch).cmds.head? = some x ∧ x.pos = q.runEnd q.pos ∧
          x.buf ++ x.todo = q.buf ++ (c.readBeats k n ch q q.run).1 ∧ (∀ p ∈ q.bpos, x.buf.length ≤ q.window + p) ∧ x.parts = q.parts ∧
          ∀ y ∈ (c.readBeats k n ch q q.run).2.copyCores k n q, queued t.chip me y) ∧
      (q.ready = false → exec .copyUnitDelivered s = .next s) ∧
      (q.buf = [] → ∀ f, q.err = some f → stops (q.pos * q.unitBytes / 4096) f) ∧
      (q.buf = [] → q.ready = true → ∀ f, (s.chip.checkUnits k n q q.due).1 = some f → stops (q.pos * q.unitBytes / 4096) f) ∧
      (q.buf ≠ [] → ∀ m f, s.chip.branchFault k n ch q = some (m, f) → stops m f) ∧
      (q.buf = [] → q.err = none → (q.ready = false ∨ (s.chip.checkUnits k n q q.due).1 = none) → exec .copyFault s = .next s) ∧
      (q.pos = q.units → q.lowest = q.units → ∃ t, exec .copyComplete s = .next t ∧ completing s.chip t.chip k n ch q ∧ t.chip.mem = s.chip.mem) ∧
      ((q.pos ≠ q.units ∨ q.lowest ≠ q.units) → exec .copyComplete s = .next s) ∧
      (∀ b w cover c, (s.chip.copyCores k n q).findIdx? (fun x => x == s.focus.k) = some b → b < q.parts.length →
        (s.chip.coreSt s.focus.k).sp7run = some me → q.buf[q.bpos.getD b 0]? = some w →
        s.chip.putUnit k n s.focus.k q q.cover w.writes = (.ok cover, c) →
        ∃ t x, exec .mcastCreditReturn s = .next t ∧ ((t.chip.slot k n).eng ch).cmds.head? = some x ∧
          x.parts = q.parts.set b (q.parts.getD b 0 + w.ends) ∧
          ((t.chip.slot k n).cp ch).wp = (q.w0 + (leastOf x.parts).getD 0 * q.unitBytes) % 2 ^ 64 ∧ t.chip.mem = c.mem)) ∧
    (∀ (x : Actor) (q : Cmd) (u : Nat) (bs : List Byte) (tt : Bool) (c : Chip), q.op = .cpy →
      let d := copyDesc q.desc
      let size := wordSize d.sfmt
      let at_ := [u % d.n 0, u / d.n 0 % d.n 1, u / (d.n 0 * d.n 1) % d.n 2, u / (d.n 0 * d.n 1 * d.n 2)]
      let src := elementAt q.b d.sstr at_
      let dst := elementAt q.c d.dstr at_
      d.sfmt = d.dfmt → src % size = 0 → dst % size = 0 → bs.length = size → s.chip.engineRead x src size = (.ok (bs, tt), c) →
      s.chip.cpyUnit x q u = (.ok { writes := [(dst, bs, tt)] }, c)) ∧
    (∀ q, s.chip.bindingNext k n = some q → q.sel < 4 →
      let mine := ((s.chip.coreSt k).binds.filter fun b => b.1 == n).map (·.2)
      let old := s.chip.slot k n
      s.chip.portUsed k n q.port < 2 ∧ (∃ front back, mine = front ++ q :: back ∧ ∀ r ∈ front, r.port ≠ q.port ∧ r.sel ≠ q.sel) ∧
      ∃ t x, exec .portBindingIssue s = .next t ∧ (t.chip.coreSt k).binds = (s.chip.coreSt k).binds.erase (n, q) ∧
        (t.chip.slot k n).eng q.sel = { old.eng q.sel with given := (old.eng q.sel).given + 1, cmds := (old.eng q.sel).cmds ++ [x] } ∧
        x.num = (old.eng q.sel).given + 1 ∧ x.op = q.op ∧ x.a = q.a ∧ x.b = q.b ∧ x.c = q.c ∧ x.dn = false ∧ x.started = q.started ∧
        (t.chip.slot k n).mat.reserved = old.mat.reserved) ∧
    (s.chip.bindingNext k n = none → exec .portBindingIssue s = .next s) ∧
    (∀ x rest, (s.chip.coreSt k).sp7run = none → (s.chip.coreSt k).sp7 = x :: rest →
      exec .inboundStreamStart s = .next { s with chip := s.chip.modCore k fun y => { y with sp7 := rest, sp7run := some x } })

namespace Sys2Proof.Claims

/-- Whether position `p` of a gather overlaps its 512-byte chunk `j` (R177). -/
def overlapsChunk (q : Cmd) (p j : Nat) : Prop :=
  p * bits (q.desc.getD 1 0) 32 32 < 512 * (j + 1) ∧ 512 * j < p * bits (q.desc.getD 1 0) 32 32 + bits (q.desc.getD 1 0) 0 32

/-- The chunk bitmap (R177) once the positions of `l` are done: a bit is set when every position of the command that overlaps its chunk is. -/
def chunksSet (q : Cmd) (l : List Nat) (bitmap : List Nat) : Prop :=
  bitmap.length = 16 ∧ ∀ j < 1024, (bitmap.getD (j / 64) 0).testBit (j % 64) = true ↔
    ∀ p < bits (q.desc.getD 2 0) 0 24, overlapsChunk q p j → p ∈ l

end Sys2Proof.Claims

/-- R175 to R178, R181, R210. The gather unit. A command starts with the bits of the chunks that no position overlaps; one whose descriptor
failed halts the queue. A row's index token moves its row and its position is done; an index out of range halts the queue with `GA_INDEX`, an
EOS before the last with `GA_SHORT`, a row that cannot be moved with its fault: the first and the last once every position below is done. With
every position done every bit is set and the command completes. -/
def Obligations.GathersMove : Prop :=
  ∀ (s : State) (q : Cmd),
    let k := s.focus.core
    let n := s.focus.pid
    let sl := s.chip.slot k n
    (startable s.chip k n 4 q →
      (q.err = none → ∃ t, exec .gatherStart s = .next t ∧ chunksSet q (q.extra.map (· % 2 ^ 24)) (t.chip.slot k n).bitmap ∧
        ((t.chip.slot k n).eng 4).cmds = mapIf (fun x => x.num == q.num) (fun x => { x with started := true }) (sl.eng 4).cmds) ∧
      (∀ f, q.err = some f → ∃ t, exec .gatherStart s = .next t ∧ halting s.chip t.chip k n 4 q 0 f)) ∧
    (running s.chip k n 4 q →
      (∀ t0, s.focus.n ∈ sl.indexChoices q → sl.mat.index[s.focus.n]? = some t0 →
        let p := bits t0.payload.toNat 40 24
        let row := bits t0.payload.toNat 0 40
        (hdrFmt t0.hdr ≠ 1 → ∃ t, exec .gatherRowWrite s = .next t ∧
          halting s.chip t.chip k n 4 q 0 { cause := 0x4A, sub := t0.link, info0 := t0.hdr.toNat, info1 := q.pos } ∧
          (t.chip.slot k n).mat.index = sl.mat.index.eraseIdx s.focus.n) ∧
        (hdrFmt t0.hdr = 1 → (bits (q.desc.getD 2 0) 0 24 ≤ p ∨ bits (q.desc.getD 0 0) 32 32 ≤ row) →
          (sl.lowestFault q p = true → ∃ t, exec .gatherRowWrite s = .next t ∧
            halting s.chip t.chip k n 4 q p { cause := 0x49, sub := t0.link, info0 := t0.hdr.toNat, info1 := t0.payload.toNat }) ∧
          (sl.lowestFault q p = false → exec .gatherRowWrite s = .next s)) ∧
        (hdrFmt t0.hdr = 1 → p < bits (q.desc.getD 2 0) 0 24 → row < bits (q.desc.getD 0 0) 32 32 →
          (∀ f c, s.chip.moveRow k n q p row (hdrTaint t0.hdr) = (.error f, c) →
            (sl.lowestFault q p = true → ∃ t, exec .gatherRowWrite s = .next t ∧
              halting s.chip t.chip k n 4 q p f ∧ (t.chip.slot k n).mat.index = sl.mat.index) ∧
            (sl.lowestFault q p = false → exec .gatherRowWrite s = .next s)) ∧
          (∀ c d, s.chip.moveRow k n q p row (hdrTaint t0.hdr) = (.ok c, d) → ∃ t, exec .gatherRowWrite s = .next t ∧
            t.chip.mem = c.mem ∧ (t.chip.slot k n).mat.index = sl.mat.index.eraseIdx s.focus.n ∧
            (∀ x ∈ ((t.chip.slot k n).eng 4).cmds, x.num = q.num → x.pos = q.pos + 1) ∧
            chunksSet q (p :: q.extra.map (· % 2 ^ 24)) (t.chip.slot k n).bitmap))) ∧
      (q.pos = bits (q.desc.getD 2 0) 0 24 → ∃ t, exec .gatherComplete s = .next t ∧ completing s.chip t.chip k n 4 q ∧
        (t.chip.slot k n).bitmap = List.replicate 16 (2 ^ 64 - 1)) ∧
      (q.pos ≠ bits (q.desc.getD 2 0) 0 24 → exec .gatherComplete s = .next s))

namespace Sys2Proof.Claims

/-- The command at the head of a queue after an event, if the queue has one. -/
def headNow (c : Chip) (core pid k : Nat) : Option Cmd := ((c.slot core pid).eng k).cmds.head?

/-- A tile as `ACCZ` leaves it (R263, R291): its mode, every element canonical zero, no scales, untainted. -/
def zeroed (sl : Machine.Slot) (t mode : Nat) : Prop := sl.tile t = { idx := t, mode }

/-- A command of the plane queue, by its number. -/
def planeCmd (c : Chip) (core pid num : Nat) : Option Cmd := ((c.slot core pid).eng 5).cmds.find? fun x => x.num == num

/-- Plane-pair steps of a chunk's operands (R275, R277). -/
def stepsOf (c : Chip) (pid : Nat) (q : Cmd) (d : ChunkData) : Nat :=
  (chunkSteps (planeDesc q.desc) (planeDesc q.desc2) (c.mayTrim pid q) d).1

end Sys2Proof.Claims

/-- R79, R262 to R264, R277 to R282, R285, R287, R290 to R292, R455. The plane engine. The command that may start does: `ACCZ` zeroes its
tile, `ACCLD` sets its mode, a product fixes its scales; a failed descriptor, `PE_TILE` or `PE_MODE` halts the queue, the command not started, which
holds no level table (the model's choice, notes/assumptions 95). A column group whose turn it is steps its chunk: it spends a token for each
step. While tokens are short no tile changes. With its steps made, those of the replays after one or two failed checksums too, it has verified
the chunk, and goes on; the chunk is added once all four have, with its taint (59) and unless a line of the tile is poisoned (108). A third
failure, or operands that cannot be read, halt the queue when every lower chunk is added, with the tile's elements as they were. That the
groups step by themselves and whose turn is first are readings (42, 109). A piece of a tile image loads 256 elements. After the last chunk the
command completes. A refill adds A to each bucket, up to 64. -/
def Obligations.PlaneEngineWorks : Prop :=
  (∀ (s : State),
    let k := s.focus.core
    let n := s.focus.pid
    let sl := s.chip.slot k n
    let quota := (s.chip.part n).tileQuota
    let refused := fun (q : Cmd) (f : AFault) => ∃ t, exec .peCmdStart s = .next t ∧ halting s.chip t.chip k n 5 q 0 f ∧
      (headNow t.chip k n 5).map Cmd.started = some false
    let begins := fun (q : Cmd) => ∃ t, exec .peCmdStart s = .next t ∧ t.chip.mem = s.chip.mem ∧
      (planeCmd t.chip k n q.num).map Cmd.started = some true ∧
      (t.chip.slot k n).tile q.sel = { sl.tile q.sel with scale := some q.scales, taint := (sl.tile q.sel).taint || q.taint }
    (∀ q, sl.planeHead = some q →
      let product := q.op = .mma ∨ q.op = .mmal
      (∀ f, q.err = some f → refused q f) ∧
      (q.err = none →
        (product → sl.tileOk quota q.sel (sl.tile q.sel).mode = false → refused q { cause := 0x5A }) ∧
        (product → sl.tileOk quota q.sel (sl.tile q.sel).mode = true → q.modeRefused (sl.tile q.sel) = true → refused q { cause := 0x59 }) ∧
        (product → sl.tileOk quota q.sel (sl.tile q.sel).mode = true → q.modeRefused (sl.tile q.sel) = false → begins q) ∧
        (¬product → sl.tileOk quota q.sel q.port = false → refused q { cause := 0x5A }) ∧
        (¬product → sl.tileOk quota q.sel q.port = true → ∃ t, exec .peCmdStart s = .next t ∧
          (headNow t.chip k n 5).map Cmd.started = some true ∧ t.chip.mem = s.chip.mem ∧
          (q.op ≠ .accld → zeroed (t.chip.slot k n) q.sel q.port) ∧
          (q.op = .accld → let x := (t.chip.slot k n).tile q.sel
            x.mode = q.port ∧ x.scale = none ∧ x.taint = q.taint ∧
            ((sl.tile q.sel).elems = [] ∨ 1024 ≤ (sl.tile q.sel).elems.length → ∀ j < 1024, x.el 0 j = (sl.tile q.sel).el 0 j))))) ∧
    (sl.planeHead = none → ∀ q, sl.planeAhead quota = some q → begins q) ∧
    (sl.planeHead = none → sl.planeAhead quota = none → exec .peCmdStart s = .next s)) ∧
  (∀ (s : State) (q : Cmd),
    let k := s.focus.core
    let n := s.focus.pid
    let h := s.focus.n
    let sl := s.chip.slot k n
    let heat := (s.chip.coreSt k).heat
    running s.chip k n 5 q →
    (q.pos < q.planeEnd → q.op ≠ .accld → h < 4 → s.chip.planeTurn k h = some n → ∀ r, sl.planeWork h = some r →
      let ch := r.groupAt h
      let due := sl.isPlaneHead r = true ∧ r.pos = ch
      (∀ f d c, s.chip.chunkData k n r ch = (some f, d, c) → due → ∃ t, exec .peChunkVerify s = .next t ∧ halting s.chip t.chip k n 5 r ch f ∧
        (t.chip.slot k n).tile r.sel = { sl.tile r.sel with taint := (sl.tile r.sel).taint || d.taint }) ∧
      (∀ f d c, s.chip.chunkData k n r ch = (some f, d, c) → ¬due → exec .peChunkVerify s = .next s) ∧
      (∀ d c, s.chip.chunkData k n r ch = (none, d, c) → heat.length = 4 → r.parts.length = 4 → r.extra.length = 4 →
        let fails := ((s.chip.coreSt k).mism.filter (· == h)).length
        let owed := stepsOf c n r d * (1 + min 2 fails) - r.parts.getD h 0
        ∃ t, exec .peChunkVerify s = .next t ∧ t.chip.mem = c.mem ∧
        (∀ g, (t.chip.coreSt k).heat.getD g 0 = heat.getD g 0 - (if g = h then owed else 0)) ∧
        (heat.getD h 0 < owed → (t.chip.slot k n).tiles = sl.tiles ∧ h ∈ (t.chip.coreSt k).stalled ∧
          ∃ x, planeCmd t.chip k n r.num = some x ∧ x.parts = r.parts.set h (r.parts.getD h 0 + heat.getD h 0) ∧
            x.groupAt h = ch ∧ x.pos = r.pos ∧ x.held.find? (fun y => y.1 == ch) = some (ch, d)) ∧
        (owed ≤ heat.getD h 0 → 3 ≤ fails → (t.chip.slot k n).tiles = sl.tiles ∧
          (due → halting s.chip t.chip k n 5 r ch { cause := 0x5B, sub := h } ∧ (t.chip.coreSt k).retire = true)) ∧
        (owed ≤ heat.getD h 0 → fails < 3 →
          (∀ f, due → (∀ g < 4, g ≠ h → ch < r.groupAt g) → (sl.tile r.sel).poisonF (fun _ => true) = some f →
            halting s.chip t.chip k n 5 r ch f ∧ (t.chip.slot k n).tile r.sel = sl.tile r.sel) ∧
          (due → (∀ g < 4, g ≠ h → ch < r.groupAt g) → (sl.tile r.sel).poison = [] →
            (let x := addChunk (planeDesc r.desc) (planeDesc r.desc2) ch d (sl.tile r.sel)
             (t.chip.slot k n).tile r.sel = { x with taint := (sl.tile r.sel).taint || d.taint }) ∧
            ∃ x, planeCmd t.chip k n r.num = some x ∧ x.pos = ch + 1 ∧ x.groupAt h = ch + 1) ∧
          (due → (∃ g < 4, g ≠ h ∧ r.groupAt g ≤ ch) → (t.chip.slot k n).tiles = sl.tiles ∧
            ∃ x, planeCmd t.chip k n r.num = some x ∧ x.pos = ch ∧ x.groupAt h = ch + 1 ∧ x.parts.getD h 0 = 0)))) ∧
    (q.pos < q.planeEnd → q.op ≠ .accld → (4 ≤ h ∨ s.chip.planeTurn k h ≠ some n) → exec .peChunkVerify s = .next s) ∧
    (q.pos < q.planeEnd → q.op = .accld → h = 0 →
      let va := wrap (q.a.toNat + 4096 * q.pos : Nat) 64
      (∀ f c, s.chip.engineRead (q.actor k n) va 4096 = (.error f, c) → ∃ t, exec .peChunkVerify s = .next t ∧
        halting s.chip t.chip k n 5 q q.pos f ∧ (t.chip.slot k n).tiles = sl.tiles) ∧
      (∀ bs tt c, s.chip.engineRead (q.actor k n) va 4096 = (.ok (bs, tt), c) →
        let img := fun j => A80.ofImage (leNat ((bs.drop (16 * j)).take 16))
        let bad := fun j b => (img j = none ∧ b = 81) ∨
          ∃ e, img j = some e ∧ (sl.tile q.sel).mode = 1 ∧ e.nan = false ∧ e.e ≠ 0 ∧ b = 64
        (∀ j < 256, ∀ b, bad j b → (∀ i < j, ∀ b, ¬bad i b) → ∃ t, exec .peChunkVerify s = .next t ∧
          halting s.chip t.chip k n 5 q q.pos { cause := 0x58, addr := va + 16 * j, info0 := b } ∧ (t.chip.slot k n).tiles = sl.tiles) ∧
        ((∀ j < 256, ∀ b, ¬bad j b) → ((sl.tile q.sel).elems = [] ∨ (sl.tile q.sel).elems.length = 1024 * (sl.tile q.sel).lanes) →
          ∃ t, exec .peChunkVerify s = .next t ∧ t.chip.mem = c.mem ∧ (headNow t.chip k n 5).map Cmd.pos = some (q.pos + 1) ∧
            let x := (t.chip.slot k n).tile q.sel
            x.mode = (sl.tile q.sel).mode ∧ x.taint = ((sl.tile q.sel).taint || tt) ∧
            (∀ l, l ∈ x.poison ↔ l ∈ (sl.tile q.sel).poison ∧ (l < 40 * q.pos ∨ 40 * q.pos + 40 ≤ l)) ∧
            (∀ j < 256, x.elems[256 * q.pos + j]? = img j) ∧
            ∀ i, (i < 256 * q.pos ∨ 256 * q.pos + 256 ≤ i) → x.elems.getD i .zero = (sl.tile q.sel).elems.getD i .zero))) ∧
    (q.planeEnd ≤ q.pos → exec .peChunkVerify s = .next s ∧
      ∃ t, exec .peCmdComplete s = .next t ∧ completing s.chip t.chip k n 5 q ∧ (t.chip.slot k n).tiles = sl.tiles) ∧
    (q.pos < q.planeEnd → exec .peCmdComplete s = .next s)) ∧
  (∀ s : State,
    let chip := s.chip.modCore s.focus.core fun x =>
      let heat := x.heat.map fun h => min 64 (h + x.refill)
      { x with heat, stalled := x.stalled.filter fun h => heat.getD h 0 == 0 }
    exec .heatRefill s = .next { s with chip := chip })

/-- R79, R294, R295, R299, R301, R302, R308 to R310, R444, R445. The drain. The command that may start does, or halts the queue. A row of a running
`ACCST` or `QST` whose turn it is and whose destination can be written whole is written and counted; else the queue halts at the row with
nothing of it written, and so it does with `DQ_RANGE` where a `QST`'s clamped or flushed groups reach THR, and where a line of the row's
elements is poisoned: that this comes before the destination's checks is the model's choice (notes/assumptions 108), and so is whose turn is first
(109). A waiting `LVLLD` replaces its table in one step once no command holds it, or completes with an error and leaves the table. After row 31
the command completes; with CZ its tiles are zero. -/
def Obligations.DrainWorks : Prop :=
  (∀ (s : State) (q : Cmd),
    let k := s.focus.core
    let n := s.focus.pid
    let sl := s.chip.slot k n
    sl.drainHead = some q →
      (∀ f, q.err = some f → ∃ t, exec .drainCmdStart s = .next t ∧ halting s.chip t.chip k n 6 q 0 f) ∧
      (∀ f only, q.err = none → sl.drainBad (s.chip.part n).tileQuota q = some (f, only) → ∃ t, exec .drainCmdStart s = .next t ∧
        halting s.chip t.chip k n 6 q 0 f) ∧
      (q.err = none → sl.drainBad (s.chip.part n).tileQuota q = none → ∃ t, exec .drainCmdStart s = .next t ∧
        t.chip.mem = s.chip.mem ∧ (t.chip.slot k n).tiles = sl.tiles ∧
        (headNow t.chip k n 6).map Cmd.started = some true ∧ (headNow t.chip k n 6).map Cmd.parts = some (sl.drainTiles q))) ∧
  (∀ (s : State) (q : Cmd),
    let k := s.focus.core
    let n := s.focus.pid
    let sl := s.chip.slot k n
    let r := if q.op = .accst then accstRow q (sl.tile q.sel) q.pos else qstRow sl q q.pos
    running s.chip k n 6 q →
    (q.op ≠ .lvlld → q.pos < 32 → s.chip.drainTurn k ≠ some n → exec .drainRow s = .next s) ∧
    (q.op ≠ .lvlld → q.pos < 32 → s.chip.drainTurn k = some n →
      let stops := fun (f : AFault) (m : Machine.Mem) => ∃ t, exec .drainRow s = .next t ∧ halting s.chip t.chip k n 6 q q.pos f ∧ t.chip.mem = m
      let chip := s.chip.modCore k fun x => { x with drLast := (s.chip.part n).slot }
      (∀ f, sl.rowPoison q q.pos = some f → stops f s.chip.mem) ∧
      (sl.rowPoison q q.pos = none →
        (∀ f c, chip.writable (q.actor k n) (r.writes.map fun w => (w.1, w.2, q.taint)) = (some f, c) → stops f c.mem) ∧
        (∀ c, chip.writable (q.actor k n) (r.writes.map fun w => (w.1, w.2, q.taint)) = (none, c) →
          let count := q.extra.getD 0 0 + (if r.ranged then 1 else 0)
          let trips := q.op = .qst ∧ r.ranged = true ∧ q.extra.getD 1 0 = 0 ∧ q.qsThr ≠ 0 ∧ q.qsThr ≤ count
          (trips → stops { cause := 0x61 } c.mem) ∧
          (¬trips → ∃ t, exec .drainRow s = .next t ∧ t.chip.mem = (c.putRow k n q r.writes).2.mem ∧ (t.chip.slot k n).tiles = sl.tiles ∧
            (headNow t.chip k n 6).map Cmd.pos = some (q.pos + 1))))) ∧
    (q.op = .lvlld → sl.tableHeld q = false → ∀ bs tt c, s.chip.engineRead (q.actor k n) q.a.toNat (levelImageLen q.port) = (.ok (bs, tt), c) →
      (∀ tab, parseLevels q.port (bs.map BitVec.toNat) = .inr tab → ∃ t, exec .lvlldReplace s = .next t ∧
        (t.chip.slot k n).table? q.port q.sel = some tab ∧ completing s.chip t.chip k n 6 q) ∧
      (∀ off, parseLevels q.port (bs.map BitVec.toNat) = .inl off → ∃ t, exec .lvlldReplace s = .next t ∧ (t.chip.slot k n).tables = sl.tables ∧
        ((t.chip.slot k n).eng 6).halted = false ∧ (∀ x ∈ ((t.chip.slot k n).eng 6).cmds, x.num ≠ q.num) ∧
        t.chip.flights = s.chip.flights ++ doneTokens s.chip q true 6)) ∧
    (q.op = .lvlld → sl.tableHeld q = false → ∀ f c, s.chip.engineRead (q.actor k n) q.a.toNat (levelImageLen q.port) = (.error f, c) →
      ∃ t, exec .lvlldReplace s = .next t ∧ (t.chip.slot k n).tables = sl.tables ∧ halting s.chip t.chip k n 6 q 0 f) ∧
    (q.op = .lvlld → sl.tableHeld q = true → exec .lvlldReplace s = .next s) ∧
    (q.op ≠ .lvlld → 32 ≤ q.pos → ∃ t, exec .drainCmdComplete s = .next t ∧ completing s.chip t.chip k n 6 q ∧
      (q.flag = false → (t.chip.slot k n).tiles = sl.tiles) ∧
      (q.flag = true → ∀ x ∈ q.parts, ((t.chip.slot k n).tile x).elems = [] ∧ ((t.chip.slot k n).tile x).taint = false)) ∧
    (q.op ≠ .lvlld → q.pos < 32 → exec .drainCmdComplete s = .next s))

namespace Sys2Proof.Claims

/-- The launch at the focus's core with its timetable, on a slot in RUN. -/
def timed (s : State) (l : Launch) (tt : Timetable) : Prop :=
  s.chip.ttAt s.focus.core s.focus.pid = some (l, tt) ∧ (s.chip.slot s.focus.core s.focus.pid).pstate = .run

/-- The pages of a movement have their state bytes, each at a place of its own. -/
def pagesApart (c : Chip) (pid : Nat) (l : Launch) (tt : Timetable) (e : TtEntry) : Prop :=
  (e.pages.map fun g => (c.part pid).stateLoc l tt e.region g).Nodup ∧
  ∀ g ∈ e.pages, (c.part pid).stateLoc l tt e.region g ≠ none

/-- Entry `n` of the timetable at a core is at a stage. -/
def entryAt (c : Chip) (core pid n stage : Nat) : Prop :=
  ∃ l tt e, c.ttAt core pid = some (l, tt) ∧ tt.entries[n]? = some e ∧ e.stage = stage

/-- A tier command leaves (R205, R210): its timeline reaches every number below the least that is still in the queue, or every number given. -/
def tierLeaves (c d : Chip) (core pid : Nat) (q : Cmd) : Prop :=
  let old := c.slot core pid
  let new := d.slot core pid
  let left := (old.eng 7).cmds.filter fun x => x.num != q.num
  new.eng 7 = { old.eng 7 with cmds := left } ∧
  ∃ v, new.tls = old.tls.setIfInBounds 7 (BitVec.ofNat 64 (max (old.tls.getD 7 0).toNat v)) ∧
    (left = [] → v = (old.eng 7).given) ∧ (∀ x ∈ left, v ≤ x.num - 1) ∧ (left ≠ [] → ∃ x ∈ left, v = x.num - 1)

/-- A tier command completes (R150): it leaves, and its DONE token sets out. -/
def tierCompleting (c d : Chip) (core pid : Nat) (q : Cmd) : Prop :=
  tierLeaves c d core pid q ∧ d.flights = c.flights ++ doneTokens c q false 7

/-- A tier command fails (R150, R152): it leaves all the same, DONE with ERR sets out, the record is queued. -/
def tierFailing (c d : Chip) (core pid : Nat) (q : Cmd) (f : AFault) : Prop :=
  tierLeaves c d core pid q ∧ d.flights = c.flights ++ doneTokens c q true 7 ∧
  ((c.part q.who.pid).canTrap = true → (d.slot q.who.core q.who.pid).recs.wait =
    (c.slot q.who.core q.who.pid).recs.wait ++ [((c.slot q.who.core q.who.pid).recs.next, engineRecord q 7 0 f)])

/-- The failure of entry `n` of a timetable by its precondition or a page (R148, R420): its number under its kind. -/
def entryFault (n : Nat) : AFault := { cause := 0x37, info0 := 2 * 2 ^ 62 + n }

/-- The record of a timetable entry that failed (R148, R419, R420): no issuing instance. -/
def entryRecord (f : AFault) : FaultRec :=
  { cause := f.cause, sub := f.sub, addr := f.addr, info0 := f.info0, info1 := f.info1, eng := true, src := 4, tl := 7 }

/-- What the record of a failed entry adds to the queue of the launch's origin core. -/
def entryReported (c d : Chip) (pid : Nat) (l : Launch) (f : AFault) : Prop :=
  (c.part pid).canTrap = true → (d.slot l.origin pid).recs.wait =
    (c.slot l.origin pid).recs.wait ++ [((c.slot l.origin pid).recs.next, entryRecord f)]

/-- The pages of a timetable have their state bytes, each at a place of its own. -/
def mapApart (c : Chip) (pid : Nat) (l : Launch) (tt : Timetable) : Prop :=
  let at_ := fun (q g : Nat) => (c.part pid).stateLoc l tt q g
  ∀ q r g, tt.regions[q]? = some r → g < r.npg → at_ q g ≠ none ∧
    ∀ q' r' g', tt.regions[q']? = some r' → g' < r'.npg → at_ q g = at_ q' g' → q = q' ∧ g = g'

end Sys2Proof.Claims

/-- R145 to R153, R155, R205, R210, R216. The tier engine. The next entry, when its marker is at or below the horizon, starts, and so does an entry or a
command that a pre-emption abandoned, whatever the horizon: every page takes the state of a running entry; a
page without its precondition fails the entry with `TT_STATE`, one whose state byte may not be written with its own cause, and nothing moves; a
BARRIER completes at once. A movement whose pages can all be transferred ends with every page in its final state; one that cannot returns
every page to its state before, and fails with `TT_STATE` or with the cause it met (94). An attach sets M and the miss counter to 0 and
every page to its home tier; markers announced before take no part. A detach copies pages home and then nothing is attached. `tl7` reaches a
number when every command up to it has ended. None of it happens while an access is between its check and its turn (R142, R217,
notes/assumptions 96). The kinds in the records and who takes them are readings (54, 56). -/
def Obligations.TierEngineWorks : Prop :=
  ∀ (s : State), s.chip.mem.wf = true →
    let k := s.focus.core
    let n := s.focus.pid
    let free := s.chip.pagesFree n = true
    (∀ l tt e, timed s l tt → s.focus.k = 0 → tt.entries[s.focus.n]? = some e →
      let starts := s.chip.entryMayStart n l tt s.focus.n = true ∨ e.stage = 1 ∧ tt.keeps (0, s.focus.n) = false
      let clear := s.chip.statesBad n l tt e = none
      ((¬starts ∨ ¬free) → exec .ttEntryStart s = .next s) ∧
      (starts → free → ∃ t, exec .ttEntryStart s = .next t ∧ (t.chip.slot k n).eng 7 = (s.chip.slot k n).eng 7 ∧
        (e.action = 6 → entryAt t.chip k n s.focus.n 2 ∧ t.chip.mem = s.chip.mem) ∧
        (e.action ≠ 6 → clear → s.chip.preOk n l tt e = true → entryAt t.chip k n s.focus.n 1 ∧
          (pagesApart s.chip n l tt e → ∀ g ∈ e.pages,
            t.chip.pageState n l tt e.region g = e.during (s.chip.pageState n l tt e.region g) % 256) ∧
          ∀ a, (∀ g ∈ e.pages, (s.chip.part n).stateLoc l tt e.region g ≠ some a) → t.chip.mem.get a = s.chip.mem.get a) ∧
        (e.action ≠ 6 → clear → s.chip.preOk n l tt e = false → entryAt t.chip k n s.focus.n 3 ∧ t.chip.mem = s.chip.mem ∧
          entryReported s.chip t.chip n l (entryFault s.focus.n)) ∧
        (e.action ≠ 6 → ∀ f, s.chip.statesBad n l tt e = some f → entryAt t.chip k n s.focus.n 3 ∧ t.chip.mem = s.chip.mem ∧
          entryReported s.chip t.chip n l f))) ∧
    (∀ q, (s.chip.slot k n).pstate = .run → s.focus.k = 1 → (s.chip.slot k n).cmd? 7 s.focus.n = some q → q.op ≠ .ttload →
      (q.started = false ∧ (s.chip.slot k n).tierFirst q.num = true ∧ s.chip.moveFree k n q = true ∨ s.chip.commandRestarts k n q = true) → free →
      (∀ f, s.chip.checkMove k n q = some f → ∃ t, exec .ttEntryStart s = .next t ∧ tierFailing s.chip t.chip k n q f ∧ t.chip.mem = s.chip.mem) ∧
      (s.chip.ttAt k n = none → s.chip.checkMove k n q = some { cause := 0x39 }) ∧
      (∀ l tt, s.chip.ttAt k n = some (l, tt) → s.chip.checkMove k n q = none →
        (∀ f, s.chip.statesBad n l tt q.entryOf = some f → ∃ t, exec .ttEntryStart s = .next t ∧ tierFailing s.chip t.chip k n q f ∧
          t.chip.mem = s.chip.mem) ∧
        (s.chip.statesBad n l tt q.entryOf = none → s.chip.preOk n l tt q.entryOf = false → ∃ t, exec .ttEntryStart s = .next t ∧
          tierFailing s.chip t.chip k n q { cause := 0x37, info0 := 2 ^ 62 + bits q.a.toNat 32 16 } ∧ t.chip.mem = s.chip.mem) ∧
        (s.chip.statesBad n l tt q.entryOf = none → s.chip.preOk n l tt q.entryOf = true → ∃ t, exec .ttEntryStart s = .next t ∧
          (∀ x ∈ ((t.chip.slot k n).eng 7).cmds, x.num = q.num → x.started = true) ∧
          (pagesApart s.chip n l tt q.entryOf → ∀ g ∈ q.entryOf.pages, t.chip.pageState n l tt q.entryOf.region g =
            q.entryOf.during (s.chip.pageState n l tt q.entryOf.region g) % 256)))) ∧
    (∀ l tt e k1 k2, (s.chip.slot k n).pstate = .run → s.chip.movingAt s.focus = some (l, tt, e, k1, k2) →
      let old := tt.kept (k1, k2)
      (¬free → exec .ttEntryComplete s = .next s ∧ exec .ttEntryFail s = .next s) ∧
      (free → ∀ c, s.chip.transferAll n l tt e = .ok c → exec .ttEntryFail s = .next s ∧ ∃ t, exec .ttEntryComplete s = .next t ∧
        (c.mem.wf = true → pagesApart s.chip n l tt e → old.length = e.pages.length → ∀ j < old.length, ∀ g, e.pages[j]? = some g →
          t.chip.pageState n l tt e.region g = e.after (tt.region e.region).home (old.getD j 0) % 256) ∧
        (s.focus.k = 0 → entryAt t.chip k n s.focus.n 2) ∧
        (s.focus.k ≠ 0 → ∀ q, (s.chip.slot k n).cmd? 7 s.focus.n = some q →
          tierCompleting s.chip t.chip k n q)) ∧
      (free → ∀ f, s.chip.transferAll n l tt e = .error f → exec .ttEntryComplete s = .next s ∧ ∃ t, exec .ttEntryFail s = .next t ∧
        (pagesApart s.chip n l tt e → old.length = e.pages.length → ∀ j < old.length, ∀ g, e.pages[j]? = some g →
          t.chip.pageState n l tt e.region g = old.getD j 0 % 256) ∧
        (∀ a, (∀ g ∈ e.pages, (s.chip.part n).stateLoc l tt e.region g ≠ some a) → t.chip.mem.get a = s.chip.mem.get a) ∧
        (s.focus.k = 0 → entryAt t.chip k n s.focus.n 3 ∧ entryReported s.chip t.chip n l (f.getD (entryFault s.focus.n))) ∧
        (s.focus.k ≠ 0 → ∀ q, (s.chip.slot k n).cmd? 7 s.focus.n = some q →
          tierFailing s.chip t.chip k n q (f.getD { cause := 0x37, info0 := 2 ^ 62 + e.region })))) ∧
    (∀ q, (s.chip.slot k n).pstate = .run → (s.chip.slot k n).cmd? 7 s.focus.n = some q → q.op = .ttload → q.started = false →
      (s.chip.slot k n).tierFirst q.num = true → free →
      ((s.chip.part n).launchAt k = none → q.a = 0 → ∃ t, exec .timetableAttach s = .next t ∧ tierCompleting s.chip t.chip k n q) ∧
      ((s.chip.part n).launchAt k = none → q.a ≠ 0 → ∃ t, exec .timetableAttach s = .next t ∧ tierFailing s.chip t.chip k n q { cause := 0x39 }) ∧
      (∀ l, (s.chip.part n).launchAt k = some l →
        (q.a = 0 → l.tt = none → ∃ t, exec .timetableAttach s = .next t ∧ tierCompleting s.chip t.chip k n q) ∧
        (q.a = 0 → l.tt ≠ none → ∃ t, exec .timetableAttach s = .next t ∧ t.chip.flights = s.chip.flights ∧ t.chip.mem = s.chip.mem ∧
          ∀ x ∈ ((t.chip.slot k n).eng 7).cmds, x.num = q.num → x.started = true) ∧
        (q.a ≠ 0 → l.tt ≠ none → ∃ t, exec .timetableAttach s = .next t ∧ tierFailing s.chip t.chip k n q { cause := 0x38 }) ∧
        (q.a ≠ 0 → l.tt = none → ∀ f c, s.chip.attach k n q l = (.error f, c) → ∃ t, exec .timetableAttach s = .next t ∧
          tierFailing c t.chip k n q f ∧ (t.chip.part n).launchAt k = some l) ∧
        (q.a ≠ 0 → l.tt = none → ∀ c d, s.chip.attach k n q l = (.ok c, d) → ∃ t l' tt, exec .timetableAttach s = .next t ∧
          t.chip.ttAt k n = some (l', tt) ∧ l'.lid = l.lid ∧ l'.m = 0 ∧ l'.misses = 0 ∧ tt.la = q.sel ∧ tt.before = [] ∧
          (∀ e ∈ tt.entries, e.stage = 0) ∧ (∀ i ∈ t.chip.insts, i.pid = n → l.holds i.core = true → ∀ f, i.frame = some f → f.marks = []) ∧
          (mapApart t.chip n l' tt → ∀ q r g, tt.regions[q]? = some r → g < r.npg → t.chip.pageState n l' tt q g = r.home % 256) ∧
          tierCompleting c t.chip k n q ∧ t.chip.mem = c.mem))) ∧
    (∀ l tt, timed s l tt →
      ((s.chip.detachReady n l tt = false ∨ ¬free) → exec .ttDetachComplete s = .next s) ∧
      (s.chip.detachReady n l tt = true → free → ∃ t, exec .ttDetachComplete s = .next t ∧ t.chip.ttAt k n = none ∧
        (∀ r ∈ (t.chip.part n).ranges, r.owner ≠ .map l.lid) ∧ t.chip.mem = (s.chip.copyHome n l tt).1.mem ∧
        (∀ x ∈ s.chip.tierCmds n l, x.2.op = .ttload → x.2.a = 0 → x.2.started = true → ∀ y ∈ ((t.chip.slot x.1 n).eng 7).cmds, y.num ≠ x.2.num)))

namespace Sys2Proof.Claims

/-- The commands that other packages of a state's box have paired with the one at hand (R325). -/
def pairedWith (c : Chip) (core pid : Nat) (a : AmpSt) : List Contrib := a.others.filterMap fun b => c.ampPeer core pid a b

/-- The words that package `b` of the box sent. -/
def wordsFrom (l : List Contrib) (b : Nat) : List Nat := ((l.find? fun x => x.key.getLast? == some b).map Contrib.words).getD []

/-- The taint of a state after a command (R328). -/
def ampTaint (a : AmpSt) (q : Cmd) (peers : List Contrib) (lines : Bool) : Bool :=
  a.taint || q.taint || peers.any (fun x => x.taints.any id) || (q.op == .ainit && q.flag && lines)

/-- No amplitude. -/
def noAmp : (Nat × Nat) × Bool := ((0, 0), false)

/-- Place of output or input `r` of a gate's group whose first index is `i`: bit j of `r` at the j-th target's place (R321). -/
def spread (pos : List Nat) (i r : Nat) : Nat :=
  i + ((List.range pos.length).map fun j => if r.testBit j then 2 ^ pos.getD j 0 else 0).sum

/-- Re and im after the first columns of a row (R321): each product is folded with one rounding, in ascending column. -/
def rowTimes (f : Fmt) (m x : Nat → Nat × Nat) : Nat → Nat × Nat
  | 0 => (0, 0)
  | c + 1 =>
    let y := rowTimes f m x c
    ((fNma f .rne (m c).2 (x c).2 (fMa f .rne (m c).1 (x c).1 y.1).1).1, (fMa f .rne (m c).2 (x c).1 (fMa f .rne (m c).1 (x c).2 y.2).1).1)

/-- |amplitude|² in FP64 (R324). -/
def weight (a : AmpSt) (z : Nat × Nat) : Nat :=
  let f := fmtOf .f64
  (fMa f .rne (a.wide z.2) (a.wide z.2) (fMul f .rne (a.wide z.1) (a.wide z.1)).1).1

/-- Sum in FP64 of the terms below `n` that are wanted, in ascending order (R324). -/
def halfSum (term : Nat → Nat) (want : Nat → Bool) : Nat → Nat
  | 0 => 0
  | j + 1 => if want j then (fAdd (fmtOf .f64) .rne (halfSum term want j) (term j)).1 else halfSum term want j

/-- Sum in FP64 from left to right (R324). -/
def sumAll : List Nat → Nat
  | [] => 0
  | x :: t => t.foldl (fun y z => (fAdd (fmtOf .f64) .rne y z).1) x

/-- Whether code `c` is the rounding of `1 / √x` as far as its neighbours tell: between the points half way to them. -/
def nearRoot (f : Fmt) (x c : Nat) : Prop :=
  let at_ := fun k => (f.decode k).dyad
  let sq := fun k => ((at_ c).add (at_ k)).mul (((at_ c).add (at_ k)).mul ((fmtOf .f64).decode x).dyad)
  (sq (c - 1)).le ⟨4, 0⟩ = true ∧ (c + 1 < f.infBits → Dyad.le ⟨4, 0⟩ (sq (c + 1)) = true)

end Sys2Proof.Claims

/-- R315, R318, R319, R321, R322, R324 to R328, R330, R333. The amplitude engine. The command that may start does, with a free entry of the range table
for its region; a failed descriptor, an `AINIT` on a live state or another command on none (`AM_STATE`), or a region that cannot be reached halts
the queue with every state as it was and no entry held. It waits while a checked `.sc` atomic does (notes/assumptions 96). A command with a
partner that has not issued waits; one that may not access its region or its record, or meets poison in what it reads, halts with that cause,
one whose partners disagree with `AM_PEER`. Otherwise it takes effect whole and completes. `AINIT` gives
amplitude 0 the value 1 and all others 0, and the identity map; `AGATE` multiplies each group of amplitudes whose controls hold by its matrix,
after swapping targets in from outside; `ASWAP` exchanges two places of the map and moves the amplitudes with them; `AMEAS` gives P1, and with
COL the outcome, and scales what agrees with it by `1 / √S` and clears the rest; `AFREE` ends the state. What other packages send are inputs (6). -/
def Obligations.AmplitudeEngineWorks : Prop :=
  (∀ (s : State) (q : Cmd),
    let k := s.focus.core
    let n := s.focus.pid
    let sl := s.chip.slot k n
    sl.ampHead = some q →
    let stops := fun (c : Chip) (f : AFault) => ∃ t, exec .ampCmdStart s = .next t ∧ halting c t.chip k n 8 q 0 f ∧
      (t.chip.slot k n).amps = sl.amps ∧ t.chip.mem = c.mem ∧ ∀ r ∈ (t.chip.part n).ranges, r.owner ≠ .amp k q.sel
    (∀ f, q.err = some f → stops s.chip f) ∧
    (q.err = none → (q.op = .ainit ∧ sl.amp? q.sel ≠ none) ∨ (q.op ≠ .ainit ∧ sl.amp? q.sel = none) →
      stops s.chip { cause := 0x69 }) ∧
    (∀ f, q.err = none → ampBad (sl.amp? q.sel) q = some f → stops s.chip f) ∧
    (∀ a, q.err = none → ampBad (sl.amp? q.sel) q = none → (sl.amp? q.sel = some a ∨ (sl.amp? q.sel = none ∧ s.chip.ampDesc q.sel q.desc = .ok a)) →
      (s.chip.scWaits n = true → exec .ampCmdStart s = .next s) ∧
      (s.chip.scWaits n = false → (s.chip.part n).freeRange = none → stops s.chip { cause := 0x52 }) ∧
      (∀ num, s.chip.scWaits n = false → (s.chip.part n).freeRange = some num →
        (∀ f c, s.chip.checkAmp k n q a = (.error f, c) → stops c f) ∧
        (∀ m c, s.chip.checkAmp k n q a = (.ok m, c) → ∃ t r, exec .ampCmdStart s = .next t ∧
          (t.chip.part n).ranges = (c.part n).ranges ++ [r] ∧ r.num = num ∧ r.owner = .amp k q.sel ∧ r.va = a.base ∧ r.len = a.bytes ∧
          (headNow t.chip k n 8).map Cmd.started = some true ∧ t.chip.mem = c.mem)))) ∧
  (∀ (s : State) (q : Cmd) (a : AmpSt),
    let k := s.focus.core
    let n := s.focus.pid
    let sl := s.chip.slot k n
    let peers := pairedWith s.chip k n a
    sl.ampRunning = some q → s.chip.ampState k n q = some a →
    ((∃ b ∈ a.others, s.chip.ampPeer k n a b = none) → exec .ampCmdComplete s = .next s) ∧
    (∀ f c, (∀ b ∈ a.others, s.chip.ampPeer k n a b ≠ none) → s.chip.ampRecord k n q a = (.error f, c) → ∃ t, exec .ampCmdComplete s = .next t ∧
      halting s.chip t.chip k n 8 q 0 f ∧ (t.chip.slot k n).amps = sl.amps ∧ t.chip.mem = c.mem) ∧
    (∀ ps c1, (∀ b ∈ a.others, s.chip.ampPeer k n a b ≠ none) → s.chip.ampRecord k n q a = (.ok ps, c1) →
      let c0 : Chip := { c1 with contribs := s.chip.contribs.filter fun x => !peers.contains x }
      ((∃ x ∈ peers, x.failed = true ∨ x.agree ≠ q.ampAgree) → ∃ t, exec .ampCmdComplete s = .next t ∧
        halting s.chip t.chip k n 8 q 0 { cause := 0x6A } ∧ (t.chip.slot k n).amps = sl.amps ∧ t.chip.mem = c1.mem) ∧
      ((∀ x ∈ peers, x.failed = false ∧ x.agree = q.ampAgree) → ∀ l lines c, c0.readAmps q a = (l, lines, c) →
        (∀ f, ampEffect a q (wordsFrom peers) l = .error f → ∃ t, exec .ampCmdComplete s = .next t ∧ halting s.chip t.chip k n 8 q 0 f ∧
          (t.chip.slot k n).amps = sl.amps ∧ t.chip.mem = c.mem) ∧
        (∀ st m words, ampEffect a q (wordsFrom peers) l = .ok (st, m, words) →
          let taint := ampTaint a q peers lines
          ∃ t, exec .ampCmdComplete s = .next t ∧ completing s.chip t.chip k n 8 q ∧
            (∀ r ∈ (t.chip.part n).ranges, r.owner ≠ .amp k q.sel) ∧
            (words = [] → t.chip.mem = (c.writeAmps q a taint m).mem) ∧
            (∀ p1 o, words = [p1, o] → t.chip.mem = ((c.writeAmps q a taint m).putPlaces ps (leBytes 8 p1 ++ leBytes 8 o) taint).mem) ∧
            (∀ b, st = some b → (t.chip.slot k n).amp? b.sid = some { b with taint := taint, count := b.count + 1 }) ∧
            (st = none → (t.chip.slot k n).amp? q.sel = none))))) ∧
  (∀ (a : AmpSt) (q : Cmd) (got : Nat → List Nat) (l : Amps),
    (q.op = .ainit → q.flag = false → ∃ m, ampEffect a q got l = .ok (some a, m, []) ∧ m.length = l.length ∧
      ∀ i < m.length, ((m.getD i ((0, 0), false)).2 = true ∧ (m.getD i ((0, 0), false)).1 =
        if i = 0 ∧ a.box = 0 then (if a.prec = 1 then (0x3F800000, 0) else (0x3FF0000000000000, 0)) else (0, 0))) ∧
    (q.op = .ainit → q.flag = true → ampEffect a q got l = .ok (some a, l, [])) ∧
    (q.op = .afree → ampEffect a q got l = .ok (none, l, [])) ∧
    (q.op = .aswap →
      let x := a.phys (q.a.toNat % 64)
      let y := a.phys (q.a.toNat / 256 % 64)
      x < a.loc ∨ y < a.loc → x < a.loc + a.tb → y < a.loc + a.tb → x ≠ y → l.length = a.held → ∃ b m, ampEffect a q got l = .ok (some b, m, []) ∧
        b.map = a.map.map (fun z => if z = x then y else if z = y then x else z) ∧ m.length = l.length ∧
        ∀ i j, i < l.length → j < l.length → (∀ z, i.testBit z = j.testBit (if z = x then y else if z = y then x else z)) →
          (m.getD i ((0, 0), false)).1 = (l.getD j ((0, 0), false)).1) ∧
    (q.op = .aswap → a.phys (q.a.toNat % 64) = a.phys (q.a.toNat / 256 % 64) → ampEffect a q got l = .ok (some a, l, [])) ∧
    (q.op = .agate → gateBad a q = none → a.map.Nodup → a.map.length = a.n → (∀ x ∈ a.map, x < a.n) → l.length = a.held →
      let pos := q.targets.map a.phys
      let used := (q.targets ++ q.controls).map a.phys
      let dim := 2 ^ q.gtK
      let held := fun i => q.controls.zipIdx.all fun x => a.bit (a.phys x.1) i == q.gtCpol.testBit x.2
      ((∀ p ∈ pos, p < a.loc) → ∃ m, ampEffect a q got l = .ok (some a, m, []) ∧ m.length = l.length ∧
        ∀ i r, (∀ p ∈ pos, i.testBit p = false) → r < dim → spread pos i r < l.length →
          (held i = false → m.getD (spread pos i r) noAmp = l.getD (spread pos i r) noAmp) ∧
          (held i = true → m.getD (spread pos i r) noAmp =
            (rowTimes a.fmt (fun c => (q.extra.getD (2 * (r * dim + c)) 0, q.extra.getD (2 * (r * dim + c) + 1) 0))
              (fun c => (l.getD (spread pos i c) noAmp).1) dim, true))) ∧
      (∀ j p, a.loc ≤ pos.getD j 0 → (∀ i < j, pos.getD i 0 < a.loc) → p < a.loc → p ∉ used → (∀ z < a.loc, p < z → z ∈ used) →
        ampEffect a q got l =
          ampEffect (a.swapMap p (pos.getD j 0)) q got (swapAmps a (fun b => pairUp (got b)) p (pos.getD j 0) l))) ∧
    (q.op = .ameas →
      let f := fmtOf .f64
      let bq := a.phys (q.a.toNat % 64)
      let part := fun (one : Bool) (tw : Nat) => halfSum (fun j => weight a (l.getD (tw * 2 ^ a.loc + j) noAmp).1)
        (fun j => a.bit bq (tw * 2 ^ a.loc + j) == one) (2 ^ a.loc)
      let parts := (List.range (2 ^ a.pb)).flatMap fun b =>
        if b = a.box then (List.range (2 ^ a.tb)).map fun tw => (part false tw, part true tw) else pairUp (got b)
      let s0 := sumAll (parts.map Prod.fst)
      let s1 := sumAll (parts.map Prod.snd)
      let tot := (fAdd f .rne s0 s1).1
      let zero := fun x => (f.decode x).isZero
      let p1 := if zero tot = true then f.nan else (fDiv f .rne s1 tot).1
      let none_ := zero tot = true ∨ (f.decode tot).isNan = true ∨ (f.decode tot).isInf = true
      (q.flag = false → ampEffect a q got l = .ok (some a, l, [p1, 2 ^ 64 - 1])) ∧
      (q.flag = true → none_ → ampEffect a q got l = .error { cause := 0x6B }) ∧
      (q.flag = true → ¬none_ →
        let u := (f.round .rne false (q.c.toNat / 2 ^ 11) (-53)).1
        let o := !zero s1 && (zero s0 || ltVal (f.decode (fMul f .rne u tot).1) (f.decode s1))
        let k := recipRoot a.fmt (if o then s1 else s0)
        ∃ m, ampEffect a q got l = .ok (some a, m, [p1, if o then 1 else 0]) ∧ m.length = l.length ∧ ∀ i < m.length,
          m.getD i noAmp = (if a.bit bq i = o then
            ((fMul a.fmt .rne (l.getD i noAmp).1.1 k).1, (fMul a.fmt .rne (l.getD i noAmp).1.2 k).1) else (0, 0), true)))) ∧
  (∀ (single : Bool) (x m : Nat) (e : Int), (fmtOf .f64).decode x = .fin false m e → m ≠ 0 →
    let f := fmtOf (if single then .f32 else .f64)
    recipRoot f x < f.infBits → nearRoot f x (recipRoot f x)) ∧
  (∀ (c : Chip) (sid : Nat) (w : List Nat) (b : AmpSt), c.ampDesc sid w = .ok b → b.map = List.range b.n)

namespace Sys2Proof.Claims

/-- A collective command that is over leaves once those before it have (R210, R343): with none before it and none of those behind it over, it
completes at once; behind one that is not over it waits. -/
def overNow (c d : Chip) (core pid : Nat) (q : Cmd) : Prop :=
  (∀ back, ((c.slot core pid).eng 9).cmds = q :: back → (∀ x ∈ back, x.done = false) → completing c d core pid 9 q) ∧
  (∀ x back, ((c.slot core pid).eng 9).cmds = x :: back → x.num ≠ q.num → x.done = false →
    (d.slot core pid).tls = (c.slot core pid).tls ∧ d.flights = c.flights ∧
    ∀ y ∈ ((d.slot core pid).eng 9).cmds, y.num = q.num → y.done = true)

/-- The lines of a word of memory are readable under a key mark. -/
def underKey (c : Chip) (loc n key : Nat) : Prop := isKeyed loc = true → ∀ l ∈ linesOf loc n, lookupNat c.mem.keyed l = key

/-- The effect of a reduce-store's frame on the word at its place (R351): the operation's result, by its function code. -/
def credResult (fn : Nat) (wide : Bool) (old : Nat) (v : Word) : Nat :=
  ((credOp fn).apply (if wide then 64 else 32) old v.toNat 0).getD old

end Sys2Proof.Claims

/-- R217, R343, R346 to R349, R351, R352, R445. Collectives and reduce-stores. A segment of a `COLL` waits for every package's part; a buffer that
cannot be reached halts the queue at the lowest segment that faults, and a partner that failed or disagrees halts it with `CL_PEER`; otherwise its
bytes are written and it is done. With every segment done the command is over. A frame of a `CRED` whose key is in the filter changes nothing; one
whose key slot is no longer loaded, or that its target refuses, changes nothing there and, as the first of its command, halts the queue; another performs its operation and leaves its
key there. An acknowledged `CRED` is over. A key stays in the filter while a frame with it may still come (when it goes is left open,
notes/assumptions 1 and 64). A reduction folds coordinates upward. What other packages send are inputs (6), and their memory is the model's
own (63). -/
def Obligations.LinkCommandsWork : Prop :=
  (∀ (s : State) (q : Cmd),
    let k := s.focus.core
    let n := s.focus.pid
    let x := q.actor k n (some (.coll k q.num))
    let begun := s.chip.modSlot k n fun y => y.modCmd 9 q.num fun z => { z with started := true }
    let peers := (s.chip.collOthers q).map fun b => s.chip.collPeer n q b
    let va (w : Nat) : Nat := (q.desc.getD w 0 + 4096 * q.pos) % 2 ^ 64
    (s.chip.slot k n).collAt s.focus.n = some q →
    (∀ f, q.err = some f → ∃ t, exec .collSegment s = .next t ∧ halting s.chip t.chip k n 9 q 0 f) ∧
    (q.err = none → (∃ m, some m ∈ peers ∧ (m.failed = true ∨ m.agree ≠ q.clAgree)) →
      ∃ t, exec .collSegment s = .next t ∧ halting s.chip t.chip k n 9 q q.pos { cause := 0x71 } ∧ t.chip.mem = s.chip.mem) ∧
    (q.err = none → (∀ m, some m ∈ peers → m.failed = false ∧ m.agree = q.clAgree) → q.pos < s.chip.collSegs q →
      (∀ f c, begun.engineRead x (va 0) (min 4096 (q.clSrcLen (s.chip.clBox q) - 4096 * q.pos)) = (.error f, c) →
        ∃ t, exec .collSegment s = .next t ∧ halting c t.chip k n 9 q q.pos f ∧ t.chip.mem = c.mem) ∧
      (∀ b c, begun.engineRead x (va 0) (min 4096 (q.clSrcLen (s.chip.clBox q) - 4096 * q.pos)) = (.ok b, c) →
        (∀ f d, c.enginePlaces x (va 1) (min 4096 (q.clDstLen - 4096 * q.pos)) = (.error f, d) →
          ∃ t, exec .collSegment s = .next t ∧ halting d t.chip k n 9 q q.pos f ∧ t.chip.mem = d.mem) ∧
        (∀ ps d, c.enginePlaces x (va 1) (min 4096 (q.clDstLen - 4096 * q.pos)) = (.ok ps, d) →
          (none ∈ peers → exec .collSegment s = .next { s with chip := d }) ∧
          (none ∉ peers → ∀ bs tt e, d.collSegment x n q q.pos = (.ok (bs, tt), e) → ∃ t, exec .collSegment s = .next t ∧
            t.chip.mem = (e.putLines ps bs tt).mem ∧ (∀ y ∈ ((t.chip.slot k n).eng 9).cmds, y.num = q.num → y.pos = q.pos + 1) ∧
            (t.chip.slot k n).tls = (s.chip.slot k n).tls) ∧
          (none ∉ peers → ∀ f m e, d.collSegment x n q q.pos = (.error (f, m), e) → ∃ t j g, exec .collSegment s = .next t ∧
            halting e t.chip k n 9 q j g ∧ t.chip.mem = e.mem ∧
            (∀ i, q.pos ≤ i → i < min j m → ∀ h, (e.segFault x q i).1 ≠ .error h) ∧
            ((j = m ∧ g = f) ∨ (q.pos ≤ j ∧ j < m ∧ (e.segFault x q j).1 = .error g)))))) ∧
    (q.err = none → q.started = true → s.chip.collSegs q ≤ q.pos → ∃ t, exec .collComplete s = .next t ∧ overNow s.chip t.chip k n q ∧
      t.chip.mem = s.chip.mem) ∧
    ((q.err ≠ none ∨ q.started = false ∨ q.pos < s.chip.collSegs q) → exec .collComplete s = .next s)) ∧
  (∀ (s : State) (r : CredOp), s.chip.mem.wf = true →
    let n := if r.wide then 8 else 4
    (r.key ∈ s.chip.credSeen → s.chip.performCred r = s.chip) ∧
    (r.key ∉ s.chip.credSeen → r.loc % n = 0 → r.loc < 2 ^ 56 ∨ 2 ^ 100 ≤ r.loc → underKey s.chip r.loc n ((s.chip.credMark r).getD 0) →
      let d := s.chip.performCred r
      d.credSeen = s.chip.credSeen ++ [r.key] ∧
      d.mem.read r.loc n = credResult r.fn r.wide (s.chip.mem.read r.loc n) r.v % 256 ^ n ∧
      (∀ a, (a < r.loc ∨ r.loc + n ≤ a) → d.mem.get a = s.chip.mem.get a) ∧ d.slots = s.chip.slots ∧ d.flights = s.chip.flights) ∧
    (∀ core va, s.chip.credMark r = none → ∃ level entry, s.chip.credRefused r core va = some (xlF 0x2D level va entry)) ∧
    (∀ core va, s.chip.credMark r ≠ none → lowestRefusing (s.chip.part r.pid).ranges { pid := r.pid, core } .atomic r.loc n = none →
      (s.chip.mem.poisoned r.loc 4 = none → s.chip.credRefused r core va = none) ∧
      (s.chip.mem.poisoned r.loc 4 ≠ none → s.chip.credRefused r core va = some { cause := 0x0A, addr := va, info0 := physAddr r.loc })) ∧
    (∀ core va e, s.chip.credMark r ≠ none → lowestRefusing (s.chip.part r.pid).ranges { pid := r.pid, core } .atomic r.loc n = some e →
      s.chip.credRefused r core va = some (rangeF s.chip e { pid := r.pid, core } va r.loc n)) ∧
    (s.focus.k = 1 → s.chip.creds[s.focus.n]? = some r →
      (s.chip.credRefused r 0 0 = none →
        exec .credPerform s = .next { s with chip := { s.chip.performCred r with creds := s.chip.creds.eraseIdx s.focus.n } }) ∧
      (s.chip.credRefused r 0 0 ≠ none → exec .credPerform s = .next { s with chip := { s.chip with creds := s.chip.creds.eraseIdx s.focus.n } }))) ∧
  (∀ (s : State) (q : Cmd),
    let k := s.focus.core
    let n := s.focus.pid
    (s.chip.slot k n).credAt s.focus.n = some q →
    (∀ f, s.focus.k = 0 → q.credKey ∉ s.chip.credSeen → s.chip.credRefused (q.frame n) k q.a.toNat = some f → ∃ t, exec .credPerform s = .next t ∧
      halting s.chip t.chip k n 9 q 0 f ∧ t.chip.mem = s.chip.mem) ∧
    (s.focus.k = 0 → q.credKey ∈ s.chip.credSeen ∨ s.chip.credRefused (q.frame n) k q.a.toNat = none → ∃ t, exec .credPerform s = .next t ∧
      t.chip.mem = (s.chip.performCred (q.frame n)).mem ∧ t.chip.credSeen = (s.chip.performCred (q.frame n)).credSeen ∧
      ∀ y ∈ ((t.chip.slot k n).eng 9).cmds, y.num = q.num → y.pos = 1) ∧
    (q.started = true → q.pos = 1 ∨ q.credKey ∈ s.chip.credSeen → ∃ t, exec .credAck s = .next t ∧ overNow s.chip t.chip k n q ∧ t.chip.mem = s.chip.mem) ∧
    ((q.started = false ∨ (q.pos ≠ 1 ∧ q.credKey ∉ s.chip.credSeen)) → exec .credAck s = .next s) ∧
    (q.started = true → exec .transportRetransmission s = .next { s with chip := { s.chip with creds := s.chip.creds ++ [q.frame n] } })) ∧
  (∀ (s : State) (key : List Nat), s.chip.credSeen[s.focus.n]? = some key →
    let comes := (∃ r ∈ s.chip.creds, r.key = key) ∨ (∃ y ∈ s.chip.slots, ∃ q ∈ (y.eng 9).cmds, q.op = .cred ∧ q.credKey = key)
      ∨ ∃ ext r, Input.cred ext r ∈ s.inputs ∧ (s.chip.credOf ext r).key = key
    (comes → exec .credFilterExpire s = .next s) ∧
    (¬comes → exec .credFilterExpire s = .next { s with chip := { s.chip with credSeen := s.chip.credSeen.eraseIdx s.focus.n } })) ∧
  (∀ (op : Nat → Nat → Nat) (v : Nat → Nat), reduceBox op 1 1 0 v = op (op (v 0) (v 1)) (op (v 2) (v 3)) ∧
    reduceBox op 0 0 1 v = op (v 0) (v 1) ∧ reduceBox op 2 0 0 v = op (op (op (v 0) (v 1)) (v 2)) (v 3))

/-! ## The links, the sensors, pre-emption -/

namespace Sys2Proof.Claims

/-- The chip after an event that the outside world brought about: the input is used up and nothing but the chip has changed. -/
def brought (s : State) (rest : List Input) (c : Chip) : State := { s with chip := c, inputs := rest }

/-- An operation fails at its sender (R338, R342): an access beyond a link faults (a load that waits, a store or an atomic of a block that waits for
its commit, the fetch of a block: notes/assumptions 115); a started command of an engine context halts its queue, a
copy once what it has sent is written, the second command of the plane engine once it is the first; a movement of the tier engine, of the timetable
(`k` 10) or of a command, returns its pages and fails, halting nothing (R148, R150). -/
def remoteFailure (s : State) (ins : Instr) (x : Focus) (rest : List Input) (cause : Nat) : Prop :=
  let f : AFault := { cause := cause }
  let halts := fun (q : Cmd) (chunk : Nat) => ∃ t, exec ins s = .next t ∧ t.inputs = rest ∧
    halting s.chip t.chip x.core x.pid x.k q chunk f ∧ t.chip.mem = s.chip.mem
  let fails := fun (y : Focus) => ∀ l tt e k1 k2, s.chip.movingAt y = some (l, tt, e, k1, k2) → s.chip.pagesFree y.pid = true →
    ∃ t, exec ins s = .next t ∧ t.inputs = rest ∧ (∀ k, ((t.chip.slot x.core x.pid).eng k).halted = ((s.chip.slot x.core x.pid).eng k).halted) ∧
      (pagesApart s.chip x.pid l tt e → (tt.kept (k1, k2)).length = e.pages.length → ∀ j g, e.pages[j]? = some g →
        t.chip.pageState x.pid l tt e.region g = (tt.kept (k1, k2)).getD j 0 % 256) ∧
      (y.k = 0 → entryAt t.chip x.core x.pid x.n 3) ∧
      (y.k ≠ 0 → ∀ q, (s.chip.slot x.core x.pid).cmd? 7 x.n = some q → tierFailing s.chip t.chip x.core x.pid q f)
  (∀ i fr, x.iid ≠ 0 → s.chip.inst? x.iid = some i → i.state = .running → i.frame = some fr → (∃ l ∈ fr.loads, l.idx = x.idx) →
    exec ins s = .next (brought s rest (s.chip.takeFault x.iid x.idx f))) ∧
  (∀ i fr a pl, x.iid ≠ 0 → s.chip.inst? x.iid = some i → i.state = .complete → i.frame = some fr → a ∈ fr.acts → a.idx = x.idx →
    s.chip.accessPlace i fr a = some pl → (pl.home = .remote ∨ pl.home = .host) →
    exec ins s = .next (brought s rest (s.chip.takeFault x.iid x.idx f))) ∧
  (∀ i pl c, x.iid ≠ 0 → s.chip.inst? x.iid = some i → i.state = .running → i.frame = none → i.holds = [] → mappedBlock s.chip i = none → x.idx = 0 →
    s.chip.resolve i.actor .fetch false i.block 4 = (.ok pl, c) → (pl.home = .remote ∨ pl.home = .host) →
    exec ins s = .next (brought s rest (s.chip.takeFault x.iid 0 f))) ∧
  (x.iid = 0 → s.chip.mem.wf = true → (x.k = 10 → fails { x with k := 0 }) ∧ (x.k = 7 → fails { x with k := 1 })) ∧
  (∀ q, x.iid = 0 → x.k < 10 → x.k ≠ 7 → (s.chip.slot x.core x.pid).cmd? x.k x.n = some q → q.started = true → q.done = false →
    ((s.chip.slot x.core x.pid).eng x.k).halted = false →
    (x.k < 4 → q.buf = [] → halts q (q.chunkOf q.pos)) ∧
    (x.k < 4 → q.buf ≠ [] → ∃ t, exec ins s = .next t ∧ t.inputs = rest ∧
      ((t.chip.slot x.core x.pid).cmd? x.k x.n).map Cmd.err = some (some f) ∧ t.chip.mem = s.chip.mem) ∧
    (x.k = 5 → (s.chip.slot x.core x.pid).isPlaneHead q = true → halts q q.pos) ∧
    (x.k = 5 → (s.chip.slot x.core x.pid).isPlaneHead q = false → exec ins s = .next (brought s rest s.chip)) ∧
    (x.k = 8 → halts q 0) ∧ (x.k = 9 → q.op = .cred → halts q 0) ∧ (x.k = 9 → q.op ≠ .cred → halts q q.pos) ∧
    (x.k = 4 ∨ x.k = 6 → q.op ≠ .cred → halts q q.pos))

end Sys2Proof.Claims

/-- R41, R56, R59, R148, R150, R338, R340 to R342, R351, R434, R444, R445, R447, R455. What the links and the sensors bring. A frame with a wrong field
is refused whole; the tokens of one wait for a credit to its core; one of lines writes them, with their taint; a reduce-store's is on its way to its
home slice. A refused or undeliverable operation fails at its sender with `LK_PROTO` or `LK_UNREACH`. A retry only counts. A corrected error counts, a
clean line is dropped, an uncorrectable one poisons its line, of memory or of a tile; one in a slot's state stops the slot with `MC_STATE` (the first
cause stays: the model's choice, notes/assumptions 81) and its core is to be retired; none strikes while a checked `.sc` atomic waits (96). Revised
heat parameters keep their bounds; at the emergency every core of the tower has A = 0. A walk changes no instance, slot or partition. That all this
comes as inputs, and what the payloads hold, are the model's choices (6, 43). -/
def Obligations.LinksAndSensorsWork : Prop :=
  ∀ (s : State) (rest : List Input), s.chip.mem.wf = true →
    (∀ src core addr ws, s.inputs = .frame src core addr ws :: rest →
      (s.chip.frameBad ws = true → exec .linkFrameReceive s = .next (brought s rest s.chip)) ∧
      (∀ p, s.chip.frameBad ws = false → bits (ws.getD 0 0) 56 4 = 0 → s.chip.parts.find? (fun p => p.part == bits (ws.getD 0 0) 32 16) = some p →
        ∃ l, exec .linkFrameReceive s = .next (brought s rest { s.chip with waiting := s.chip.waiting ++ l }) ∧ l.length = bits (ws.getD 0 0) 48 8 ∧
          ∀ j x, l[j]? = some x → x.hdr = BitVec.ofNat 64 (ws.getD (2 + 2 * j) 0) ∧ x.payload = BitVec.ofNat 64 (ws.getD (3 + 2 * j) 0) ∧
            x.pid = p.pid ∧ x.dst = core ∧ x.src = 1024 + src ∧ x.resv = false) ∧
      (s.chip.frameBad ws = false → bits (ws.getD 0 0) 56 4 = 1 → addr % 64 = 0 → (∀ j < bits (ws.getD 0 0) 48 8, isDram (addr + 64 * j) = true) →
        ∃ t, exec .linkFrameReceive s = .next t ∧ t.inputs = rest ∧ t.chip.flights = s.chip.flights ∧
          (∀ j < 64 * bits (ws.getD 0 0) 48 8, t.chip.mem.get (addr + j) = BitVec.ofNat 8 (ws.getD (2 + j / 8) 0 / 256 ^ (j % 8))) ∧
          ∀ j < bits (ws.getD 0 0) 48 8, addr / 64 + j ∉ t.chip.mem.poison ∧
            ((ws.getD 1 0).testBit j = true → addr / 64 + j ∈ t.chip.mem.taint))) ∧
    (∀ ext r, s.inputs = .cred ext r :: rest →
      let good := bits (ext.getD 0 0) 56 4 = 4 ∧ s.chip.frameBad (ext ++ List.replicate (8 * bits (ext.getD 0 0) 48 8) 0) = false ∧ isDram r.loc = true
      (good → exec .linkFrameReceive s =
        .next (brought s rest { s.chip with creds := s.chip.creds ++ [{ r with
          pid := s.chip.framePid ext, key := [s.chip.framePid ext, 1] ++ r.key, kid := 0 }] })) ∧
      (¬good → exec .linkFrameReceive s = .next (brought s rest s.chip))) ∧
    (∀ m, s.inputs = .contrib m :: rest →
      (s.chip.hasPart (m.key.getD 1 0) = true →
        exec .linkFrameReceive s = .next (brought s rest { s.chip with contribs := s.chip.contribs ++ [m] })) ∧
      (s.chip.hasPart (m.key.getD 1 0) = false → exec .linkFrameReceive s = .next (brought s rest s.chip))) ∧
    (∀ x, s.inputs = .refused x :: rest → remoteFailure s .linkFrameReceive x rest 0x73) ∧
    (∀ x, s.inputs = .unreach x :: rest → remoteFailure s .lkUnreach x rest 0x72) ∧
    (∀ n, s.inputs = .linkRetry n :: rest → ∃ t, exec .linkRetry s = .next t ∧ t.inputs = rest ∧
      (t.chip.tower n).retries = min ((s.chip.tower n).retries + 1) (2 ^ 32 - 1) ∧ { t.chip with towers := s.chip.towers } = s.chip) ∧
    (∀ n, s.inputs = .laneDegrade n :: rest → n < s.chip.lanes.length → ∃ t, exec .laneDegrade s = .next t ∧ t.inputs = rest ∧
      (s.chip.lanes.getD n 0 = 8 → t.chip.lanes.getD n 0 = 4) ∧ (s.chip.lanes.getD n 0 = 4 → t.chip.lanes.getD n 0 = 2) ∧
      (∀ j, j ≠ n → t.chip.lanes.getD j 0 = s.chip.lanes.getD j 0) ∧ t.chip.logq.length = s.chip.logq.length + 1) ∧
    (∀ n, s.inputs = .portFail n :: rest → exec .portFailover s = .next (brought s rest { s.chip with lanes := s.chip.lanes.set n 0 })) ∧
    (s.chip.scq ≠ [] → exec .softError s = .next s) ∧
    (∀ core loc fatal, s.chip.scq = [] → s.inputs = .soft (.sram core loc fatal) :: rest → ∃ t, exec .softError s = .next t ∧ t.inputs = rest ∧ t.chip.mem.cells = s.chip.mem.cells ∧
      (fatal = false → (t.chip.coreSt core).errs = min ((s.chip.coreSt core).errs + 1) (2 ^ 32 - 1) ∧ t.chip.mem = s.chip.mem) ∧
      (fatal = true → loc / 64 ∈ t.chip.mem.poison ∧ ∀ l ∈ t.chip.mem.poison, l = loc / 64 ∨ l ∈ s.chip.mem.poison)) ∧
    (∀ loc fatal, s.chip.scq = [] → s.inputs = .soft (.dram loc fatal) :: rest → ∃ t, exec .softError s = .next t ∧ t.inputs = rest ∧ t.chip.mem.cells = s.chip.mem.cells ∧
      (fatal = false → (t.chip.tower (loc / 2 ^ 37 % 4)).dramErrs = min ((s.chip.tower (loc / 2 ^ 37 % 4)).dramErrs + 1) (2 ^ 32 - 1) ∧ t.chip.mem = s.chip.mem) ∧
      (fatal = true → loc / 64 ∈ t.chip.mem.poison)) ∧
    (∀ core, s.chip.scq = [] → s.inputs = .soft (.clean core) :: rest → ∃ t, exec .softError s = .next t ∧ t.inputs = rest ∧
      (t.chip.coreSt core).lcache = [] ∧ (t.chip.coreSt core).blocks = [] ∧ t.chip.mem = s.chip.mem) ∧
    (∀ core pid tile line fatal, s.chip.scq = [] → s.inputs = .soft (.acc core pid tile line fatal) :: rest → ∃ t, exec .softError s = .next t ∧
      t.inputs = rest ∧ t.chip.mem = s.chip.mem ∧
      (fatal = false → (t.chip.coreSt core).errs = min ((s.chip.coreSt core).errs + 1) (2 ^ 32 - 1) ∧ t.chip.slots = s.chip.slots) ∧
      (fatal = true → (s.chip.slot core pid).inResidue tile = false →
        line % 160 ∈ ((t.chip.slot core pid).tile tile).poison ∧
        ((t.chip.slot core pid).tile tile).elems = ((s.chip.slot core pid).tile tile).elems)) ∧
    (∀ core g, s.chip.scq = [] → s.inputs = .mismatch core g :: rest → exec .softError s =
      .next (brought s rest (s.chip.modCore core fun x => { x with mism := x.mism ++ [g] }))) ∧
    (∀ core pid, s.chip.scq = [] → s.inputs = .soft (.slot core pid true) :: rest → ∃ t, exec .softError s = .next t ∧ t.inputs = rest ∧
      (t.chip.slot core pid).stop = some ((s.chip.slot core pid).stop.getD 0x0B) ∧ (t.chip.coreSt core).retire = true ∧ t.chip.mem = s.chip.mem) ∧
    (∀ core a p, s.inputs = .thermal core a p :: rest → ∃ t, exec .thermalRevise s = .next t ∧ t.inputs = rest ∧
      t.chip.coreSt core = { s.chip.coreSt core with refill := min a 64, period := min (max p 16) 4096 } ∧ t.chip.slots = s.chip.slots) ∧
    (∀ n, n < 4 → s.inputs = .emergency n :: rest → ∃ t, exec .thermalEmergency s = .next t ∧ t.inputs = rest ∧
      (∀ k < 1024, towerOf k = n → (t.chip.coreSt k).refill = 0) ∧ (∀ k < 1024, towerOf k ≠ n → t.chip.coreSt k = s.chip.coreSt k)) ∧
    (∃ t, exec .translationWalk s = .next t ∧ t.chip.insts = s.chip.insts ∧ t.chip.slots = s.chip.slots ∧ t.chip.parts = s.chip.parts ∧
      (∀ x, t.chip.mem.get x &&& 0x9F = s.chip.mem.get x &&& 0x9F) ∧
      (∀ e c, s.focus.n < 2 ^ 52 → s.chip.hasPart s.focus.pid = true → s.chip.translate s.focus.core s.focus.pid s.focus.n = (.ok e, c) → t.chip = c))

namespace Sys2Proof.Claims

/-- What a partition's image holds of a slot beside its tiles (R440). -/
def sameImage (x y : Machine.Slot) : Prop :=
  x.cfg = y.cfg ∧ x.mat = y.mat ∧ x.ctx = y.ctx ∧ x.tls = y.tls ∧ x.engs = y.engs ∧ x.cps = y.cps ∧ x.bitmap = y.bitmap ∧
  x.tables = y.tables ∧ x.amps = y.amps ∧ x.recs = y.recs ∧ x.outq = y.outq ∧ x.counts = y.counts ∧ x.stop = y.stop

/-- A marker has come by a side, or the partition has no core beyond it (R438). -/
def sideDone (c : Chip) (core pid d : Nat) : Prop := d ∈ (c.slot core pid).marks ∨ (c.part pid).neighbour core d = none

end Sys2Proof.Claims

/-- R93, R418, R438 to R443, R448. Pre-emption and retirement. A request takes a running slot through MARK to DRAIN: blocks not yet committing are
discarded and will be mapped anew, with their registers as they were. A marker comes by a side once, from a neighbour that has sent its own. At rest
with every marker the slot goes to SAVE; written, it is OUT, its image in the shadow store where no other is and it fits the store's 256 KiB: how
many bytes the parts take whose size the manual does not give is left open (notes/assumptions 104). A swap-in brings it to RESTORE and, read, to RUN
with no translation in the core's micro-TLB and an empty load cache. The image keeps everything; a tile's elements pass through their 16 bytes, which
keep every element in range. A request is over when every core is where it wants it (of a partition that has ended, at once: 79). A retired core's
slots come to rest and move to the spare, with its clock (5), or stop with `MC_STATE` where none is left (the first cause stays, 81). -/
def Obligations.PreemptionMoves : Prop :=
  (∀ (s : State),
    let k := s.focus.core
    let n := s.focus.pid
    let sl := s.chip.slot k n
    let frame (t : State) (st : PState) : Prop :=
      (t.chip.slot k n).pstate = st ∧ t.chip.insts = s.chip.insts ∧ t.chip.mem = s.chip.mem ∧ t.chip.flights = s.chip.flights
    (s.focus.k ≠ 1 → sl.pstate = .run → s.chip.wantedOut n = true → Numbered s.chip → ∃ t, exec .preemptRequest s = .next t ∧
      (t.chip.slot k n).pstate = .drain ∧ (∀ j ∈ t.chip.insts, j.core = k → j.pid = n → j.state ≠ .complete) ∧
      (∀ i ∈ s.chip.insts, i.core = k → i.pid = n → (i.state = .running ∨ i.state = .complete) → i.creator = none →
        ∃ j, t.chip.inst? i.iid = some j ∧ j.state = .running ∧ j.frame = none ∧ j.regs = i.regs ∧ j.fpc = i.fpc ∧ j.block = i.block)) ∧
    (s.focus.k ≠ 1 → (sl.pstate ≠ .run ∨ s.chip.wantedOut n = false) → exec .preemptRequest s = .next s) ∧
    (∀ d, (s.chip.part n).neighbour k s.focus.n = some d →
      (sl.pstate = .drain → s.focus.n ∉ sl.marks → s.chip.markerSent n d (facing s.focus.n) = true →
        let chip := s.chip.modSlot k n fun x => { x with marks := sl.marks ++ [s.focus.n] }
        exec .preemptMarkerArrival s = .next { s with chip := chip }) ∧
      ((sl.pstate ≠ .drain ∨ s.focus.n ∈ sl.marks ∨ s.chip.markerSent n d (facing s.focus.n) = false) → exec .preemptMarkerArrival s = .next s)) ∧
    (sl.pstate = .drain → s.chip.wantedOut n = true → s.chip.quiet k n = true → (∀ d, 1 ≤ d → d ≤ 4 → sideDone s.chip k n d) →
      ∃ t, exec .preemptDrainDone s = .next t ∧ (t.chip.slot k n).pstate = .save ∧ t.chip.insts = s.chip.insts ∧ t.chip.flights = s.chip.flights ∧
        let new := t.chip.slot k n
        new.tls = sl.tls ∧ new.tiles = sl.tiles ∧ new.mat = sl.mat ∧ new.cfg = sl.cfg ∧ new.recs = sl.recs ∧ new.amps = sl.amps ∧ new.outq = sl.outq ∧
        ∀ j < 10, (new.eng j).cmds.map Cmd.num = (sl.eng j).cmds.map Cmd.num) ∧
    ((sl.pstate ≠ .drain ∨ s.chip.wantedOut n = false ∨ s.chip.quiet k n = false ∨ ∃ d, 1 ≤ d ∧ d ≤ 4 ∧ ¬sideDone s.chip k n d) →
      exec .preemptDrainDone s = .next s) ∧
    (sl.pstate = .save → ∃ t, exec .saveComplete s = .next t ∧ frame t .out ∧ sameImage (t.chip.slot k n) sl ∧
      ((∃ x ∈ s.chip.slots, x.core = k ∧ x.pid ≠ n ∧ x.image = 1) → (t.chip.slot k n).image = 2) ∧
      (2 ^ 18 < s.chip.imageKnown k n → (t.chip.slot k n).image = 2) ∧
      (∃ size, s.chip.imageKnown k n ≤ size ∧ ((∀ x ∈ s.chip.slots, x.core = k → x.pid ≠ n → x.image ≠ 1) →
        (t.chip.slot k n).image = if size ≤ 2 ^ 18 then 1 else 2)) ∧
      (t.chip.slot k n).tiles = sl.tiles.map fun x => { x with elems := x.elems.map fun e => (A80.ofImage e.image).getD e }) ∧
    (sl.pstate ≠ .save → exec .saveComplete s = .next s) ∧
    (s.focus.k ≠ 1 → sl.pstate = .out → s.chip.wantedIn k n = true → ∃ t, exec .swapIn s = .next t ∧ frame t .restore ∧ sameImage (t.chip.slot k n) sl ∧
      (t.chip.slot k n).marks = [] ∧ (t.chip.slot k n).tiles = sl.tiles) ∧
    (s.focus.k ≠ 1 → (sl.pstate ≠ .out ∨ s.chip.wantedIn k n = false) → exec .swapIn s = .next s) ∧
    (sl.pstate = .restore → ∃ t, exec .restoreComplete s = .next t ∧ frame t (if (s.chip.coreSt k).spare = none then .run else .drain) ∧
      sameImage (t.chip.slot k n) sl ∧ (t.chip.slot k n).tiles = sl.tiles ∧ (t.chip.slot k n).image = 0 ∧ (t.chip.coreSt k).lcache = [] ∧
      ∀ x, x ∈ t.chip.tlb ↔ x ∈ s.chip.tlb ∧ ¬(x.pid = n ∧ x.level = .micro k)) ∧
    (sl.pstate ≠ .restore → exec .restoreComplete s = .next s) ∧
    (∀ q out inn dn dch, s.chip.pendAt n s.focus.n = some q → q.kind = .pswap out inn dn dch →
      let ok := (∀ a, out = some a → s.chip.wholly a .out = true) ∧ ∀ b, inn = some b → s.chip.wholly b .run = true
      (ok → ∃ t, exec .pswapComplete s = .next t ∧ (t.chip.part n).pends = (s.chip.part n).pends.filter (fun x => x.n != q.n) ∧
        t.chip.flights = s.chip.flights ++ (if dn then [doneToken s.chip q.who dch (donePayload false 7 0 0)] else [])) ∧
      (¬ok → exec .pswapComplete s = .next s)) ∧
    (s.focus.k ≠ 1 → (s.chip.coreSt k).retire = true → (s.chip.coreSt k).spare = none → ∃ t, exec .coreRetire s = .next t ∧
      (t.chip.coreSt k).retire = false ∧ t.chip.logq ≠ [] ∧
      (s.chip.pickSpare k = none → t.chip.mem = s.chip.mem ∧ ∀ m, (∃ x ∈ s.chip.slots, x.core = k ∧ x.pid = m) → (t.chip.slot k m).stop ≠ none) ∧
      (∀ p, s.chip.pickSpare k = some p → (t.chip.coreSt k).spare = some p ∧ p ∈ (t.chip.tower (towerOf k)).spares ∧
        ∀ m, (∃ x ∈ s.chip.slots, x.core = k ∧ x.pid = m) → (t.chip.slot k m).pstate ≠ .run)) ∧
    (s.focus.k ≠ 1 → ((s.chip.coreSt k).retire = false ∨ (s.chip.coreSt k).spare ≠ none) → exec .coreRetire s = .next s) ∧
    (∀ p, (s.chip.coreSt k).spare = some p →
      ((∀ x ∈ s.chip.slots, x.core = k → s.chip.mayMove x = true) → ∃ t, exec .migrationComplete s = .next t ∧ t.chip.insts = s.chip.insts ∧
        t.chip.flights = s.chip.flights ∧
        let c := t.chip.coreSt k
        c.phys = p ∧ c.spare = none ∧ c.lcache = [] ∧ c.blocks = [] ∧ c.heat = [64, 64, 64, 64] ∧
        ∀ x ∈ s.chip.slots, x.core = k → (s.chip.slot k x.pid).pstate = .drain → s.chip.wantedOut x.pid = false →
          (t.chip.slot k x.pid).pstate = .run ∧ (t.chip.slot k x.pid).marks = []) ∧
      ((∃ x ∈ s.chip.slots, x.core = k ∧ s.chip.mayMove x = false) → exec .migrationComplete s = .next s)) ∧
    ((s.chip.coreSt k).spare = none → exec .migrationComplete s = .next s)) ∧
  (∀ (s : State) (n : Nat) (rest : List Input), s.focus.k = 1 →
    (s.inputs = .preempt n :: rest →
      (s.chip.hasPart n = true → allIn s.chip n .run → ∃ t, exec .preemptRequest s = .next t ∧ t.inputs = rest ∧ t.chip.wantedOut n = true ∧
        t.chip.slots = s.chip.slots) ∧
      (s.chip.hasPart n = false → exec .preemptRequest s = .next { s with inputs := rest })) ∧
    (s.inputs = .swapIn n :: rest → s.chip.hasPart n = true → allIn s.chip n .out → s.chip.slotTaken (s.chip.part n) = false →
      ∃ t, exec .swapIn s = .next t ∧ t.inputs = rest ∧ t.chip.slots = s.chip.slots ∧ ∀ k, t.chip.wantedIn k n = true) ∧
    (s.inputs = .retire n :: rest → (s.chip.coreSt n).spare = none → exec .coreRetire s = .next { s with inputs := rest, chip := s.chip.retire n })) ∧
  (∀ x : A80, (x.nan = true → x.s = 0 ∧ x.e = 0) → -2 ^ 63 ≤ x.s → x.s < 2 ^ 63 → -2 ^ 15 < x.e → x.e < 2 ^ 15 → A80.ofImage x.image = some x)

/-! ## The host, the management window, bring-up -/

namespace Sys2Proof.Claims

/-- The token of channel 126 that tells a host packet's result (R359): FMT INT, slot 0, tag (0, 0, HSEQ mod 2^26), untainted, its place reserved. -/
def hostToken (c : Chip) (pid core hseq : Nat) (v : Word) : Token :=
  { hdr := mkHdr (c.slot core pid).cfg.act false 1 0 126 (hseq % 2 ^ 26), payload := v, pid, dst := core, src := core, link := 7, resv := true }

end Sys2Proof.Claims

/-- R21, R44, R356 to R360, R452. Command windows. A write to a window of no partition is discarded; the last word submits a packet; a 17th waiting
packet is discarded and sets OVF; any other waits last. The first packet of a window is executed once its partition runs and its places can be
reserved: a malformed one launches nothing and answers all ones; any other is a `LAUNCH` on the origin core of the region. HSEQ and RESULT
follow, and the result sets out for channel 126. Writing CLR clears OVF. The host reads a window on the bridge: of no partition all ones, PKT and
reserved bytes as zero. What the host writes to its memory is there, and is decrypted under a key that reads it. That the host's doings come as
inputs, what stands for the issuer, and what room a launch takes are the model's choices (notes/assumptions 6, 45, 100). A FetchAdd, Swap or CAS
of the host acts on a window as the write of its result does, of what the host reads there; that four bytes of the last word submit nothing is
the model's choice (116). -/
def Obligations.HostPacketsLaunch : Prop :=
  (∀ (s : State) (n : Nat) (words : List Word) (rest : List Input), s.inputs = .hostPacket n words :: rest →
    let w := s.sys.window n
    let pkt := (List.range 8).map fun k => words.getD k 0
    ∃ t, exec .hostLaunchPacket s = .next t ∧ t.inputs = rest ∧ t.chip = s.chip ∧ (∀ m, m ≠ n → t.sys.window m = s.sys.window m) ∧
      (w.pid = none → t.sys.window n = w) ∧
      (w.pid ≠ none → w.pkt.length ≤ 8 → 16 ≤ w.wait.length → t.sys.window n = { w with pkt := pkt, ovf := true }) ∧
      (w.pid ≠ none → w.pkt.length ≤ 8 → w.wait.length < 16 → t.sys.window n = { w with pkt := pkt, wait := w.wait ++ [pkt] })) ∧
  (∀ (s : State) (n k : Nat) (v : Word) (rest : List Input), s.inputs = .hostWord n k v :: rest → k < 7 →
    let w := s.sys.window n
    ∃ t, exec .hostLaunchPacket s = .next t ∧ t.inputs = rest ∧ t.chip = s.chip ∧ (∀ m, m ≠ n → t.sys.window m = s.sys.window m) ∧
      (w.pid = none → t.sys.window n = w) ∧
      (w.pid ≠ none → ∃ pkt, t.sys.window n = { w with pkt := pkt } ∧ pkt.getD k 0 = v ∧ ∀ j, j ≠ k → pkt.getD j 0 = w.pkt.getD j 0)) ∧
  (∀ (s : State) (n o : Nat) (op : HostOp) (wide : Bool) (v u : Word) (rest : List Input), s.inputs = .hostAtomic n o op wide v u :: rest →
    let w := s.sys.window n
    ∃ t, exec .hostLaunchPacket s = .next t ∧ t.inputs = rest ∧ t.chip = s.chip ∧ (∀ m, m ≠ n → t.sys.window m = s.sys.window m) ∧
      (w.pid = none → t.sys.window n = w) ∧
      ((0x40 ≤ o ∧ o < 0x50 ∨ 0x58 ≤ o) → t.sys.window n = w) ∧
      (w.pid ≠ none → wide = true → o % 8 = 0 → o < 0x40 → ∀ x : Word, x = (if op = .cas ∧ u ≠ 0 then 0 else v) →
        ∀ s', s' = { s with inputs := .hostWord n (o / 8) x :: rest } → exec .hostLaunchPacket s' = .next t) ∧
      (w.pid ≠ none → wide = false → o % 4 = 0 → o < 0x40 → ∃ pkt, t.sys.window n = { w with pkt := pkt } ∧
        (∀ j, j ≠ o / 8 → pkt.getD j 0 = w.pkt.getD j 0) ∧
        bits (pkt.getD (o / 8) 0).toNat (8 * (o % 8)) 32 = (if op = .cas ∧ u.toNat % 2 ^ 32 ≠ 0 then 0 else v.toNat % 2 ^ 32) ∧
        bits (pkt.getD (o / 8) 0).toNat (32 - 8 * (o % 8)) 32 = bits (w.pkt.getD (o / 8) 0).toNat (32 - 8 * (o % 8)) 32) ∧
      (w.pid ≠ none → o = 0x50 → wide = true →
        let old := if w.ovf then BitVec.ofNat 64 (2 ^ 63) else 0
        let new := match op with
          | .fetchAdd => old + v
          | .swap => v
          | .cas => if old = u then v else old
        t.sys.window n = { w with ovf := w.ovf && !new.getLsbD 63 })) ∧
  (∀ (s : State) (addr : Nat),
    let w := s.sys.window (addr / 4096)
    (s.chip.isBridge = true ↔ s.chip.tx % 2 = 0 ∧ s.chip.ty % 2 = 0 ∧ s.chip.tz % 2 = 0) ∧
    (s.chip.isBridge = true → w.pid = none → s.hostRead addr = some (2 ^ 64 - 1)) ∧
    (s.chip.isBridge = true → w.pid ≠ none →
      (addr % 4096 = 0x40 → s.hostRead addr = some ((if w.ovf then 2 ^ 63 else 0) + w.wait.length * 2 ^ 32 + w.hseq)) ∧
      (addr % 4096 = 0x48 → s.hostRead addr = some w.result.toNat) ∧
      (addr % 4096 = 0x50 → s.hostRead addr = some (if w.ovf then 2 ^ 63 else 0)) ∧
      (addr % 4096 ∉ [0x40, 0x48, 0x50] → s.hostRead addr = some 0))) ∧
  (∀ (s : State) (a : Nat) (bs : List Byte) (rest : List Input), s.chip.mem.wf = true → s.inputs = .hostWrite a bs :: rest →
    (∀ l ∈ linesOf (locHost a) bs.length, lookupNat s.chip.mem.keyed l = 0 ∨ lookupNat s.chip.mem.keyed l = hostMark) →
    ∃ t, exec .hostLaunchPacket s = .next t ∧ t.inputs = rest ∧ (∀ j < bs.length, t.chip.mem.get (locHost a + j) = bs.getD j 0) ∧
      (∀ x, (x < locHost a ∨ locHost a + bs.length ≤ x) → t.chip.mem.get x = s.chip.mem.get x) ∧
      ∀ l ∈ linesOf (locHost a) bs.length, ∀ key, key ≠ hostMark → t.chip.mem.lineAs l key = some (if key = 0 then t.chip.mem.bytes (l * 64) 64
        else (Crypto.xts false (key - 1) (l - 2 ^ 104) ((t.chip.mem.bytes (l * 64) 64).map BitVec.toNat)).map (BitVec.ofNat 8))) ∧
  (∀ (s : State) (loc : Nat) (bs : List Byte) (rest : List Input), s.inputs = .place loc bs :: rest →
    exec .hostLaunchPacket s = .next { s with chip := s.chip.putBytes loc 0 bs, inputs := rest }) ∧
  (∀ (s : State) (n : Nat) (rest : List Input), s.inputs = .hostClr n :: rest → ∃ t, exec .clrOvf s = .next t ∧ t.inputs = rest ∧ t.chip = s.chip ∧
    t.sys.window n = { s.sys.window n with ovf := false } ∧ ∀ m, m ≠ n → t.sys.window m = s.sys.window m) ∧
  (∀ (s : State) (pid : Nat) (l : List Word), s.sys.packetReady s.chip s.focus.n = some (pid, l) →
    let p := s.chip.part pid
    let core := coreAt p.ox p.oy
    let hseq := (l.getD 0 0).toNat % 2 ^ 32
    let w := s.sys.window s.focus.n
    w.pid = some pid ∧ w.wait.head? = some l ∧ (∀ k ∈ p.cores, s.chip.hasPart pid = true ∧ (s.chip.slot k pid).pstate = .run) ∧ (s.chip.slot core pid).outq.length < 64 ∧
    (packetBad l = true → ∃ t, exec .hostPacketExecute s = .next t ∧
      t.sys.window s.focus.n = { w with wait := w.wait.drop 1, hseq := hseq, result := BitVec.allOnes 64 } ∧
      t.chip.flights = s.chip.flights ++ [hostToken s.chip pid core hseq (BitVec.allOnes 64)] ∧
      (t.chip.part pid).launches = p.launches ∧ t.chip.mem = s.chip.mem ∧
      (t.chip.slot core pid).mat.reserved = (s.chip.slot core pid).mat.reserved + 1) ∧
    (packetBad l = false → ∀ v c, s.chip.launch { pid, core } {
        desc := (l.getD 1 0).toNat, rect := (l.getD 2 0).toNat, payload := l.getD 3 0, taint := false, ordered := (l.getD 4 0).getLsbD 0,
        cores := (l.getD 4 0).getLsbD 1, trap := (l.getD 4 0).getLsbD 2, host := some s.focus.n,
        who := { core, pid, tag := hseq % 2 ^ 26, none := true } } = (v, c) →
      ∃ t, exec .hostPacketExecute s = .next t ∧
        t.sys.window s.focus.n = { w with wait := w.wait.drop 1, hseq := hseq, result := BitVec.ofNat 64 v } ∧
        t.chip.flights = c.flights ++ [hostToken c pid core hseq (BitVec.ofNat 64 v)] ∧ t.chip.parts = c.parts ∧ t.chip.mem = c.mem)) ∧
  (∀ (s : State), s.sys.packetReady s.chip s.focus.n = none → exec .hostPacketExecute s = .next s)

namespace Sys2Proof.Claims

/-- A request for this package meets an idle management window after bring-up. -/
structure Asked (s : State) (r : Request) (rest : List Input) : Prop where
  input : s.inputs = .mgmt (s.chip.tx % 2) (s.chip.ty % 2) (s.chip.tz % 2) r :: rest
  stage : s.sys.stage = 5
  idle  : s.sys.mgmt.busy = false
  fresh : s.sys.mgmt.outcome = none

/-- A service answers: the window is busy with the request and the outcome stands, to appear at completion. -/
def answers (t : State) (rest : List Input) (r : Request) (code : Nat → Prop) (a : Response) : Prop :=
  t.inputs = rest ∧ t.sys.mgmt.busy = true ∧ t.sys.mgmt.request = some r ∧ ∃ n, t.sys.mgmt.outcome = some (n, a) ∧ code n

/-- Which service a request is for (R449). -/
def serviceOf : Request → Option Instr
  | .create _ => some .createPartition
  | .endPart _ => some .endPartition
  | .attest _ _ => some .attest
  | .verify _ _ => some .verifyObject
  | .extend _ _ _ => some .extend
  | .firmware _ => some .firmwareUpdate
  | .sumac _ _ _ _ => some .sumacControl
  | .events _ | .trace _ _ _ => some .readEvents
  | .other _ => some .mgmtServiceComplete

end Sys2Proof.Claims

/-- R135, R432, R449 to R451, R457. The services of the management window. A submission while busy is discarded and sets `<62>`; before the window
opens nothing happens. Service 1 makes the partition with its slots on every core of its region and answers PIDR, or fails. Service 2 asks a
partition that is not out to go out, once, and removes one that is, with all its slots, instances and keys. Service 3 answers a report that begins
with the nonce and the measurements, signed with the device key. Services 4 and 5 extend a measurement; 6 refuses an image whose version is below
the rollback counter; 7 sets a mask; 8 answers the oldest entries of the log, or of one partition in a tower's Sumac buffer, as many as 1,792 bytes
hold, and removes them. At completion the result code and the response appear and the window is idle. The window that service 1 assigns, the
codes of failure, what an image says and the device's key are the model's choices (notes/assumptions 10, 13, 18, 19, 105). So are, of R449, that
a request for another package of the box holds the window until that package's answer comes as an input, with any code and response, and the
bytes that an entry of the log takes (75). -/
def Obligations.ManagementServices : Prop :=
  (∀ (s : State) (r : Request) (rest : List Input) (dx dy dz : Nat) (ins : Instr), s.inputs = .mgmt dx dy dz r :: rest → serviceOf r = some ins → ins ≠ .mgmtServiceComplete →
    (s.sys.mgmt.busy = true → s.sys.mgmt.outcome ≠ none ∨ (∀ x, s.sys.mgmt.request = some x → serviceOf x ≠ some ins) → s.sys.stage = 5 → exec ins s = .next { s with inputs := rest, sys :=
      { s.sys with mgmt := { s.sys.mgmt with lost := true } } }) ∧
    (∀ pid x, s.sys.mgmt.busy = true → s.sys.stage = 5 → r = .endPart x → s.sys.mgmt.request = some (.endPart pid) → s.sys.mgmt.outcome = none →
      s.chip.hasPart pid = true → ¬allIn s.chip pid .out → s.chip.wantedOut pid = true →
      exec ins s = .next { s with inputs := rest, sys := { s.sys with mgmt := { s.sys.mgmt with lost := true } } }) ∧
    (s.sys.mgmt.busy = false → s.sys.stage ≠ 5 → exec ins s = .next { s with inputs := rest })) ∧
  (∀ (s : State) (r : Request) (rest : List Input) (dx dy dz : Nat) (ins : Instr), s.inputs = .mgmt dx dy dz r :: rest → serviceOf r = some ins →
    s.sys.mgmt.busy = false → s.sys.mgmt.outcome = none → s.sys.stage = 5 → (dx, dy, dz) ≠ (s.chip.tx % 2, s.chip.ty % 2, s.chip.tz % 2) →
    exec ins s = .next { s with inputs := rest, sys := { s.sys with mgmt := { s.sys.mgmt with request := none, busy := true } } }) ∧
  (∀ (s : State) (n : Nat) (a : Response) (rest : List Input), s.inputs = .answer n a :: rest → s.sys.mgmt.outcome = none →
    let m := s.sys.mgmt
    exec .mgmtServiceComplete s = .next { s with inputs := rest, sys := { s.sys with
      mgmt := if m.busy = true ∧ m.request = none then { m with busy := false, result := n, response := a } else m } }) ∧
  (∀ (s : State) (r : NewPart) (rest : List Input), Asked s (.create r) rest → ∃ t, exec .createPartition s = .next t ∧ t.chip.mem = s.chip.mem ∧
    t.chip.insts = s.chip.insts ∧
    ((s.chip.freePid = none ∨ ∀ n, s.chip.freePid = some n → s.chip.createOk r (r.part' n) = false) →
      answers t rest (.create r) (· ≠ 0) .none ∧ t.chip.parts = s.chip.parts ∧ t.chip.slots = s.chip.slots) ∧
    (∀ n, s.chip.freePid = some n → s.chip.createOk r (r.part' n) = true →
      answers t rest (.create r) (· = 0) (.pidr (r.part % 2 ^ 16 * 2 ^ 16 + n % 2 ^ 8)) ∧ s.chip.hasPart n = false ∧
      (∃ p, t.chip.parts = s.chip.parts ++ [p] ∧ p.pid = n ∧ p.slot = r.slot ∧ p.ox = r.ox ∧ p.oy = r.oy ∧ p.w = r.w ∧ p.h = r.h ∧ p.mgr = r.mgr ∧
        p.launches = [] ∧ (∀ x ∈ r.quotas, (∀ y ∈ r.quotas, y.1 = x.1 → y = x) → p.reg x.1 = x.2.toNat)) ∧
      t.chip.slots = s.chip.slots ++ ((rectCores r.ox r.oy r.w r.h).map fun k => { core := k, pid := n }) ∧
      ∀ w, s.sys.freeWindow = some w → t.sys.window w = { id := w, pid := some n })) ∧
  (∀ (s : State) (pid : Nat) (rest : List Input), Asked s (.endPart pid) rest →
    (s.chip.hasPart pid = false → ∃ t, exec .endPartition s = .next t ∧ answers t rest (.endPart pid) (· ≠ 0) .none ∧ t.chip.parts = s.chip.parts) ∧
    (s.chip.hasPart pid = true → allIn s.chip pid .out → ∃ t, exec .endPartition s = .next t ∧ answers t rest (.endPart pid) (· = 0) .none ∧
      t.chip.hasPart pid = false ∧ (∀ x ∈ t.chip.slots, x.pid ≠ pid) ∧ (∀ i ∈ t.chip.insts, i.pid ≠ pid) ∧
      (∀ x ∈ t.chip.keys, (s.chip.part pid).hasKey x.id = false) ∧ (∀ x ∈ t.chip.flights, x.pid ≠ pid) ∧
      ∀ m, m ≠ pid → t.chip.part m = s.chip.part m) ∧
    (s.chip.hasPart pid = true → ¬allIn s.chip pid .out → ∃ t, exec .endPartition s = .next t ∧ t.chip = s.chip ∧ t.inputs = rest ∧
      t.sys.mgmt.busy = true ∧ t.sys.mgmt.outcome = none)) ∧
  (∀ (s : State) (pid : Nat), s.sys.mgmt.busy = true → s.sys.mgmt.request = some (.endPart pid) → s.sys.mgmt.outcome = none →
    s.chip.hasPart pid = true → ¬allIn s.chip pid .out → s.chip.wantedOut pid = false →
    ∃ t, exec .endPartition s = .next t ∧ t.chip.wantedOut pid = true ∧ t.chip.slots = s.chip.slots ∧ t.inputs = s.inputs ∧ t.sys = s.sys) ∧
  (∀ (s : State) (pid nonce : Nat) (rest : List Input), Asked s (.attest pid nonce) rest → ∃ t, exec .attest s = .next t ∧ t.chip.mem = s.chip.mem ∧
    t.chip.parts = s.chip.parts ∧
    (s.chip.hasPart pid = false → answers t rest (.attest pid nonce) (· ≠ 0) .none) ∧
    (s.chip.hasPart pid = true → nonce ≠ 0 → nonce < 2 ^ 384 → ∃ b, answers t rest (.attest pid nonce) (· = 0) (.bytes b) ∧ b.length = 544 ∧
      b.take 48 = Crypto.beBytes 48 nonce ∧
      b.drop 448 = Crypto.beBytes 48 (deviceSign (Crypto.sha384 (b.take 448))).1 ++ Crypto.beBytes 48 (deviceSign (Crypto.sha384 (b.take 448))).2 ∧
      ∀ k < 8, (b.drop (48 + 48 * k)).take 48 = Crypto.beBytes 48 (if k < 4 then lookupNat s.sys.meas k else lookupNat (s.chip.part pid).meas k)) ∧
    (s.chip.hasPart pid = true → nonce = 0 → ∃ b, answers t rest (.attest pid nonce) (· = 0) (.bytes b))) ∧
  (∀ (s : State) (pid a : Nat) (rest : List Input), Asked s (.verify pid a) rest → ∃ t, exec .verifyObject s = .next t ∧ t.chip.mem = s.chip.mem ∧
    ((s.chip.hasPart pid = false ∨ s.chip.checkObject a = none) → answers t rest (.verify pid a) (· ≠ 0) .none ∧ t.chip.parts = s.chip.parts) ∧
    (∀ d, s.chip.hasPart pid = true → s.chip.checkObject a = some d → answers t rest (.verify pid a) (· = 0) .none ∧
      lookupNat (t.chip.part pid).meas 4 = extendMeas (lookupNat (s.chip.part pid).meas 4) d)) ∧
  (∀ (s : State) (pid k d : Nat) (rest : List Input), Asked s (.extend pid k d) rest → ∃ t, exec .extend s = .next t ∧ t.chip.mem = s.chip.mem ∧
    ((s.chip.hasPart pid = false ∨ k < 5 ∨ 7 < k) → answers t rest (.extend pid k d) (· ≠ 0) .none ∧ t.chip.parts = s.chip.parts) ∧
    (s.chip.hasPart pid = true → 5 ≤ k → k ≤ 7 → answers t rest (.extend pid k d) (· = 0) .none ∧
      (∀ j, lookupNat (t.chip.part pid).meas j = if j = k then extendMeas (lookupNat (s.chip.part pid).meas k) d else lookupNat (s.chip.part pid).meas j))) ∧
  (∀ (s : State) (a : Nat) (rest : List Input), Asked s (.firmware a) rest → ∃ t, exec .firmwareUpdate s = .next t ∧
    let image := s.chip.hostBytes a (Config.imageSize (s.chip.hostBytes a 64))
    t.sys.version = s.sys.version ∧ t.sys.fuse = s.sys.fuse ∧
    (Config.imageVersion image < s.sys.fuse → answers t rest (.firmware a) (· ≠ 0) .none ∧ t.sys.update = s.sys.update) ∧
    (s.sys.fuse ≤ Config.imageVersion image → answers t rest (.firmware a) (· = 0) .none ∧ t.sys.update = some image)) ∧
  (∀ (s : State) (w pid mask : Nat) (on : Bool) (rest : List Input), w < 4 → Asked s (.sumac w pid mask on) rest → ∃ t, exec .sumacControl s = .next t ∧
    answers t rest (.sumac w pid mask on) (· = 0) .none ∧ lookupNat (t.sys.sumacOf w).masks pid = (if on then mask else 0) ∧
    (∀ m, m ≠ pid → lookupNat (t.sys.sumacOf w).masks m = lookupNat (s.sys.sumacOf w).masks m) ∧
    (t.sys.sumacOf w).entries = (s.sys.sumacOf w).entries ∧ t.chip = s.chip) ∧
  (∀ (s : State) (n : Nat) (rest : List Input), Asked s (.events n) rest → ∃ t, exec .readEvents s = .next t ∧ t.chip = s.chip ∧
    let m := min n (1792 / (Config.eventRoom + 1))
    answers t rest (.events n) (· = 0) (.log (s.sys.log.take m)) ∧ t.sys.log = s.sys.log.drop m) ∧
  (∀ (s : State) (w pid n : Nat) (rest : List Input), Asked s (.trace w pid n) rest → ∃ t, exec .readEvents s = .next t ∧ t.chip = s.chip ∧
    let old := (s.sys.sumacOf w).entries
    let mine := (old.filter fun e => e.pid == pid).take (min n 56)
    answers t rest (.trace w pid n) (· = 0) (.trace (mine.map fun e =>
      [e.cyc, e.ev % 2 ^ 8 * 2 ^ 56 + e.pid % 2 ^ 8 * 2 ^ 40 + e.lin % 2 ^ 10 * 2 ^ 30, e.d2, e.d3])) ∧
    (t.sys.sumacOf w).entries.filter (fun e => e.pid == pid) = (old.filter fun e => e.pid == pid).drop (min n 56) ∧
    (t.sys.sumacOf w).entries.filter (fun e => e.pid != pid) = old.filter (fun e => e.pid != pid) ∧
    (t.sys.sumacOf w).masks = (s.sys.sumacOf w).masks ∧ t.sys.log = s.sys.log ∧ ∀ v, v ≠ w → t.sys.sumacOf v = s.sys.sumacOf v) ∧
  (∀ (s : State) (n : Nat) (a : Response), s.sys.mgmt.outcome = some (n, a) → exec .mgmtServiceComplete s = .next { s with sys :=
    { s.sys with mgmt := { s.sys.mgmt with busy := false, result := n, response := a, outcome := none } } })

/-- R335, R446 to R450. Bring-up. Power-on, at first or once more, leaves nothing but fuses and installed firmware. The next stage follows the last;
one that fails leaves the package out, reported in the log, and a package out or up takes no stage. Stage 1 checks the image that an update has
installed, else that of manufacture: the digest of its root key, its signature, its version against the rollback counter, which an update raises;
and measures the image. Stage 3 needs sixteen good cores in every row; stage 4 sets the coordinates within extents of at most 32, 32 and 16, and
measures them. What memory holds, that a register is extended by its digest, a second power-on, and what an image holds are the model's choices
(notes/assumptions 3, 74, 90, 105). -/
def Obligations.BringUpFollowsItsStages : Prop :=
  ∀ (s : State),
    (∀ rest, (s.sys.powered = false ∧ rest = s.inputs) ∨ (s.sys.powered = true ∧ s.inputs = .powerOn :: rest) →
      ∃ t, exec .powerOn s = .next t ∧ t.sys.powered = true ∧ t.sys.stage = 0 ∧ t.sys.failed = false ∧ t.sys.update = s.sys.update ∧ s.sys.fuse ≤ t.sys.fuse ∧
      t.chip.parts = [] ∧ t.chip.slots = [] ∧ t.chip.insts = [] ∧ t.chip.flights = [] ∧ t.chip.keys = [] ∧ t.sys.windows = [] ∧ t.sys.log = [] ∧
      t.sys.meas = [] ∧ (∀ a, t.chip.mem.get a = 0) ∧ t.inputs = rest) ∧
    (s.sys.powered = true → (∀ rest, s.inputs ≠ .powerOn :: rest) → exec .powerOn s = .next s) ∧
    ((s.sys.powered = false ∨ s.sys.failed = true ∨ 5 ≤ s.sys.stage) → exec .bootStageComplete s = .next s) ∧
    (s.sys.powered = true → s.sys.failed = false → s.sys.stage < 5 →
      (s.sys.stageOk (s.sys.stage + 1) = true → ∃ t, exec .bootStageComplete s = .next t ∧ t.sys.stage = s.sys.stage + 1 ∧ t.sys.failed = false ∧
        t.chip.mem = s.chip.mem ∧ t.chip.parts = s.chip.parts ∧
        (s.sys.stage = 0 →
          let image := s.sys.update.getD ((List.range Config.factoryLength).map fun k => (Config.factoryByte k).toNat)
          let x := Config.imageKeyX image
          let y := Config.imageKeyY image
          Crypto.beNat (Crypto.sha384 (Crypto.beBytes 48 x ++ Crypto.beBytes 48 y)) = Config.rootDigest ∧
          Crypto.verify x y (Crypto.sha384 (image.take (Config.imageSigned image))) (Config.imageSignR image) (Config.imageSignS image) = true ∧
          t.sys.version = Config.imageVersion image ∧ s.sys.fuse ≤ t.sys.version ∧
          t.sys.fuse = (if s.sys.update.isSome then max s.sys.fuse t.sys.version else s.sys.fuse) ∧
          lookupNat t.sys.meas 0 = extendMeas (lookupNat s.sys.meas 0) (Crypto.beNat (Crypto.sha384 image))) ∧
        (s.sys.stage = 1 → lookupNat t.sys.meas 1 = extendMeas (lookupNat s.sys.meas 1) (Config.bootDigest 1).toNat) ∧
        (s.sys.stage = 2 → ∀ w < 4, ∀ r < 16, 16 ≤ (rowPassed (coreAt (w % 2 * 16) (w / 2 * 16 + r))).length) ∧
        (s.sys.stage = 3 → t.chip.tx < t.chip.ex ∧ t.chip.ex ≤ 32 ∧ t.chip.ty < t.chip.ey ∧ t.chip.ey ≤ 32 ∧ t.chip.tz < t.chip.ez ∧ t.chip.ez ≤ 16 ∧
          t.chip.tx = Config.torusX % t.chip.ex ∧ t.chip.ty = Config.torusY % t.chip.ey ∧ t.chip.tz = Config.torusZ % t.chip.ez ∧
          lookupNat t.sys.meas 2 = extendMeas (lookupNat s.sys.meas 2) (Config.bootDigest 2).toNat) ∧
        (s.sys.stage ≠ 3 → t.chip = s.chip)) ∧
      (s.sys.stageOk (s.sys.stage + 1) = false → ∃ t, exec .bootStageComplete s = .next t ∧ t.sys = { s.sys with failed := true } ∧
        t.chip.logq.length = s.chip.logq.length + 1 ∧ { t.chip with logq := s.chip.logq } = s.chip))

/-! ## The step, the encoding, the invariants -/

/-- R97, R99, R104, R287, R447, R457. One step. The step that is due is taken: the word at its focus is fetched from its block and decoded, and the
step is that instruction's, after which its reports are drained; an event is carried out likewise. With no step due and none enabled the machine
waits, and a single enabled one is taken; among several the oracle chooses, or a free choice: the manual has no rule for either (the model's choices,
notes/assumptions 2 and 84). Draining changes no instance, no partition and no byte, of a core only its clock, of the plane engine only taints: the
tile of a command that a write of the step races with is tainted (which writes race is a reading, 106), and of a slot that the counters of
R411 may count (the model's choice, 1). -/
def Obligations.StepRunsDecoded : Prop :=
  (∀ (s : State) (f : Focus) (w : Nat) (d : Decoded), s.turn = some (.word f) → fetchWord s f = some w → decodeWord w = .ok d →
    step s = settle (exec d.instr { s with turn := none, focus := f }) (issueOf s f)) ∧
  (∀ (s : State) (i : Instr) (f : Focus), s.turn = some (.event i f) → step s = settle (exec i { s with turn := none, focus := f })) ∧
  (∀ (s : State) (i : Inst) (fr : Frame) (f : Focus), s.chip.inst? f.iid = some i → i.frame = some fr → fetchWord s f = fr.words[f.idx]?) ∧
  (∀ s : State, s.turn = none → enabled s = [] → step s = .next s) ∧
  (∀ (s : State) (x : Sel), s.turn = none → enabled s = [x] → choose s = (some x, s)) ∧
  (∀ (s : State) (x y : Sel) (l : List Sel), s.turn = none → enabled s = x :: y :: l →
    (∀ n r, s.oracle = n :: r → choose s = ((x :: y :: l)[n % (l.length + 2)]?, { s with oracle := r })) ∧
    (s.oracle = [] → choose s = ((x :: y :: l)[Config.pick s.freeCtr % (l.length + 2)]?, { s with freeCtr := s.freeCtr + 1 }))) ∧
  (∀ (s : State) (issue : Option Issue), settle (.next s) issue = .next (drain s issue)) ∧
  (∀ (s : State) (issue : Option Issue), let u := drain s issue
    u.chip.logq = [] ∧ u.chip.sumacq = [] ∧
    u.focus = s.focus ∧ u.turn = s.turn ∧ u.inputs = s.inputs ∧
    u.chip.insts = s.chip.insts ∧ u.chip.parts = s.chip.parts ∧ u.chip.flights = s.chip.flights ∧
    u.chip.vals = s.chip.vals ∧ u.chip.keys = s.chip.keys ∧ u.chip.tlb = s.chip.tlb ∧
    u.chip.mem = { s.chip.mem with wrote := [] } ∧ (s.chip.mem.wrote = [] →
      u.chip.slots.map (fun x => { x with waited := [] }) = s.chip.slots.map fun x => { x with waited := [] }) ∧
    (∀ k, { u.chip.coreSt k with cycle := (s.chip.coreSt k).cycle } = s.chip.coreSt k) ∧
    (∀ k n j, let x := (u.chip.slot k n).tile j
      let y := (s.chip.slot k n).tile j
      x = { y with taint := x.taint } ∧ (y.taint = true → x.taint = true)) ∧
    (∀ k n, ∀ q ∈ ((s.chip.slot k n).eng 5).cmds, q.started = true → s.chip.raced k n q = true →
      ((u.chip.slot k n).tile q.sel).taint = true))

/-- R100, R117, R123, R137, R153, R184, R198, R202, R300, R329. Words that the manual spells out, each as what it stands for: the example blocks of R137 and the
example encodings of the chapters. -/
def Obligations.DecodesTheManualsWords : Prop :=
  decodeWord 0x00840103 = .ok ⟨⟨.always, 0⟩, .read 1 none (some ⟨.a, 3⟩)⟩ ∧
  decodeWord 0x02FFF705 = .ok ⟨⟨.always, 0⟩, .const 0x3FFB (some ⟨.a, 5⟩)⟩ ∧
  decodeWord 0x01080000 = .ok ⟨⟨.always, 0⟩, .write 2⟩ ∧
  decodeWord 0x2087FB05 = .ok ⟨⟨.always, 0⟩, .addi .w32 0x1FD (some ⟨.a, 5⟩)⟩ ∧
  decodeWord 0x420E8DC4 = .ok ⟨⟨.always, 0⟩, .tltn .w8 (some ⟨.b, 6⟩) (some ⟨.p, 4⟩)⟩ ∧
  decodeWord 0x61840186 = .ok ⟨⟨.always, 0⟩, .fma .f32 none (some ⟨.c, 6⟩)⟩ ∧
  decodeWord 0x6B829506 = .ok ⟨⟨.always, 0⟩, .cvtsr .f32 .bf16 (some ⟨.a, 6⟩)⟩ ∧
  decodeWord 0x86808103 = .ok ⟨⟨.always, 0⟩, .ldaD64 .pkg (some ⟨.a, 3⟩)⟩ ∧
  decodeWord 0x91022305 = .ok ⟨⟨.always, 2⟩, .aadd .core true (some 5)⟩ ∧
  decodeWord 0x9D038000 = .ok ⟨⟨.always, 3⟩, .fence .pkg⟩ ∧
  decodeWord 0xA0000004 = .ok ⟨⟨.always, 0⟩, .br 4⟩ ∧
  decodeWord 0xAA800103 = .ok ⟨⟨.always, 0⟩, .mark (some ⟨.a, 3⟩)⟩ ∧
  decodeWord 0xC082A907 = .ok ⟨⟨.always, 2⟩, .cpypl 5 1 (some 7)⟩ ∧
  decodeWord 0xC5812B40 = .ok ⟨⟨.always, 1⟩, .mma 21 true 2⟩ ∧
  decodeWord 0xC9000B70 = .ok ⟨⟨.always, 0⟩, .ainit 5 true 3 true⟩ ∧
  decodeWord 0xE0800000 = .ok ⟨⟨.always, 0⟩, .eretRes⟩

/-- R97, R100, R115, R117. Decoding and encoding agree. A well-formed instruction, with every operand at every value its fields hold, encodes to one
32-bit word, and that word decodes to it, whatever follows it in memory; and a word that decodes at all is the encoding of the well-formed
instruction it decodes to, so that no two words stand for one instruction and no reserved bit is let through. -/
def Obligations.DecodingInvertsEncoding : Prop :=
  (∀ d : Decoded, d.wf = true → ∃ w, encode d = some w ∧ w < 2 ^ 32 ∧ decodeWord w = .ok d ∧
    ∀ rest : List Byte, decode (wordBytes w ++ rest) = .ok (d, rest)) ∧
  (∀ (w : Nat) (d : Decoded), w < 2 ^ 32 → decodeWord w = .ok d → d.wf = true ∧ encode d = some w)

namespace Sys2Proof.Claims

/-- What holds in every state the machine goes through: memory in its canonical form, instances numbered, and the bounds of what the host
reads: at most 16 packets wait in a window (R360), the log has at most 4,096 entries (R447), a Sumac buffer at most 131,072 (R457), and
bring-up has at most its five stages (R446). -/
structure Sound (s : State) : Prop where
  memory  : s.chip.mem.wf = true
  numbers : Numbered s.chip
  windows : ∀ w ∈ s.sys.windows, w.wait.length ≤ 16
  log     : s.sys.log.length ≤ 4096
  traces  : ∀ x ∈ s.sys.sumac, x.entries.length ≤ 131072
  stage   : s.sys.stage ≤ 5

end Sys2Proof.Claims

/-- R360, R377, R446, R447, R457. Every step keeps memory canonical, instances' numbers distinct and creators older than what they create,
and the bounds of windows, log, Sumac buffers and bring-up. -/
def Obligations.EveryStepKeepsSoundness : Prop :=
  ∀ s t : State, Sound s → step s = .next t → Sound t

/-- R357, R446, R449, R450. The machine at power-on. It is sound; no bring-up stage is done; there is no partition, slot, instance or token; every
byte of memory reads 0 (the model's choice, notes/assumptions 3), no window is assigned, the measurements are 0, the management window is idle; every
core has its caches empty and full heat buckets (the model's choice, 5); and a slot that is yet to be made runs with its timelines at 0. -/
def Obligations.ResetIsSound : Prop :=
  Sound State.reset ∧ State.reset.sys.stage = 0 ∧ State.reset.sys.powered = false ∧ State.reset.chip.parts = [] ∧ State.reset.chip.slots = [] ∧
  State.reset.chip.insts = [] ∧ State.reset.chip.flights = [] ∧ State.reset.chip.keys = [] ∧ (∀ a, State.reset.chip.mem.get a = 0) ∧
  (∀ n, (State.reset.sys.window n).pid = none ∧ (State.reset.sys.window n).ovf = false) ∧ (∀ k, lookupNat State.reset.sys.meas k = 0) ∧
  State.reset.sys.mgmt.busy = false ∧
  (∀ k, (State.reset.chip.coreSt k).lcache = [] ∧ (State.reset.chip.coreSt k).blocks = [] ∧ (State.reset.chip.coreSt k).heat = [64, 64, 64, 64]) ∧
  (∀ k n, (State.reset.chip.slot k n).pstate = .run ∧ ∀ j < 16, (State.reset.chip.slot k n).tls.getD j 0 = 0)

/-! ## The values of chapter 08 -/

namespace Sys2Proof.Claims

/-- The number that a code of magnitude stands for in a format (R63): exponent and fraction fields. The code of ∞ stands for the power of two that
follows the largest finite number, as if the exponent were unbounded. -/
def magnitude (f : Fmt) (code : Nat) : ℚ :=
  let e := code / 2 ^ f.frac
  let m := code % 2 ^ f.frac
  let least : Int := 2 - 2 ^ (f.ebits - 1) - f.frac
  if e = 0 then m * 2 ^ least else (2 ^ f.frac + m : Nat) * 2 ^ (least + e - 1)

/-- Codes of ∞ and of the largest finite number, and the weight of the sign. -/
def infCode (f : Fmt) : Nat := (2 ^ f.ebits - 1) * 2 ^ f.frac
def signWeight (f : Fmt) (neg : Bool) : Nat := if neg then 2 ^ (f.ebits + f.frac) else 0

/-- The number that a finite pattern stands for. -/
def number (f : FFmt) (x : Word) : ℚ :=
  let m := magnitude (fmtOf f) (x.toNat % 2 ^ ((fmtOf f).width - 1))
  if negative f x then -m else m

/-- Where a number lies against a positive number: below, at or above its magnitude. -/
def against (v : ℚ) : ℚ → Ordering := fun q => if q < |v| then .lt else if q = |v| then .eq else .gt

/-- The modes that round a magnitude down, and those that round it up (R66). -/
def inward (mode : RMode) (neg : Bool) : Bool := mode == .rtz || (mode == .rdn && !neg) || (mode == .rup && neg)
def outward (mode : RMode) (neg : Bool) : Bool := (mode == .rdn && neg) || (mode == .rup && !neg)

/-- R244. `r` is the rounding of a nonzero number: its sign `neg`, and its magnitude known by how numbers lie against it (`cut`). The
magnitude's code is the neighbour that the mode chooses; it is ∞ only where the mode rounds past the largest finite number. A result is tiny
when it lies below the smallest normal number after rounding to the format's precision with unbounded exponent. -/
def roundsTo (f : Fmt) (mode : RMode) (neg : Bool) (cut : ℚ → Ordering) (r : Nat × FFlags) : Prop :=
  let u := r.1 % 2 ^ (f.ebits + f.frac)
  let at_ := magnitude f u
  let below := magnitude f (u - 1)
  let above := magnitude f (u + 1)
  let down := inward mode neg
  let up := outward mode neg
  let least : ℚ := 2 ^ (2 - 2 ^ (f.ebits - 1) : Int)
  let tiny := if down then cut least = .gt else if up then cut (least - least / 2 ^ (f.frac + 1)) ≠ .lt
    else cut (least - least / 2 ^ (f.frac + 2)) = .gt
  r.1 = signWeight f neg + u ∧ u ≤ infCode f ∧ r.2.nv = false ∧ r.2.dz = false ∧
  (if down then u < infCode f ∧ cut at_ ≠ .gt ∧ (u + 1 < infCode f → cut above = .gt)
    else if up then (u < infCode f → cut at_ ≠ .lt) ∧ (0 < u → cut below = .lt)
    else (0 < u → cut ((below + at_) / 2) = .lt ∨ (cut ((below + at_) / 2) = .eq ∧ (mode = .rna ∨ u % 2 = 0))) ∧
      (u < infCode f → cut ((at_ + above) / 2) = .gt ∨ (cut ((at_ + above) / 2) = .eq ∧ mode ≠ .rna ∧ u % 2 = 0))) ∧
  (r.2.ovf = true ↔ if down then cut (magnitude f (infCode f)) ≠ .gt else u = infCode f) ∧
  (r.2.nx = true ↔ r.2.ovf = true ∨ cut at_ ≠ .eq) ∧
  (r.2.unf = true ↔ tiny ∧ r.2.nx = true)

/-- `n` is a nonnegative number rounded to an integer in a mode (R250, R254), which carries the sign `neg`. -/
def roundsInt (mode : RMode) (neg : Bool) (m : ℚ) (n : Nat) : Prop :=
  if inward mode neg then (n : ℚ) ≤ m ∧ m < n + 1
  else if outward mode neg then m ≤ n ∧ (n : ℚ) < m + 1
  else |(n : ℚ) - m| ≤ 1 / 2 ∧ (|(n : ℚ) - m| = 1 / 2 → if mode = .rna then m < n else n % 2 = 0)

/-- A pattern that is neither a NaN nor an infinity. -/
def isFinite (f : FFmt) (x : Word) : Bool := !isNan f x && !isInfinite f x

/-- A zero of a format. -/
def zeroOf (f : FFmt) (neg : Bool) : Nat := signWeight (fmtOf f) neg

/-- What an operation with a NaN among its operands gives (R245), and an invalid one. -/
def nanOf (f : FFmt) (signalling : Bool) : Nat × FFlags := (canonicalNan f, { nv := signalling })
def invalidOf (f : FFmt) : Nat × FFlags := nanOf f true

/-- A rounded sum (R244): an exact zero is +0, or −0 under RDN. -/
def sumIs (f : FFmt) (r : RMode) (v : ℚ) (out : Nat × FFlags) : Prop :=
  (v = 0 → out = (zeroOf f (r == .rdn), {})) ∧ (v ≠ 0 → roundsTo (fmtOf f) r (decide (v < 0)) (against v) out)

/-- A rounded product or quotient: its sign is that of the operands together. -/
def productIs (f : FFmt) (r : RMode) (neg : Bool) (v : ℚ) (out : Nat × FFlags) : Prop :=
  (v = 0 → out = (zeroOf f neg, {})) ∧ (v ≠ 0 → roundsTo (fmtOf f) r neg (against v) out)

/-- The order of R247 on patterns that are no NaN: −0 below +0. -/
def orderKey (f : FFmt) (x : Word) : Int :=
  let m : Int := (x.toNat % 2 ^ ((fmtOf f).width - 1) : Nat)
  if negative f x then -m - 1 else m

/-- Sums (R246): two infinities of opposite sign are invalid. -/
def sumRule (f : FFmt) (r : RMode) (x y : Word) (minus : Bool) (out : Nat × FFlags) : Prop :=
  let sy := negative f y != minus
  (isInfinite f x = true → isInfinite f y = true → out = if negative f x = sy then (infinity f sy, {}) else invalidOf f) ∧
  (isInfinite f x = true → isFinite f y = true → out = (infinity f (negative f x), {})) ∧
  (isFinite f x = true → isInfinite f y = true → out = (infinity f sy, {})) ∧
  (isFinite f x = true → isFinite f y = true → sumIs f r (number f x + (if minus then -number f y else number f y)) out)

/-- The fused forms (R246): z + x × y, or z − x × y. -/
def fusedRule (f : FFmt) (r : RMode) (x y z : Word) (minus : Bool) (out : Nat × FFlags) : Prop :=
  let sp := (negative f x != negative f y) != minus
  let nonsense := (isZero f x && isInfinite f y) || (isInfinite f x && isZero f y)
  let large := isInfinite f x || isInfinite f y
  let p := number f x * number f y
  (nonsense = true → out = invalidOf f) ∧
  (nonsense = false → isNan f x = true ∨ isNan f y = true ∨ isNan f z = true →
    out = nanOf f (isSignalling f x || isSignalling f y || isSignalling f z)) ∧
  (nonsense = false → isNan f x = false → isNan f y = false → isNan f z = false →
    (large = true → out = if isInfinite f z = true ∧ negative f z ≠ sp then invalidOf f else (infinity f sp, {})) ∧
    (large = false → isInfinite f z = true → out = (infinity f (negative f z), {})) ∧
    (large = false → isInfinite f z = false → sumIs f r (number f z + (if minus then -p else p)) out))

/-- The spacing of a format in the binade of a positive number (R256), clamped to its own binades. -/
def spacingIs (f : Fmt) (m u : ℚ) : Prop :=
  ∃ e : Int, (2 : ℚ) ^ e ≤ m ∧ m < 2 ^ (e + 1) ∧
    let low : Int := 2 - 2 ^ (f.ebits - 1)
    let high : Int := 2 ^ (f.ebits - 1) - 1
    u = 2 ^ ((if e < low then low else if high < e then high else e) - f.frac)

/-- A reduced result (R257): rounded with RNE to 14 or 22 bits, the other bits of the fraction 0. -/
def reducedTo (f : FFmt) (p : Nat) (neg : Bool) (cut : ℚ → Ordering) (out : Nat) : Prop :=
  ∃ u fl, roundsTo ⟨(fmtOf f).ebits, p - 1⟩ .rne neg cut (u, fl) ∧ out = u * 2 ^ ((fmtOf f).frac + 1 - p)

end Sys2Proof.Claims

/-- R63, R66, R244 to R258. The values and flags of chapter 08, for every format, mode and operand, from the fields of the patterns. `FADD`, `FSUB`,
`FMUL`, `FMA`, `FNMA`, `FDIV` and `FSQRT` give the exact result rounded once (`roundsTo` says which neighbour, and the flags), with the rules of
NaN, infinity and zero; that a sum which is exactly zero is +0, or −0 under RDN, for equal signs too is how the model reads "any", and that one
that is not keeps its sign (notes/assumptions 32). `FMIN`, `FMAX`, `FTEQ`, `FRND`, `FSCALE`, `FGETEXP` and the conversions follow; then the reciprocal
and the root in their 14 bits, the special inputs of the approximations, and the other four where their value is a number of the format. -/
def Obligations.FloatSpecialValues : Prop :=
  ∀ (f : FFmt) (r : RMode) (x y z : Word),
    let a := x.toNat
    let b := y.toNat
    let fm := fmtOf f
    let v := number f x
    let sx := negative f x
    let sxy := negative f x != negative f y
    let anyNan := isNan f x || isNan f y
    let nan2 := nanOf f (isSignalling f x || isSignalling f y)
    let nan1 := nanOf f (isSignalling f x)
    let low := fun w : Word => w.toNat % 2 ^ fm.width
    let one := 0x3F800000
    (anyNan = true → fAdd fm r a b = nan2 ∧ fSub fm r a b = nan2 ∧ fMul fm r a b = nan2 ∧ fDiv fm r a b = nan2 ∧ fTeq fm a b = (0, nan2.2)) ∧
    sumRule f r x y false (fAdd fm r a b) ∧ sumRule f r x y true (fSub fm r a b) ∧
    fusedRule f r x y z false (fMa fm r a b z.toNat) ∧ fusedRule f r x y z true (fNma fm r a b z.toNat) ∧
    (isZero f x = true → isInfinite f y = true → fMul fm r a b = invalidOf f ∧ fMul fm r b a = invalidOf f) ∧
    (isInfinite f x = true → isNan f y = false → isZero f y = false → fMul fm r a b = (infinity f sxy, {}) ∧ fMul fm r b a = (infinity f sxy, {})) ∧
    (isFinite f x = true → isFinite f y = true → productIs f r sxy (v * number f y) (fMul fm r a b)) ∧
    ((isZero f x = true ∧ isZero f y = true) ∨ (isInfinite f x = true ∧ isInfinite f y = true) → fDiv fm r a b = invalidOf f) ∧
    (isInfinite f x = true → isFinite f y = true → fDiv fm r a b = (infinity f sxy, {})) ∧
    (isFinite f x = true → isInfinite f y = true → fDiv fm r a b = (zeroOf f sxy, {})) ∧
    (isFinite f x = true → isZero f x = false → isZero f y = true → fDiv fm r a b = (infinity f sxy, { dz := true })) ∧
    (isFinite f x = true → isFinite f y = true → isZero f y = false → productIs f r sxy (v / number f y) (fDiv fm r a b)) ∧
    (isNan f x = true → fSqrt fm r a = nan1) ∧
    (isZero f x = true → fSqrt fm r a = (zeroOf f sx, {})) ∧
    (isNan f x = false → isZero f x = false → sx = true → fSqrt fm r a = invalidOf f) ∧
    (isInfinite f x = true → sx = false → fSqrt fm r a = (infinity f false, {})) ∧
    (isFinite f x = true → isZero f x = false → sx = false → roundsTo fm r false (fun q => against v (q * q)) (fSqrt fm r a)) ∧
    ((isNan f x = true → isNan f y = true → fMinMax fm false a b = nan2 ∧ fMinMax fm true a b = nan2) ∧
      (isNan f x = true → isNan f y = false → fMinMax fm false a b = (low y, nan2.2) ∧ fMinMax fm true a b = (low y, nan2.2)) ∧
      (isNan f x = false → isNan f y = true → fMinMax fm false a b = (low x, nan2.2) ∧ fMinMax fm true a b = (low x, nan2.2)) ∧
      (anyNan = false → fMinMax fm false a b = (low (if orderKey f x ≤ orderKey f y then x else y), {}) ∧
        fMinMax fm true a b = (low (if orderKey f y ≤ orderKey f x then x else y), {})) ∧
      (∀ mode flag, (isNan f x = true → fRnd fm mode flag a = nan1) ∧
        (isInfinite f x = true ∨ isZero f x = true → fRnd fm mode flag a = (low x, {})) ∧
        (isFinite f x = true → isZero f x = false → ∃ n code, roundsInt mode sx |v| n ∧ magnitude fm code = n ∧ code < infCode fm ∧
          fRnd fm mode flag a = (signWeight fm sx + code, { nx := flag && decide ((n : ℚ) ≠ |v|) }))) ∧
      (isNan f x = true → fScale fm r a b = nan1) ∧
      (isInfinite f x = true ∨ isZero f x = true → fScale fm r a b = (low x, {})) ∧
      (isFinite f x = true → isZero f x = false → roundsTo fm r sx (against (v * 2 ^ y.toInt)) (fScale fm r a b))) ∧
    (isNan f x = true ∨ isZero f x = true → fGetexp fm a = (2 ^ 63, { nv := true })) ∧
    (isInfinite f x = true → fGetexp fm a = (2 ^ 63 - 1, { nv := true })) ∧
    (isFinite f x = true → isZero f x = false → ∃ e : Int, (2 : ℚ) ^ e ≤ |v| ∧ |v| < 2 ^ (e + 1) ∧ fGetexp fm a = ((e % 2 ^ 64).toNat, {})) ∧
    (∀ g : FFmt, (isNan f x = true → cvtFF fm (fmtOf g) r a = (zeroOf g sx + canonicalNan g, { nv := isSignalling f x })) ∧
      (isInfinite f x = true → cvtFF fm (fmtOf g) r a = (infinity g sx, {})) ∧
      (isFinite f x = true → productIs g r sx v (cvtFF fm (fmtOf g) r a)) ∧
      (fm.frac < (fmtOf g).frac →
        let out := cvtSR (fmtOf g) fm a b
        let d := (fmtOf g).frac - fm.frac
        let w := number g x
        let sw := negative g x
        (isNan g x = true → out = (zeroOf f sw + canonicalNan f, { nv := isSignalling g x })) ∧
        (isInfinite g x = true → out = (infinity f sw, {})) ∧
        (isZero g x = true → out = (zeroOf f sw, {})) ∧
        (isFinite g x = true → isZero g x = false → ∀ u, spacingIs fm |w| u →
          let k := ⌊(|w| + (b % 2 ^ d : Nat) * u / 2 ^ d) / u⌋
          let most := magnitude fm (infCode fm - 1)
          let past := decide (most < k * u)
          let m := if past then most else k * u
          ∃ code, magnitude fm code = m ∧ code < infCode fm ∧ out = (signWeight fm sw + code,
            { ovf := past, nx := decide (m ≠ |w|), unf := decide (m ≠ |w|) && decide (|w| < 2 ^ (2 - 2 ^ (fm.ebits - 1) : Int)) })))) ∧
    (∀ i : IFmt,
      let bitsOf := i.width.bits
      let lo : Int := if i.signed then -2 ^ (bitsOf - 1) else 0
      let hi : Int := if i.signed then 2 ^ (bitsOf - 1) - 1 else 2 ^ bitsOf - 1
      let enc := fun k : Int => (k % 2 ^ bitsOf).toNat
      let held : Int := if i.signed ∧ 2 ^ (bitsOf - 1) ≤ a % 2 ^ bitsOf then (a % 2 ^ bitsOf : Nat) - 2 ^ bitsOf else (a % 2 ^ bitsOf : Nat)
      (isNan f x = true → cvtFI fm i r a = (0, { nv := true })) ∧
      (isInfinite f x = true → cvtFI fm i r a = (enc (if sx then lo else hi), { nv := true })) ∧
      (isFinite f x = true → ∀ n : Nat, roundsInt r sx |v| n →
        let k : Int := if sx then -(n : Int) else n
        cvtFI fm i r a = if k < lo then (enc lo, { nv := true }) else if hi < k then (enc hi, { nv := true })
          else (enc k, { nx := decide ((n : ℚ) ≠ |v|) })) ∧
      (held = 0 → cvtIF i fm r a = (0, {})) ∧
      (held ≠ 0 → roundsTo fm r (decide (held < 0)) (against held) (cvtIF i fm r a))) ∧
    (isNan f x = true → fRcpa fm a = nan1 ∧ fRsqa fm a = nan1) ∧
    (isZero f x = true → fRcpa fm a = (infinity f sx, { dz := true }) ∧ fRsqa fm a = (infinity f sx, { dz := true })) ∧
    (isInfinite f x = true → fRcpa fm a = (zeroOf f sx, {}) ∧ (sx = false → fRsqa fm a = (0, {}))) ∧
    (isNan f x = false → isZero f x = false → sx = true → fRsqa fm a = invalidOf f) ∧
    (f = .f64 ∨ f = .f32 → isFinite f x = true → isZero f x = false →
      (fRcpa fm a).2 = {} ∧ reducedTo f 14 sx (against v⁻¹) (fRcpa fm a).1 ∧
      (sx = false → (fRsqa fm a).2 = {} ∧ reducedTo f 14 false (fun q => against 1 (q * q * v)) (fRsqa fm a).1)) ∧
    (f = .f32 → (isNan f x = true → fExp2a a = nan1 ∧ fLog2a a = nan1 ∧ fSina a = nan1 ∧ fCosa a = nan1) ∧
      (isInfinite f x = true → fExp2a a = (if sx then 0 else infinity f false, {}) ∧
        fLog2a a = (if sx then invalidOf f else (infinity f false, {})) ∧ fSina a = invalidOf f ∧ fCosa a = invalidOf f) ∧
      (isZero f x = true → fLog2a a = (infinity f true, { dz := true })) ∧
      (isFinite f x = true → isZero f x = false → sx = true → fLog2a a = invalidOf f) ∧
      (isFinite f x = true → (∀ n : Int, v = n →
          (-147 ≤ n → n ≤ 127 → ∃ code, magnitude fm code = 2 ^ n ∧ code < infCode fm ∧ fExp2a a = (code, {})) ∧
          (128 ≤ n → fExp2a a = (infinity f false, {}))) ∧
        (∀ l : Int, v = 2 ^ l → ∃ w : Word, number f w = l ∧ isFinite f w = true ∧ fLog2a a = (w.toNat, {}) ∧ w.toNat < 2 ^ 32 ∧
          (l = 0 → w = 0)) ∧
        (∀ j : Int, 4 * v = j →
          fSina a = (if j % 4 = 1 then one else if j % 4 = 3 then zeroOf f true + one else zeroOf f sx, {}) ∧
          fCosa a = (if j % 4 = 0 then one else if j % 4 = 2 then zeroOf f true + one else 0, {}))))
end

