-- ==== Sys2Proof/Laws/State.lean ====
section
/-! SUPPORT. What each named update of the chip's records leaves alone: one lemma per field per update, true by unfolding, so that no
later proof unfolds a record update. -/

namespace Sys2Proof.Machine

/-! ### The chip -/

@[simp] theorem Chip.setPart_slots (c : Chip) (p : Part) : (c.setPart p).slots = c.slots := rfl
@[simp] theorem Chip.setPart_insts (c : Chip) (p : Part) : (c.setPart p).insts = c.insts := rfl
@[simp] theorem Chip.setPart_nextIid (c : Chip) (p : Part) : (c.setPart p).nextIid = c.nextIid := rfl
@[simp] theorem Chip.setPart_cores (c : Chip) (p : Part) : (c.setPart p).cores = c.cores := rfl
@[simp] theorem Chip.setPart_towers (c : Chip) (p : Part) : (c.setPart p).towers = c.towers := rfl
@[simp] theorem Chip.setPart_mem (c : Chip) (p : Part) : (c.setPart p).mem = c.mem := rfl
@[simp] theorem Chip.setPart_free (c : Chip) (p : Part) : (c.setPart p).free = c.free := rfl
@[simp] theorem Chip.setPart_l2first (c : Chip) (p : Part) : (c.setPart p).l2first = c.l2first := rfl
@[simp] theorem Chip.setPart_tlb (c : Chip) (p : Part) : (c.setPart p).tlb = c.tlb := rfl
@[simp] theorem Chip.setPart_scq (c : Chip) (p : Part) : (c.setPart p).scq = c.scq := rfl
@[simp] theorem Chip.setPart_scAt (c : Chip) (p : Part) : (c.setPart p).scAt = c.scAt := rfl
@[simp] theorem Chip.setPart_flights (c : Chip) (p : Part) : (c.setPart p).flights = c.flights := rfl
@[simp] theorem Chip.setPart_vals (c : Chip) (p : Part) : (c.setPart p).vals = c.vals := rfl
@[simp] theorem Chip.setPart_waiting (c : Chip) (p : Part) : (c.setPart p).waiting = c.waiting := rfl
@[simp] theorem Chip.setPart_creds (c : Chip) (p : Part) : (c.setPart p).creds = c.creds := rfl
@[simp] theorem Chip.setPart_credSeen (c : Chip) (p : Part) : (c.setPart p).credSeen = c.credSeen := rfl
@[simp] theorem Chip.setPart_contribs (c : Chip) (p : Part) : (c.setPart p).contribs = c.contribs := rfl
@[simp] theorem Chip.setPart_keys (c : Chip) (p : Part) : (c.setPart p).keys = c.keys := rfl
@[simp] theorem Chip.setPart_tx (c : Chip) (p : Part) : (c.setPart p).tx = c.tx := rfl
@[simp] theorem Chip.setPart_ty (c : Chip) (p : Part) : (c.setPart p).ty = c.ty := rfl
@[simp] theorem Chip.setPart_tz (c : Chip) (p : Part) : (c.setPart p).tz = c.tz := rfl
@[simp] theorem Chip.setPart_ex (c : Chip) (p : Part) : (c.setPart p).ex = c.ex := rfl
@[simp] theorem Chip.setPart_ey (c : Chip) (p : Part) : (c.setPart p).ey = c.ey := rfl
@[simp] theorem Chip.setPart_ez (c : Chip) (p : Part) : (c.setPart p).ez = c.ez := rfl
@[simp] theorem Chip.setPart_lanes (c : Chip) (p : Part) : (c.setPart p).lanes = c.lanes := rfl
@[simp] theorem Chip.setPart_logq (c : Chip) (p : Part) : (c.setPart p).logq = c.logq := rfl
@[simp] theorem Chip.setPart_sumacq (c : Chip) (p : Part) : (c.setPart p).sumacq = c.sumacq := rfl
@[simp] theorem Chip.setSlot_parts (c : Chip) (s : Slot) : (c.setSlot s).parts = c.parts := rfl
@[simp] theorem Chip.setSlot_insts (c : Chip) (s : Slot) : (c.setSlot s).insts = c.insts := rfl
@[simp] theorem Chip.setSlot_nextIid (c : Chip) (s : Slot) : (c.setSlot s).nextIid = c.nextIid := rfl
@[simp] theorem Chip.setSlot_cores (c : Chip) (s : Slot) : (c.setSlot s).cores = c.cores := rfl
@[simp] theorem Chip.setSlot_towers (c : Chip) (s : Slot) : (c.setSlot s).towers = c.towers := rfl
@[simp] theorem Chip.setSlot_mem (c : Chip) (s : Slot) : (c.setSlot s).mem = c.mem := rfl
@[simp] theorem Chip.setSlot_free (c : Chip) (s : Slot) : (c.setSlot s).free = c.free := rfl
@[simp] theorem Chip.setSlot_l2first (c : Chip) (s : Slot) : (c.setSlot s).l2first = c.l2first := rfl
@[simp] theorem Chip.setSlot_tlb (c : Chip) (s : Slot) : (c.setSlot s).tlb = c.tlb := rfl
@[simp] theorem Chip.setSlot_scq (c : Chip) (s : Slot) : (c.setSlot s).scq = c.scq := rfl
@[simp] theorem Chip.setSlot_scAt (c : Chip) (s : Slot) : (c.setSlot s).scAt = c.scAt := rfl
@[simp] theorem Chip.setSlot_flights (c : Chip) (s : Slot) : (c.setSlot s).flights = c.flights := rfl
@[simp] theorem Chip.setSlot_vals (c : Chip) (s : Slot) : (c.setSlot s).vals = c.vals := rfl
@[simp] theorem Chip.setSlot_waiting (c : Chip) (s : Slot) : (c.setSlot s).waiting = c.waiting := rfl
@[simp] theorem Chip.setSlot_creds (c : Chip) (s : Slot) : (c.setSlot s).creds = c.creds := rfl
@[simp] theorem Chip.setSlot_credSeen (c : Chip) (s : Slot) : (c.setSlot s).credSeen = c.credSeen := rfl
@[simp] theorem Chip.setSlot_contribs (c : Chip) (s : Slot) : (c.setSlot s).contribs = c.contribs := rfl
@[simp] theorem Chip.setSlot_keys (c : Chip) (s : Slot) : (c.setSlot s).keys = c.keys := rfl
@[simp] theorem Chip.setSlot_tx (c : Chip) (s : Slot) : (c.setSlot s).tx = c.tx := rfl
@[simp] theorem Chip.setSlot_ty (c : Chip) (s : Slot) : (c.setSlot s).ty = c.ty := rfl
@[simp] theorem Chip.setSlot_tz (c : Chip) (s : Slot) : (c.setSlot s).tz = c.tz := rfl
@[simp] theorem Chip.setSlot_ex (c : Chip) (s : Slot) : (c.setSlot s).ex = c.ex := rfl
@[simp] theorem Chip.setSlot_ey (c : Chip) (s : Slot) : (c.setSlot s).ey = c.ey := rfl
@[simp] theorem Chip.setSlot_ez (c : Chip) (s : Slot) : (c.setSlot s).ez = c.ez := rfl
@[simp] theorem Chip.setSlot_lanes (c : Chip) (s : Slot) : (c.setSlot s).lanes = c.lanes := rfl
@[simp] theorem Chip.setSlot_logq (c : Chip) (s : Slot) : (c.setSlot s).logq = c.logq := rfl
@[simp] theorem Chip.setSlot_sumacq (c : Chip) (s : Slot) : (c.setSlot s).sumacq = c.sumacq := rfl
@[simp] theorem Chip.modSlot_parts (c : Chip) (k pid : Nat) (f : Slot → Slot) : (c.modSlot k pid f).parts = c.parts := rfl
@[simp] theorem Chip.modSlot_insts (c : Chip) (k pid : Nat) (f : Slot → Slot) : (c.modSlot k pid f).insts = c.insts := rfl
@[simp] theorem Chip.modSlot_nextIid (c : Chip) (k pid : Nat) (f : Slot → Slot) : (c.modSlot k pid f).nextIid = c.nextIid := rfl
@[simp] theorem Chip.modSlot_cores (c : Chip) (k pid : Nat) (f : Slot → Slot) : (c.modSlot k pid f).cores = c.cores := rfl
@[simp] theorem Chip.modSlot_towers (c : Chip) (k pid : Nat) (f : Slot → Slot) : (c.modSlot k pid f).towers = c.towers := rfl
@[simp] theorem Chip.modSlot_mem (c : Chip) (k pid : Nat) (f : Slot → Slot) : (c.modSlot k pid f).mem = c.mem := rfl
@[simp] theorem Chip.modSlot_free (c : Chip) (k pid : Nat) (f : Slot → Slot) : (c.modSlot k pid f).free = c.free := rfl
@[simp] theorem Chip.modSlot_l2first (c : Chip) (k pid : Nat) (f : Slot → Slot) : (c.modSlot k pid f).l2first = c.l2first := rfl
@[simp] theorem Chip.modSlot_tlb (c : Chip) (k pid : Nat) (f : Slot → Slot) : (c.modSlot k pid f).tlb = c.tlb := rfl
@[simp] theorem Chip.modSlot_scq (c : Chip) (k pid : Nat) (f : Slot → Slot) : (c.modSlot k pid f).scq = c.scq := rfl
@[simp] theorem Chip.modSlot_scAt (c : Chip) (k pid : Nat) (f : Slot → Slot) : (c.modSlot k pid f).scAt = c.scAt := rfl
@[simp] theorem Chip.modSlot_flights (c : Chip) (k pid : Nat) (f : Slot → Slot) : (c.modSlot k pid f).flights = c.flights := rfl
@[simp] theorem Chip.modSlot_vals (c : Chip) (k pid : Nat) (f : Slot → Slot) : (c.modSlot k pid f).vals = c.vals := rfl
@[simp] theorem Chip.modSlot_waiting (c : Chip) (k pid : Nat) (f : Slot → Slot) : (c.modSlot k pid f).waiting = c.waiting := rfl
@[simp] theorem Chip.modSlot_creds (c : Chip) (k pid : Nat) (f : Slot → Slot) : (c.modSlot k pid f).creds = c.creds := rfl
@[simp] theorem Chip.modSlot_credSeen (c : Chip) (k pid : Nat) (f : Slot → Slot) : (c.modSlot k pid f).credSeen = c.credSeen := rfl
@[simp] theorem Chip.modSlot_contribs (c : Chip) (k pid : Nat) (f : Slot → Slot) : (c.modSlot k pid f).contribs = c.contribs := rfl
@[simp] theorem Chip.modSlot_keys (c : Chip) (k pid : Nat) (f : Slot → Slot) : (c.modSlot k pid f).keys = c.keys := rfl
@[simp] theorem Chip.modSlot_tx (c : Chip) (k pid : Nat) (f : Slot → Slot) : (c.modSlot k pid f).tx = c.tx := rfl
@[simp] theorem Chip.modSlot_ty (c : Chip) (k pid : Nat) (f : Slot → Slot) : (c.modSlot k pid f).ty = c.ty := rfl
@[simp] theorem Chip.modSlot_tz (c : Chip) (k pid : Nat) (f : Slot → Slot) : (c.modSlot k pid f).tz = c.tz := rfl
@[simp] theorem Chip.modSlot_ex (c : Chip) (k pid : Nat) (f : Slot → Slot) : (c.modSlot k pid f).ex = c.ex := rfl
@[simp] theorem Chip.modSlot_ey (c : Chip) (k pid : Nat) (f : Slot → Slot) : (c.modSlot k pid f).ey = c.ey := rfl
@[simp] theorem Chip.modSlot_ez (c : Chip) (k pid : Nat) (f : Slot → Slot) : (c.modSlot k pid f).ez = c.ez := rfl
@[simp] theorem Chip.modSlot_lanes (c : Chip) (k pid : Nat) (f : Slot → Slot) : (c.modSlot k pid f).lanes = c.lanes := rfl
@[simp] theorem Chip.modSlot_logq (c : Chip) (k pid : Nat) (f : Slot → Slot) : (c.modSlot k pid f).logq = c.logq := rfl
@[simp] theorem Chip.modSlot_sumacq (c : Chip) (k pid : Nat) (f : Slot → Slot) : (c.modSlot k pid f).sumacq = c.sumacq := rfl
@[simp] theorem Chip.setInst_parts (c : Chip) (i : Inst) : (c.setInst i).parts = c.parts := rfl
@[simp] theorem Chip.setInst_slots (c : Chip) (i : Inst) : (c.setInst i).slots = c.slots := rfl
@[simp] theorem Chip.setInst_nextIid (c : Chip) (i : Inst) : (c.setInst i).nextIid = c.nextIid := rfl
@[simp] theorem Chip.setInst_cores (c : Chip) (i : Inst) : (c.setInst i).cores = c.cores := rfl
@[simp] theorem Chip.setInst_towers (c : Chip) (i : Inst) : (c.setInst i).towers = c.towers := rfl
@[simp] theorem Chip.setInst_mem (c : Chip) (i : Inst) : (c.setInst i).mem = c.mem := rfl
@[simp] theorem Chip.setInst_free (c : Chip) (i : Inst) : (c.setInst i).free = c.free := rfl
@[simp] theorem Chip.setInst_l2first (c : Chip) (i : Inst) : (c.setInst i).l2first = c.l2first := rfl
@[simp] theorem Chip.setInst_tlb (c : Chip) (i : Inst) : (c.setInst i).tlb = c.tlb := rfl
@[simp] theorem Chip.setInst_scq (c : Chip) (i : Inst) : (c.setInst i).scq = c.scq := rfl
@[simp] theorem Chip.setInst_scAt (c : Chip) (i : Inst) : (c.setInst i).scAt = c.scAt := rfl
@[simp] theorem Chip.setInst_flights (c : Chip) (i : Inst) : (c.setInst i).flights = c.flights := rfl
@[simp] theorem Chip.setInst_vals (c : Chip) (i : Inst) : (c.setInst i).vals = c.vals := rfl
@[simp] theorem Chip.setInst_waiting (c : Chip) (i : Inst) : (c.setInst i).waiting = c.waiting := rfl
@[simp] theorem Chip.setInst_creds (c : Chip) (i : Inst) : (c.setInst i).creds = c.creds := rfl
@[simp] theorem Chip.setInst_credSeen (c : Chip) (i : Inst) : (c.setInst i).credSeen = c.credSeen := rfl
@[simp] theorem Chip.setInst_contribs (c : Chip) (i : Inst) : (c.setInst i).contribs = c.contribs := rfl
@[simp] theorem Chip.setInst_keys (c : Chip) (i : Inst) : (c.setInst i).keys = c.keys := rfl
@[simp] theorem Chip.setInst_tx (c : Chip) (i : Inst) : (c.setInst i).tx = c.tx := rfl
@[simp] theorem Chip.setInst_ty (c : Chip) (i : Inst) : (c.setInst i).ty = c.ty := rfl
@[simp] theorem Chip.setInst_tz (c : Chip) (i : Inst) : (c.setInst i).tz = c.tz := rfl
@[simp] theorem Chip.setInst_ex (c : Chip) (i : Inst) : (c.setInst i).ex = c.ex := rfl
@[simp] theorem Chip.setInst_ey (c : Chip) (i : Inst) : (c.setInst i).ey = c.ey := rfl
@[simp] theorem Chip.setInst_ez (c : Chip) (i : Inst) : (c.setInst i).ez = c.ez := rfl
@[simp] theorem Chip.setInst_lanes (c : Chip) (i : Inst) : (c.setInst i).lanes = c.lanes := rfl
@[simp] theorem Chip.setInst_logq (c : Chip) (i : Inst) : (c.setInst i).logq = c.logq := rfl
@[simp] theorem Chip.setInst_sumacq (c : Chip) (i : Inst) : (c.setInst i).sumacq = c.sumacq := rfl
@[simp] theorem Chip.modInst_parts (c : Chip) (iid : Nat) (f : Inst → Inst) : (c.modInst iid f).parts = c.parts := rfl
@[simp] theorem Chip.modInst_slots (c : Chip) (iid : Nat) (f : Inst → Inst) : (c.modInst iid f).slots = c.slots := rfl
@[simp] theorem Chip.modInst_nextIid (c : Chip) (iid : Nat) (f : Inst → Inst) : (c.modInst iid f).nextIid = c.nextIid := rfl
@[simp] theorem Chip.modInst_cores (c : Chip) (iid : Nat) (f : Inst → Inst) : (c.modInst iid f).cores = c.cores := rfl
@[simp] theorem Chip.modInst_towers (c : Chip) (iid : Nat) (f : Inst → Inst) : (c.modInst iid f).towers = c.towers := rfl
@[simp] theorem Chip.modInst_mem (c : Chip) (iid : Nat) (f : Inst → Inst) : (c.modInst iid f).mem = c.mem := rfl
@[simp] theorem Chip.modInst_free (c : Chip) (iid : Nat) (f : Inst → Inst) : (c.modInst iid f).free = c.free := rfl
@[simp] theorem Chip.modInst_l2first (c : Chip) (iid : Nat) (f : Inst → Inst) : (c.modInst iid f).l2first = c.l2first := rfl
@[simp] theorem Chip.modInst_tlb (c : Chip) (iid : Nat) (f : Inst → Inst) : (c.modInst iid f).tlb = c.tlb := rfl
@[simp] theorem Chip.modInst_scq (c : Chip) (iid : Nat) (f : Inst → Inst) : (c.modInst iid f).scq = c.scq := rfl
@[simp] theorem Chip.modInst_scAt (c : Chip) (iid : Nat) (f : Inst → Inst) : (c.modInst iid f).scAt = c.scAt := rfl
@[simp] theorem Chip.modInst_flights (c : Chip) (iid : Nat) (f : Inst → Inst) : (c.modInst iid f).flights = c.flights := rfl
@[simp] theorem Chip.modInst_vals (c : Chip) (iid : Nat) (f : Inst → Inst) : (c.modInst iid f).vals = c.vals := rfl
@[simp] theorem Chip.modInst_waiting (c : Chip) (iid : Nat) (f : Inst → Inst) : (c.modInst iid f).waiting = c.waiting := rfl
@[simp] theorem Chip.modInst_creds (c : Chip) (iid : Nat) (f : Inst → Inst) : (c.modInst iid f).creds = c.creds := rfl
@[simp] theorem Chip.modInst_credSeen (c : Chip) (iid : Nat) (f : Inst → Inst) : (c.modInst iid f).credSeen = c.credSeen := rfl
@[simp] theorem Chip.modInst_contribs (c : Chip) (iid : Nat) (f : Inst → Inst) : (c.modInst iid f).contribs = c.contribs := rfl
@[simp] theorem Chip.modInst_keys (c : Chip) (iid : Nat) (f : Inst → Inst) : (c.modInst iid f).keys = c.keys := rfl
@[simp] theorem Chip.modInst_tx (c : Chip) (iid : Nat) (f : Inst → Inst) : (c.modInst iid f).tx = c.tx := rfl
@[simp] theorem Chip.modInst_ty (c : Chip) (iid : Nat) (f : Inst → Inst) : (c.modInst iid f).ty = c.ty := rfl
@[simp] theorem Chip.modInst_tz (c : Chip) (iid : Nat) (f : Inst → Inst) : (c.modInst iid f).tz = c.tz := rfl
@[simp] theorem Chip.modInst_ex (c : Chip) (iid : Nat) (f : Inst → Inst) : (c.modInst iid f).ex = c.ex := rfl
@[simp] theorem Chip.modInst_ey (c : Chip) (iid : Nat) (f : Inst → Inst) : (c.modInst iid f).ey = c.ey := rfl
@[simp] theorem Chip.modInst_ez (c : Chip) (iid : Nat) (f : Inst → Inst) : (c.modInst iid f).ez = c.ez := rfl
@[simp] theorem Chip.modInst_lanes (c : Chip) (iid : Nat) (f : Inst → Inst) : (c.modInst iid f).lanes = c.lanes := rfl
@[simp] theorem Chip.modInst_logq (c : Chip) (iid : Nat) (f : Inst → Inst) : (c.modInst iid f).logq = c.logq := rfl
@[simp] theorem Chip.modInst_sumacq (c : Chip) (iid : Nat) (f : Inst → Inst) : (c.modInst iid f).sumacq = c.sumacq := rfl
@[simp] theorem Chip.dropInst_parts (c : Chip) (iid : Nat) : (c.dropInst iid).parts = c.parts := rfl
@[simp] theorem Chip.dropInst_slots (c : Chip) (iid : Nat) : (c.dropInst iid).slots = c.slots := rfl
@[simp] theorem Chip.dropInst_nextIid (c : Chip) (iid : Nat) : (c.dropInst iid).nextIid = c.nextIid := rfl
@[simp] theorem Chip.dropInst_cores (c : Chip) (iid : Nat) : (c.dropInst iid).cores = c.cores := rfl
@[simp] theorem Chip.dropInst_towers (c : Chip) (iid : Nat) : (c.dropInst iid).towers = c.towers := rfl
@[simp] theorem Chip.dropInst_mem (c : Chip) (iid : Nat) : (c.dropInst iid).mem = c.mem := rfl
@[simp] theorem Chip.dropInst_free (c : Chip) (iid : Nat) : (c.dropInst iid).free = c.free := rfl
@[simp] theorem Chip.dropInst_l2first (c : Chip) (iid : Nat) : (c.dropInst iid).l2first = c.l2first := rfl
@[simp] theorem Chip.dropInst_tlb (c : Chip) (iid : Nat) : (c.dropInst iid).tlb = c.tlb := rfl
@[simp] theorem Chip.dropInst_scq (c : Chip) (iid : Nat) : (c.dropInst iid).scq = c.scq := rfl
@[simp] theorem Chip.dropInst_scAt (c : Chip) (iid : Nat) : (c.dropInst iid).scAt = c.scAt := rfl
@[simp] theorem Chip.dropInst_flights (c : Chip) (iid : Nat) : (c.dropInst iid).flights = c.flights := rfl
@[simp] theorem Chip.dropInst_vals (c : Chip) (iid : Nat) : (c.dropInst iid).vals = c.vals := rfl
@[simp] theorem Chip.dropInst_waiting (c : Chip) (iid : Nat) : (c.dropInst iid).waiting = c.waiting := rfl
@[simp] theorem Chip.dropInst_creds (c : Chip) (iid : Nat) : (c.dropInst iid).creds = c.creds := rfl
@[simp] theorem Chip.dropInst_credSeen (c : Chip) (iid : Nat) : (c.dropInst iid).credSeen = c.credSeen := rfl
@[simp] theorem Chip.dropInst_contribs (c : Chip) (iid : Nat) : (c.dropInst iid).contribs = c.contribs := rfl
@[simp] theorem Chip.dropInst_keys (c : Chip) (iid : Nat) : (c.dropInst iid).keys = c.keys := rfl
@[simp] theorem Chip.dropInst_tx (c : Chip) (iid : Nat) : (c.dropInst iid).tx = c.tx := rfl
@[simp] theorem Chip.dropInst_ty (c : Chip) (iid : Nat) : (c.dropInst iid).ty = c.ty := rfl
@[simp] theorem Chip.dropInst_tz (c : Chip) (iid : Nat) : (c.dropInst iid).tz = c.tz := rfl
@[simp] theorem Chip.dropInst_ex (c : Chip) (iid : Nat) : (c.dropInst iid).ex = c.ex := rfl
@[simp] theorem Chip.dropInst_ey (c : Chip) (iid : Nat) : (c.dropInst iid).ey = c.ey := rfl
@[simp] theorem Chip.dropInst_ez (c : Chip) (iid : Nat) : (c.dropInst iid).ez = c.ez := rfl
@[simp] theorem Chip.dropInst_lanes (c : Chip) (iid : Nat) : (c.dropInst iid).lanes = c.lanes := rfl
@[simp] theorem Chip.dropInst_logq (c : Chip) (iid : Nat) : (c.dropInst iid).logq = c.logq := rfl
@[simp] theorem Chip.dropInst_sumacq (c : Chip) (iid : Nat) : (c.dropInst iid).sumacq = c.sumacq := rfl
@[simp] theorem Chip.setFrame_parts (c : Chip) (iid : Nat) (f : Frame) : (c.setFrame iid f).parts = c.parts := rfl
@[simp] theorem Chip.setFrame_slots (c : Chip) (iid : Nat) (f : Frame) : (c.setFrame iid f).slots = c.slots := rfl
@[simp] theorem Chip.setFrame_nextIid (c : Chip) (iid : Nat) (f : Frame) : (c.setFrame iid f).nextIid = c.nextIid := rfl
@[simp] theorem Chip.setFrame_cores (c : Chip) (iid : Nat) (f : Frame) : (c.setFrame iid f).cores = c.cores := rfl
@[simp] theorem Chip.setFrame_towers (c : Chip) (iid : Nat) (f : Frame) : (c.setFrame iid f).towers = c.towers := rfl
@[simp] theorem Chip.setFrame_mem (c : Chip) (iid : Nat) (f : Frame) : (c.setFrame iid f).mem = c.mem := rfl
@[simp] theorem Chip.setFrame_free (c : Chip) (iid : Nat) (f : Frame) : (c.setFrame iid f).free = c.free := rfl
@[simp] theorem Chip.setFrame_l2first (c : Chip) (iid : Nat) (f : Frame) : (c.setFrame iid f).l2first = c.l2first := rfl
@[simp] theorem Chip.setFrame_tlb (c : Chip) (iid : Nat) (f : Frame) : (c.setFrame iid f).tlb = c.tlb := rfl
@[simp] theorem Chip.setFrame_scq (c : Chip) (iid : Nat) (f : Frame) : (c.setFrame iid f).scq = c.scq := rfl
@[simp] theorem Chip.setFrame_scAt (c : Chip) (iid : Nat) (f : Frame) : (c.setFrame iid f).scAt = c.scAt := rfl
@[simp] theorem Chip.setFrame_flights (c : Chip) (iid : Nat) (f : Frame) : (c.setFrame iid f).flights = c.flights := rfl
@[simp] theorem Chip.setFrame_vals (c : Chip) (iid : Nat) (f : Frame) : (c.setFrame iid f).vals = c.vals := rfl
@[simp] theorem Chip.setFrame_waiting (c : Chip) (iid : Nat) (f : Frame) : (c.setFrame iid f).waiting = c.waiting := rfl
@[simp] theorem Chip.setFrame_creds (c : Chip) (iid : Nat) (f : Frame) : (c.setFrame iid f).creds = c.creds := rfl
@[simp] theorem Chip.setFrame_credSeen (c : Chip) (iid : Nat) (f : Frame) : (c.setFrame iid f).credSeen = c.credSeen := rfl
@[simp] theorem Chip.setFrame_contribs (c : Chip) (iid : Nat) (f : Frame) : (c.setFrame iid f).contribs = c.contribs := rfl
@[simp] theorem Chip.setFrame_keys (c : Chip) (iid : Nat) (f : Frame) : (c.setFrame iid f).keys = c.keys := rfl
@[simp] theorem Chip.setFrame_tx (c : Chip) (iid : Nat) (f : Frame) : (c.setFrame iid f).tx = c.tx := rfl
@[simp] theorem Chip.setFrame_ty (c : Chip) (iid : Nat) (f : Frame) : (c.setFrame iid f).ty = c.ty := rfl
@[simp] theorem Chip.setFrame_tz (c : Chip) (iid : Nat) (f : Frame) : (c.setFrame iid f).tz = c.tz := rfl
@[simp] theorem Chip.setFrame_ex (c : Chip) (iid : Nat) (f : Frame) : (c.setFrame iid f).ex = c.ex := rfl
@[simp] theorem Chip.setFrame_ey (c : Chip) (iid : Nat) (f : Frame) : (c.setFrame iid f).ey = c.ey := rfl
@[simp] theorem Chip.setFrame_ez (c : Chip) (iid : Nat) (f : Frame) : (c.setFrame iid f).ez = c.ez := rfl
@[simp] theorem Chip.setFrame_lanes (c : Chip) (iid : Nat) (f : Frame) : (c.setFrame iid f).lanes = c.lanes := rfl
@[simp] theorem Chip.setFrame_logq (c : Chip) (iid : Nat) (f : Frame) : (c.setFrame iid f).logq = c.logq := rfl
@[simp] theorem Chip.setFrame_sumacq (c : Chip) (iid : Nat) (f : Frame) : (c.setFrame iid f).sumacq = c.sumacq := rfl
@[simp] theorem Chip.setCore_parts (c : Chip) (k : Core) : (c.setCore k).parts = c.parts := rfl
@[simp] theorem Chip.setCore_slots (c : Chip) (k : Core) : (c.setCore k).slots = c.slots := rfl
@[simp] theorem Chip.setCore_insts (c : Chip) (k : Core) : (c.setCore k).insts = c.insts := rfl
@[simp] theorem Chip.setCore_nextIid (c : Chip) (k : Core) : (c.setCore k).nextIid = c.nextIid := rfl
@[simp] theorem Chip.setCore_towers (c : Chip) (k : Core) : (c.setCore k).towers = c.towers := rfl
@[simp] theorem Chip.setCore_mem (c : Chip) (k : Core) : (c.setCore k).mem = c.mem := rfl
@[simp] theorem Chip.setCore_free (c : Chip) (k : Core) : (c.setCore k).free = c.free := rfl
@[simp] theorem Chip.setCore_l2first (c : Chip) (k : Core) : (c.setCore k).l2first = c.l2first := rfl
@[simp] theorem Chip.setCore_tlb (c : Chip) (k : Core) : (c.setCore k).tlb = c.tlb := rfl
@[simp] theorem Chip.setCore_scq (c : Chip) (k : Core) : (c.setCore k).scq = c.scq := rfl
@[simp] theorem Chip.setCore_scAt (c : Chip) (k : Core) : (c.setCore k).scAt = c.scAt := rfl
@[simp] theorem Chip.setCore_flights (c : Chip) (k : Core) : (c.setCore k).flights = c.flights := rfl
@[simp] theorem Chip.setCore_vals (c : Chip) (k : Core) : (c.setCore k).vals = c.vals := rfl
@[simp] theorem Chip.setCore_waiting (c : Chip) (k : Core) : (c.setCore k).waiting = c.waiting := rfl
@[simp] theorem Chip.setCore_creds (c : Chip) (k : Core) : (c.setCore k).creds = c.creds := rfl
@[simp] theorem Chip.setCore_credSeen (c : Chip) (k : Core) : (c.setCore k).credSeen = c.credSeen := rfl
@[simp] theorem Chip.setCore_contribs (c : Chip) (k : Core) : (c.setCore k).contribs = c.contribs := rfl
@[simp] theorem Chip.setCore_keys (c : Chip) (k : Core) : (c.setCore k).keys = c.keys := rfl
@[simp] theorem Chip.setCore_tx (c : Chip) (k : Core) : (c.setCore k).tx = c.tx := rfl
@[simp] theorem Chip.setCore_ty (c : Chip) (k : Core) : (c.setCore k).ty = c.ty := rfl
@[simp] theorem Chip.setCore_tz (c : Chip) (k : Core) : (c.setCore k).tz = c.tz := rfl
@[simp] theorem Chip.setCore_ex (c : Chip) (k : Core) : (c.setCore k).ex = c.ex := rfl
@[simp] theorem Chip.setCore_ey (c : Chip) (k : Core) : (c.setCore k).ey = c.ey := rfl
@[simp] theorem Chip.setCore_ez (c : Chip) (k : Core) : (c.setCore k).ez = c.ez := rfl
@[simp] theorem Chip.setCore_lanes (c : Chip) (k : Core) : (c.setCore k).lanes = c.lanes := rfl
@[simp] theorem Chip.setCore_logq (c : Chip) (k : Core) : (c.setCore k).logq = c.logq := rfl
@[simp] theorem Chip.setCore_sumacq (c : Chip) (k : Core) : (c.setCore k).sumacq = c.sumacq := rfl
@[simp] theorem Chip.modCore_parts (c : Chip) (id : Nat) (f : Core → Core) : (c.modCore id f).parts = c.parts := rfl
@[simp] theorem Chip.modCore_slots (c : Chip) (id : Nat) (f : Core → Core) : (c.modCore id f).slots = c.slots := rfl
@[simp] theorem Chip.modCore_insts (c : Chip) (id : Nat) (f : Core → Core) : (c.modCore id f).insts = c.insts := rfl
@[simp] theorem Chip.modCore_nextIid (c : Chip) (id : Nat) (f : Core → Core) : (c.modCore id f).nextIid = c.nextIid := rfl
@[simp] theorem Chip.modCore_towers (c : Chip) (id : Nat) (f : Core → Core) : (c.modCore id f).towers = c.towers := rfl
@[simp] theorem Chip.modCore_mem (c : Chip) (id : Nat) (f : Core → Core) : (c.modCore id f).mem = c.mem := rfl
@[simp] theorem Chip.modCore_free (c : Chip) (id : Nat) (f : Core → Core) : (c.modCore id f).free = c.free := rfl
@[simp] theorem Chip.modCore_l2first (c : Chip) (id : Nat) (f : Core → Core) : (c.modCore id f).l2first = c.l2first := rfl
@[simp] theorem Chip.modCore_tlb (c : Chip) (id : Nat) (f : Core → Core) : (c.modCore id f).tlb = c.tlb := rfl
@[simp] theorem Chip.modCore_scq (c : Chip) (id : Nat) (f : Core → Core) : (c.modCore id f).scq = c.scq := rfl
@[simp] theorem Chip.modCore_scAt (c : Chip) (id : Nat) (f : Core → Core) : (c.modCore id f).scAt = c.scAt := rfl
@[simp] theorem Chip.modCore_flights (c : Chip) (id : Nat) (f : Core → Core) : (c.modCore id f).flights = c.flights := rfl
@[simp] theorem Chip.modCore_vals (c : Chip) (id : Nat) (f : Core → Core) : (c.modCore id f).vals = c.vals := rfl
@[simp] theorem Chip.modCore_waiting (c : Chip) (id : Nat) (f : Core → Core) : (c.modCore id f).waiting = c.waiting := rfl
@[simp] theorem Chip.modCore_creds (c : Chip) (id : Nat) (f : Core → Core) : (c.modCore id f).creds = c.creds := rfl
@[simp] theorem Chip.modCore_credSeen (c : Chip) (id : Nat) (f : Core → Core) : (c.modCore id f).credSeen = c.credSeen := rfl
@[simp] theorem Chip.modCore_contribs (c : Chip) (id : Nat) (f : Core → Core) : (c.modCore id f).contribs = c.contribs := rfl
@[simp] theorem Chip.modCore_keys (c : Chip) (id : Nat) (f : Core → Core) : (c.modCore id f).keys = c.keys := rfl
@[simp] theorem Chip.modCore_tx (c : Chip) (id : Nat) (f : Core → Core) : (c.modCore id f).tx = c.tx := rfl
@[simp] theorem Chip.modCore_ty (c : Chip) (id : Nat) (f : Core → Core) : (c.modCore id f).ty = c.ty := rfl
@[simp] theorem Chip.modCore_tz (c : Chip) (id : Nat) (f : Core → Core) : (c.modCore id f).tz = c.tz := rfl
@[simp] theorem Chip.modCore_ex (c : Chip) (id : Nat) (f : Core → Core) : (c.modCore id f).ex = c.ex := rfl
@[simp] theorem Chip.modCore_ey (c : Chip) (id : Nat) (f : Core → Core) : (c.modCore id f).ey = c.ey := rfl
@[simp] theorem Chip.modCore_ez (c : Chip) (id : Nat) (f : Core → Core) : (c.modCore id f).ez = c.ez := rfl
@[simp] theorem Chip.modCore_lanes (c : Chip) (id : Nat) (f : Core → Core) : (c.modCore id f).lanes = c.lanes := rfl
@[simp] theorem Chip.modCore_logq (c : Chip) (id : Nat) (f : Core → Core) : (c.modCore id f).logq = c.logq := rfl
@[simp] theorem Chip.modCore_sumacq (c : Chip) (id : Nat) (f : Core → Core) : (c.modCore id f).sumacq = c.sumacq := rfl
@[simp] theorem Chip.dropLines_parts (c : Chip) (core : Nat) : (c.dropLines core).parts = c.parts := rfl
@[simp] theorem Chip.dropLines_slots (c : Chip) (core : Nat) : (c.dropLines core).slots = c.slots := rfl
@[simp] theorem Chip.dropLines_insts (c : Chip) (core : Nat) : (c.dropLines core).insts = c.insts := rfl
@[simp] theorem Chip.dropLines_nextIid (c : Chip) (core : Nat) : (c.dropLines core).nextIid = c.nextIid := rfl
@[simp] theorem Chip.dropLines_towers (c : Chip) (core : Nat) : (c.dropLines core).towers = c.towers := rfl
@[simp] theorem Chip.dropLines_mem (c : Chip) (core : Nat) : (c.dropLines core).mem = c.mem := rfl
@[simp] theorem Chip.dropLines_free (c : Chip) (core : Nat) : (c.dropLines core).free = c.free := rfl
@[simp] theorem Chip.dropLines_l2first (c : Chip) (core : Nat) : (c.dropLines core).l2first = c.l2first := rfl
@[simp] theorem Chip.dropLines_tlb (c : Chip) (core : Nat) : (c.dropLines core).tlb = c.tlb := rfl
@[simp] theorem Chip.dropLines_scq (c : Chip) (core : Nat) : (c.dropLines core).scq = c.scq := rfl
@[simp] theorem Chip.dropLines_scAt (c : Chip) (core : Nat) : (c.dropLines core).scAt = c.scAt := rfl
@[simp] theorem Chip.dropLines_flights (c : Chip) (core : Nat) : (c.dropLines core).flights = c.flights := rfl
@[simp] theorem Chip.dropLines_vals (c : Chip) (core : Nat) : (c.dropLines core).vals = c.vals := rfl
@[simp] theorem Chip.dropLines_waiting (c : Chip) (core : Nat) : (c.dropLines core).waiting = c.waiting := rfl
@[simp] theorem Chip.dropLines_creds (c : Chip) (core : Nat) : (c.dropLines core).creds = c.creds := rfl
@[simp] theorem Chip.dropLines_credSeen (c : Chip) (core : Nat) : (c.dropLines core).credSeen = c.credSeen := rfl
@[simp] theorem Chip.dropLines_contribs (c : Chip) (core : Nat) : (c.dropLines core).contribs = c.contribs := rfl
@[simp] theorem Chip.dropLines_keys (c : Chip) (core : Nat) : (c.dropLines core).keys = c.keys := rfl
@[simp] theorem Chip.dropLines_tx (c : Chip) (core : Nat) : (c.dropLines core).tx = c.tx := rfl
@[simp] theorem Chip.dropLines_ty (c : Chip) (core : Nat) : (c.dropLines core).ty = c.ty := rfl
@[simp] theorem Chip.dropLines_tz (c : Chip) (core : Nat) : (c.dropLines core).tz = c.tz := rfl
@[simp] theorem Chip.dropLines_ex (c : Chip) (core : Nat) : (c.dropLines core).ex = c.ex := rfl
@[simp] theorem Chip.dropLines_ey (c : Chip) (core : Nat) : (c.dropLines core).ey = c.ey := rfl
@[simp] theorem Chip.dropLines_ez (c : Chip) (core : Nat) : (c.dropLines core).ez = c.ez := rfl
@[simp] theorem Chip.dropLines_lanes (c : Chip) (core : Nat) : (c.dropLines core).lanes = c.lanes := rfl
@[simp] theorem Chip.dropLines_logq (c : Chip) (core : Nat) : (c.dropLines core).logq = c.logq := rfl
@[simp] theorem Chip.dropLines_sumacq (c : Chip) (core : Nat) : (c.dropLines core).sumacq = c.sumacq := rfl
@[simp] theorem Chip.setTower_parts (c : Chip) (t : Tower) : (c.setTower t).parts = c.parts := rfl
@[simp] theorem Chip.setTower_slots (c : Chip) (t : Tower) : (c.setTower t).slots = c.slots := rfl
@[simp] theorem Chip.setTower_insts (c : Chip) (t : Tower) : (c.setTower t).insts = c.insts := rfl
@[simp] theorem Chip.setTower_nextIid (c : Chip) (t : Tower) : (c.setTower t).nextIid = c.nextIid := rfl
@[simp] theorem Chip.setTower_cores (c : Chip) (t : Tower) : (c.setTower t).cores = c.cores := rfl
@[simp] theorem Chip.setTower_mem (c : Chip) (t : Tower) : (c.setTower t).mem = c.mem := rfl
@[simp] theorem Chip.setTower_free (c : Chip) (t : Tower) : (c.setTower t).free = c.free := rfl
@[simp] theorem Chip.setTower_l2first (c : Chip) (t : Tower) : (c.setTower t).l2first = c.l2first := rfl
@[simp] theorem Chip.setTower_tlb (c : Chip) (t : Tower) : (c.setTower t).tlb = c.tlb := rfl
@[simp] theorem Chip.setTower_scq (c : Chip) (t : Tower) : (c.setTower t).scq = c.scq := rfl
@[simp] theorem Chip.setTower_scAt (c : Chip) (t : Tower) : (c.setTower t).scAt = c.scAt := rfl
@[simp] theorem Chip.setTower_flights (c : Chip) (t : Tower) : (c.setTower t).flights = c.flights := rfl
@[simp] theorem Chip.setTower_vals (c : Chip) (t : Tower) : (c.setTower t).vals = c.vals := rfl
@[simp] theorem Chip.setTower_waiting (c : Chip) (t : Tower) : (c.setTower t).waiting = c.waiting := rfl
@[simp] theorem Chip.setTower_creds (c : Chip) (t : Tower) : (c.setTower t).creds = c.creds := rfl
@[simp] theorem Chip.setTower_credSeen (c : Chip) (t : Tower) : (c.setTower t).credSeen = c.credSeen := rfl
@[simp] theorem Chip.setTower_contribs (c : Chip) (t : Tower) : (c.setTower t).contribs = c.contribs := rfl
@[simp] theorem Chip.setTower_keys (c : Chip) (t : Tower) : (c.setTower t).keys = c.keys := rfl
@[simp] theorem Chip.setTower_tx (c : Chip) (t : Tower) : (c.setTower t).tx = c.tx := rfl
@[simp] theorem Chip.setTower_ty (c : Chip) (t : Tower) : (c.setTower t).ty = c.ty := rfl
@[simp] theorem Chip.setTower_tz (c : Chip) (t : Tower) : (c.setTower t).tz = c.tz := rfl
@[simp] theorem Chip.setTower_ex (c : Chip) (t : Tower) : (c.setTower t).ex = c.ex := rfl
@[simp] theorem Chip.setTower_ey (c : Chip) (t : Tower) : (c.setTower t).ey = c.ey := rfl
@[simp] theorem Chip.setTower_ez (c : Chip) (t : Tower) : (c.setTower t).ez = c.ez := rfl
@[simp] theorem Chip.setTower_lanes (c : Chip) (t : Tower) : (c.setTower t).lanes = c.lanes := rfl
@[simp] theorem Chip.setTower_logq (c : Chip) (t : Tower) : (c.setTower t).logq = c.logq := rfl
@[simp] theorem Chip.setTower_sumacq (c : Chip) (t : Tower) : (c.setTower t).sumacq = c.sumacq := rfl
@[simp] theorem Chip.report_parts (c : Chip) (code core pid : Nat) : (c.report code core pid).parts = c.parts := rfl
@[simp] theorem Chip.report_slots (c : Chip) (code core pid : Nat) : (c.report code core pid).slots = c.slots := rfl
@[simp] theorem Chip.report_insts (c : Chip) (code core pid : Nat) : (c.report code core pid).insts = c.insts := rfl
@[simp] theorem Chip.report_nextIid (c : Chip) (code core pid : Nat) : (c.report code core pid).nextIid = c.nextIid := rfl
@[simp] theorem Chip.report_cores (c : Chip) (code core pid : Nat) : (c.report code core pid).cores = c.cores := rfl
@[simp] theorem Chip.report_towers (c : Chip) (code core pid : Nat) : (c.report code core pid).towers = c.towers := rfl
@[simp] theorem Chip.report_mem (c : Chip) (code core pid : Nat) : (c.report code core pid).mem = c.mem := rfl
@[simp] theorem Chip.report_free (c : Chip) (code core pid : Nat) : (c.report code core pid).free = c.free := rfl
@[simp] theorem Chip.report_l2first (c : Chip) (code core pid : Nat) : (c.report code core pid).l2first = c.l2first := rfl
@[simp] theorem Chip.report_tlb (c : Chip) (code core pid : Nat) : (c.report code core pid).tlb = c.tlb := rfl
@[simp] theorem Chip.report_scq (c : Chip) (code core pid : Nat) : (c.report code core pid).scq = c.scq := rfl
@[simp] theorem Chip.report_scAt (c : Chip) (code core pid : Nat) : (c.report code core pid).scAt = c.scAt := rfl
@[simp] theorem Chip.report_flights (c : Chip) (code core pid : Nat) : (c.report code core pid).flights = c.flights := rfl
@[simp] theorem Chip.report_vals (c : Chip) (code core pid : Nat) : (c.report code core pid).vals = c.vals := rfl
@[simp] theorem Chip.report_waiting (c : Chip) (code core pid : Nat) : (c.report code core pid).waiting = c.waiting := rfl
@[simp] theorem Chip.report_creds (c : Chip) (code core pid : Nat) : (c.report code core pid).creds = c.creds := rfl
@[simp] theorem Chip.report_credSeen (c : Chip) (code core pid : Nat) : (c.report code core pid).credSeen = c.credSeen := rfl
@[simp] theorem Chip.report_contribs (c : Chip) (code core pid : Nat) : (c.report code core pid).contribs = c.contribs := rfl
@[simp] theorem Chip.report_keys (c : Chip) (code core pid : Nat) : (c.report code core pid).keys = c.keys := rfl
@[simp] theorem Chip.report_tx (c : Chip) (code core pid : Nat) : (c.report code core pid).tx = c.tx := rfl
@[simp] theorem Chip.report_ty (c : Chip) (code core pid : Nat) : (c.report code core pid).ty = c.ty := rfl
@[simp] theorem Chip.report_tz (c : Chip) (code core pid : Nat) : (c.report code core pid).tz = c.tz := rfl
@[simp] theorem Chip.report_ex (c : Chip) (code core pid : Nat) : (c.report code core pid).ex = c.ex := rfl
@[simp] theorem Chip.report_ey (c : Chip) (code core pid : Nat) : (c.report code core pid).ey = c.ey := rfl
@[simp] theorem Chip.report_ez (c : Chip) (code core pid : Nat) : (c.report code core pid).ez = c.ez := rfl
@[simp] theorem Chip.report_lanes (c : Chip) (code core pid : Nat) : (c.report code core pid).lanes = c.lanes := rfl
@[simp] theorem Chip.report_sumacq (c : Chip) (code core pid : Nat) : (c.report code core pid).sumacq = c.sumacq := rfl
@[simp] theorem Chip.trace_parts (c : Chip) (ev core pid d2 d3 : Nat) : (c.trace ev core pid d2 d3).parts = c.parts := rfl
@[simp] theorem Chip.trace_slots (c : Chip) (ev core pid d2 d3 : Nat) : (c.trace ev core pid d2 d3).slots = c.slots := rfl
@[simp] theorem Chip.trace_insts (c : Chip) (ev core pid d2 d3 : Nat) : (c.trace ev core pid d2 d3).insts = c.insts := rfl
@[simp] theorem Chip.trace_nextIid (c : Chip) (ev core pid d2 d3 : Nat) : (c.trace ev core pid d2 d3).nextIid = c.nextIid := rfl
@[simp] theorem Chip.trace_cores (c : Chip) (ev core pid d2 d3 : Nat) : (c.trace ev core pid d2 d3).cores = c.cores := rfl
@[simp] theorem Chip.trace_towers (c : Chip) (ev core pid d2 d3 : Nat) : (c.trace ev core pid d2 d3).towers = c.towers := rfl
@[simp] theorem Chip.trace_mem (c : Chip) (ev core pid d2 d3 : Nat) : (c.trace ev core pid d2 d3).mem = c.mem := rfl
@[simp] theorem Chip.trace_free (c : Chip) (ev core pid d2 d3 : Nat) : (c.trace ev core pid d2 d3).free = c.free := rfl
@[simp] theorem Chip.trace_l2first (c : Chip) (ev core pid d2 d3 : Nat) : (c.trace ev core pid d2 d3).l2first = c.l2first := rfl
@[simp] theorem Chip.trace_tlb (c : Chip) (ev core pid d2 d3 : Nat) : (c.trace ev core pid d2 d3).tlb = c.tlb := rfl
@[simp] theorem Chip.trace_scq (c : Chip) (ev core pid d2 d3 : Nat) : (c.trace ev core pid d2 d3).scq = c.scq := rfl
@[simp] theorem Chip.trace_scAt (c : Chip) (ev core pid d2 d3 : Nat) : (c.trace ev core pid d2 d3).scAt = c.scAt := rfl
@[simp] theorem Chip.trace_flights (c : Chip) (ev core pid d2 d3 : Nat) : (c.trace ev core pid d2 d3).flights = c.flights := rfl
@[simp] theorem Chip.trace_vals (c : Chip) (ev core pid d2 d3 : Nat) : (c.trace ev core pid d2 d3).vals = c.vals := rfl
@[simp] theorem Chip.trace_waiting (c : Chip) (ev core pid d2 d3 : Nat) : (c.trace ev core pid d2 d3).waiting = c.waiting := rfl
@[simp] theorem Chip.trace_creds (c : Chip) (ev core pid d2 d3 : Nat) : (c.trace ev core pid d2 d3).creds = c.creds := rfl
@[simp] theorem Chip.trace_credSeen (c : Chip) (ev core pid d2 d3 : Nat) : (c.trace ev core pid d2 d3).credSeen = c.credSeen := rfl
@[simp] theorem Chip.trace_contribs (c : Chip) (ev core pid d2 d3 : Nat) : (c.trace ev core pid d2 d3).contribs = c.contribs := rfl
@[simp] theorem Chip.trace_keys (c : Chip) (ev core pid d2 d3 : Nat) : (c.trace ev core pid d2 d3).keys = c.keys := rfl
@[simp] theorem Chip.trace_tx (c : Chip) (ev core pid d2 d3 : Nat) : (c.trace ev core pid d2 d3).tx = c.tx := rfl
@[simp] theorem Chip.trace_ty (c : Chip) (ev core pid d2 d3 : Nat) : (c.trace ev core pid d2 d3).ty = c.ty := rfl
@[simp] theorem Chip.trace_tz (c : Chip) (ev core pid d2 d3 : Nat) : (c.trace ev core pid d2 d3).tz = c.tz := rfl
@[simp] theorem Chip.trace_ex (c : Chip) (ev core pid d2 d3 : Nat) : (c.trace ev core pid d2 d3).ex = c.ex := rfl
@[simp] theorem Chip.trace_ey (c : Chip) (ev core pid d2 d3 : Nat) : (c.trace ev core pid d2 d3).ey = c.ey := rfl
@[simp] theorem Chip.trace_ez (c : Chip) (ev core pid d2 d3 : Nat) : (c.trace ev core pid d2 d3).ez = c.ez := rfl
@[simp] theorem Chip.trace_lanes (c : Chip) (ev core pid d2 d3 : Nat) : (c.trace ev core pid d2 d3).lanes = c.lanes := rfl
@[simp] theorem Chip.trace_logq (c : Chip) (ev core pid d2 d3 : Nat) : (c.trace ev core pid d2 d3).logq = c.logq := rfl
@[simp] theorem Chip.sendDoneIn_parts (c : Chip) (p : Nat) (who : Issuer) (dn : Bool) (dch : Nat) (w : Word) :
    (c.sendDoneIn p who dn dch w).parts = c.parts := by unfold Chip.sendDoneIn; split <;> rfl
@[simp] theorem Chip.sendDone_parts (c : Chip) (who : Issuer) (dn : Bool) (dch : Nat) (w : Word) :
    (c.sendDone who dn dch w).parts = c.parts := Chip.sendDoneIn_parts ..
@[simp] theorem Chip.sendDoneIn_slots (c : Chip) (p : Nat) (who : Issuer) (dn : Bool) (dch : Nat) (w : Word) :
    (c.sendDoneIn p who dn dch w).slots = c.slots := by unfold Chip.sendDoneIn; split <;> rfl
@[simp] theorem Chip.sendDone_slots (c : Chip) (who : Issuer) (dn : Bool) (dch : Nat) (w : Word) :
    (c.sendDone who dn dch w).slots = c.slots := Chip.sendDoneIn_slots ..
@[simp] theorem Chip.sendDoneIn_insts (c : Chip) (p : Nat) (who : Issuer) (dn : Bool) (dch : Nat) (w : Word) :
    (c.sendDoneIn p who dn dch w).insts = c.insts := by unfold Chip.sendDoneIn; split <;> rfl
@[simp] theorem Chip.sendDone_insts (c : Chip) (who : Issuer) (dn : Bool) (dch : Nat) (w : Word) :
    (c.sendDone who dn dch w).insts = c.insts := Chip.sendDoneIn_insts ..
@[simp] theorem Chip.sendDoneIn_nextIid (c : Chip) (p : Nat) (who : Issuer) (dn : Bool) (dch : Nat) (w : Word) :
    (c.sendDoneIn p who dn dch w).nextIid = c.nextIid := by unfold Chip.sendDoneIn; split <;> rfl
@[simp] theorem Chip.sendDone_nextIid (c : Chip) (who : Issuer) (dn : Bool) (dch : Nat) (w : Word) :
    (c.sendDone who dn dch w).nextIid = c.nextIid := Chip.sendDoneIn_nextIid ..
@[simp] theorem Chip.sendDoneIn_cores (c : Chip) (p : Nat) (who : Issuer) (dn : Bool) (dch : Nat) (w : Word) :
    (c.sendDoneIn p who dn dch w).cores = c.cores := by unfold Chip.sendDoneIn; split <;> rfl
@[simp] theorem Chip.sendDone_cores (c : Chip) (who : Issuer) (dn : Bool) (dch : Nat) (w : Word) :
    (c.sendDone who dn dch w).cores = c.cores := Chip.sendDoneIn_cores ..
@[simp] theorem Chip.sendDoneIn_towers (c : Chip) (p : Nat) (who : Issuer) (dn : Bool) (dch : Nat) (w : Word) :
    (c.sendDoneIn p who dn dch w).towers = c.towers := by unfold Chip.sendDoneIn; split <;> rfl
@[simp] theorem Chip.sendDone_towers (c : Chip) (who : Issuer) (dn : Bool) (dch : Nat) (w : Word) :
    (c.sendDone who dn dch w).towers = c.towers := Chip.sendDoneIn_towers ..
@[simp] theorem Chip.sendDoneIn_mem (c : Chip) (p : Nat) (who : Issuer) (dn : Bool) (dch : Nat) (w : Word) :
    (c.sendDoneIn p who dn dch w).mem = c.mem := by unfold Chip.sendDoneIn; split <;> rfl
@[simp] theorem Chip.sendDone_mem (c : Chip) (who : Issuer) (dn : Bool) (dch : Nat) (w : Word) :
    (c.sendDone who dn dch w).mem = c.mem := Chip.sendDoneIn_mem ..
@[simp] theorem Chip.sendDoneIn_free (c : Chip) (p : Nat) (who : Issuer) (dn : Bool) (dch : Nat) (w : Word) :
    (c.sendDoneIn p who dn dch w).free = c.free := by unfold Chip.sendDoneIn; split <;> rfl
@[simp] theorem Chip.sendDone_free (c : Chip) (who : Issuer) (dn : Bool) (dch : Nat) (w : Word) :
    (c.sendDone who dn dch w).free = c.free := Chip.sendDoneIn_free ..
@[simp] theorem Chip.sendDoneIn_l2first (c : Chip) (p : Nat) (who : Issuer) (dn : Bool) (dch : Nat) (w : Word) :
    (c.sendDoneIn p who dn dch w).l2first = c.l2first := by unfold Chip.sendDoneIn; split <;> rfl
@[simp] theorem Chip.sendDone_l2first (c : Chip) (who : Issuer) (dn : Bool) (dch : Nat) (w : Word) :
    (c.sendDone who dn dch w).l2first = c.l2first := Chip.sendDoneIn_l2first ..
@[simp] theorem Chip.sendDoneIn_tlb (c : Chip) (p : Nat) (who : Issuer) (dn : Bool) (dch : Nat) (w : Word) :
    (c.sendDoneIn p who dn dch w).tlb = c.tlb := by unfold Chip.sendDoneIn; split <;> rfl
@[simp] theorem Chip.sendDone_tlb (c : Chip) (who : Issuer) (dn : Bool) (dch : Nat) (w : Word) :
    (c.sendDone who dn dch w).tlb = c.tlb := Chip.sendDoneIn_tlb ..
@[simp] theorem Chip.sendDoneIn_scq (c : Chip) (p : Nat) (who : Issuer) (dn : Bool) (dch : Nat) (w : Word) :
    (c.sendDoneIn p who dn dch w).scq = c.scq := by unfold Chip.sendDoneIn; split <;> rfl
@[simp] theorem Chip.sendDone_scq (c : Chip) (who : Issuer) (dn : Bool) (dch : Nat) (w : Word) :
    (c.sendDone who dn dch w).scq = c.scq := Chip.sendDoneIn_scq ..
@[simp] theorem Chip.sendDoneIn_scAt (c : Chip) (p : Nat) (who : Issuer) (dn : Bool) (dch : Nat) (w : Word) :
    (c.sendDoneIn p who dn dch w).scAt = c.scAt := by unfold Chip.sendDoneIn; split <;> rfl
@[simp] theorem Chip.sendDone_scAt (c : Chip) (who : Issuer) (dn : Bool) (dch : Nat) (w : Word) :
    (c.sendDone who dn dch w).scAt = c.scAt := Chip.sendDoneIn_scAt ..
@[simp] theorem Chip.sendDoneIn_vals (c : Chip) (p : Nat) (who : Issuer) (dn : Bool) (dch : Nat) (w : Word) :
    (c.sendDoneIn p who dn dch w).vals = c.vals := by unfold Chip.sendDoneIn; split <;> rfl
@[simp] theorem Chip.sendDone_vals (c : Chip) (who : Issuer) (dn : Bool) (dch : Nat) (w : Word) :
    (c.sendDone who dn dch w).vals = c.vals := Chip.sendDoneIn_vals ..
@[simp] theorem Chip.sendDoneIn_waiting (c : Chip) (p : Nat) (who : Issuer) (dn : Bool) (dch : Nat) (w : Word) :
    (c.sendDoneIn p who dn dch w).waiting = c.waiting := by unfold Chip.sendDoneIn; split <;> rfl
@[simp] theorem Chip.sendDone_waiting (c : Chip) (who : Issuer) (dn : Bool) (dch : Nat) (w : Word) :
    (c.sendDone who dn dch w).waiting = c.waiting := Chip.sendDoneIn_waiting ..
@[simp] theorem Chip.sendDoneIn_creds (c : Chip) (p : Nat) (who : Issuer) (dn : Bool) (dch : Nat) (w : Word) :
    (c.sendDoneIn p who dn dch w).creds = c.creds := by unfold Chip.sendDoneIn; split <;> rfl
@[simp] theorem Chip.sendDone_creds (c : Chip) (who : Issuer) (dn : Bool) (dch : Nat) (w : Word) :
    (c.sendDone who dn dch w).creds = c.creds := Chip.sendDoneIn_creds ..
@[simp] theorem Chip.sendDoneIn_credSeen (c : Chip) (p : Nat) (who : Issuer) (dn : Bool) (dch : Nat) (w : Word) :
    (c.sendDoneIn p who dn dch w).credSeen = c.credSeen := by unfold Chip.sendDoneIn; split <;> rfl
@[simp] theorem Chip.sendDone_credSeen (c : Chip) (who : Issuer) (dn : Bool) (dch : Nat) (w : Word) :
    (c.sendDone who dn dch w).credSeen = c.credSeen := Chip.sendDoneIn_credSeen ..
@[simp] theorem Chip.sendDoneIn_contribs (c : Chip) (p : Nat) (who : Issuer) (dn : Bool) (dch : Nat) (w : Word) :
    (c.sendDoneIn p who dn dch w).contribs = c.contribs := by unfold Chip.sendDoneIn; split <;> rfl
@[simp] theorem Chip.sendDone_contribs (c : Chip) (who : Issuer) (dn : Bool) (dch : Nat) (w : Word) :
    (c.sendDone who dn dch w).contribs = c.contribs := Chip.sendDoneIn_contribs ..
@[simp] theorem Chip.sendDoneIn_keys (c : Chip) (p : Nat) (who : Issuer) (dn : Bool) (dch : Nat) (w : Word) :
    (c.sendDoneIn p who dn dch w).keys = c.keys := by unfold Chip.sendDoneIn; split <;> rfl
@[simp] theorem Chip.sendDone_keys (c : Chip) (who : Issuer) (dn : Bool) (dch : Nat) (w : Word) :
    (c.sendDone who dn dch w).keys = c.keys := Chip.sendDoneIn_keys ..
@[simp] theorem Chip.sendDoneIn_tx (c : Chip) (p : Nat) (who : Issuer) (dn : Bool) (dch : Nat) (w : Word) :
    (c.sendDoneIn p who dn dch w).tx = c.tx := by unfold Chip.sendDoneIn; split <;> rfl
@[simp] theorem Chip.sendDone_tx (c : Chip) (who : Issuer) (dn : Bool) (dch : Nat) (w : Word) :
    (c.sendDone who dn dch w).tx = c.tx := Chip.sendDoneIn_tx ..
@[simp] theorem Chip.sendDoneIn_ty (c : Chip) (p : Nat) (who : Issuer) (dn : Bool) (dch : Nat) (w : Word) :
    (c.sendDoneIn p who dn dch w).ty = c.ty := by unfold Chip.sendDoneIn; split <;> rfl
@[simp] theorem Chip.sendDone_ty (c : Chip) (who : Issuer) (dn : Bool) (dch : Nat) (w : Word) :
    (c.sendDone who dn dch w).ty = c.ty := Chip.sendDoneIn_ty ..
@[simp] theorem Chip.sendDoneIn_tz (c : Chip) (p : Nat) (who : Issuer) (dn : Bool) (dch : Nat) (w : Word) :
    (c.sendDoneIn p who dn dch w).tz = c.tz := by unfold Chip.sendDoneIn; split <;> rfl
@[simp] theorem Chip.sendDone_tz (c : Chip) (who : Issuer) (dn : Bool) (dch : Nat) (w : Word) :
    (c.sendDone who dn dch w).tz = c.tz := Chip.sendDoneIn_tz ..
@[simp] theorem Chip.sendDoneIn_ex (c : Chip) (p : Nat) (who : Issuer) (dn : Bool) (dch : Nat) (w : Word) :
    (c.sendDoneIn p who dn dch w).ex = c.ex := by unfold Chip.sendDoneIn; split <;> rfl
@[simp] theorem Chip.sendDone_ex (c : Chip) (who : Issuer) (dn : Bool) (dch : Nat) (w : Word) :
    (c.sendDone who dn dch w).ex = c.ex := Chip.sendDoneIn_ex ..
@[simp] theorem Chip.sendDoneIn_ey (c : Chip) (p : Nat) (who : Issuer) (dn : Bool) (dch : Nat) (w : Word) :
    (c.sendDoneIn p who dn dch w).ey = c.ey := by unfold Chip.sendDoneIn; split <;> rfl
@[simp] theorem Chip.sendDone_ey (c : Chip) (who : Issuer) (dn : Bool) (dch : Nat) (w : Word) :
    (c.sendDone who dn dch w).ey = c.ey := Chip.sendDoneIn_ey ..
@[simp] theorem Chip.sendDoneIn_ez (c : Chip) (p : Nat) (who : Issuer) (dn : Bool) (dch : Nat) (w : Word) :
    (c.sendDoneIn p who dn dch w).ez = c.ez := by unfold Chip.sendDoneIn; split <;> rfl
@[simp] theorem Chip.sendDone_ez (c : Chip) (who : Issuer) (dn : Bool) (dch : Nat) (w : Word) :
    (c.sendDone who dn dch w).ez = c.ez := Chip.sendDoneIn_ez ..
@[simp] theorem Chip.sendDoneIn_lanes (c : Chip) (p : Nat) (who : Issuer) (dn : Bool) (dch : Nat) (w : Word) :
    (c.sendDoneIn p who dn dch w).lanes = c.lanes := by unfold Chip.sendDoneIn; split <;> rfl
@[simp] theorem Chip.sendDone_lanes (c : Chip) (who : Issuer) (dn : Bool) (dch : Nat) (w : Word) :
    (c.sendDone who dn dch w).lanes = c.lanes := Chip.sendDoneIn_lanes ..
@[simp] theorem Chip.sendDoneIn_logq (c : Chip) (p : Nat) (who : Issuer) (dn : Bool) (dch : Nat) (w : Word) :
    (c.sendDoneIn p who dn dch w).logq = c.logq := by unfold Chip.sendDoneIn; split <;> rfl
@[simp] theorem Chip.sendDone_logq (c : Chip) (who : Issuer) (dn : Bool) (dch : Nat) (w : Word) :
    (c.sendDone who dn dch w).logq = c.logq := Chip.sendDoneIn_logq ..
@[simp] theorem Chip.sendDoneIn_sumacq (c : Chip) (p : Nat) (who : Issuer) (dn : Bool) (dch : Nat) (w : Word) :
    (c.sendDoneIn p who dn dch w).sumacq = c.sumacq := by unfold Chip.sendDoneIn; split <;> rfl
@[simp] theorem Chip.sendDone_sumacq (c : Chip) (who : Issuer) (dn : Bool) (dch : Nat) (w : Word) :
    (c.sendDone who dn dch w).sumacq = c.sumacq := Chip.sendDoneIn_sumacq ..

/-! ### A slot -/

@[simp] theorem Slot.bump_core (s : Slot) (sel d : Nat) : (s.bump sel d).core = s.core := rfl
@[simp] theorem Slot.bump_pid (s : Slot) (sel d : Nat) : (s.bump sel d).pid = s.pid := rfl
@[simp] theorem Slot.bump_cfg (s : Slot) (sel d : Nat) : (s.bump sel d).cfg = s.cfg := rfl
@[simp] theorem Slot.bump_mat (s : Slot) (sel d : Nat) : (s.bump sel d).mat = s.mat := rfl
@[simp] theorem Slot.bump_ctx (s : Slot) (sel d : Nat) : (s.bump sel d).ctx = s.ctx := rfl
@[simp] theorem Slot.bump_bounds (s : Slot) (sel d : Nat) : (s.bump sel d).bounds = s.bounds := rfl
@[simp] theorem Slot.bump_tls (s : Slot) (sel d : Nat) : (s.bump sel d).tls = s.tls := rfl
@[simp] theorem Slot.bump_engs (s : Slot) (sel d : Nat) : (s.bump sel d).engs = s.engs := rfl
@[simp] theorem Slot.bump_cps (s : Slot) (sel d : Nat) : (s.bump sel d).cps = s.cps := rfl
@[simp] theorem Slot.bump_bitmap (s : Slot) (sel d : Nat) : (s.bump sel d).bitmap = s.bitmap := rfl
@[simp] theorem Slot.bump_tiles (s : Slot) (sel d : Nat) : (s.bump sel d).tiles = s.tiles := rfl
@[simp] theorem Slot.bump_tables (s : Slot) (sel d : Nat) : (s.bump sel d).tables = s.tables := rfl
@[simp] theorem Slot.bump_tabTaint (s : Slot) (sel d : Nat) : (s.bump sel d).tabTaint = s.tabTaint := rfl
@[simp] theorem Slot.bump_amps (s : Slot) (sel d : Nat) : (s.bump sel d).amps = s.amps := rfl
@[simp] theorem Slot.bump_recs (s : Slot) (sel d : Nat) : (s.bump sel d).recs = s.recs := rfl
@[simp] theorem Slot.bump_outq (s : Slot) (sel d : Nat) : (s.bump sel d).outq = s.outq := rfl
@[simp] theorem Slot.bump_pstate (s : Slot) (sel d : Nat) : (s.bump sel d).pstate = s.pstate := rfl
@[simp] theorem Slot.bump_marks (s : Slot) (sel d : Nat) : (s.bump sel d).marks = s.marks := rfl
@[simp] theorem Slot.bump_stop (s : Slot) (sel d : Nat) : (s.bump sel d).stop = s.stop := rfl
@[simp] theorem Slot.bump_nextAge (s : Slot) (sel d : Nat) : (s.bump sel d).nextAge = s.nextAge := rfl
@[simp] theorem Slot.bump_image (s : Slot) (sel d : Nat) : (s.bump sel d).image = s.image := rfl
@[simp] theorem Slot.bump_waited (s : Slot) (sel d : Nat) : (s.bump sel d).waited = s.waited := rfl
@[simp] theorem Slot.advance_core (s : Slot) (k v : Nat) : (s.advance k v).core = s.core := rfl
@[simp] theorem Slot.advance_pid (s : Slot) (k v : Nat) : (s.advance k v).pid = s.pid := rfl
@[simp] theorem Slot.advance_cfg (s : Slot) (k v : Nat) : (s.advance k v).cfg = s.cfg := rfl
@[simp] theorem Slot.advance_mat (s : Slot) (k v : Nat) : (s.advance k v).mat = s.mat := rfl
@[simp] theorem Slot.advance_ctx (s : Slot) (k v : Nat) : (s.advance k v).ctx = s.ctx := rfl
@[simp] theorem Slot.advance_bounds (s : Slot) (k v : Nat) : (s.advance k v).bounds = s.bounds := rfl
@[simp] theorem Slot.advance_engs (s : Slot) (k v : Nat) : (s.advance k v).engs = s.engs := rfl
@[simp] theorem Slot.advance_cps (s : Slot) (k v : Nat) : (s.advance k v).cps = s.cps := rfl
@[simp] theorem Slot.advance_bitmap (s : Slot) (k v : Nat) : (s.advance k v).bitmap = s.bitmap := rfl
@[simp] theorem Slot.advance_tiles (s : Slot) (k v : Nat) : (s.advance k v).tiles = s.tiles := rfl
@[simp] theorem Slot.advance_tables (s : Slot) (k v : Nat) : (s.advance k v).tables = s.tables := rfl
@[simp] theorem Slot.advance_tabTaint (s : Slot) (k v : Nat) : (s.advance k v).tabTaint = s.tabTaint := rfl
@[simp] theorem Slot.advance_amps (s : Slot) (k v : Nat) : (s.advance k v).amps = s.amps := rfl
@[simp] theorem Slot.advance_recs (s : Slot) (k v : Nat) : (s.advance k v).recs = s.recs := rfl
@[simp] theorem Slot.advance_outq (s : Slot) (k v : Nat) : (s.advance k v).outq = s.outq := rfl
@[simp] theorem Slot.advance_counts (s : Slot) (k v : Nat) : (s.advance k v).counts = s.counts := rfl
@[simp] theorem Slot.advance_pstate (s : Slot) (k v : Nat) : (s.advance k v).pstate = s.pstate := rfl
@[simp] theorem Slot.advance_marks (s : Slot) (k v : Nat) : (s.advance k v).marks = s.marks := rfl
@[simp] theorem Slot.advance_stop (s : Slot) (k v : Nat) : (s.advance k v).stop = s.stop := rfl
@[simp] theorem Slot.advance_nextAge (s : Slot) (k v : Nat) : (s.advance k v).nextAge = s.nextAge := rfl
@[simp] theorem Slot.advance_image (s : Slot) (k v : Nat) : (s.advance k v).image = s.image := rfl
@[simp] theorem Slot.advance_waited (s : Slot) (k v : Nat) : (s.advance k v).waited = s.waited := rfl
@[simp] theorem Slot.setEng_core (s : Slot) (k : Nat) (q : EngineQ) : (s.setEng k q).core = s.core := rfl
@[simp] theorem Slot.setEng_pid (s : Slot) (k : Nat) (q : EngineQ) : (s.setEng k q).pid = s.pid := rfl
@[simp] theorem Slot.setEng_cfg (s : Slot) (k : Nat) (q : EngineQ) : (s.setEng k q).cfg = s.cfg := rfl
@[simp] theorem Slot.setEng_mat (s : Slot) (k : Nat) (q : EngineQ) : (s.setEng k q).mat = s.mat := rfl
@[simp] theorem Slot.setEng_ctx (s : Slot) (k : Nat) (q : EngineQ) : (s.setEng k q).ctx = s.ctx := rfl
@[simp] theorem Slot.setEng_bounds (s : Slot) (k : Nat) (q : EngineQ) : (s.setEng k q).bounds = s.bounds := rfl
@[simp] theorem Slot.setEng_tls (s : Slot) (k : Nat) (q : EngineQ) : (s.setEng k q).tls = s.tls := rfl
@[simp] theorem Slot.setEng_cps (s : Slot) (k : Nat) (q : EngineQ) : (s.setEng k q).cps = s.cps := rfl
@[simp] theorem Slot.setEng_bitmap (s : Slot) (k : Nat) (q : EngineQ) : (s.setEng k q).bitmap = s.bitmap := rfl
@[simp] theorem Slot.setEng_tiles (s : Slot) (k : Nat) (q : EngineQ) : (s.setEng k q).tiles = s.tiles := rfl
@[simp] theorem Slot.setEng_tables (s : Slot) (k : Nat) (q : EngineQ) : (s.setEng k q).tables = s.tables := rfl
@[simp] theorem Slot.setEng_tabTaint (s : Slot) (k : Nat) (q : EngineQ) : (s.setEng k q).tabTaint = s.tabTaint := rfl
@[simp] theorem Slot.setEng_amps (s : Slot) (k : Nat) (q : EngineQ) : (s.setEng k q).amps = s.amps := rfl
@[simp] theorem Slot.setEng_recs (s : Slot) (k : Nat) (q : EngineQ) : (s.setEng k q).recs = s.recs := rfl
@[simp] theorem Slot.setEng_outq (s : Slot) (k : Nat) (q : EngineQ) : (s.setEng k q).outq = s.outq := rfl
@[simp] theorem Slot.setEng_counts (s : Slot) (k : Nat) (q : EngineQ) : (s.setEng k q).counts = s.counts := rfl
@[simp] theorem Slot.setEng_pstate (s : Slot) (k : Nat) (q : EngineQ) : (s.setEng k q).pstate = s.pstate := rfl
@[simp] theorem Slot.setEng_marks (s : Slot) (k : Nat) (q : EngineQ) : (s.setEng k q).marks = s.marks := rfl
@[simp] theorem Slot.setEng_stop (s : Slot) (k : Nat) (q : EngineQ) : (s.setEng k q).stop = s.stop := rfl
@[simp] theorem Slot.setEng_nextAge (s : Slot) (k : Nat) (q : EngineQ) : (s.setEng k q).nextAge = s.nextAge := rfl
@[simp] theorem Slot.setEng_image (s : Slot) (k : Nat) (q : EngineQ) : (s.setEng k q).image = s.image := rfl
@[simp] theorem Slot.setEng_waited (s : Slot) (k : Nat) (q : EngineQ) : (s.setEng k q).waited = s.waited := rfl
@[simp] theorem Slot.modEng_core (s : Slot) (k : Nat) (f : EngineQ → EngineQ) : (s.modEng k f).core = s.core := rfl
@[simp] theorem Slot.modEng_pid (s : Slot) (k : Nat) (f : EngineQ → EngineQ) : (s.modEng k f).pid = s.pid := rfl
@[simp] theorem Slot.modEng_cfg (s : Slot) (k : Nat) (f : EngineQ → EngineQ) : (s.modEng k f).cfg = s.cfg := rfl
@[simp] theorem Slot.modEng_mat (s : Slot) (k : Nat) (f : EngineQ → EngineQ) : (s.modEng k f).mat = s.mat := rfl
@[simp] theorem Slot.modEng_ctx (s : Slot) (k : Nat) (f : EngineQ → EngineQ) : (s.modEng k f).ctx = s.ctx := rfl
@[simp] theorem Slot.modEng_bounds (s : Slot) (k : Nat) (f : EngineQ → EngineQ) : (s.modEng k f).bounds = s.bounds := rfl
@[simp] theorem Slot.modEng_tls (s : Slot) (k : Nat) (f : EngineQ → EngineQ) : (s.modEng k f).tls = s.tls := rfl
@[simp] theorem Slot.modEng_cps (s : Slot) (k : Nat) (f : EngineQ → EngineQ) : (s.modEng k f).cps = s.cps := rfl
@[simp] theorem Slot.modEng_bitmap (s : Slot) (k : Nat) (f : EngineQ → EngineQ) : (s.modEng k f).bitmap = s.bitmap := rfl
@[simp] theorem Slot.modEng_tiles (s : Slot) (k : Nat) (f : EngineQ → EngineQ) : (s.modEng k f).tiles = s.tiles := rfl
@[simp] theorem Slot.modEng_tables (s : Slot) (k : Nat) (f : EngineQ → EngineQ) : (s.modEng k f).tables = s.tables := rfl
@[simp] theorem Slot.modEng_tabTaint (s : Slot) (k : Nat) (f : EngineQ → EngineQ) : (s.modEng k f).tabTaint = s.tabTaint := rfl
@[simp] theorem Slot.modEng_amps (s : Slot) (k : Nat) (f : EngineQ → EngineQ) : (s.modEng k f).amps = s.amps := rfl
@[simp] theorem Slot.modEng_recs (s : Slot) (k : Nat) (f : EngineQ → EngineQ) : (s.modEng k f).recs = s.recs := rfl
@[simp] theorem Slot.modEng_outq (s : Slot) (k : Nat) (f : EngineQ → EngineQ) : (s.modEng k f).outq = s.outq := rfl
@[simp] theorem Slot.modEng_counts (s : Slot) (k : Nat) (f : EngineQ → EngineQ) : (s.modEng k f).counts = s.counts := rfl
@[simp] theorem Slot.modEng_pstate (s : Slot) (k : Nat) (f : EngineQ → EngineQ) : (s.modEng k f).pstate = s.pstate := rfl
@[simp] theorem Slot.modEng_marks (s : Slot) (k : Nat) (f : EngineQ → EngineQ) : (s.modEng k f).marks = s.marks := rfl
@[simp] theorem Slot.modEng_stop (s : Slot) (k : Nat) (f : EngineQ → EngineQ) : (s.modEng k f).stop = s.stop := rfl
@[simp] theorem Slot.modEng_nextAge (s : Slot) (k : Nat) (f : EngineQ → EngineQ) : (s.modEng k f).nextAge = s.nextAge := rfl
@[simp] theorem Slot.modEng_image (s : Slot) (k : Nat) (f : EngineQ → EngineQ) : (s.modEng k f).image = s.image := rfl
@[simp] theorem Slot.modEng_waited (s : Slot) (k : Nat) (f : EngineQ → EngineQ) : (s.modEng k f).waited = s.waited := rfl
@[simp] theorem Slot.setCp_core (s : Slot) (n : Nat) (x : CopyCh) : (s.setCp n x).core = s.core := rfl
@[simp] theorem Slot.setCp_pid (s : Slot) (n : Nat) (x : CopyCh) : (s.setCp n x).pid = s.pid := rfl
@[simp] theorem Slot.setCp_cfg (s : Slot) (n : Nat) (x : CopyCh) : (s.setCp n x).cfg = s.cfg := rfl
@[simp] theorem Slot.setCp_mat (s : Slot) (n : Nat) (x : CopyCh) : (s.setCp n x).mat = s.mat := rfl
@[simp] theorem Slot.setCp_ctx (s : Slot) (n : Nat) (x : CopyCh) : (s.setCp n x).ctx = s.ctx := rfl
@[simp] theorem Slot.setCp_bounds (s : Slot) (n : Nat) (x : CopyCh) : (s.setCp n x).bounds = s.bounds := rfl
@[simp] theorem Slot.setCp_tls (s : Slot) (n : Nat) (x : CopyCh) : (s.setCp n x).tls = s.tls := rfl
@[simp] theorem Slot.setCp_engs (s : Slot) (n : Nat) (x : CopyCh) : (s.setCp n x).engs = s.engs := rfl
@[simp] theorem Slot.setCp_bitmap (s : Slot) (n : Nat) (x : CopyCh) : (s.setCp n x).bitmap = s.bitmap := rfl
@[simp] theorem Slot.setCp_tiles (s : Slot) (n : Nat) (x : CopyCh) : (s.setCp n x).tiles = s.tiles := rfl
@[simp] theorem Slot.setCp_tables (s : Slot) (n : Nat) (x : CopyCh) : (s.setCp n x).tables = s.tables := rfl
@[simp] theorem Slot.setCp_tabTaint (s : Slot) (n : Nat) (x : CopyCh) : (s.setCp n x).tabTaint = s.tabTaint := rfl
@[simp] theorem Slot.setCp_amps (s : Slot) (n : Nat) (x : CopyCh) : (s.setCp n x).amps = s.amps := rfl
@[simp] theorem Slot.setCp_recs (s : Slot) (n : Nat) (x : CopyCh) : (s.setCp n x).recs = s.recs := rfl
@[simp] theorem Slot.setCp_outq (s : Slot) (n : Nat) (x : CopyCh) : (s.setCp n x).outq = s.outq := rfl
@[simp] theorem Slot.setCp_counts (s : Slot) (n : Nat) (x : CopyCh) : (s.setCp n x).counts = s.counts := rfl
@[simp] theorem Slot.setCp_pstate (s : Slot) (n : Nat) (x : CopyCh) : (s.setCp n x).pstate = s.pstate := rfl
@[simp] theorem Slot.setCp_marks (s : Slot) (n : Nat) (x : CopyCh) : (s.setCp n x).marks = s.marks := rfl
@[simp] theorem Slot.setCp_stop (s : Slot) (n : Nat) (x : CopyCh) : (s.setCp n x).stop = s.stop := rfl
@[simp] theorem Slot.setCp_nextAge (s : Slot) (n : Nat) (x : CopyCh) : (s.setCp n x).nextAge = s.nextAge := rfl
@[simp] theorem Slot.setCp_image (s : Slot) (n : Nat) (x : CopyCh) : (s.setCp n x).image = s.image := rfl
@[simp] theorem Slot.setCp_waited (s : Slot) (n : Nat) (x : CopyCh) : (s.setCp n x).waited = s.waited := rfl

/-! ### A partition, a frame, an instance, memory -/

@[simp] theorem Part.setReg_pid (p : Part) (n : Nat) (v : Word) (t : Bool) : (p.setReg n v t).pid = p.pid := rfl
@[simp] theorem Part.setReg_part (p : Part) (n : Nat) (v : Word) (t : Bool) : (p.setReg n v t).part = p.part := rfl
@[simp] theorem Part.setReg_slot (p : Part) (n : Nat) (v : Word) (t : Bool) : (p.setReg n v t).slot = p.slot := rfl
@[simp] theorem Part.setReg_ox (p : Part) (n : Nat) (v : Word) (t : Bool) : (p.setReg n v t).ox = p.ox := rfl
@[simp] theorem Part.setReg_oy (p : Part) (n : Nat) (v : Word) (t : Bool) : (p.setReg n v t).oy = p.oy := rfl
@[simp] theorem Part.setReg_w (p : Part) (n : Nat) (v : Word) (t : Bool) : (p.setReg n v t).w = p.w := rfl
@[simp] theorem Part.setReg_h (p : Part) (n : Nat) (v : Word) (t : Bool) : (p.setReg n v t).h = p.h := rfl
@[simp] theorem Part.setReg_mgr (p : Part) (n : Nat) (v : Word) (t : Bool) : (p.setReg n v t).mgr = p.mgr := rfl
@[simp] theorem Part.setReg_wrapKey (p : Part) (n : Nat) (v : Word) (t : Bool) : (p.setReg n v t).wrapKey = p.wrapKey := rfl
@[simp] theorem Part.setReg_ranges (p : Part) (n : Nat) (v : Word) (t : Bool) : (p.setReg n v t).ranges = p.ranges := rfl
@[simp] theorem Part.setReg_launches (p : Part) (n : Nat) (v : Word) (t : Bool) : (p.setReg n v t).launches = p.launches := rfl
@[simp] theorem Part.setReg_nextLid (p : Part) (n : Nat) (v : Word) (t : Bool) : (p.setReg n v t).nextLid = p.nextLid := rfl
@[simp] theorem Part.setReg_cfgq (p : Part) (n : Nat) (v : Word) (t : Bool) : (p.setReg n v t).cfgq = p.cfgq := rfl
@[simp] theorem Part.setReg_pends (p : Part) (n : Nat) (v : Word) (t : Bool) : (p.setReg n v t).pends = p.pends := rfl
@[simp] theorem Part.setReg_nextPend (p : Part) (n : Nat) (v : Word) (t : Bool) : (p.setReg n v t).nextPend = p.nextPend := rfl
@[simp] theorem Part.setReg_comms (p : Part) (n : Nat) (v : Word) (t : Bool) : (p.setReg n v t).comms = p.comms := rfl
@[simp] theorem Part.setReg_meas (p : Part) (n : Nat) (v : Word) (t : Bool) : (p.setReg n v t).meas = p.meas := rfl
@[simp] theorem Part.setLaunch_pid (p : Part) (l : Launch) : (p.setLaunch l).pid = p.pid := rfl
@[simp] theorem Part.setLaunch_part (p : Part) (l : Launch) : (p.setLaunch l).part = p.part := rfl
@[simp] theorem Part.setLaunch_slot (p : Part) (l : Launch) : (p.setLaunch l).slot = p.slot := rfl
@[simp] theorem Part.setLaunch_ox (p : Part) (l : Launch) : (p.setLaunch l).ox = p.ox := rfl
@[simp] theorem Part.setLaunch_oy (p : Part) (l : Launch) : (p.setLaunch l).oy = p.oy := rfl
@[simp] theorem Part.setLaunch_w (p : Part) (l : Launch) : (p.setLaunch l).w = p.w := rfl
@[simp] theorem Part.setLaunch_h (p : Part) (l : Launch) : (p.setLaunch l).h = p.h := rfl
@[simp] theorem Part.setLaunch_mgr (p : Part) (l : Launch) : (p.setLaunch l).mgr = p.mgr := rfl
@[simp] theorem Part.setLaunch_wrapKey (p : Part) (l : Launch) : (p.setLaunch l).wrapKey = p.wrapKey := rfl
@[simp] theorem Part.setLaunch_regs (p : Part) (l : Launch) : (p.setLaunch l).regs = p.regs := rfl
@[simp] theorem Part.setLaunch_rtaint (p : Part) (l : Launch) : (p.setLaunch l).rtaint = p.rtaint := rfl
@[simp] theorem Part.setLaunch_ranges (p : Part) (l : Launch) : (p.setLaunch l).ranges = p.ranges := rfl
@[simp] theorem Part.setLaunch_nextLid (p : Part) (l : Launch) : (p.setLaunch l).nextLid = p.nextLid := rfl
@[simp] theorem Part.setLaunch_cfgq (p : Part) (l : Launch) : (p.setLaunch l).cfgq = p.cfgq := rfl
@[simp] theorem Part.setLaunch_pends (p : Part) (l : Launch) : (p.setLaunch l).pends = p.pends := rfl
@[simp] theorem Part.setLaunch_nextPend (p : Part) (l : Launch) : (p.setLaunch l).nextPend = p.nextPend := rfl
@[simp] theorem Part.setLaunch_comms (p : Part) (l : Launch) : (p.setLaunch l).comms = p.comms := rfl
@[simp] theorem Part.setLaunch_meas (p : Part) (l : Launch) : (p.setLaunch l).meas = p.meas := rfl
@[simp] theorem Frame.setCell_addr (f : Frame) (k : Nat) (x : Cell) : (f.setCell k x).addr = f.addr := rfl
@[simp] theorem Frame.setCell_hdr (f : Frame) (k : Nat) (x : Cell) : (f.setCell k x).hdr = f.hdr := rfl
@[simp] theorem Frame.setCell_words (f : Frame) (k : Nat) (x : Cell) : (f.setCell k x).words = f.words := rfl
@[simp] theorem Frame.setCell_loads (f : Frame) (k : Nat) (x : Cell) : (f.setCell k x).loads = f.loads := rfl
@[simp] theorem Frame.setCell_waits (f : Frame) (k : Nat) (x : Cell) : (f.setCell k x).waits = f.waits := rfl
@[simp] theorem Frame.setCell_writes (f : Frame) (k : Nat) (x : Cell) : (f.setCell k x).writes = f.writes := rfl
@[simp] theorem Frame.setCell_resolved (f : Frame) (k : Nat) (x : Cell) : (f.setCell k x).resolved = f.resolved := rfl
@[simp] theorem Frame.setCell_acts (f : Frame) (k : Nat) (x : Cell) : (f.setCell k x).acts = f.acts := rfl
@[simp] theorem Frame.setCell_branch (f : Frame) (k : Nat) (x : Cell) : (f.setCell k x).branch = f.branch := rfl
@[simp] theorem Frame.setCell_flags (f : Frame) (k : Nat) (x : Cell) : (f.setCell k x).flags = f.flags := rfl
@[simp] theorem Frame.setCell_fpTaint (f : Frame) (k : Nat) (x : Cell) : (f.setCell k x).fpTaint = f.fpTaint := rfl
@[simp] theorem Frame.setCell_marks (f : Frame) (k : Nat) (x : Cell) : (f.setCell k x).marks = f.marks := rfl
@[simp] theorem Frame.setCell_seen (f : Frame) (k : Nat) (x : Cell) : (f.setCell k x).seen = f.seen := rfl
@[simp] theorem Frame.setCell_now (f : Frame) (k : Nat) (x : Cell) : (f.setCell k x).now = f.now := rfl
@[simp] theorem Frame.setCell_div (f : Frame) (k : Nat) (x : Cell) : (f.setCell k x).div = f.div := rfl
@[simp] theorem Frame.setCell_last (f : Frame) (k : Nat) (x : Cell) : (f.setCell k x).last = f.last := rfl
@[simp] theorem Frame.setCell_arrival (f : Frame) (k : Nat) (x : Cell) : (f.setCell k x).arrival = f.arrival := rfl
@[simp] theorem Frame.setCell_clash (f : Frame) (k : Nat) (x : Cell) : (f.setCell k x).clash = f.clash := rfl
@[simp] theorem Frame.issue_addr (f : Frame) (k : Nat) : (f.issue k).addr = f.addr := rfl
@[simp] theorem Frame.issue_hdr (f : Frame) (k : Nat) : (f.issue k).hdr = f.hdr := rfl
@[simp] theorem Frame.issue_words (f : Frame) (k : Nat) : (f.issue k).words = f.words := rfl
@[simp] theorem Frame.issue_loads (f : Frame) (k : Nat) : (f.issue k).loads = f.loads := rfl
@[simp] theorem Frame.issue_waits (f : Frame) (k : Nat) : (f.issue k).waits = f.waits := rfl
@[simp] theorem Frame.issue_writes (f : Frame) (k : Nat) : (f.issue k).writes = f.writes := rfl
@[simp] theorem Frame.issue_resolved (f : Frame) (k : Nat) : (f.issue k).resolved = f.resolved := rfl
@[simp] theorem Frame.issue_acts (f : Frame) (k : Nat) : (f.issue k).acts = f.acts := rfl
@[simp] theorem Frame.issue_branch (f : Frame) (k : Nat) : (f.issue k).branch = f.branch := rfl
@[simp] theorem Frame.issue_flags (f : Frame) (k : Nat) : (f.issue k).flags = f.flags := rfl
@[simp] theorem Frame.issue_fpTaint (f : Frame) (k : Nat) : (f.issue k).fpTaint = f.fpTaint := rfl
@[simp] theorem Frame.issue_marks (f : Frame) (k : Nat) : (f.issue k).marks = f.marks := rfl
@[simp] theorem Frame.issue_seen (f : Frame) (k : Nat) : (f.issue k).seen = f.seen := rfl
@[simp] theorem Frame.issue_clash (f : Frame) (k : Nat) : (f.issue k).clash = f.clash := rfl
@[simp] theorem Frame.async_addr (f : Frame) : f.async.addr = f.addr := rfl
@[simp] theorem Frame.async_hdr (f : Frame) : f.async.hdr = f.hdr := rfl
@[simp] theorem Frame.async_words (f : Frame) : f.async.words = f.words := rfl
@[simp] theorem Frame.async_cells (f : Frame) : f.async.cells = f.cells := rfl
@[simp] theorem Frame.async_loads (f : Frame) : f.async.loads = f.loads := rfl
@[simp] theorem Frame.async_waits (f : Frame) : f.async.waits = f.waits := rfl
@[simp] theorem Frame.async_writes (f : Frame) : f.async.writes = f.writes := rfl
@[simp] theorem Frame.async_resolved (f : Frame) : f.async.resolved = f.resolved := rfl
@[simp] theorem Frame.async_acts (f : Frame) : f.async.acts = f.acts := rfl
@[simp] theorem Frame.async_branch (f : Frame) : f.async.branch = f.branch := rfl
@[simp] theorem Frame.async_flags (f : Frame) : f.async.flags = f.flags := rfl
@[simp] theorem Frame.async_fpTaint (f : Frame) : f.async.fpTaint = f.fpTaint := rfl
@[simp] theorem Frame.async_marks (f : Frame) : f.async.marks = f.marks := rfl
@[simp] theorem Frame.async_seen (f : Frame) : f.async.seen = f.seen := rfl
@[simp] theorem Frame.async_now (f : Frame) : f.async.now = f.now := rfl
@[simp] theorem Frame.async_div (f : Frame) : f.async.div = f.div := rfl
@[simp] theorem Frame.async_last (f : Frame) : f.async.last = f.last := rfl
@[simp] theorem Frame.async_clash (f : Frame) : f.async.clash = f.clash := rfl
@[simp] theorem Inst.issued_iid (i : Inst) : (i.issued).iid = i.iid := rfl
@[simp] theorem Inst.issued_core (i : Inst) : (i.issued).core = i.core := rfl
@[simp] theorem Inst.issued_pid (i : Inst) : (i.issued).pid = i.pid := rfl
@[simp] theorem Inst.issued_lid (i : Inst) : (i.issued).lid = i.lid := rfl
@[simp] theorem Inst.issued_chan (i : Inst) : (i.issued).chan = i.chan := rfl
@[simp] theorem Inst.issued_tag (i : Inst) : (i.issued).tag = i.tag := rfl
@[simp] theorem Inst.issued_plane (i : Inst) : (i.issued).plane = i.plane := rfl
@[simp] theorem Inst.issued_args (i : Inst) : (i.issued).args = i.args := rfl
@[simp] theorem Inst.issued_regs (i : Inst) : (i.issued).regs = i.regs := rfl
@[simp] theorem Inst.issued_fpc (i : Inst) : (i.issued).fpc = i.fpc := rfl
@[simp] theorem Inst.issued_slice (i : Inst) : (i.issued).slice = i.slice := rfl
@[simp] theorem Inst.issued_block (i : Inst) : (i.issued).block = i.block := rfl
@[simp] theorem Inst.issued_entry (i : Inst) : (i.issued).entry = i.entry := rfl
@[simp] theorem Inst.issued_cls (i : Inst) : (i.issued).cls = i.cls := rfl
@[simp] theorem Inst.issued_aging (i : Inst) : (i.issued).aging = i.aging := rfl
@[simp] theorem Inst.issued_age (i : Inst) : (i.issued).age = i.age := rfl
@[simp] theorem Inst.issued_recalled (i : Inst) : (i.issued).recalled = i.recalled := rfl
@[simp] theorem Inst.issued_state (i : Inst) : (i.issued).state = i.state := rfl
@[simp] theorem Inst.issued_frame (i : Inst) : (i.issued).frame = i.frame := rfl
@[simp] theorem Inst.issued_creator (i : Inst) : (i.issued).creator = i.creator := rfl
@[simp] theorem Inst.issued_deferred (i : Inst) : (i.issued).deferred = i.deferred := rfl
@[simp] theorem Inst.issued_held (i : Inst) : (i.issued).held = i.held := rfl
@[simp] theorem Inst.issued_handle (i : Inst) : (i.issued).handle = i.handle := rfl
@[simp] theorem Inst.issued_holds (i : Inst) : (i.issued).holds = i.holds := rfl
@[simp] theorem Inst.issued_brkOff (i : Inst) : (i.issued).brkOff = i.brkOff := rfl
@[simp] theorem Inst.issued_wasBrk (i : Inst) : (i.issued).wasBrk = i.wasBrk := rfl
@[simp] theorem Inst.issued_recPlace (i : Inst) : (i.issued).recPlace = i.recPlace := rfl
@[simp] theorem Mem.set_taint (m : Mem) (a : Nat) (b : Byte) : (m.set a b).taint = m.taint := rfl
@[simp] theorem Mem.set_poison (m : Mem) (a : Nat) (b : Byte) : (m.set a b).poison = m.poison := rfl
@[simp] theorem Mem.set_keyed (m : Mem) (a : Nat) (b : Byte) : (m.set a b).keyed = m.keyed := rfl
@[simp] theorem Mem.set_wrote (m : Mem) (a : Nat) (b : Byte) : (m.set a b).wrote = m.wrote := rfl
@[simp] theorem Mem.note_taint (m : Mem) (a n : Nat) : (m.note a n).taint = m.taint := rfl
@[simp] theorem Mem.note_poison (m : Mem) (a n : Nat) : (m.note a n).poison = m.poison := rfl
@[simp] theorem Mem.note_keyed (m : Mem) (a n : Nat) : (m.note a n).keyed = m.keyed := rfl
@[simp] theorem Chip.readCycle_parts (c : Chip) (core : Nat) : (c.readCycle core).2.parts = c.parts := rfl
@[simp] theorem Chip.readCycle_slots (c : Chip) (core : Nat) : (c.readCycle core).2.slots = c.slots := rfl
@[simp] theorem Chip.readCycle_insts (c : Chip) (core : Nat) : (c.readCycle core).2.insts = c.insts := rfl
@[simp] theorem Chip.readCycle_nextIid (c : Chip) (core : Nat) : (c.readCycle core).2.nextIid = c.nextIid := rfl
@[simp] theorem Chip.readCycle_towers (c : Chip) (core : Nat) : (c.readCycle core).2.towers = c.towers := rfl
@[simp] theorem Chip.readCycle_mem (c : Chip) (core : Nat) : (c.readCycle core).2.mem = c.mem := rfl
@[simp] theorem Chip.readCycle_l2first (c : Chip) (core : Nat) : (c.readCycle core).2.l2first = c.l2first := rfl
@[simp] theorem Chip.readCycle_tlb (c : Chip) (core : Nat) : (c.readCycle core).2.tlb = c.tlb := rfl
@[simp] theorem Chip.readCycle_scq (c : Chip) (core : Nat) : (c.readCycle core).2.scq = c.scq := rfl
@[simp] theorem Chip.readCycle_scAt (c : Chip) (core : Nat) : (c.readCycle core).2.scAt = c.scAt := rfl
@[simp] theorem Chip.readCycle_flights (c : Chip) (core : Nat) : (c.readCycle core).2.flights = c.flights := rfl
@[simp] theorem Chip.readCycle_vals (c : Chip) (core : Nat) : (c.readCycle core).2.vals = c.vals := rfl
@[simp] theorem Chip.readCycle_waiting (c : Chip) (core : Nat) : (c.readCycle core).2.waiting = c.waiting := rfl
@[simp] theorem Chip.readCycle_creds (c : Chip) (core : Nat) : (c.readCycle core).2.creds = c.creds := rfl
@[simp] theorem Chip.readCycle_credSeen (c : Chip) (core : Nat) : (c.readCycle core).2.credSeen = c.credSeen := rfl
@[simp] theorem Chip.readCycle_contribs (c : Chip) (core : Nat) : (c.readCycle core).2.contribs = c.contribs := rfl
@[simp] theorem Chip.readCycle_keys (c : Chip) (core : Nat) : (c.readCycle core).2.keys = c.keys := rfl
@[simp] theorem Chip.readCycle_tx (c : Chip) (core : Nat) : (c.readCycle core).2.tx = c.tx := rfl
@[simp] theorem Chip.readCycle_ty (c : Chip) (core : Nat) : (c.readCycle core).2.ty = c.ty := rfl
@[simp] theorem Chip.readCycle_tz (c : Chip) (core : Nat) : (c.readCycle core).2.tz = c.tz := rfl
@[simp] theorem Chip.readCycle_ex (c : Chip) (core : Nat) : (c.readCycle core).2.ex = c.ex := rfl
@[simp] theorem Chip.readCycle_ey (c : Chip) (core : Nat) : (c.readCycle core).2.ey = c.ey := rfl
@[simp] theorem Chip.readCycle_ez (c : Chip) (core : Nat) : (c.readCycle core).2.ez = c.ez := rfl
@[simp] theorem Chip.readCycle_lanes (c : Chip) (core : Nat) : (c.readCycle core).2.lanes = c.lanes := rfl
@[simp] theorem Chip.readCycle_logq (c : Chip) (core : Nat) : (c.readCycle core).2.logq = c.logq := rfl
@[simp] theorem Chip.readCycle_sumacq (c : Chip) (core : Nat) : (c.readCycle core).2.sumacq = c.sumacq := rfl

end Sys2Proof.Machine
end

