-- ==== Sys2Proof/Laws/Lookup.lean ====
section
/-! SUPPORT. Reading a record after an update: the record written is the one read, every other record is as before. -/

namespace Sys2Proof.Machine

/-! ### Lists as stores -/

theorem find?_upsert_self {p : α → Bool} {x : α} (hx : p x = true) (l : List α) : (upsert p x l).find? p = some x := by
  induction l with
  | nil => simp [upsert, hx]
  | cons y t ih =>
    unfold upsert
    split
    · simp [hx]
    · next h => simp [h, ih]

theorem find?_upsert_other {p q : α → Bool} {x : α} (hx : q x = false) (hpq : ∀ y, p y = true → q y = false) (l : List α) :
    (upsert p x l).find? q = l.find? q := by
  induction l with
  | nil => simp [upsert, hx]
  | cons y t ih =>
    unfold upsert
    split
    · next h => simp [hx, hpq y h]
    · simp [List.find?_cons, ih]

/-- An element is found again after those that satisfy `p` are changed, where the change keeps what is looked for. -/
theorem find?_mapIf {p q : α → Bool} {f : α → α} (hq : ∀ y, p y = true → q (f y) = q y) (l : List α) :
    (mapIf p f l).find? q = (l.find? q).map fun y => if p y then f y else y := by
  induction l with
  | nil => rfl
  | cons y t ih =>
    have hy : q (if p y then f y else y) = q y := by split <;> simp_all
    unfold mapIf at ih ⊢
    rw [List.map_cons, List.find?_cons, List.find?_cons, hy]
    cases q y <;> simp [ih]

theorem mapIf_mapIf_const {p : α → Bool} {x : α} (hx : p x = true) (g : α → α) (l : List α) :
    mapIf p g (mapIf p (fun _ => x) l) = mapIf p (fun _ => g x) l := by
  unfold mapIf
  rw [List.map_map]
  refine List.map_congr_left fun y _ => ?_
  simp only [Function.comp]
  split <;> simp_all

/-! ### Instances -/

theorem Chip.inst?_iid {c : Chip} {iid : Nat} {i : Inst} (h : c.inst? iid = some i) : i.iid = iid := by
  simpa using List.find?_some h

@[simp] theorem Chip.inst?_setInst_self {c : Chip} {i j : Inst} (h : c.inst? i.iid = some j) : (c.setInst i).inst? i.iid = some i := by
  unfold Chip.inst? Chip.setInst at *
  rw [find?_mapIf (by simp)]
  have := List.find?_some h
  simp [h]
  intro hne
  simp_all

theorem Chip.inst?_setInst_other {c : Chip} {i : Inst} {k : Nat} (h : k ≠ i.iid) : (c.setInst i).inst? k = c.inst? k := by
  unfold Chip.inst? Chip.setInst
  rw [find?_mapIf (by intro y hy; simp at hy; simp [hy])]
  cases hf : c.insts.find? fun j => j.iid == k with
  | none => rfl
  | some y =>
    have hy := List.find?_some hf
    simp at hy
    simp only [Option.map_some, Option.some.injEq, ite_eq_right_iff]
    intro h'
    simp at h'
    omega

theorem Chip.inst?_modInst_self {c : Chip} {k : Nat} {i : Inst} {f : Inst → Inst} (hk : ∀ j, (f j).iid = j.iid)
    (h : c.inst? k = some i) : (c.modInst k f).inst? k = some (f i) := by
  unfold Chip.inst? Chip.modInst at *
  rw [find?_mapIf (by intro y _; simp [hk])]
  have := List.find?_some h
  simp_all

theorem Chip.inst?_modInst_other {c : Chip} {k n : Nat} {f : Inst → Inst} (hk : ∀ j, (f j).iid = j.iid) (h : n ≠ k) :
    (c.modInst k f).inst? n = c.inst? n := by
  unfold Chip.inst? Chip.modInst
  rw [find?_mapIf (by intro y _; simp [hk])]
  cases hf : c.insts.find? fun j => j.iid == n with
  | none => rfl
  | some y =>
    have hy := List.find?_some hf
    simp at hy
    simp only [Option.map_some, Option.some.injEq, ite_eq_right_iff]
    intro h'
    simp at h'
    omega

theorem Chip.inst_of_inst? {c : Chip} {k : Nat} {i : Inst} (h : c.inst? k = some i) : c.inst k = i := by
  unfold Chip.inst
  rw [h]
  rfl

/-- Setting the frame of an instance that has just been written is writing it with that frame. -/
theorem Chip.setFrame_setInst (c : Chip) (i : Inst) (f : Frame) :
    (c.setInst i).setFrame i.iid f = c.setInst { i with frame := some f } := by
  unfold Chip.setFrame Chip.modInst Chip.setInst
  simp only
  rw [mapIf_mapIf_const (by simp)]

theorem Chip.setInst_setInst (c : Chip) (i j : Inst) (h : j.iid = i.iid) : (c.setInst i).setInst j = c.setInst j := by
  unfold Chip.setInst
  simp only [h]
  rw [mapIf_mapIf_const (by simp)]

theorem Chip.modInst_setInst (c : Chip) (i : Inst) (g : Inst → Inst) (h : (g i).iid = i.iid) :
    (c.setInst i).modInst i.iid g = c.setInst (g i) := by
  unfold Chip.modInst Chip.setInst
  simp only [h]
  rw [mapIf_mapIf_const (by simp)]

@[simp] theorem Chip.inst_setInst_self {c : Chip} {i j : Inst} (h : c.inst? i.iid = some j) : (c.setInst i).inst i.iid = i :=
  Chip.inst_of_inst? (Chip.inst?_setInst_self h)

/-! ### Slots, partitions, cores, towers -/

@[simp] theorem Chip.slot_setSlot_self (c : Chip) (s : Slot) : (c.setSlot s).slot s.core s.pid = s := by
  unfold Chip.slot Chip.setSlot
  rw [find?_upsert_self (by simp)]
  rfl

theorem Chip.slot_setSlot_other (c : Chip) (s : Slot) {k n : Nat} (h : k ≠ s.core ∨ n ≠ s.pid) : (c.setSlot s).slot k n = c.slot k n := by
  unfold Chip.slot Chip.setSlot
  rw [find?_upsert_other]
  · simp; omega
  · intro y hy
    simp at hy ⊢
    omega

/-- The record that a lookup answers carries the key it was looked up by. -/
theorem Chip.slot_key (c : Chip) (k n : Nat) : (c.slot k n).core = k ∧ (c.slot k n).pid = n := by
  unfold Chip.slot
  cases h : c.slots.find? fun s => s.core == k && s.pid == n with
  | none => exact ⟨rfl, rfl⟩
  | some s => simpa using List.find?_some h

@[simp] theorem Chip.slot_modSlot_self (c : Chip) (k n : Nat) (f : Slot → Slot)
    (h : (f (c.slot k n)).core = k ∧ (f (c.slot k n)).pid = n) : (c.modSlot k n f).slot k n = f (c.slot k n) := by
  unfold Chip.modSlot
  have := Chip.slot_setSlot_self c (f (c.slot k n))
  rwa [h.1, h.2] at this

@[simp] theorem Chip.part_setPart_self (c : Chip) (p : Part) : (c.setPart p).part p.pid = p := by
  unfold Chip.part Chip.setPart
  rw [find?_upsert_self (by simp)]
  rfl

theorem Chip.part_setPart_other (c : Chip) (p : Part) {n : Nat} (h : n ≠ p.pid) : (c.setPart p).part n = c.part n := by
  unfold Chip.part Chip.setPart
  rw [find?_upsert_other]
  · simp; omega
  · intro y hy
    simp at hy ⊢
    omega

theorem Chip.part_pid (c : Chip) (n : Nat) : (c.part n).pid = n := by
  unfold Chip.part
  cases h : c.parts.find? fun p => p.pid == n with
  | none => rfl
  | some p => simpa using List.find?_some h

@[simp] theorem Chip.coreSt_setCore_self (c : Chip) (k : Core) : (c.setCore k).coreSt k.id = k := by
  unfold Chip.coreSt Chip.setCore
  rw [find?_upsert_self (by simp)]
  rfl

theorem Chip.coreSt_setCore_other (c : Chip) (k : Core) {n : Nat} (h : n ≠ k.id) : (c.setCore k).coreSt n = c.coreSt n := by
  unfold Chip.coreSt Chip.setCore
  rw [find?_upsert_other]
  · simp; omega
  · intro y hy
    simp at hy ⊢
    omega

@[simp] theorem Chip.tower_setTower_self (c : Chip) (t : Tower) : (c.setTower t).tower t.id = t := by
  unfold Chip.tower Chip.setTower
  rw [find?_upsert_self (by simp)]
  rfl

/-! ### Timelines -/

/-- A timeline never goes back (R210). -/
theorem Slot.tl_advance_le (s : Slot) (k v : Nat) (hv : v < 2 ^ 64) : s.tl k ≤ (s.advance k v).tl k := by
  unfold Slot.tl Slot.advance
  unfold Vector.getD
  by_cases hk : k < 16
  · have hlt := (s.tls[k]).isLt
    simp [hk]
    rw [Nat.mod_eq_of_lt (by omega)]
    omega
  · simp [hk]

end Sys2Proof.Machine
end

