-- ==== Sys2Proof/Laws/Memory.lean ====
section
/-! SUPPORT. Memory: a byte read is the byte last stored there, a store leaves every other byte alone, and every operation keeps the
canonical form of `Mem.wf`. -/

namespace Sys2Proof.Machine

/-! ### One byte -/

theorem cellsOk_iff (l : List Host.Cell) : cellsOk l = true ↔ l.Pairwise (fun x y => x.1 < y.1) ∧ ∀ x ∈ l, x.2 ≠ 0 := by
  induction l with
  | nil => simp [cellsOk]
  | cons c t ih =>
    cases t with
    | nil => simp [cellsOk]
    | cons d t =>
      simp only [cellsOk, Bool.and_eq_true, ih, bne_iff_ne, decide_eq_true_eq, List.pairwise_cons, List.mem_cons, forall_eq_or_imp]
      constructor
      · rintro ⟨⟨h0, hlt⟩, ⟨hd, hp⟩, hz⟩
        exact ⟨⟨⟨hlt, fun x hx => Nat.lt_trans hlt (hd x hx)⟩, hd, hp⟩, h0, hz⟩
      · rintro ⟨⟨⟨hlt, _⟩, hd, hp⟩, h0, hz⟩
        exact ⟨⟨h0, hlt⟩, ⟨hd, hp⟩, hz⟩

theorem mem_setCell {a : Nat} {b : Byte} {x : Host.Cell} {l : List Host.Cell} (h : x ∈ setCell a b l) :
    (x = (a, b) ∧ b ≠ 0) ∨ x ∈ l := by
  induction l with
  | nil => unfold setCell at h; split at h <;> simp_all
  | cons c t ih =>
    unfold setCell at h
    split at h
    · split at h <;> simp_all
    · split at h
      · split at h
        · exact .inr (.tail _ h)
        · rcases List.mem_cons.mp h with h | h
          · exact .inl ⟨h, ‹_›⟩
          · exact .inr (.tail _ h)
      · rcases List.mem_cons.mp h with h | h
        · exact .inr (h ▸ .head _)
        · exact (ih h).imp id (.tail _)

/-- Storing a byte keeps the canonical form. -/
theorem cellsOk_setCell {l : List Host.Cell} (a : Nat) (b : Byte) (h : cellsOk l = true) : cellsOk (setCell a b l) = true := by
  rw [cellsOk_iff] at h ⊢
  refine ⟨?_, fun x hx => ?_⟩
  · obtain ⟨hp, -⟩ := h
    induction l with
    | nil => unfold setCell; split <;> simp
    | cons c t ih =>
      obtain ⟨hc, ht⟩ := List.pairwise_cons.mp hp
      unfold setCell
      split
      · next hlt =>
        split
        · exact hp
        · exact List.pairwise_cons.mpr ⟨fun y hy => by
            rcases List.mem_cons.mp hy with hy | hy
            · exact hy ▸ hlt
            · exact Nat.lt_trans hlt (hc y hy), hp⟩
      · split
        · next heq =>
          split
          · exact ht
          · exact List.pairwise_cons.mpr ⟨fun y hy => by simpa [heq] using hc y hy, ht⟩
        · refine List.pairwise_cons.mpr ⟨fun y hy => ?_, ih ht⟩
          rcases mem_setCell hy with ⟨rfl, -⟩ | hy
          · simp only
            omega
          · exact hc y hy
  · rcases mem_setCell hx with ⟨rfl, hb⟩ | hx
    · exact hb
    · exact h.2 x hx

/-- In a list whose first location lies above `a`, `a` reads as unlisted. -/
theorem getCell_below {a : Nat} {l : List Host.Cell} (h : ∀ x ∈ l, a < x.1) : getCell a l = 0 := by
  induction l with
  | nil => rfl
  | cons c t ih =>
    have hc := h c (.head _)
    simp only [getCell]
    rw [if_neg (by omega)]
    exact ih fun x hx => h x (.tail _ hx)

/-- The byte stored is the byte read. -/
theorem getCell_setCell_self {l : List Host.Cell} (a : Nat) (b : Byte) (h : cellsOk l = true) : getCell a (setCell a b l) = b := by
  replace h := (cellsOk_iff l).mp h |>.1
  induction l with
  | nil => unfold setCell; split <;> simp_all [getCell]
  | cons c t ih =>
    obtain ⟨hc, ht⟩ := List.pairwise_cons.mp h
    unfold setCell
    split
    · next hlt =>
      split
      · next hb =>
        rw [hb]
        refine getCell_below fun x hx => ?_
        rcases List.mem_cons.mp hx with hx | hx
        · exact hx ▸ hlt
        · exact Nat.lt_trans hlt (hc x hx)
      · simp [getCell]
    · split
      · next heq =>
        split
        · next hb => rw [hb]; exact getCell_below fun x hx => by simpa [heq] using hc x hx
        · simp [getCell]
      · next h1 h2 =>
        simp only [getCell]
        rw [if_neg (by omega)]
        exact ih ht

/-- A store leaves every other byte alone. -/
theorem getCell_setCell_other {a x : Nat} (b : Byte) (l : List Host.Cell) (h : x ≠ a) : getCell x (setCell a b l) = getCell x l := by
  induction l with
  | nil => unfold setCell; split <;> simp [getCell]; omega
  | cons c t ih =>
    unfold setCell
    split
    · split
      · rfl
      · simp only [getCell]; rw [if_neg (show ¬ a = x by omega)]
    · split
      · next heq =>
        split
        · simp only [getCell]; rw [if_neg (show ¬ c.1 = x by omega)]
        · simp only [getCell]; rw [if_neg (show ¬ a = x by omega), if_neg (show ¬ c.1 = x by omega)]
      · simp only [getCell, ih]

@[simp] theorem Mem.get_set_self {m : Mem} (a : Nat) (b : Byte) (h : m.wf = true) : (m.set a b).get a = b :=
  getCell_setCell_self a b h

theorem Mem.get_set_other {m : Mem} {a x : Nat} (b : Byte) (h : x ≠ a) : (m.set a b).get x = m.get x :=
  getCell_setCell_other b _ h

theorem Mem.wf_set {m : Mem} (a : Nat) (b : Byte) (h : m.wf = true) : (m.set a b).wf = true := cellsOk_setCell a b h

/-! ### Several bytes -/

theorem leBytes_length (n x : Nat) : (leBytes n x).length = n := by
  induction n generalizing x with
  | zero => rfl
  | succ n ih => simp [leBytes, ih]

theorem leNat_leBytes (n x : Nat) : leNat (leBytes n x) = x % 256 ^ n := by
  induction n generalizing x with
  | zero => simp [leBytes, leNat, Nat.mod_one]
  | succ n ih =>
    rw [leBytes, leNat, ih, BitVec.toNat_ofNat, Nat.pow_succ' (n := n)]
    exact (Nat.mod_mul (x := x) (a := 256) (b := 256 ^ n)).symm

theorem Mem.wf_setBytes {m : Mem} (a : Nat) (l : List Byte) (h : m.wf = true) : (m.setBytes a l).wf = true := by
  induction l generalizing m a with
  | nil => exact h
  | cons b t ih => exact ih (a + 1) (Mem.wf_set a b h)

theorem Mem.get_setBytes_outside {m : Mem} {a x : Nat} {l : List Byte} (h : x < a ∨ a + l.length ≤ x) :
    (m.setBytes a l).get x = m.get x := by
  induction l generalizing m a with
  | nil => rfl
  | cons b t ih =>
    simp only [List.length_cons] at h
    rw [Mem.setBytes, ih (by omega), Mem.get_set_other b (by omega)]

/-- The bytes stored are the bytes read. -/
theorem Mem.bytes_setBytes {m : Mem} (a : Nat) (l : List Byte) (h : m.wf = true) : (m.setBytes a l).bytes a l.length = l := by
  induction l generalizing m a with
  | nil => rfl
  | cons b t ih =>
    simp only [Mem.setBytes, List.length_cons, Mem.bytes]
    rw [Mem.get_setBytes_outside (by omega), Mem.get_set_self a b h, ih (a + 1) (Mem.wf_set a b h)]

@[simp] theorem Mem.setBytes_taint (m : Mem) (a : Nat) (l : List Byte) : (m.setBytes a l).taint = m.taint := by
  induction l generalizing m a with
  | nil => rfl
  | cons b t ih => rw [Mem.setBytes, ih]; rfl

@[simp] theorem Mem.setBytes_poison (m : Mem) (a : Nat) (l : List Byte) : (m.setBytes a l).poison = m.poison := by
  induction l generalizing m a with
  | nil => rfl
  | cons b t ih => rw [Mem.setBytes, ih]; rfl

@[simp] theorem Mem.setBytes_keyed (m : Mem) (a : Nat) (l : List Byte) : (m.setBytes a l).keyed = m.keyed := by
  induction l generalizing m a with
  | nil => rfl
  | cons b t ih => rw [Mem.setBytes, ih]; rfl

theorem Mem.wf_write {m : Mem} (a n v : Nat) (h : m.wf = true) : (m.write a n v).wf = true := Mem.wf_setBytes a _ h

/-- A number written is the number read, reduced to its bytes (R20). -/
theorem Mem.read_write {m : Mem} (a n v : Nat) (h : m.wf = true) : (m.write a n v).read a n = v % 256 ^ n := by
  have := Mem.bytes_setBytes a (leBytes n v) h
  rw [leBytes_length] at this
  rw [Mem.read, Mem.write, this, leNat_leBytes]

theorem Mem.get_write_outside {m : Mem} {a n v x : Nat} (h : x < a ∨ a + n ≤ x) : (m.write a n v).get x = m.get x :=
  Mem.get_setBytes_outside (by rwa [leBytes_length])

/-! ### Zeroing, and what does not touch the bytes -/

theorem Mem.wf_zero {m : Mem} (a n : Nat) (h : m.wf = true) : (m.zero a n).wf = true := by
  have h := (cellsOk_iff m.cells).mp h
  exact (cellsOk_iff _).mpr ⟨h.1.filter _, fun x hx => h.2 x (List.mem_filter.mp hx).1⟩

theorem getCell_filter (p : Nat → Bool) (x : Nat) (l : List Host.Cell) :
    getCell x (l.filter fun c => p c.1) = if p x then getCell x l else 0 := by
  induction l with
  | nil => simp [getCell]
  | cons c t ih =>
    rw [List.filter_cons]
    split
    · simp only [getCell, ih]
      split <;> simp_all
    · rw [ih]
      split
      · simp only [getCell]
        split <;> simp_all
      · rfl

/-- Zeroed bytes read 0, every other byte as before (R31). -/
theorem Mem.get_zero (m : Mem) (a n x : Nat) : (m.zero a n).get x = if a ≤ x ∧ x < a + n then 0 else m.get x := by
  have := getCell_filter (fun y => !(a ≤ y && y < a + n)) x m.cells
  unfold Mem.zero Mem.get
  simp only at this ⊢
  rw [this]
  by_cases h : a ≤ x ∧ x < a + n
  · simp [h]
  · simp only [h, if_false]
    split
    · rfl
    · next h' => simp only [Bool.not_eq_true', Bool.not_eq_false, Bool.and_eq_true, decide_eq_true_eq] at h'; exact absurd h' h

@[simp] theorem Mem.addTaint_cells (m : Mem) (a n : Nat) (t : Bool) : (m.addTaint a n t).cells = m.cells := by
  unfold Mem.addTaint; split <;> rfl
@[simp] theorem Mem.engineTaint_cells (m : Mem) (a n : Nat) (t : Bool) : (m.engineTaint a n t).cells = m.cells := by
  unfold Mem.engineTaint; split <;> simp
@[simp] theorem Mem.clearPoison_cells (m : Mem) (a n : Nat) : (m.clearPoison a n).cells = m.cells := rfl

/-! ### The chip's memory under a key mark -/

theorem foldl_keeps {P : β → Prop} {g : β → α → β} (hg : ∀ b a, P b → P (g b a)) (l : List α) (b : β) (h : P b) : P (l.foldl g b) := by
  induction l generalizing b with
  | nil => exact h
  | cons a t ih => exact ih _ (hg b a h)

/-- Storing bytes keeps the canonical form, also where other bytes of their line become free values (R452). -/
theorem Chip.wf_putBytes {c : Chip} (loc key : Nat) (bs : List Byte) (h : c.mem.wf = true) : (c.putBytes loc key bs).mem.wf = true := by
  unfold Chip.putBytes
  split
  · refine Mem.wf_setBytes loc bs (foldl_keeps (P := fun c => c.mem.wf = true) (fun c l hc => ?_) _ c h)
    exact foldl_keeps (P := fun x : Mem × Nat => x.1.wf = true) (fun x k hx => by
      dsimp only
      split
      · exact hx
      · split <;> exact Mem.wf_set _ _ hx) _ (c.mem, c.free) hc
  · exact Mem.wf_setBytes loc bs h

@[simp] theorem Mem.note_cells (m : Mem) (a n : Nat) : (m.note a n).cells = m.cells := rfl

/-- So does a write of the host to its memory. -/
theorem Chip.wf_hostPut {c : Chip} (addr : Nat) (bs : List Byte) (h : c.mem.wf = true) : (c.hostPut addr bs).mem.wf = true := by
  refine Mem.wf_setBytes (locHost addr) bs ?_
  refine foldl_keeps (P := fun m : Mem => m.wf = true) (fun m l hm => ?_) _ c.mem h
  exact Mem.wf_setBytes (l * 64) (m.hostLine l) hm

@[simp] theorem Chip.takeBytes_mem (c : Chip) (loc key n : Nat) : (c.takeBytes loc key n).2.mem = c.mem := by
  unfold Chip.takeBytes; split <;> rfl

/-- The memory of `State.reset` has the canonical form. -/
theorem reset_mem_wf : State.reset.chip.mem.wf = true := rfl

end Sys2Proof.Machine
end

