-- ==== Sys2Proof/Laws/Access.lean ====
section
/-! SUPPORT. What reaching a byte can do (R56, R57, R452): a walk sets A and D bits in page tables and moves cached translations, a read of a
line under another key uses up free values, and nothing else of the chip changes. -/

namespace Sys2Proof.Machine

/-- `d` is `c` after accesses that found their places: memory is as it was but for bits 5 and 6 of bytes (A and D of page-table entries), and
only cached translations and the counter of free values may differ besides. -/
structure Walks (c d : Chip) : Prop where
  rest : d = { c with mem := { c.mem with cells := d.mem.cells }, tlb := d.tlb, free := d.free }
  wf   : c.mem.wf = true → d.mem.wf = true
  bits : c.mem.wf = true → ∀ x, d.mem.get x &&& 0x9F = c.mem.get x &&& 0x9F

theorem Walks.refl (c : Chip) : Walks c c := ⟨rfl, id, fun _ _ => rfl⟩
theorem Walks.trans {c d e : Chip} (h : Walks c d) (k : Walks d e) : Walks c e := by
  refine ⟨?_, fun w => k.wf (h.wf w), fun w x => (k.bits (h.wf w) x).trans (h.bits w x)⟩
  have := k.rest
  rw [h.rest] at this
  exact this
/-- Only cached translations and the counter of free values have changed. -/
theorem Walks.of_tlb (c : Chip) (l : List Tlb) (n : Nat) : Walks c { c with tlb := l, free := n } := ⟨rfl, id, fun _ _ => rfl⟩

/-- What every access leaves alone. -/
theorem Walks.same {c d : Chip} (h : Walks c d) : d.parts = c.parts ∧ d.slots = c.slots ∧ d.insts = c.insts ∧ d.cores = c.cores ∧
    d.flights = c.flights ∧ d.keys = c.keys ∧ d.vals = c.vals ∧ d.towers = c.towers ∧ d.nextIid = c.nextIid ∧ d.logq = c.logq ∧
    d.mem.taint = c.mem.taint ∧ d.mem.poison = c.mem.poison ∧ d.mem.keyed = c.mem.keyed := by
  rw [h.rest]; exact ⟨rfl, rfl, rfl, rfl, rfl, rfl, rfl, rfl, rfl, rfl, rfl, rfl, rfl⟩

/-! ### The A and D bits -/

/-- The byte at a location after bytes are stored. -/
theorem Mem.get_setBytes {m : Mem} (a x : Nat) (l : List Byte) (h : m.wf = true) :
    (m.setBytes a l).get x = if a ≤ x ∧ x < a + l.length then l.getD (x - a) 0 else m.get x := by
  induction l generalizing m a with
  | nil => simp [Mem.setBytes]
  | cons b t ih =>
    show ((m.set a b).setBytes (a + 1) t).get x = _
    rw [ih _ (Mem.wf_set a b h)]
    by_cases hx : x = a
    · subst hx
      simp only [List.length_cons, Nat.sub_self, List.getD_cons_zero]
      rw [if_neg (by omega), if_pos (by omega)]
      exact getCell_setCell_self _ _ h
    · rw [Mem.get_set_other b hx]
      by_cases hi : a + 1 ≤ x ∧ x < a + 1 + t.length
      · rw [if_pos hi, if_pos ⟨by omega, by simp only [List.length_cons]; omega⟩]
        have : x - a = (x - (a + 1)) + 1 := by omega
        rw [this, List.getD_cons_succ]
      · rw [if_neg hi, if_neg (by simp only [List.length_cons]; omega)]

/-- The bytes of memory, one by one. -/
theorem Mem.bytes_getD (m : Mem) (n : Nat) : ∀ a j, j < n → (m.bytes a n).getD j 0 = m.get (a + j) := by
  induction n with
  | zero => intro a j h; omega
  | succ n ih =>
    intro a j h
    cases j with
    | zero => rfl
    | succ j =>
      show (m.bytes (a + 1) n).getD j 0 = _
      rw [ih (a + 1) j (by omega)]
      congr 1
      omega
theorem Mem.bytes_length (m : Mem) (n : Nat) : ∀ a, (m.bytes a n).length = n := by
  induction n with
  | zero => intro a; rfl
  | succ n ih => intro a; show (m.bytes (a + 1) n).length + 1 = n + 1; rw [ih]
/-- Bytes written back are the bytes. -/
theorem leBytes_leNat (l : List Byte) : leBytes l.length (leNat l) = l := by
  induction l with
  | nil => rfl
  | cons b t ih =>
    have hb := b.isLt
    have e : (b.toNat + 256 * leNat t) / 256 = leNat t := by omega
    show BitVec.ofNat 8 (b.toNat + 256 * leNat t) :: leBytes t.length ((b.toNat + 256 * leNat t) / 256) = b :: t
    rw [e, ih]
    congr 1
    apply BitVec.eq_of_toNat_eq
    rw [BitVec.toNat_ofNat]
    omega

/-- A byte with bit 5 or 6 added where it was clear. -/
theorem byte_bit (b : Byte) (k : Nat) (hk : k = 5 ∨ k = 6) (h : b.toNat / 2 ^ k % 2 = 0) : (b + BitVec.ofNat 8 (2 ^ k)) &&& 0x9F = b &&& 0x9F := by
  have key : ∀ k, (k = 5 ∨ k = 6) → ∀ n : Fin 256, n.val / 2 ^ k % 2 = 0 →
      (BitVec.ofFin n + BitVec.ofNat 8 (2 ^ k)) &&& (0x9F : BitVec 8) = BitVec.ofFin n &&& 0x9F := by
    intro k hk
    rcases hk with rfl | rfl <;> decide +kernel
  obtain ⟨n⟩ := b
  exact key k hk n h

/-- A number whose low byte has bit 5 or 6 clear, that bit added: the low byte takes it, the others stay. -/
theorem leBytes_bit (m : Mem) (a k : Nat) (hk : k = 5 ∨ k = 6) (hb : m.read a 8 / 2 ^ k % 2 = 0) :
    leBytes 8 (m.read a 8 + 2 ^ k) = (m.get a + BitVec.ofNat 8 (2 ^ k)) :: m.bytes (a + 1) 7 ∧ (m.get a).toNat / 2 ^ k % 2 = 0 := by
  have e : m.read a 8 = (m.get a).toNat + 256 * leNat (m.bytes (a + 1) 7) := rfl
  have l7 : leBytes 7 (leNat (m.bytes (a + 1) 7)) = m.bytes (a + 1) 7 := by
    have := leBytes_leNat (m.bytes (a + 1) 7)
    rwa [Mem.bytes_length] at this
  generalize m.read a 8 = v at e hb ⊢
  generalize leNat (m.bytes (a + 1) 7) = r at e l7
  generalize hg : m.get a = b at e ⊢
  have h8 := b.isLt
  have hbit : b.toNat / 2 ^ k % 2 = 0 := by rcases hk with rfl | rfl <;> omega
  have hlt : b.toNat + 2 ^ k < 256 := by rcases hk with rfl | rfl <;> omega
  have hd : (v + 2 ^ k) / 256 = r := by have := Nat.two_pow_pos k; omega
  have hm : v % 256 = b.toNat := by omega
  refine ⟨?_, hbit⟩
  show BitVec.ofNat 8 (v + 2 ^ k) :: leBytes 7 ((v + 2 ^ k) / 256) = _
  rw [hd, l7]
  congr 1
  apply BitVec.eq_of_toNat_eq
  rw [BitVec.toNat_ofNat, BitVec.toNat_add, BitVec.toNat_ofNat]
  omega

/-- Setting A or D of an entry changes that bit of its first byte alone. -/
theorem Mem.setEntryBit_get (m : Mem) (a k : Nat) (hk : k = 5 ∨ k = 6) (h : m.wf = true) (x : Nat) :
    (m.setEntryBit a k).get x &&& 0x9F = m.get x &&& 0x9F := by
  by_cases hb : bitAt (m.read a 8) k = true
  · rw [show m.setEntryBit a k = m from if_pos hb]
  · have hb' : m.read a 8 / 2 ^ k % 2 = 0 := by
      have : ¬ m.read a 8 / 2 ^ k % 2 = 1 := by simpa [bitAt] using hb
      omega
    obtain ⟨hl, hbit⟩ := leBytes_bit m a k hk hb'
    rw [show m.setEntryBit a k = m.setBytes a (leBytes 8 (m.read a 8 + 2 ^ k)) from if_neg hb, hl, Mem.get_setBytes _ _ _ h]
    split
    · rename_i hx
      rw [List.length_cons, Mem.bytes_length] at hx
      by_cases hxa : x = a
      · subst hxa
        rw [Nat.sub_self, List.getD_cons_zero]
        exact byte_bit _ k hk hbit
      · obtain ⟨j, rfl⟩ : ∃ j, x = a + 1 + j := ⟨x - (a + 1), by omega⟩
        rw [show a + 1 + j - a = j + 1 by omega, List.getD_cons_succ, Mem.bytes_getD _ _ _ _ (by omega)]
    · rfl

theorem Mem.setEntryBit_rest (m : Mem) (a k : Nat) : m.setEntryBit a k = { m with cells := (m.setEntryBit a k).cells } := by
  have w : ∀ (l : List Byte) (m : Mem) (a : Nat), m.setBytes a l = { m with cells := (m.setBytes a l).cells } := by
    intro l
    induction l with
    | nil => intro m a; rfl
    | cons b t ih => intro m a; exact ih (m.set a b) (a + 1)
  unfold Mem.setEntryBit
  simp only
  split
  · rfl
  · exact w _ m a
theorem Mem.wf_setEntryBit {m : Mem} (a k : Nat) (h : m.wf = true) : (m.setEntryBit a k).wf = true := by
  unfold Mem.setEntryBit
  simp only
  split
  · exact h
  · exact Mem.wf_write _ _ _ h

/-- One bit set is such an access. -/
theorem Walks.setEntryBit (c : Chip) (a k : Nat) (hk : k = 5 ∨ k = 6) : Walks c { c with mem := c.mem.setEntryBit a k } :=
  ⟨by rw [Mem.setEntryBit_rest], fun h => Mem.wf_setEntryBit a k h, fun h x => Mem.setEntryBit_get _ a k hk h x⟩
theorem Walks.setEntryBits (c : Chip) (l : List Nat) : Walks c { c with mem := l.foldl (fun m a => m.setEntryBit a 5) c.mem } := by
  induction l generalizing c with
  | nil => exact Walks.refl c
  | cons a t ih => exact (Walks.setEntryBit c a 5 (.inl rfl)).trans (ih { c with mem := c.mem.setEntryBit a 5 })

/-! ### Translation, paging, places -/

theorem Chip.translate_walks (c : Chip) (core pid va : Nat) : Walks c (c.translate core pid va).2 := by
  unfold Chip.translate
  simp only
  split
  · exact Walks.refl c
  · split
    · exact Walks.of_tlb c _ c.free
    · have hf : Walks c (if c.mem.keyed.isEmpty then c else { c with free := c.free + 4 }) := by
        split
        · exact Walks.refl c
        · exact Walks.of_tlb c c.tlb _
      generalize (if c.mem.keyed.isEmpty then c else { c with free := c.free + 4 }) = d at hf ⊢
      split
      · exact hf
      · exact (hf.trans (Walks.setEntryBits d _)).trans (Walks.of_tlb _ _ d.free)

theorem Chip.setDirty_walks (c : Chip) (t : Tlb) : Walks c (c.setDirty t) := by
  unfold Chip.setDirty
  split
  · exact Walks.refl c
  · exact (Walks.setEntryBit c _ 6 (.inr rfl)).trans (Walks.of_tlb _ _ c.free)

/-- Everything that a translation with its checks and the setting of D can do. -/
theorem Chip.translated_walks (c : Chip) (core pid : Nat) (b : Bool) (va : Nat) (check : Chip → Tlb → Except AFault Place) :
    Walks c (c.translated core pid b va check).2 := by
  have ht := Chip.translate_walks c core pid va
  unfold Chip.translated
  generalize c.translate core pid va = r at ht ⊢
  rcases r with ⟨_ | t, d⟩
  · exact ht
  · simp only at ht ⊢
    split
    · exact ht
    · split
      · exact ht
      · split
        · exact ht
        · split
          · exact ht.trans (Chip.setDirty_walks d t)
          · have hg : Walks c (d.forgetWalk pid va) := ht.trans (Walks.of_tlb d _ d.free)
            have hu := Chip.translate_walks (d.forgetWalk pid va) core pid va
            generalize (d.forgetWalk pid va).translate core pid va = r at hu ⊢
            rcases r with ⟨_ | u, e⟩
            · exact hg.trans hu
            · simp only at hu ⊢
              split
              · exact hg.trans hu
              · exact (hg.trans hu).trans (Chip.setDirty_walks e u)

theorem Chip.paged_walks (c : Chip) (x : Actor) (k : AKind) (b : Bool) (va : Nat) : Walks c (c.paged x k b va).2 :=
  Chip.translated_walks ..

/-- Everything that finding a place, but for poison, can do. -/
theorem Chip.reach_walks (c : Chip) (x : Actor) (k : AKind) (b : Bool) (va n : Nat) : Walks c (c.reach x k b va n).2 := by
  have h : Walks c (if va < 2 ^ 52 then c.paged x k b va else (c.window x k va, c)).2 := by
    split
    · exact Chip.paged_walks c x k b va
    · exact Walks.refl c
  unfold Chip.reach
  generalize (if va < 2 ^ 52 then c.paged x k b va else (c.window x k va, c)) = r at h ⊢
  rcases r with ⟨_ | pl, d⟩
  · exact h
  · simp only at h ⊢
    split <;> exact h

/-- Everything that finding a place can do. -/
theorem Chip.resolve_walks (c : Chip) (x : Actor) (k : AKind) (b : Bool) (va n : Nat) : Walks c (c.resolve x k b va n).2 := by
  have h := Chip.reach_walks c x k b va n
  unfold Chip.resolve
  generalize c.reach x k b va n = r at h ⊢
  rcases r with ⟨_ | pl, d⟩
  · exact h
  · simp only at h ⊢
    split <;> exact h

theorem Chip.access_walks (c : Chip) (x : Actor) (k : AKind) (b : Bool) (va n : Nat) : Walks c (c.access x k b va n).2 := by
  unfold Chip.access
  split
  · exact Walks.refl c
  · exact Chip.resolve_walks c x k b va n

theorem Chip.takeBytes_walks (c : Chip) (loc key n : Nat) : Walks c (c.takeBytes loc key n).2 := by
  unfold Chip.takeBytes
  split
  · exact Walks.of_tlb c c.tlb _
  · exact Walks.refl c

theorem Chip.readPlace_walks (c : Chip) (pl : Place) (n : Nat) : Walks c (c.readPlace pl n).2.2 := by
  unfold Chip.readPlace
  split
  · exact Walks.refl c
  · exact Chip.takeBytes_walks c _ _ n

/-- A fold whose every step is such an access is one. -/
theorem Walks.foldl {α β : Type} (g : β × Chip → α → β × Chip) (hg : ∀ b d a, Walks d (g (b, d) a).2) (l : List α) (b : β) (c : Chip) :
    Walks c (l.foldl g (b, c)).2 := by
  induction l generalizing b c with
  | nil => exact Walks.refl c
  | cons a t ih => exact (hg b c a).trans (ih (g (b, c) a).1 (g (b, c) a).2)

/-- Everything that an engine's read can do. -/
theorem Chip.engineRead_walks (c : Chip) (x : Actor) (va n : Nat) : Walks c (c.engineRead x va n).2 := by
  unfold Chip.engineRead
  refine Walks.foldl _ (fun b d a => ?_) _ _ c
  rcases b with f | ⟨bs, t⟩
  · exact Walks.refl d
  · have h := Chip.resolve_walks d x .read false a.1 a.2
    simp only
    generalize d.resolve x .read false a.1 a.2 = r at h ⊢
    rcases r with ⟨_ | pl, e⟩
    · exact h
    · simp only at h ⊢
      split
      · exact h
      · exact h.trans (Chip.takeBytes_walks e _ _ _)

theorem Chip.enginePlaces_walks (c : Chip) (x : Actor) (va n : Nat) : Walks c (c.enginePlaces x va n).2 := by
  unfold Chip.enginePlaces
  refine Walks.foldl _ (fun b d a => ?_) _ _ c
  rcases b with f | ps
  · exact Walks.refl d
  · have h := Chip.resolve_walks d x .write true a.1 a.2
    simp only
    generalize d.resolve x .write true a.1 a.2 = r at h ⊢
    rcases r with ⟨_ | pl, e⟩ <;> exact h

theorem Chip.readWords_walks (c : Chip) (x : Actor) (va n : Nat) : Walks c (c.readWords x va n).2 := by
  have h := Chip.engineRead_walks c x va (8 * n)
  unfold Chip.readWords
  generalize c.engineRead x va (8 * n) = r at h ⊢
  rcases r with ⟨_ | ⟨bs, t⟩, e⟩ <;> exact h

end Sys2Proof.Machine
end

