-- ==== Sys2Proof/Laws/Firing.lean ====
section
/-! SUPPORT. What firing does: one equation for `Chip.fire` where the instruction may fire, one where it may not, and what the shapes of a
meaning answer from there. -/

namespace Sys2Proof.Machine

/-! ### Marking an instruction as fired changes nothing that its firing reads -/

theorem Frame.cell_setCell_self {f : Frame} {k : Nat} (x : Cell) (h : k < f.cells.length) : (f.setCell k x).cell k = x := by
  simp [Frame.cell, Frame.setCell, List.getD_eq_getElem?_getD, h]

theorem Frame.cell_setCell_other {f : Frame} {k j : Nat} (x : Cell) (h : j ≠ k) : (f.setCell k x).cell j = f.cell j := by
  simp [Frame.cell, Frame.setCell, List.getD_eq_getElem?_getD, Ne.symm h]

/-- Beyond `fired`, no field of the cell of an instruction that fires changes. -/
theorem Frame.issue_slots (f : Frame) (k : Nat) :
    ((f.issue k).cell k).a = (f.cell k).a ∧ ((f.issue k).cell k).b = (f.cell k).b ∧
    ((f.issue k).cell k).c = (f.cell k).c ∧ ((f.issue k).cell k).p = (f.cell k).p := by
  have h0 : (f.issue k).cell k = (f.setCell k { f.cell k with fired := true }).cell k := rfl
  by_cases h : k < f.cells.length
  · rw [h0, Frame.cell_setCell_self _ h]; exact ⟨rfl, rfl, rfl, rfl⟩
  · have : (f.issue k).cell k = f.cell k := by
      rw [h0]
      simp [Frame.cell, Frame.setCell, List.getD_eq_getElem?_getD, h]
    rw [this]; exact ⟨rfl, rfl, rfl, rfl⟩

@[simp] theorem Frame.data_issue (f : Frame) (k : Nat) : (f.issue k).data k = f.data k := by
  obtain ⟨ha, hb, hc, -⟩ := f.issue_slots k
  show ([((f.issue k).cell k).a, ((f.issue k).cell k).b, ((f.issue k).cell k).c].take _).map _ = _
  rw [ha, hb, hc]
  rfl

@[simp] theorem Frame.predTaint_issue (f : Frame) (k : Nat) : (f.issue k).predTaint k = f.predTaint k := by
  obtain ⟨-, -, -, hp⟩ := f.issue_slots k
  unfold Frame.predTaint
  rw [hp]
  rfl

@[simp] theorem Frame.onNull_issue (f : Frame) (k : Nat) : (f.issue k).onNull k = f.onNull k := by
  unfold Frame.onNull
  rw [Frame.data_issue]

@[simp] theorem Frame.takesSlot_issue (f : Frame) (k : Nat) : (f.issue k).takesSlot k = f.takesSlot k := by
  unfold Frame.takesSlot
  rw [Frame.onNull_issue]
  rfl

@[simp] theorem Frame.word_issue (f : Frame) (k j : Nat) : (f.issue k).word j = f.word j := rfl

/-! ### Firing -/

/-- The instance once its instruction at index `k` of `f` has fired and its block has become `g`. -/
def Inst.firedAs (i : Inst) (f g : Frame) (k : Nat) : Inst := { (if f.takesSlot k then i.issued else i) with frame := some g }

@[simp] theorem Inst.firedAs_iid (i : Inst) (f g : Frame) (k : Nat) : (i.firedAs f g k).iid = i.iid := by unfold Inst.firedAs; split <;> rfl
@[simp] theorem Inst.firedAs_frame (i : Inst) (f g : Frame) (k : Nat) : (i.firedAs f g k).frame = some g := rfl
@[simp] theorem Inst.firedAs_regs (i : Inst) (f g : Frame) (k : Nat) : (i.firedAs f g k).regs = i.regs := by unfold Inst.firedAs; split <;> rfl
@[simp] theorem Inst.firedAs_args (i : Inst) (f g : Frame) (k : Nat) : (i.firedAs f g k).args = i.args := by unfold Inst.firedAs; split <;> rfl
@[simp] theorem Inst.firedAs_tag (i : Inst) (f g : Frame) (k : Nat) : (i.firedAs f g k).tag = i.tag := by unfold Inst.firedAs; split <;> rfl
@[simp] theorem Inst.firedAs_chan (i : Inst) (f g : Frame) (k : Nat) : (i.firedAs f g k).chan = i.chan := by unfold Inst.firedAs; split <;> rfl
@[simp] theorem Inst.firedAs_core (i : Inst) (f g : Frame) (k : Nat) : (i.firedAs f g k).core = i.core := by unfold Inst.firedAs; split <;> rfl
@[simp] theorem Inst.firedAs_pid (i : Inst) (f g : Frame) (k : Nat) : (i.firedAs f g k).pid = i.pid := by unfold Inst.firedAs; split <;> rfl
@[simp] theorem Inst.firedAs_fpc (i : Inst) (f g : Frame) (k : Nat) : (i.firedAs f g k).fpc = i.fpc := by unfold Inst.firedAs; split <;> rfl
@[simp] theorem Inst.firedAs_brkOff (i : Inst) (f g : Frame) (k : Nat) : (i.firedAs f g k).brkOff = i.brkOff := by
  unfold Inst.firedAs; split <;> rfl
@[simp] theorem Inst.firedAs_supervisor (i : Inst) (f g : Frame) (k : Nat) : (i.firedAs f g k).supervisor = i.supervisor := by
  simp [Inst.supervisor]

/-- Firing where the instruction may fire (R104). -/
theorem Chip.fire_eq {c : Chip} {fo : Focus} {i : Inst} {f : Frame} (k : Chip → Inst → Frame → Chip) (hi : c.inst? fo.iid = some i)
    (hf : i.frame = some f) (hr : i.state = .running) (hd : i.clashDue f = none) (hc : i.canFire f fo.idx = true) :
    c.fire fo k = k (c.setInst (i.firedAs f (f.issue fo.idx) fo.idx)) (i.firedAs f (f.issue fo.idx) fo.idx) (f.issue fo.idx) := by
  unfold Chip.fire
  simp only [hi, hf, hr, hd, hc, bne_self_eq_false, Bool.false_eq_true, if_false, if_true]
  rfl

/-- Firing where a token has reached a filled slot (R106): the block faults. -/
theorem Chip.fire_clash {c : Chip} {fo : Focus} {i : Inst} {f : Frame} {n : Nat} (k : Chip → Inst → Frame → Chip)
    (hi : c.inst? fo.iid = some i) (hf : i.frame = some f) (hr : i.state = .running) (hd : i.clashDue f = some n) :
    c.fire fo k = c.takeFault i.iid n { cause := 0x11 } := by
  unfold Chip.fire
  simp only [hi, hf, hr, hd, bne_self_eq_false, Bool.false_eq_true, if_false]

/-- An instruction that may not fire changes nothing. -/
theorem Chip.fire_none {c : Chip} {fo : Focus} (k : Chip → Inst → Frame → Chip)
    (h : ∀ i f, c.inst? fo.iid = some i → i.frame = some f → i.state = .running → i.clashDue f = none ∧ i.canFire f fo.idx = false) :
    c.fire fo k = c := by
  unfold Chip.fire
  split
  · rfl
  · next i hi =>
    split
    · rfl
    · next f hf =>
      by_cases hr : i.state = .running
      · obtain ⟨hd, hc⟩ := h i f hi hf hr
        simp [hr, hd, hc]
      · simp [hr]

/-- Sending results of an instance whose block is `g`. -/
theorem Chip.sendTo_ok {c : Chip} {j k : Inst} {g : Frame} (ts : List (Option Target)) (t : Tok) (hj : j.frame = some g)
    (hk : c.inst? j.iid = some k) : (c.setInst j).sendTo j.iid ts t = c.setInst { j with frame := some (g.sendAll ts t) } := by
  unfold Chip.sendTo
  rw [Chip.inst_setInst_self hk, hj]
  exact Chip.setFrame_setInst c j _

theorem leastOf_eq {l : List Nat} {n : Nat} (hn : n ∈ l) (hl : ∀ m ∈ l, n ≤ m) : leastOf l = some n := by
  induction l generalizing n with
  | nil => cases hn
  | cons a t ih =>
    unfold leastOf
    cases t with
    | nil => simp_all [leastOf]
    | cons b u =>
      obtain ⟨m, hm, hmin⟩ : ∃ m ∈ b :: u, ∀ k ∈ b :: u, m ≤ k := by
        clear ih hn hl
        induction u generalizing b with
        | nil => exact ⟨b, by simp, by simp⟩
        | cons d u ih =>
          obtain ⟨m, hm, hmin⟩ := ih d
          by_cases h : b ≤ m
          · exact ⟨b, by simp, fun k hk => by
              rcases List.mem_cons.mp hk with rfl | hk
              · exact Nat.le_refl _
              · exact Nat.le_trans h (hmin k hk)⟩
          · exact ⟨m, .tail _ hm, fun k hk => by
              rcases List.mem_cons.mp hk with rfl | hk
              · omega
              · exact hmin k hk⟩
      rw [ih hm hmin]
      simp only [Option.some.injEq]
      have h1 : n ≤ m := hl m (.tail _ hm)
      have h2 : n ≤ a := hl a (.head _)
      rcases List.mem_cons.mp hn with rfl | hn
      · omega
      · have := hmin n hn
        omega

/-! ### Class T -/

/-- A class-T instruction with a value to send: the instance's block has it, and nothing else has changed. -/
theorem Chip.fireT_ok {c : Chip} {fo : Focus} {i : Inst} {f : Frame} {ts : List (Option Target)}
    {g : Chip → Inst → Frame → Operands → Res × Chip} {v : Word} {t : Bool} (hi : c.inst? fo.iid = some i) (hf : i.frame = some f)
    (hr : i.state = .running) (hd : i.clashDue f = none) (hc : i.canFire f fo.idx = true) (hn : f.onNull fo.idx = false)
    (hg : ∀ d j, j = i.firedAs f (f.issue fo.idx) fo.idx → d = c.setInst j →
      g d j (f.issue fo.idx) (operandsOf (f.data fo.idx) (f.predTaint fo.idx)) = (.ok (v, t), d)) :
    c.fireT fo ts g = c.setInst (i.firedAs f ((f.issue fo.idx).sendAll ts (.val v t)) fo.idx) := by
  unfold Chip.fireT
  rw [Chip.fire_eq _ hi hf hr hd hc]
  have hi' := Chip.inst?_iid hi
  simp only [Frame.onNull_issue, hn, Frame.data_issue, Frame.predTaint_issue, hg _ _ rfl rfl, Bool.false_eq_true, if_false]
  rw [Chip.sendTo_ok (k := i) _ _ (Inst.firedAs_frame ..) (by rw [Inst.firedAs_iid, hi', hi])]
  rfl

/-- A class-T instruction on a null operand sends null (R107). -/
theorem Chip.fireT_null {c : Chip} {fo : Focus} {i : Inst} {f : Frame} {ts : List (Option Target)}
    (g : Chip → Inst → Frame → Operands → Res × Chip) (hi : c.inst? fo.iid = some i) (hf : i.frame = some f)
    (hr : i.state = .running) (hd : i.clashDue f = none) (hc : i.canFire f fo.idx = true) (hn : f.onNull fo.idx = true) :
    c.fireT fo ts g = c.setInst (i.firedAs f ((f.issue fo.idx).sendAll ts .null) fo.idx) := by
  unfold Chip.fireT
  rw [Chip.fire_eq _ hi hf hr hd hc]
  have hi' := Chip.inst?_iid hi
  simp only [Frame.onNull_issue, hn, if_true]
  rw [Chip.sendTo_ok (k := i) _ _ (Inst.firedAs_frame ..) (by rw [Inst.firedAs_iid, hi', hi])]
  rfl

/-- A class-T instruction on plain numbers. -/
theorem Chip.fireNat_ok {c : Chip} {fo : Focus} {i : Inst} {f : Frame} {ts : List (Option Target)} {g : Nat → Nat → Nat → Nat}
    {o : Operands} {v : Word} (hi : c.inst? fo.iid = some i) (hf : i.frame = some f) (hr : i.state = .running)
    (hd : i.clashDue f = none) (hc : i.canFire f fo.idx = true) (hn : f.onNull fo.idx = false) (ho : operandsOf (f.data fo.idx) (f.predTaint fo.idx) = o)
    (hv : BitVec.ofNat 64 (g o.a.toNat o.b.toNat o.c.toNat) = v) :
    c.fireNat fo ts g = c.setInst (i.firedAs f ((f.issue fo.idx).sendAll ts (.val v o.taint)) fo.idx) := by
  subst ho hv
  unfold Chip.fireNat Chip.firePure
  exact Chip.fireT_ok hi hf hr hd hc hn fun _ _ _ _ => rfl

end Sys2Proof.Machine
end

