-- ==== Sys2Proof/Laws/PerInstr.lean ====
section
/-! SUPPORT. What an instruction's word leaves free (R100, R117), one lemma per constructor: the word is of 32 bits, and where the format has a
PM or an LSID the bits of that field are 0 until the head is added. -/

namespace Sys2Proof.Laws.Encoding

/-- A word of 32 bits that leaves its head's bits free. -/
structure Fits (x : Nat) : Prop where
  size : x < 2 ^ 32
  pm   : lacksPm (bits x 23 9) = false → bits x 21 2 = 0
  lsid : hasLsid (bits x 23 9) = true → bits x 16 5 = 0

/-- Every word that the encoder gives an instruction leaves its head's bits free. -/
def Statement (i : Instr) : Prop := ∀ x, encodeInstr i = some x → Fits x

/-- An opcode with fields below the head's. -/
theorem fits {op x : Nat} (ho : op < 512) (lo : op * 2 ^ 23 ≤ x) (hi : x < op * 2 ^ 23 + 2 ^ 23)
    (hp : lacksPm op = false → x < op * 2 ^ 23 + 2 ^ 21) (hl : hasLsid op = true → x < op * 2 ^ 23 + 2 ^ 16) : Fits x := by
  have e : bits x 23 9 = op := by unfold bits; omega
  refine ⟨by omega, fun h => ?_, fun h => ?_⟩
  · rw [e] at h; have := hp h; unfold bits; omega
  · rw [e] at h; have := hl h; unfold bits; omega

/-! ### Sizes of the fields -/

theorem width_lt (w : Width) : w.code < 4 := by cases w <;> decide
theorem ffmt_lt (f : FFmt) : f.code < 4 := by cases f <;> decide
theorem bool_lt (b : Bool) : b2n b < 2 := by cases b <;> decide
theorem ifmt_lt (f : IFmt) : f.code < 8 := by
  have := bool_lt f.signed
  have := width_lt f.width
  unfold IFmt.code; omega
theorem rmode_lt (m : RMode) : m.code < 5 := by cases m <;> decide
theorem scale_lt (s : Scale) : s.code < 5 := by cases s <;> decide
theorem scope_lt (s : Scope) : s.code < 6 := by cases s <;> decide
theorem tagField_lt (f : TagField) : f.code < 5 := by cases f <;> decide
theorem coordView_lt (v : CoordView) : v.code < 3 := by cases v <;> decide
theorem tlView_lt (v : TlView) : v.code < 3 := by cases v <;> decide
theorem target_lt (t : Option Target) : targetCode t < 512 := by
  rcases t with _ | ⟨s, k⟩
  · decide
  · have : s.code < 4 := by cases s <;> decide
    have := k.isLt
    show 256 + s.code * 64 + k.toNat < 512
    omega
theorem ret_lt (r : Option (BitVec 5)) : retCode r < 512 := by
  rcases r with _ | r
  · decide
  · have := r.isLt
    show 256 + r.toNat < 512
    omega

/-! ### Formats -/

theorem fits_encX {op : Nat} (g : BitVec 5) (t1 : Option Target) (t0 : Option Target) (ho : op < 512) (hp : lacksPm op = true) (hl : hasLsid op = false) : Fits (encX op g t1 t0) := by
  have := g.isLt
  have := target_lt t1
  have := target_lt t0
  exact fits ho (by unfold encX; omega) (by unfold encX; omega) (fun h => by simp [hp] at h) (fun h => by simp [hl] at h)

theorem fits_encG {op : Nat} (t1 : Option Target) (t0 : Option Target) (ho : op < 512) (hl : hasLsid op = false) : Fits (encG op t1 t0) := by
  have := target_lt t1
  have := target_lt t0
  exact fits ho (by unfold encG; omega) (by unfold encG; omega) (fun _ => by unfold encG; omega) (fun h => by simp [hl] at h)

theorem fits_encC {op : Nat} (imm : BitVec 14) (t0 : Option Target) (ho : op < 512) (hp : lacksPm op = true) (hl : hasLsid op = false) : Fits (encC op imm t0) := by
  have := imm.isLt
  have := target_lt t0
  exact fits ho (by unfold encC; omega) (by unfold encC; omega) (fun h => by simp [hp] at h) (fun h => by simp [hl] at h)

theorem fits_encE {op : Nat} (ho : op < 512) : Fits (encE op) := by
  exact fits ho (by unfold encE; omega) (by unfold encE; omega) (fun _ => by unfold encE; omega) (fun _ => by unfold encE; omega)

theorem fits_encGW {op : Nat} (w : Width) (t1 : Option Target) (t0 : Option Target) (ho : op < 512) (hl : hasLsid op = false) : Fits (encGW op w t1 t0) := by
  have := width_lt w
  have := target_lt t1
  have := target_lt t0
  exact fits ho (by unfold encGW; omega) (by unfold encGW; omega) (fun _ => by unfold encGW; omega) (fun h => by simp [hl] at h)

theorem fits_encIW {op : Nat} (w : Width) (imm : BitVec 9) (t0 : Option Target) (ho : op < 512) (hl : hasLsid op = false) : Fits (encIW op w imm t0) := by
  have := width_lt w
  have := imm.isLt
  have := target_lt t0
  exact fits ho (by unfold encIW; omega) (by unfold encIW; omega) (fun _ => by unfold encIW; omega) (fun h => by simp [hl] at h)

theorem fits_encGF {op : Nat} (f : FFmt) (t1 : Option Target) (t0 : Option Target) (ho : op < 512) (hl : hasLsid op = false) : Fits (encGF op f t1 t0) := by
  have := ffmt_lt f
  have := target_lt t1
  have := target_lt t0
  exact fits ho (by unfold encGF; omega) (by unfold encGF; omega) (fun _ => by unfold encGF; omega) (fun h => by simp [hl] at h)

theorem fits_encGB {op : Nat} (single : Bool) (t1 : Option Target) (t0 : Option Target) (ho : op < 512) (hl : hasLsid op = false) : Fits (encGB op single t1 t0) := by
  have := bool_lt single
  have := target_lt t1
  have := target_lt t0
  exact fits ho (by unfold encGB; omega) (by unfold encGB; omega) (fun _ => by unfold encGB; omega) (fun h => by simp [hl] at h)

theorem fits_encG1 {op : Nat} (t1 : Option Target) (t0 : Option Target) (ho : op < 512) (hl : hasLsid op = false) : Fits (encG1 op t1 t0) := by
  have := target_lt t1
  have := target_lt t0
  exact fits ho (by unfold encG1; omega) (by unfold encG1; omega) (fun _ => by unfold encG1; omega) (fun h => by simp [hl] at h)

theorem fits_encM {op : Nat} (off : BitVec 7) (t0 : Option Target) (ho : op < 512) : Fits (encM op off t0) := by
  have := off.isLt
  have := target_lt t0
  exact fits ho (by unfold encM; omega) (by unfold encM; omega) (fun _ => by unfold encM; omega) (fun _ => by unfold encM; omega)

theorem fits_encAL {op : Nat} (scope : Scope) (t0 : Option Target) (ho : op < 512) : Fits (encAL op scope t0) := by
  have := scope_lt scope
  have := target_lt t0
  exact fits ho (by unfold encAL; omega) (by unfold encAL; omega) (fun _ => by unfold encAL; omega) (fun _ => by unfold encAL; omega)

theorem fits_encMS {op : Nat} (off : BitVec 7) (ho : op < 512) : Fits (encMS op off) := by
  have := off.isLt
  exact fits ho (by unfold encMS; omega) (by unfold encMS; omega) (fun _ => by unfold encMS; omega) (fun _ => by unfold encMS; omega)

theorem fits_encAS {op : Nat} (scope : Scope) (ho : op < 512) : Fits (encAS op scope) := by
  have := scope_lt scope
  exact fits ho (by unfold encAS; omega) (by unfold encAS; omega) (fun _ => by unfold encAS; omega) (fun _ => by unfold encAS; omega)

theorem fits_encAtom {op : Nat} (scope : Scope) (wide : Bool) (ret : Option (BitVec 5)) (ho : op < 512) : Fits (encAtom op scope wide ret) := by
  have := scope_lt scope
  have := bool_lt wide
  have := ret_lt ret
  exact fits ho (by unfold encAtom; omega) (by unfold encAtom; omega) (fun _ => by unfold encAtom; omega) (fun _ => by unfold encAtom; omega)

theorem fits_encAtomSc {op : Nat} (wide : Bool) (ret : Option (BitVec 5)) (ho : op < 512) : Fits (encAtomSc op wide ret) := by
  have := bool_lt wide
  have := ret_lt ret
  exact fits ho (by unfold encAtomSc; omega) (by unfold encAtomSc; omega) (fun _ => by unfold encAtomSc; omega) (fun _ => by unfold encAtomSc; omega)

theorem fits_encAW {op : Nat} (scope : Scope) (tl : BitVec 4) (t0 : Option Target) (ho : op < 512) : Fits (encAW op scope tl t0) := by
  have := scope_lt scope
  have := tl.isLt
  have := target_lt t0
  exact fits ho (by unfold encAW; omega) (by unfold encAW; omega) (fun _ => by unfold encAW; omega) (fun _ => by unfold encAW; omega)

theorem fits_encB {op : Nat} (off : BitVec 21) (ho : op < 512) (hl : hasLsid op = false) : Fits (encB op off) := by
  have := off.isLt
  exact fits ho (by unfold encB; omega) (by unfold encB; omega) (fun _ => by unfold encB; omega) (fun h => by simp [hl] at h)

theorem fits_encGBr {op : Nat} (ho : op < 512) : Fits (encGBr op) := by
  exact fits ho (by unfold encGBr; omega) (by unfold encGBr; omega) (fun _ => by unfold encGBr; omega) (fun _ => by unfold encGBr; omega)

theorem fits_encERoute {op : Nat} (route : BitVec 10) (ho : op < 512) : Fits (encERoute op route) := by
  have := route.isLt
  exact fits ho (by unfold encERoute; omega) (by unfold encERoute; omega) (fun _ => by unfold encERoute; omega) (fun _ => by unfold encERoute; omega)

theorem fits_encAT {op : Nat} (t0 : Option Target) (ho : op < 512) : Fits (encAT op t0) := by
  have := target_lt t0
  exact fits ho (by unfold encAT; omega) (by unfold encAT; omega) (fun _ => by unfold encAT; omega) (fun _ => by unfold encAT; omega)

theorem fits_encARet {op : Nat} (ret : Option (BitVec 5)) (ho : op < 512) : Fits (encARet op ret) := by
  have := ret_lt ret
  exact fits ho (by unfold encARet; omega) (by unfold encARet; omega) (fun _ => by unfold encARet; omega) (fun _ => by unfold encARet; omega)

theorem fits_encEDone {op : Nat} (dch : BitVec 7) (dn : Bool) (ho : op < 512) : Fits (encEDone op dch dn) := by
  have := dch.isLt
  have := bool_lt dn
  exact fits ho (by unfold encEDone; omega) (by unfold encEDone; omega) (fun _ => by unfold encEDone; omega) (fun _ => by unfold encEDone; omega)

theorem fits_encCpy {op : Nat} (port : BitVec 3) (cc : BitVec 2) (ret : Option (BitVec 5)) (ho : op < 512) : Fits (encCpy op port cc ret) := by
  have := port.isLt
  have := cc.isLt
  have := ret_lt ret
  exact fits ho (by unfold encCpy; omega) (by unfold encCpy; omega) (fun _ => by unfold encCpy; omega) (fun _ => by unfold encCpy; omega)

theorem fits_encCpyRes {op : Nat} (cc : BitVec 2) (ret : Option (BitVec 5)) (ho : op < 512) : Fits (encCpyRes op cc ret) := by
  have := cc.isLt
  have := ret_lt ret
  exact fits ho (by unfold encCpyRes; omega) (by unfold encCpyRes; omega) (fun _ => by unfold encCpyRes; omega) (fun _ => by unfold encCpyRes; omega)

theorem fits_encCpyAbn {op : Nat} (cc : BitVec 2) (ret : Option (BitVec 5)) (ho : op < 512) : Fits (encCpyAbn op cc ret) := by
  have := cc.isLt
  have := ret_lt ret
  exact fits ho (by unfold encCpyAbn; omega) (by unfold encCpyAbn; omega) (fun _ => by unfold encCpyAbn; omega) (fun _ => by unfold encCpyAbn; omega)

theorem fits_encGathRes {op : Nat} (ret : Option (BitVec 5)) (ho : op < 512) : Fits (encGathRes op ret) := by
  have := ret_lt ret
  exact fits ho (by unfold encGathRes; omega) (by unfold encGathRes; omega) (fun _ => by unfold encGathRes; omega) (fun _ => by unfold encGathRes; omega)

theorem fits_encGathAbn {op : Nat} (ret : Option (BitVec 5)) (ho : op < 512) : Fits (encGathAbn op ret) := by
  have := ret_lt ret
  exact fits ho (by unfold encGathAbn; omega) (by unfold encGathAbn; omega) (fun _ => by unfold encGathAbn; omega) (fun _ => by unfold encGathAbn; omega)

theorem fits_encTier {op : Nat} (dch : BitVec 7) (dn : Bool) (src : BitVec 4) (dst : BitVec 4) (ho : op < 512) : Fits (encTier op dch dn src dst) := by
  have := dch.isLt
  have := bool_lt dn
  have := src.isLt
  have := dst.isLt
  exact fits ho (by unfold encTier; omega) (by unfold encTier; omega) (fun _ => by unfold encTier; omega) (fun _ => by unfold encTier; omega)

theorem fits_encETile {op : Nat} (dch : BitVec 7) (dn : Bool) (tile : BitVec 3) (ho : op < 512) : Fits (encETile op dch dn tile) := by
  have := dch.isLt
  have := bool_lt dn
  have := tile.isLt
  exact fits ho (by unfold encETile; omega) (by unfold encETile; omega) (fun _ => by unfold encETile; omega) (fun _ => by unfold encETile; omega)

theorem fits_encEDoneRes {op : Nat} (dch : BitVec 7) (dn : Bool) (ho : op < 512) : Fits (encEDoneRes op dch dn) := by
  have := dch.isLt
  have := bool_lt dn
  exact fits ho (by unfold encEDoneRes; omega) (by unfold encEDoneRes; omega) (fun _ => by unfold encEDoneRes; omega) (fun _ => by unfold encEDoneRes; omega)

theorem fits_encEDoneAbn {op : Nat} (dch : BitVec 7) (dn : Bool) (ho : op < 512) : Fits (encEDoneAbn op dch dn) := by
  have := dch.isLt
  have := bool_lt dn
  exact fits ho (by unfold encEDoneAbn; omega) (by unfold encEDoneAbn; omega) (fun _ => by unfold encEDoneAbn; omega) (fun _ => by unfold encEDoneAbn; omega)

theorem fits_encEMode {op : Nat} (dch : BitVec 7) (dn : Bool) (tile : BitVec 3) (mode : BitVec 2) (ho : op < 512) : Fits (encEMode op dch dn tile mode) := by
  have := dch.isLt
  have := bool_lt dn
  have := tile.isLt
  have := mode.isLt
  exact fits ho (by unfold encEMode; omega) (by unfold encEMode; omega) (fun _ => by unfold encEMode; omega) (fun _ => by unfold encEMode; omega)

theorem fits_encEOpt {op : Nat} (dch : BitVec 7) (dn : Bool) (tile : BitVec 3) (cz : Bool) (ho : op < 512) : Fits (encEOpt op dch dn tile cz) := by
  have := dch.isLt
  have := bool_lt dn
  have := tile.isLt
  have := bool_lt cz
  exact fits ho (by unfold encEOpt; omega) (by unfold encEOpt; omega) (fun _ => by unfold encEOpt; omega) (fun _ => by unfold encEOpt; omega)

theorem fits_encEKind1 {op : Nat} (ho : op < 512) : Fits (encEKind1 op) := by
  exact fits ho (by unfold encEKind1; omega) (by unfold encEKind1; omega) (fun _ => by unfold encEKind1; omega) (fun _ => by unfold encEKind1; omega)

theorem fits_encEKind2 {op : Nat} (ho : op < 512) : Fits (encEKind2 op) := by
  exact fits ho (by unfold encEKind2; omega) (by unfold encEKind2; omega) (fun _ => by unfold encEKind2; omega) (fun _ => by unfold encEKind2; omega)

/-! ### Instructions -/

theorem read (g : BitVec 5) (t1 : Option Target) (t0 : Option Target) : Statement (.read g t1 t0) := fun _ h => by cases h; exact fits_encX g t1 t0 (by decide) rfl rfl
theorem write (g : BitVec 5) : Statement (.write g) := fun _ h => by cases h; have := g.isLt; exact fits (op := 0x002) (by decide) (by omega) (by omega) (fun h => absurd h (by decide)) (fun h => absurd h (by decide))
theorem arg (g : BitVec 5) (t1 : Option Target) (t0 : Option Target) : Statement (.arg g t1 t0) := fun _ h => by cases h; exact fits_encX g t1 t0 (by decide) rfl rfl
theorem mov (t1 : Option Target) (t0 : Option Target) : Statement (.mov t1 t0) := fun _ h => by cases h; exact fits_encG t1 t0 (by decide) rfl
theorem const (imm : BitVec 14) (t0 : Option Target) : Statement (.const imm t0) := fun _ h => by cases h; exact fits_encC imm t0 (by decide) rfl rfl
theorem consth (imm : BitVec 14) (t0 : Option Target) : Statement (.consth imm t0) := fun _ h => by cases h; exact fits_encC imm t0 (by decide) rfl rfl
theorem null (t1 : Option Target) (t0 : Option Target) : Statement (.null t1 t0) := fun _ h => by cases h; exact fits_encG t1 t0 (by decide) rfl
theorem gettag (view : TagField) (t1 : Option Target) (t0 : Option Target) : Statement (.gettag view t1 t0) := fun _ h => by cases h; have := tagField_lt view; have := target_lt t1; have := target_lt t0; exact fits (op := 0x009) (by decide) (by omega) (by omega) (fun _ => by omega) (fun h => absurd h (by decide))
theorem coord (view : CoordView) (t1 : Option Target) (t0 : Option Target) : Statement (.coord view t1 t0) := fun _ h => by cases h; have := coordView_lt view; have := target_lt t1; have := target_lt t0; exact fits (op := 0x00A) (by decide) (by omega) (by omega) (fun _ => by omega) (fun h => absurd h (by decide))
theorem add (w : Width) (t1 : Option Target) (t0 : Option Target) : Statement (.add w t1 t0) := fun _ h => by cases h; exact fits_encGW w t1 t0 (by decide) rfl
theorem addi (w : Width) (imm : BitVec 9) (t0 : Option Target) : Statement (.addi w imm t0) := fun _ h => by cases h; exact fits_encIW w imm t0 (by decide) rfl
theorem sub (w : Width) (t1 : Option Target) (t0 : Option Target) : Statement (.sub w t1 t0) := fun _ h => by cases h; exact fits_encGW w t1 t0 (by decide) rfl
theorem mul (w : Width) (t1 : Option Target) (t0 : Option Target) : Statement (.mul w t1 t0) := fun _ h => by cases h; exact fits_encGW w t1 t0 (by decide) rfl
theorem muli (w : Width) (imm : BitVec 9) (t0 : Option Target) : Statement (.muli w imm t0) := fun _ h => by cases h; exact fits_encIW w imm t0 (by decide) rfl
theorem mulh (w : Width) (t1 : Option Target) (t0 : Option Target) : Statement (.mulh w t1 t0) := fun _ h => by cases h; exact fits_encGW w t1 t0 (by decide) rfl
theorem mulhn (w : Width) (t1 : Option Target) (t0 : Option Target) : Statement (.mulhn w t1 t0) := fun _ h => by cases h; exact fits_encGW w t1 t0 (by decide) rfl
theorem madd (w : Width) (t1 : Option Target) (t0 : Option Target) : Statement (.madd w t1 t0) := fun _ h => by cases h; exact fits_encGW w t1 t0 (by decide) rfl
theorem div (w : Width) (t1 : Option Target) (t0 : Option Target) : Statement (.div w t1 t0) := fun _ h => by cases h; exact fits_encGW w t1 t0 (by decide) rfl
theorem divn (w : Width) (t1 : Option Target) (t0 : Option Target) : Statement (.divn w t1 t0) := fun _ h => by cases h; exact fits_encGW w t1 t0 (by decide) rfl
theorem rem (w : Width) (t1 : Option Target) (t0 : Option Target) : Statement (.rem w t1 t0) := fun _ h => by cases h; exact fits_encGW w t1 t0 (by decide) rfl
theorem remn (w : Width) (t1 : Option Target) (t0 : Option Target) : Statement (.remn w t1 t0) := fun _ h => by cases h; exact fits_encGW w t1 t0 (by decide) rfl
theorem neg (w : Width) (t1 : Option Target) (t0 : Option Target) : Statement (.neg w t1 t0) := fun _ h => by cases h; exact fits_encGW w t1 t0 (by decide) rfl
theorem abs (w : Width) (t1 : Option Target) (t0 : Option Target) : Statement (.abs w t1 t0) := fun _ h => by cases h; exact fits_encGW w t1 t0 (by decide) rfl
theorem min (w : Width) (t1 : Option Target) (t0 : Option Target) : Statement (.min w t1 t0) := fun _ h => by cases h; exact fits_encGW w t1 t0 (by decide) rfl
theorem max (w : Width) (t1 : Option Target) (t0 : Option Target) : Statement (.max w t1 t0) := fun _ h => by cases h; exact fits_encGW w t1 t0 (by decide) rfl
theorem minn (w : Width) (t1 : Option Target) (t0 : Option Target) : Statement (.minn w t1 t0) := fun _ h => by cases h; exact fits_encGW w t1 t0 (by decide) rfl
theorem maxn (w : Width) (t1 : Option Target) (t0 : Option Target) : Statement (.maxn w t1 t0) := fun _ h => by cases h; exact fits_encGW w t1 t0 (by decide) rfl
theorem addsat (w : Width) (t1 : Option Target) (t0 : Option Target) : Statement (.addsat w t1 t0) := fun _ h => by cases h; exact fits_encGW w t1 t0 (by decide) rfl
theorem subsat (w : Width) (t1 : Option Target) (t0 : Option Target) : Statement (.subsat w t1 t0) := fun _ h => by cases h; exact fits_encGW w t1 t0 (by decide) rfl
theorem and (w : Width) (t1 : Option Target) (t0 : Option Target) : Statement (.and w t1 t0) := fun _ h => by cases h; exact fits_encGW w t1 t0 (by decide) rfl
theorem andi (w : Width) (imm : BitVec 9) (t0 : Option Target) : Statement (.andi w imm t0) := fun _ h => by cases h; exact fits_encIW w imm t0 (by decide) rfl
theorem or (w : Width) (t1 : Option Target) (t0 : Option Target) : Statement (.or w t1 t0) := fun _ h => by cases h; exact fits_encGW w t1 t0 (by decide) rfl
theorem ori (w : Width) (imm : BitVec 9) (t0 : Option Target) : Statement (.ori w imm t0) := fun _ h => by cases h; exact fits_encIW w imm t0 (by decide) rfl
theorem xor (w : Width) (t1 : Option Target) (t0 : Option Target) : Statement (.xor w t1 t0) := fun _ h => by cases h; exact fits_encGW w t1 t0 (by decide) rfl
theorem xori (w : Width) (imm : BitVec 9) (t0 : Option Target) : Statement (.xori w imm t0) := fun _ h => by cases h; exact fits_encIW w imm t0 (by decide) rfl
theorem andn (w : Width) (t1 : Option Target) (t0 : Option Target) : Statement (.andn w t1 t0) := fun _ h => by cases h; exact fits_encGW w t1 t0 (by decide) rfl
theorem not (w : Width) (t1 : Option Target) (t0 : Option Target) : Statement (.not w t1 t0) := fun _ h => by cases h; exact fits_encGW w t1 t0 (by decide) rfl
theorem shl (w : Width) (t1 : Option Target) (t0 : Option Target) : Statement (.shl w t1 t0) := fun _ h => by cases h; exact fits_encGW w t1 t0 (by decide) rfl
theorem shli (w : Width) (imm : BitVec 9) (t0 : Option Target) : Statement (.shli w imm t0) := fun _ h => by cases h; exact fits_encIW w imm t0 (by decide) rfl
theorem shr (w : Width) (t1 : Option Target) (t0 : Option Target) : Statement (.shr w t1 t0) := fun _ h => by cases h; exact fits_encGW w t1 t0 (by decide) rfl
theorem shri (w : Width) (imm : BitVec 9) (t0 : Option Target) : Statement (.shri w imm t0) := fun _ h => by cases h; exact fits_encIW w imm t0 (by decide) rfl
theorem sar (w : Width) (t1 : Option Target) (t0 : Option Target) : Statement (.sar w t1 t0) := fun _ h => by cases h; exact fits_encGW w t1 t0 (by decide) rfl
theorem sari (w : Width) (imm : BitVec 9) (t0 : Option Target) : Statement (.sari w imm t0) := fun _ h => by cases h; exact fits_encIW w imm t0 (by decide) rfl
theorem rol (w : Width) (t1 : Option Target) (t0 : Option Target) : Statement (.rol w t1 t0) := fun _ h => by cases h; exact fits_encGW w t1 t0 (by decide) rfl
theorem ror (w : Width) (t1 : Option Target) (t0 : Option Target) : Statement (.ror w t1 t0) := fun _ h => by cases h; exact fits_encGW w t1 t0 (by decide) rfl
theorem lea (sc : Scale) (t1 : Option Target) (t0 : Option Target) : Statement (.lea sc t1 t0) := fun _ h => by cases h; have := scale_lt sc; have := target_lt t1; have := target_lt t0; exact fits (op := 0x064) (by decide) (by omega) (by omega) (fun _ => by omega) (fun h => absurd h (by decide))
theorem sext (w : Width) (t1 : Option Target) (t0 : Option Target) : Statement (.sext w t1 t0) := fun _ h => by cases h; exact fits_encGW w t1 t0 (by decide) rfl
theorem zext (w : Width) (t1 : Option Target) (t0 : Option Target) : Statement (.zext w t1 t0) := fun _ h => by cases h; exact fits_encGW w t1 t0 (by decide) rfl
theorem teq (w : Width) (t1 : Option Target) (t0 : Option Target) : Statement (.teq w t1 t0) := fun _ h => by cases h; exact fits_encGW w t1 t0 (by decide) rfl
theorem tne (w : Width) (t1 : Option Target) (t0 : Option Target) : Statement (.tne w t1 t0) := fun _ h => by cases h; exact fits_encGW w t1 t0 (by decide) rfl
theorem tlt (w : Width) (t1 : Option Target) (t0 : Option Target) : Statement (.tlt w t1 t0) := fun _ h => by cases h; exact fits_encGW w t1 t0 (by decide) rfl
theorem tle (w : Width) (t1 : Option Target) (t0 : Option Target) : Statement (.tle w t1 t0) := fun _ h => by cases h; exact fits_encGW w t1 t0 (by decide) rfl
theorem tltn (w : Width) (t1 : Option Target) (t0 : Option Target) : Statement (.tltn w t1 t0) := fun _ h => by cases h; exact fits_encGW w t1 t0 (by decide) rfl
theorem tlen (w : Width) (t1 : Option Target) (t0 : Option Target) : Statement (.tlen w t1 t0) := fun _ h => by cases h; exact fits_encGW w t1 t0 (by decide) rfl
theorem teqi (w : Width) (imm : BitVec 9) (t0 : Option Target) : Statement (.teqi w imm t0) := fun _ h => by cases h; exact fits_encIW w imm t0 (by decide) rfl
theorem tnei (w : Width) (imm : BitVec 9) (t0 : Option Target) : Statement (.tnei w imm t0) := fun _ h => by cases h; exact fits_encIW w imm t0 (by decide) rfl
theorem tlti (w : Width) (imm : BitVec 9) (t0 : Option Target) : Statement (.tlti w imm t0) := fun _ h => by cases h; exact fits_encIW w imm t0 (by decide) rfl
theorem tlei (w : Width) (imm : BitVec 9) (t0 : Option Target) : Statement (.tlei w imm t0) := fun _ h => by cases h; exact fits_encIW w imm t0 (by decide) rfl
theorem tltni (w : Width) (imm : BitVec 9) (t0 : Option Target) : Statement (.tltni w imm t0) := fun _ h => by cases h; exact fits_encIW w imm t0 (by decide) rfl
theorem tleni (w : Width) (imm : BitVec 9) (t0 : Option Target) : Statement (.tleni w imm t0) := fun _ h => by cases h; exact fits_encIW w imm t0 (by decide) rfl
theorem sel (t1 : Option Target) (t0 : Option Target) : Statement (.sel t1 t0) := fun _ h => by cases h; exact fits_encG t1 t0 (by decide) rfl
theorem clz (w : Width) (t1 : Option Target) (t0 : Option Target) : Statement (.clz w t1 t0) := fun _ h => by cases h; exact fits_encGW w t1 t0 (by decide) rfl
theorem ctz (w : Width) (t1 : Option Target) (t0 : Option Target) : Statement (.ctz w t1 t0) := fun _ h => by cases h; exact fits_encGW w t1 t0 (by decide) rfl
theorem popc (w : Width) (t1 : Option Target) (t0 : Option Target) : Statement (.popc w t1 t0) := fun _ h => by cases h; exact fits_encGW w t1 t0 (by decide) rfl
theorem brev (w : Width) (t1 : Option Target) (t0 : Option Target) : Statement (.brev w t1 t0) := fun _ h => by cases h; exact fits_encGW w t1 t0 (by decide) rfl
theorem bswap (w : Width) (t1 : Option Target) (t0 : Option Target) : Statement (.bswap w t1 t0) := fun _ h => by cases h; exact fits_encGW w t1 t0 (by decide) rfl
theorem bfx (w : Width) (t1 : Option Target) (t0 : Option Target) : Statement (.bfx w t1 t0) := fun _ h => by cases h; exact fits_encGW w t1 t0 (by decide) rfl
theorem bfxs (w : Width) (t1 : Option Target) (t0 : Option Target) : Statement (.bfxs w t1 t0) := fun _ h => by cases h; exact fits_encGW w t1 t0 (by decide) rfl
theorem bfi (w : Width) (t1 : Option Target) (t0 : Option Target) : Statement (.bfi w t1 t0) := fun _ h => by cases h; exact fits_encGW w t1 t0 (by decide) rfl
theorem bitt (w : Width) (t1 : Option Target) (t0 : Option Target) : Statement (.bitt w t1 t0) := fun _ h => by cases h; exact fits_encGW w t1 t0 (by decide) rfl
theorem taintq (t1 : Option Target) (t0 : Option Target) : Statement (.taintq t1 t0) := fun _ h => by cases h; exact fits_encG t1 t0 (by decide) rfl
theorem fadd (f : FFmt) (t1 : Option Target) (t0 : Option Target) : Statement (.fadd f t1 t0) := fun _ h => by cases h; exact fits_encGF f t1 t0 (by decide) rfl
theorem fsub (f : FFmt) (t1 : Option Target) (t0 : Option Target) : Statement (.fsub f t1 t0) := fun _ h => by cases h; exact fits_encGF f t1 t0 (by decide) rfl
theorem fmul (f : FFmt) (t1 : Option Target) (t0 : Option Target) : Statement (.fmul f t1 t0) := fun _ h => by cases h; exact fits_encGF f t1 t0 (by decide) rfl
theorem fma (f : FFmt) (t1 : Option Target) (t0 : Option Target) : Statement (.fma f t1 t0) := fun _ h => by cases h; exact fits_encGF f t1 t0 (by decide) rfl
theorem fnma (f : FFmt) (t1 : Option Target) (t0 : Option Target) : Statement (.fnma f t1 t0) := fun _ h => by cases h; exact fits_encGF f t1 t0 (by decide) rfl
theorem fdiv (f : FFmt) (t1 : Option Target) (t0 : Option Target) : Statement (.fdiv f t1 t0) := fun _ h => by cases h; exact fits_encGF f t1 t0 (by decide) rfl
theorem fsqrt (f : FFmt) (t1 : Option Target) (t0 : Option Target) : Statement (.fsqrt f t1 t0) := fun _ h => by cases h; exact fits_encGF f t1 t0 (by decide) rfl
theorem fmin (f : FFmt) (t1 : Option Target) (t0 : Option Target) : Statement (.fmin f t1 t0) := fun _ h => by cases h; exact fits_encGF f t1 t0 (by decide) rfl
theorem fmax (f : FFmt) (t1 : Option Target) (t0 : Option Target) : Statement (.fmax f t1 t0) := fun _ h => by cases h; exact fits_encGF f t1 t0 (by decide) rfl
theorem fabs (f : FFmt) (t1 : Option Target) (t0 : Option Target) : Statement (.fabs f t1 t0) := fun _ h => by cases h; exact fits_encGF f t1 t0 (by decide) rfl
theorem fneg (f : FFmt) (t1 : Option Target) (t0 : Option Target) : Statement (.fneg f t1 t0) := fun _ h => by cases h; exact fits_encGF f t1 t0 (by decide) rfl
theorem fcpys (f : FFmt) (t1 : Option Target) (t0 : Option Target) : Statement (.fcpys f t1 t0) := fun _ h => by cases h; exact fits_encGF f t1 t0 (by decide) rfl
theorem fteq (f : FFmt) (t1 : Option Target) (t0 : Option Target) : Statement (.fteq f t1 t0) := fun _ h => by cases h; exact fits_encGF f t1 t0 (by decide) rfl
theorem ftlt (f : FFmt) (t1 : Option Target) (t0 : Option Target) : Statement (.ftlt f t1 t0) := fun _ h => by cases h; exact fits_encGF f t1 t0 (by decide) rfl
theorem ftle (f : FFmt) (t1 : Option Target) (t0 : Option Target) : Statement (.ftle f t1 t0) := fun _ h => by cases h; exact fits_encGF f t1 t0 (by decide) rfl
theorem ftun (f : FFmt) (t1 : Option Target) (t0 : Option Target) : Statement (.ftun f t1 t0) := fun _ h => by cases h; exact fits_encGF f t1 t0 (by decide) rfl
theorem fclass (f : FFmt) (t1 : Option Target) (t0 : Option Target) : Statement (.fclass f t1 t0) := fun _ h => by cases h; exact fits_encGF f t1 t0 (by decide) rfl
theorem frnd (f : FFmt) (flag : Bool) (mode : RMode) (t0 : Option Target) : Statement (.frnd f flag mode t0) := fun _ h => by cases h; have := ffmt_lt f; have := bool_lt flag; have := rmode_lt mode; have := target_lt t0; exact fits (op := 0x0D1) (by decide) (by omega) (by omega) (fun _ => by omega) (fun h => absurd h (by decide))
theorem fscale (f : FFmt) (t1 : Option Target) (t0 : Option Target) : Statement (.fscale f t1 t0) := fun _ h => by cases h; exact fits_encGF f t1 t0 (by decide) rfl
theorem fgetexp (f : FFmt) (t1 : Option Target) (t0 : Option Target) : Statement (.fgetexp f t1 t0) := fun _ h => by cases h; exact fits_encGF f t1 t0 (by decide) rfl
theorem cvtff (mode : RMode) (src : FFmt) (dst : FFmt) (t0 : Option Target) : Statement (.cvtff mode src dst t0) := fun _ h => by cases h; have := rmode_lt mode; have := ffmt_lt src; have := ffmt_lt dst; have := target_lt t0; exact fits (op := 0x0D4) (by decide) (by omega) (by omega) (fun _ => by omega) (fun h => absurd h (by decide))
theorem cvtfi (mode : RMode) (src : FFmt) (dst : IFmt) (t0 : Option Target) : Statement (.cvtfi mode src dst t0) := fun _ h => by cases h; have := rmode_lt mode; have := ffmt_lt src; have := ifmt_lt dst; have := target_lt t0; exact fits (op := 0x0D5) (by decide) (by omega) (by omega) (fun _ => by omega) (fun h => absurd h (by decide))
theorem cvtif (mode : RMode) (src : IFmt) (dst : FFmt) (t0 : Option Target) : Statement (.cvtif mode src dst t0) := fun _ h => by cases h; have := rmode_lt mode; have := ifmt_lt src; have := ffmt_lt dst; have := target_lt t0; exact fits (op := 0x0D6) (by decide) (by omega) (by omega) (fun _ => by omega) (fun h => absurd h (by decide))
theorem cvtsr (src : FFmt) (dst : FFmt) (t0 : Option Target) : Statement (.cvtsr src dst t0) := fun _ h => by cases h; have := ffmt_lt src; have := ffmt_lt dst; have := target_lt t0; exact fits (op := 0x0D7) (by decide) (by omega) (by omega) (fun _ => by omega) (fun h => absurd h (by decide))
theorem frcpa (single : Bool) (t1 : Option Target) (t0 : Option Target) : Statement (.frcpa single t1 t0) := fun _ h => by cases h; exact fits_encGB single t1 t0 (by decide) rfl
theorem frsqa (single : Bool) (t1 : Option Target) (t0 : Option Target) : Statement (.frsqa single t1 t0) := fun _ h => by cases h; exact fits_encGB single t1 t0 (by decide) rfl
theorem fexp2a (t1 : Option Target) (t0 : Option Target) : Statement (.fexp2a t1 t0) := fun _ h => by cases h; exact fits_encG1 t1 t0 (by decide) rfl
theorem flog2a (t1 : Option Target) (t0 : Option Target) : Statement (.flog2a t1 t0) := fun _ h => by cases h; exact fits_encG1 t1 t0 (by decide) rfl
theorem fsina (t1 : Option Target) (t0 : Option Target) : Statement (.fsina t1 t0) := fun _ h => by cases h; exact fits_encG1 t1 t0 (by decide) rfl
theorem fcosa (t1 : Option Target) (t0 : Option Target) : Statement (.fcosa t1 t0) := fun _ h => by cases h; exact fits_encG1 t1 t0 (by decide) rfl
theorem rand (t1 : Option Target) (t0 : Option Target) : Statement (.rand t1 t0) := fun _ h => by cases h; exact fits_encG t1 t0 (by decide) rfl
theorem ldS8 (off : BitVec 7) (t0 : Option Target) : Statement (.ldS8 off t0) := fun _ h => by cases h; exact fits_encM off t0 (by decide)
theorem ldN8 (off : BitVec 7) (t0 : Option Target) : Statement (.ldN8 off t0) := fun _ h => by cases h; exact fits_encM off t0 (by decide)
theorem ldS16 (off : BitVec 7) (t0 : Option Target) : Statement (.ldS16 off t0) := fun _ h => by cases h; exact fits_encM off t0 (by decide)
theorem ldN16 (off : BitVec 7) (t0 : Option Target) : Statement (.ldN16 off t0) := fun _ h => by cases h; exact fits_encM off t0 (by decide)
theorem ldS32 (off : BitVec 7) (t0 : Option Target) : Statement (.ldS32 off t0) := fun _ h => by cases h; exact fits_encM off t0 (by decide)
theorem ldN32 (off : BitVec 7) (t0 : Option Target) : Statement (.ldN32 off t0) := fun _ h => by cases h; exact fits_encM off t0 (by decide)
theorem ldD64 (off : BitVec 7) (t0 : Option Target) : Statement (.ldD64 off t0) := fun _ h => by cases h; exact fits_encM off t0 (by decide)
theorem ldaS8 (scope : Scope) (t0 : Option Target) : Statement (.ldaS8 scope t0) := fun _ h => by cases h; exact fits_encAL scope t0 (by decide)
theorem ldaN8 (scope : Scope) (t0 : Option Target) : Statement (.ldaN8 scope t0) := fun _ h => by cases h; exact fits_encAL scope t0 (by decide)
theorem ldaS16 (scope : Scope) (t0 : Option Target) : Statement (.ldaS16 scope t0) := fun _ h => by cases h; exact fits_encAL scope t0 (by decide)
theorem ldaN16 (scope : Scope) (t0 : Option Target) : Statement (.ldaN16 scope t0) := fun _ h => by cases h; exact fits_encAL scope t0 (by decide)
theorem ldaS32 (scope : Scope) (t0 : Option Target) : Statement (.ldaS32 scope t0) := fun _ h => by cases h; exact fits_encAL scope t0 (by decide)
theorem ldaN32 (scope : Scope) (t0 : Option Target) : Statement (.ldaN32 scope t0) := fun _ h => by cases h; exact fits_encAL scope t0 (by decide)
theorem ldaD64 (scope : Scope) (t0 : Option Target) : Statement (.ldaD64 scope t0) := fun _ h => by cases h; exact fits_encAL scope t0 (by decide)
theorem ldntS8 (off : BitVec 7) (t0 : Option Target) : Statement (.ldntS8 off t0) := fun _ h => by cases h; exact fits_encM off t0 (by decide)
theorem ldntN8 (off : BitVec 7) (t0 : Option Target) : Statement (.ldntN8 off t0) := fun _ h => by cases h; exact fits_encM off t0 (by decide)
theorem ldntS16 (off : BitVec 7) (t0 : Option Target) : Statement (.ldntS16 off t0) := fun _ h => by cases h; exact fits_encM off t0 (by decide)
theorem ldntN16 (off : BitVec 7) (t0 : Option Target) : Statement (.ldntN16 off t0) := fun _ h => by cases h; exact fits_encM off t0 (by decide)
theorem ldntS32 (off : BitVec 7) (t0 : Option Target) : Statement (.ldntS32 off t0) := fun _ h => by cases h; exact fits_encM off t0 (by decide)
theorem ldntN32 (off : BitVec 7) (t0 : Option Target) : Statement (.ldntN32 off t0) := fun _ h => by cases h; exact fits_encM off t0 (by decide)
theorem ldntD64 (off : BitVec 7) (t0 : Option Target) : Statement (.ldntD64 off t0) := fun _ h => by cases h; exact fits_encM off t0 (by decide)
theorem stN8 (off : BitVec 7) : Statement (.stN8 off) := fun _ h => by cases h; exact fits_encMS off (by decide)
theorem stN16 (off : BitVec 7) : Statement (.stN16 off) := fun _ h => by cases h; exact fits_encMS off (by decide)
theorem stN32 (off : BitVec 7) : Statement (.stN32 off) := fun _ h => by cases h; exact fits_encMS off (by decide)
theorem stD64 (off : BitVec 7) : Statement (.stD64 off) := fun _ h => by cases h; exact fits_encMS off (by decide)
theorem strN8 (scope : Scope) : Statement (.strN8 scope) := fun _ h => by cases h; exact fits_encAS scope (by decide)
theorem strN16 (scope : Scope) : Statement (.strN16 scope) := fun _ h => by cases h; exact fits_encAS scope (by decide)
theorem strN32 (scope : Scope) : Statement (.strN32 scope) := fun _ h => by cases h; exact fits_encAS scope (by decide)
theorem strD64 (scope : Scope) : Statement (.strD64 scope) := fun _ h => by cases h; exact fits_encAS scope (by decide)
theorem stntN8 (off : BitVec 7) : Statement (.stntN8 off) := fun _ h => by cases h; exact fits_encMS off (by decide)
theorem stntN16 (off : BitVec 7) : Statement (.stntN16 off) := fun _ h => by cases h; exact fits_encMS off (by decide)
theorem stntN32 (off : BitVec 7) : Statement (.stntN32 off) := fun _ h => by cases h; exact fits_encMS off (by decide)
theorem stntD64 (off : BitVec 7) : Statement (.stntD64 off) := fun _ h => by cases h; exact fits_encMS off (by decide)
theorem pref (off : BitVec 7) : Statement (.pref off) := fun _ h => by cases h; have := off.isLt; exact fits (op := 0x121) (by decide) (by omega) (by omega) (fun _ => by omega) (fun _ => by omega)
theorem aadd (scope : Scope) (wide : Bool) (ret : Option (BitVec 5)) : Statement (.aadd scope wide ret) := fun _ h => by cases h; exact fits_encAtom scope wide ret (by decide)
theorem amin (scope : Scope) (wide : Bool) (ret : Option (BitVec 5)) : Statement (.amin scope wide ret) := fun _ h => by cases h; exact fits_encAtom scope wide ret (by decide)
theorem amax (scope : Scope) (wide : Bool) (ret : Option (BitVec 5)) : Statement (.amax scope wide ret) := fun _ h => by cases h; exact fits_encAtom scope wide ret (by decide)
theorem aminn (scope : Scope) (wide : Bool) (ret : Option (BitVec 5)) : Statement (.aminn scope wide ret) := fun _ h => by cases h; exact fits_encAtom scope wide ret (by decide)
theorem amaxn (scope : Scope) (wide : Bool) (ret : Option (BitVec 5)) : Statement (.amaxn scope wide ret) := fun _ h => by cases h; exact fits_encAtom scope wide ret (by decide)
theorem aand (scope : Scope) (wide : Bool) (ret : Option (BitVec 5)) : Statement (.aand scope wide ret) := fun _ h => by cases h; exact fits_encAtom scope wide ret (by decide)
theorem aor (scope : Scope) (wide : Bool) (ret : Option (BitVec 5)) : Statement (.aor scope wide ret) := fun _ h => by cases h; exact fits_encAtom scope wide ret (by decide)
theorem axor (scope : Scope) (wide : Bool) (ret : Option (BitVec 5)) : Statement (.axor scope wide ret) := fun _ h => by cases h; exact fits_encAtom scope wide ret (by decide)
theorem axchg (scope : Scope) (wide : Bool) (ret : Option (BitVec 5)) : Statement (.axchg scope wide ret) := fun _ h => by cases h; exact fits_encAtom scope wide ret (by decide)
theorem acas (scope : Scope) (wide : Bool) (ret : Option (BitVec 5)) : Statement (.acas scope wide ret) := fun _ h => by cases h; exact fits_encAtom scope wide ret (by decide)
theorem aincw (scope : Scope) (wide : Bool) (ret : Option (BitVec 5)) : Statement (.aincw scope wide ret) := fun _ h => by cases h; exact fits_encAtom scope wide ret (by decide)
theorem afadd (scope : Scope) (wide : Bool) (ret : Option (BitVec 5)) : Statement (.afadd scope wide ret) := fun _ h => by cases h; exact fits_encAtom scope wide ret (by decide)
theorem aaddSc (wide : Bool) (ret : Option (BitVec 5)) : Statement (.aaddSc wide ret) := fun _ h => by cases h; exact fits_encAtomSc wide ret (by decide)
theorem aminSc (wide : Bool) (ret : Option (BitVec 5)) : Statement (.aminSc wide ret) := fun _ h => by cases h; exact fits_encAtomSc wide ret (by decide)
theorem amaxSc (wide : Bool) (ret : Option (BitVec 5)) : Statement (.amaxSc wide ret) := fun _ h => by cases h; exact fits_encAtomSc wide ret (by decide)
theorem aminnSc (wide : Bool) (ret : Option (BitVec 5)) : Statement (.aminnSc wide ret) := fun _ h => by cases h; exact fits_encAtomSc wide ret (by decide)
theorem amaxnSc (wide : Bool) (ret : Option (BitVec 5)) : Statement (.amaxnSc wide ret) := fun _ h => by cases h; exact fits_encAtomSc wide ret (by decide)
theorem aandSc (wide : Bool) (ret : Option (BitVec 5)) : Statement (.aandSc wide ret) := fun _ h => by cases h; exact fits_encAtomSc wide ret (by decide)
theorem aorSc (wide : Bool) (ret : Option (BitVec 5)) : Statement (.aorSc wide ret) := fun _ h => by cases h; exact fits_encAtomSc wide ret (by decide)
theorem axorSc (wide : Bool) (ret : Option (BitVec 5)) : Statement (.axorSc wide ret) := fun _ h => by cases h; exact fits_encAtomSc wide ret (by decide)
theorem axchgSc (wide : Bool) (ret : Option (BitVec 5)) : Statement (.axchgSc wide ret) := fun _ h => by cases h; exact fits_encAtomSc wide ret (by decide)
theorem acasSc (wide : Bool) (ret : Option (BitVec 5)) : Statement (.acasSc wide ret) := fun _ h => by cases h; exact fits_encAtomSc wide ret (by decide)
theorem aincwSc (wide : Bool) (ret : Option (BitVec 5)) : Statement (.aincwSc wide ret) := fun _ h => by cases h; exact fits_encAtomSc wide ret (by decide)
theorem afaddSc (wide : Bool) (ret : Option (BitVec 5)) : Statement (.afaddSc wide ret) := fun _ h => by cases h; exact fits_encAtomSc wide ret (by decide)
theorem fence (scope : Scope) : Statement (.fence scope) := fun _ h => by cases h; exact fits_encAS scope (by decide)
theorem waittl (scope : Scope) (tl : BitVec 4) (t0 : Option Target) : Statement (.waittl scope tl t0) := fun _ h => by cases h; exact fits_encAW scope tl t0 (by decide)
theorem tlget (view : TlView) (t1 : Option Target) (t0 : Option Target) : Statement (.tlget view t1 t0) := fun _ h => by cases h; have := tlView_lt view; have := target_lt t1; have := target_lt t0; exact fits (op := 0x13C) (by decide) (by omega) (by omega) (fun _ => by omega) (fun h => absurd h (by decide))
theorem tlsig (scope : Scope) (tl : BitVec 4) : Statement (.tlsig scope tl) := fun _ h => by cases h; have := scope_lt scope; have := tl.isLt; exact fits (op := 0x13D) (by decide) (by omega) (by omega) (fun _ => by omega) (fun _ => by omega)
theorem br (off : BitVec 21) : Statement (.br off) := fun _ h => by cases h; exact fits_encB off (by decide) rfl
theorem call (off : BitVec 21) : Statement (.call off) := fun _ h => by cases h; exact fits_encB off (by decide) rfl
theorem exit (free : Bool) : Statement (.exit free) := fun _ h => by cases h; have := bool_lt free; exact fits (op := 0x145) (by decide) (by omega) (by omega) (fun _ => by omega) (fun h => absurd h (by decide))
theorem yield (off : BitVec 21) : Statement (.yield off) := fun _ h => by cases h; exact fits_encB off (by decide) rfl
theorem spawn (n : BitVec 2) (ret : Option (BitVec 5)) : Statement (.spawn n ret) := fun _ h => by cases h; have := n.isLt; have := ret_lt ret; exact fits (op := 0x147) (by decide) (by omega) (by omega) (fun _ => by omega) (fun _ => by omega)
theorem send (route : BitVec 10) : Statement (.send route) := fun _ h => by cases h; exact fits_encERoute route (by decide)
theorem sendm (route : BitVec 10) : Statement (.sendm route) := fun _ h => by cases h; exact fits_encERoute route (by decide)
theorem expect (t0 : Option Target) : Statement (.expect t0) := fun _ h => by cases h; exact fits_encAT t0 (by decide)
theorem tagnew (ret : Option (BitVec 5)) : Statement (.tagnew ret) := fun _ h => by cases h; exact fits_encARet ret (by decide)
theorem iter (n : BitVec 2) : Statement (.iter n) := fun _ h => by cases h; have := n.isLt; exact fits (op := 0x14D) (by decide) (by omega) (by omega) (fun _ => by omega) (fun _ => by omega)
theorem launch (scope : Scope) (trap : Bool) (cores : Bool) (ordered : Bool) (ret : Option (BitVec 5)) : Statement (.launch scope trap cores ordered ret) := fun _ h => by cases h; have := scope_lt scope; have := bool_lt trap; have := bool_lt cores; have := bool_lt ordered; have := ret_lt ret; exact fits (op := 0x14F) (by decide) (by omega) (by omega) (fun _ => by omega) (fun _ => by omega)
theorem cfgld (dch : BitVec 7) (dn : Bool) : Statement (.cfgld dch dn) := fun _ h => by cases h; exact fits_encEDone dch dn (by decide)
theorem cfgsw (dch : BitVec 7) (dn : Bool) : Statement (.cfgsw dch dn) := fun _ h => by cases h; exact fits_encEDone dch dn (by decide)
theorem eos (route : BitVec 10) : Statement (.eos route) := fun _ h => by cases h; exact fits_encERoute route (by decide)
theorem drainq (peer : Bool) (t1 : Option Target) (t0 : Option Target) : Statement (.drainq peer t1 t0) := fun _ h => by cases h; exact fits_encGB peer t1 t0 (by decide) rfl
theorem prio (age : Bool) (cls : BitVec 3) : Statement (.prio age cls) := fun _ h => by cases h; have := bool_lt age; have := cls.isLt; exact fits (op := 0x154) (by decide) (by omega) (by omega) (fun _ => by omega) (fun _ => by omega)
theorem mark (t0 : Option Target) : Statement (.mark t0) := fun _ h => by cases h; exact fits_encAT t0 (by decide)
theorem cpy (port : BitVec 3) (cc : BitVec 2) (ret : Option (BitVec 5)) : Statement (.cpy port cc ret) := fun _ h => by cases h; exact fits_encCpy port cc ret (by decide)
theorem cpyRes (cc : BitVec 2) (ret : Option (BitVec 5)) : Statement (.cpyRes cc ret) := fun _ h => by cases h; exact fits_encCpyRes cc ret (by decide)
theorem cpyAbn (cc : BitVec 2) (ret : Option (BitVec 5)) : Statement (.cpyAbn cc ret) := fun _ h => by cases h; exact fits_encCpyAbn cc ret (by decide)
theorem cpypl (port : BitVec 3) (cc : BitVec 2) (ret : Option (BitVec 5)) : Statement (.cpypl port cc ret) := fun _ h => by cases h; exact fits_encCpy port cc ret (by decide)
theorem cpyplRes (cc : BitVec 2) (ret : Option (BitVec 5)) : Statement (.cpyplRes cc ret) := fun _ h => by cases h; exact fits_encCpyRes cc ret (by decide)
theorem cpyplAbn (cc : BitVec 2) (ret : Option (BitVec 5)) : Statement (.cpyplAbn cc ret) := fun _ h => by cases h; exact fits_encCpyAbn cc ret (by decide)
theorem cpyun (port : BitVec 3) (cc : BitVec 2) (ret : Option (BitVec 5)) : Statement (.cpyun port cc ret) := fun _ h => by cases h; exact fits_encCpy port cc ret (by decide)
theorem cpyunRes (cc : BitVec 2) (ret : Option (BitVec 5)) : Statement (.cpyunRes cc ret) := fun _ h => by cases h; exact fits_encCpyRes cc ret (by decide)
theorem cpyunAbn (cc : BitVec 2) (ret : Option (BitVec 5)) : Statement (.cpyunAbn cc ret) := fun _ h => by cases h; exact fits_encCpyAbn cc ret (by decide)
theorem gath (ret : Option (BitVec 5)) : Statement (.gath ret) := fun _ h => by cases h; exact fits_encARet ret (by decide)
theorem gathRes (ret : Option (BitVec 5)) : Statement (.gathRes ret) := fun _ h => by cases h; exact fits_encGathRes ret (by decide)
theorem gathAbn (ret : Option (BitVec 5)) : Statement (.gathAbn ret) := fun _ h => by cases h; exact fits_encGathAbn ret (by decide)
theorem scat (ret : Option (BitVec 5)) : Statement (.scat ret) := fun _ h => by cases h; exact fits_encARet ret (by decide)
theorem scatRes (ret : Option (BitVec 5)) : Statement (.scatRes ret) := fun _ h => by cases h; exact fits_encGathRes ret (by decide)
theorem scatAbn (ret : Option (BitVec 5)) : Statement (.scatAbn ret) := fun _ h => by cases h; exact fits_encGathAbn ret (by decide)
theorem wpwait (scope : Scope) (peer : Bool) (cp : BitVec 2) (t0 : Option Target) : Statement (.wpwait scope peer cp t0) := fun _ h => by cases h; have := scope_lt scope; have := bool_lt peer; have := cp.isLt; have := target_lt t0; exact fits (op := 0x185) (by decide) (by omega) (by omega) (fun _ => by omega) (fun _ => by omega)
theorem chkwait (scope : Scope) (word : BitVec 4) (t0 : Option Target) : Statement (.chkwait scope word t0) := fun _ h => by cases h; exact fits_encAW scope word t0 (by decide)
theorem ttload (dch : BitVec 7) (dn : Bool) (la : BitVec 8) : Statement (.ttload dch dn la) := fun _ h => by cases h; have := dch.isLt; have := bool_lt dn; have := la.isLt; exact fits (op := 0x187) (by decide) (by omega) (by omega) (fun _ => by omega) (fun _ => by omega)
theorem tfetch (dch : BitVec 7) (dn : Bool) (src : BitVec 4) (dst : BitVec 4) : Statement (.tfetch dch dn src dst) := fun _ h => by cases h; exact fits_encTier dch dn src dst (by decide)
theorem tevict (dch : BitVec 7) (dn : Bool) (src : BitVec 4) (dst : BitVec 4) : Statement (.tevict dch dn src dst) := fun _ h => by cases h; exact fits_encTier dch dn src dst (by decide)
theorem tres (view : Bool) (t0 : Option Target) : Statement (.tres view t0) := fun _ h => by cases h; have := bool_lt view; have := target_lt t0; exact fits (op := 0x18A) (by decide) (by omega) (by omega) (fun _ => by omega) (fun _ => by omega)
theorem mma (dch : BitVec 7) (dn : Bool) (tile : BitVec 3) : Statement (.mma dch dn tile) := fun _ h => by cases h; exact fits_encETile dch dn tile (by decide)
theorem mmaRes (dch : BitVec 7) (dn : Bool) : Statement (.mmaRes dch dn) := fun _ h => by cases h; exact fits_encEDoneRes dch dn (by decide)
theorem mmaAbn (dch : BitVec 7) (dn : Bool) : Statement (.mmaAbn dch dn) := fun _ h => by cases h; exact fits_encEDoneAbn dch dn (by decide)
theorem mmal (dch : BitVec 7) (dn : Bool) (tile : BitVec 3) : Statement (.mmal dch dn tile) := fun _ h => by cases h; exact fits_encETile dch dn tile (by decide)
theorem accz (dch : BitVec 7) (dn : Bool) (tile : BitVec 3) (mode : BitVec 2) : Statement (.accz dch dn tile mode) := fun _ h => by cases h; exact fits_encEMode dch dn tile mode (by decide)
theorem accld (dch : BitVec 7) (dn : Bool) (tile : BitVec 3) (mode : BitVec 2) : Statement (.accld dch dn tile mode) := fun _ h => by cases h; exact fits_encEMode dch dn tile mode (by decide)
theorem accst (dch : BitVec 7) (dn : Bool) (tile : BitVec 3) (cz : Bool) : Statement (.accst dch dn tile cz) := fun _ h => by cases h; exact fits_encEOpt dch dn tile cz (by decide)
theorem accstRes (dch : BitVec 7) (dn : Bool) : Statement (.accstRes dch dn) := fun _ h => by cases h; exact fits_encEDoneRes dch dn (by decide)
theorem accstAbn (dch : BitVec 7) (dn : Bool) : Statement (.accstAbn dch dn) := fun _ h => by cases h; exact fits_encEDoneAbn dch dn (by decide)
theorem qst (dch : BitVec 7) (dn : Bool) (tile : BitVec 3) (cz : Bool) : Statement (.qst dch dn tile cz) := fun _ h => by cases h; exact fits_encEOpt dch dn tile cz (by decide)
theorem lvlld (dch : BitVec 7) (dn : Bool) (tbl : BitVec 2) (wc : BitVec 2) : Statement (.lvlld dch dn tbl wc) := fun _ h => by cases h; have := dch.isLt; have := bool_lt dn; have := tbl.isLt; have := wc.isLt; exact fits (op := 0x191) (by decide) (by omega) (by omega) (fun _ => by omega) (fun _ => by omega)
theorem ainit (dch : BitVec 7) (dn : Bool) (sid : BitVec 3) (keep : Bool) : Statement (.ainit dch dn sid keep) := fun _ h => by cases h; exact fits_encEOpt dch dn sid keep (by decide)
theorem agate (dch : BitVec 7) (dn : Bool) (sid : BitVec 3) : Statement (.agate dch dn sid) := fun _ h => by cases h; exact fits_encETile dch dn sid (by decide)
theorem agateRes (dch : BitVec 7) (dn : Bool) : Statement (.agateRes dch dn) := fun _ h => by cases h; exact fits_encEDoneRes dch dn (by decide)
theorem agateAbn (dch : BitVec 7) (dn : Bool) : Statement (.agateAbn dch dn) := fun _ h => by cases h; exact fits_encEDoneAbn dch dn (by decide)
theorem aswap (dch : BitVec 7) (dn : Bool) (sid : BitVec 3) : Statement (.aswap dch dn sid) := fun _ h => by cases h; exact fits_encETile dch dn sid (by decide)
theorem amap (view : BitVec 2) (t0 : Option Target) : Statement (.amap view t0) := fun _ h => by cases h; have := view.isLt; have := target_lt t0; exact fits (op := 0x195) (by decide) (by omega) (by omega) (fun _ => by omega) (fun _ => by omega)
theorem ameas (dch : BitVec 7) (dn : Bool) (sid : BitVec 3) (col : Bool) : Statement (.ameas dch dn sid col) := fun _ h => by cases h; exact fits_encEOpt dch dn sid col (by decide)
theorem afree (dch : BitVec 7) (dn : Bool) (sid : BitVec 3) : Statement (.afree dch dn sid) := fun _ h => by cases h; exact fits_encETile dch dn sid (by decide)
theorem coll (dch : BitVec 7) (dn : Bool) : Statement (.coll dch dn) := fun _ h => by cases h; exact fits_encEDone dch dn (by decide)
theorem collRes (dch : BitVec 7) (dn : Bool) : Statement (.collRes dch dn) := fun _ h => by cases h; exact fits_encEDoneRes dch dn (by decide)
theorem collAbn (dch : BitVec 7) (dn : Bool) : Statement (.collAbn dch dn) := fun _ h => by cases h; exact fits_encEDoneAbn dch dn (by decide)
theorem cred (dch : BitVec 7) (dn : Bool) (fn : BitVec 4) (wide : Bool) : Statement (.cred dch dn fn wide) := fun _ h => by cases h; have := dch.isLt; have := bool_lt dn; have := fn.isLt; have := bool_lt wide; exact fits (op := 0x199) (by decide) (by omega) (by omega) (fun _ => by omega) (fun _ => by omega)
theorem trap (code : BitVec 16) : Statement (.trap code) := fun _ h => by cases h; have := code.isLt; exact fits (op := 0x1C0) (by decide) (by omega) (by omega) (fun _ => by omega) (fun _ => by omega)
theorem srd (t1 : Option Target) (t0 : Option Target) : Statement (.srd t1 t0) := fun _ h => by cases h; exact fits_encG t1 t0 (by decide) rfl
theorem swr (reg : BitVec 12) : Statement (.swr reg) := fun _ h => by cases h; have := reg.isLt; exact fits (op := 0x1C3) (by decide) (by omega) (by omega) (fun _ => by omega) (fun _ => by omega)
theorem quotaWrite (reg : BitVec 12) : Statement (.quotaWrite reg) := fun _ h => by cases h; have := reg.isLt; exact fits (op := 0x1C3) (by decide) (by omega) (by omega) (fun _ => by omega) (fun _ => by omega)
theorem brk (t1 : Option Target) (t0 : Option Target) : Statement (.brk t1 t0) := fun _ h => by cases h; exact fits_encG t1 t0 (by decide) rfl
theorem pswapOut (dch : BitVec 7) (dn : Bool) : Statement (.pswapOut dch dn) := fun _ h => by cases h; exact fits_encEDone dch dn (by decide)
theorem pswapIn (dch : BitVec 7) (dn : Bool) : Statement (.pswapIn dch dn) := fun _ h => by cases h; exact fits_encEDoneRes dch dn (by decide)
theorem pswapXchg (dch : BitVec 7) (dn : Bool) : Statement (.pswapXchg dch dn) := fun _ h => by cases h; exact fits_encEDoneAbn dch dn (by decide)
theorem perfr (t1 : Option Target) (t0 : Option Target) : Statement (.perfr t1 t0) := fun _ h => by cases h; exact fits_encG t1 t0 (by decide) rfl
theorem nop : Statement .nop := fun _ h => by cases h; exact ⟨by decide, by decide, by decide⟩
theorem nullst : Statement .nullst := fun _ h => by cases h; exact fits_encE (by decide)
theorem bri : Statement .bri := fun _ h => by cases h; exact fits_encGBr (by decide)
theorem calli : Statement .calli := fun _ h => by cases h; exact fits_encGBr (by decide)
theorem ret : Statement .ret := fun _ h => by cases h; exact fits_encGBr (by decide)
theorem tagfree : Statement .tagfree := fun _ h => by cases h; exact fits_encE (by decide)
theorem squash : Statement .squash := fun _ h => by cases h; exact fits_encE (by decide)
theorem crange : Statement .crange := fun _ h => by cases h; exact fits_encE (by decide)
theorem eretRes : Statement .eretRes := fun _ h => by cases h; exact fits_encGBr (by decide)
theorem eretRv : Statement .eretRv := fun _ h => by cases h; exact ⟨by decide, by decide, by decide⟩
theorem eretGo : Statement .eretGo := fun _ h => by cases h; exact ⟨by decide, by decide, by decide⟩
theorem eretKill : Statement .eretKill := fun _ h => by cases h; exact ⟨by decide, by decide, by decide⟩
theorem swrFpc : Statement .swrFpc := fun _ h => by cases h; exact fits_encE (by decide)
theorem pclrClear : Statement .pclrClear := fun _ h => by cases h; exact ⟨by decide, by decide, by decide⟩
theorem tlbiVa : Statement .tlbiVa := fun _ h => by cases h; exact fits_encE (by decide)
theorem tlbiAsid : Statement .tlbiAsid := fun _ h => by cases h; exact fits_encEKind1 (by decide)
theorem tlbiAll : Statement .tlbiAll := fun _ h => by cases h; exact fits_encEKind2 (by decide)
theorem tlbiVag : Statement .tlbiVag := fun _ h => by cases h; exact ⟨by decide, by decide, by decide⟩
theorem cinvBlk : Statement .cinvBlk := fun _ h => by cases h; exact fits_encE (by decide)
theorem cinvPg : Statement .cinvPg := fun _ h => by cases h; exact fits_encEKind1 (by decide)
theorem cinvAll : Statement .cinvAll := fun _ h => by cases h; exact fits_encEKind2 (by decide)
theorem keyldLd : Statement .keyldLd := fun _ h => by cases h; exact fits_encE (by decide)
theorem keyldClr : Statement .keyldClr := fun _ h => by cases h; exact fits_encEKind1 (by decide)
theorem hostLaunchPacket : Statement .hostLaunchPacket := fun _ h => nomatch h
theorem hostPacketExecute : Statement .hostPacketExecute := fun _ h => nomatch h
theorem clrOvf : Statement .clrOvf := fun _ h => nomatch h
theorem createPartition : Statement .createPartition := fun _ h => nomatch h
theorem endPartition : Statement .endPartition := fun _ h => nomatch h
theorem attest : Statement .attest := fun _ h => nomatch h
theorem verifyObject : Statement .verifyObject := fun _ h => nomatch h
theorem extend : Statement .extend := fun _ h => nomatch h
theorem firmwareUpdate : Statement .firmwareUpdate := fun _ h => nomatch h
theorem sumacControl : Statement .sumacControl := fun _ h => nomatch h
theorem readEvents : Statement .readEvents := fun _ h => nomatch h
theorem mgmtServiceComplete : Statement .mgmtServiceComplete := fun _ h => nomatch h
theorem powerOn : Statement .powerOn := fun _ h => nomatch h
theorem bootStageComplete : Statement .bootStageComplete := fun _ h => nomatch h
theorem tokenArrival : Statement .tokenArrival := fun _ h => nomatch h
theorem creditGrant : Statement .creditGrant := fun _ h => nomatch h
theorem instanceForm : Statement .instanceForm := fun _ h => nomatch h
theorem frameGrant : Statement .frameGrant := fun _ h => nomatch h
theorem blockMap : Statement .blockMap := fun _ h => nomatch h
theorem blockComplete : Statement .blockComplete := fun _ h => nomatch h
theorem blockCommit : Statement .blockCommit := fun _ h => nomatch h
theorem blkIncomplete : Statement .blkIncomplete := fun _ h => nomatch h
theorem pendingValueArrival : Statement .pendingValueArrival := fun _ h => nomatch h
theorem loadPerform : Statement .loadPerform := fun _ h => nomatch h
theorem waittlRelease : Statement .waittlRelease := fun _ h => nomatch h
theorem wpwaitRelease : Statement .wpwaitRelease := fun _ h => nomatch h
theorem chkwaitRelease : Statement .chkwaitRelease := fun _ h => nomatch h
theorem expectRelease : Statement .expectRelease := fun _ h => nomatch h
theorem markRelease : Statement .markRelease := fun _ h => nomatch h
theorem iterDeferredCreate : Statement .iterDeferredCreate := fun _ h => nomatch h
theorem squashAck : Statement .squashAck := fun _ h => nomatch h
theorem recordDelivery : Statement .recordDelivery := fun _ h => nomatch h
theorem copyStart : Statement .copyStart := fun _ h => nomatch h
theorem copyUnitDelivered : Statement .copyUnitDelivered := fun _ h => nomatch h
theorem copyFault : Statement .copyFault := fun _ h => nomatch h
theorem copyComplete : Statement .copyComplete := fun _ h => nomatch h
theorem portBindingIssue : Statement .portBindingIssue := fun _ h => nomatch h
theorem mcastCreditReturn : Statement .mcastCreditReturn := fun _ h => nomatch h
theorem inboundStreamStart : Statement .inboundStreamStart := fun _ h => nomatch h
theorem gatherStart : Statement .gatherStart := fun _ h => nomatch h
theorem gatherRowWrite : Statement .gatherRowWrite := fun _ h => nomatch h
theorem gatherComplete : Statement .gatherComplete := fun _ h => nomatch h
theorem peCmdStart : Statement .peCmdStart := fun _ h => nomatch h
theorem peChunkVerify : Statement .peChunkVerify := fun _ h => nomatch h
theorem peCmdComplete : Statement .peCmdComplete := fun _ h => nomatch h
theorem heatRefill : Statement .heatRefill := fun _ h => nomatch h
theorem thermalRevise : Statement .thermalRevise := fun _ h => nomatch h
theorem thermalEmergency : Statement .thermalEmergency := fun _ h => nomatch h
theorem drainCmdStart : Statement .drainCmdStart := fun _ h => nomatch h
theorem drainRow : Statement .drainRow := fun _ h => nomatch h
theorem lvlldReplace : Statement .lvlldReplace := fun _ h => nomatch h
theorem drainCmdComplete : Statement .drainCmdComplete := fun _ h => nomatch h
theorem ttEntryStart : Statement .ttEntryStart := fun _ h => nomatch h
theorem ttEntryComplete : Statement .ttEntryComplete := fun _ h => nomatch h
theorem ttEntryFail : Statement .ttEntryFail := fun _ h => nomatch h
theorem ttDetachComplete : Statement .ttDetachComplete := fun _ h => nomatch h
theorem ampCmdStart : Statement .ampCmdStart := fun _ h => nomatch h
theorem ampCmdComplete : Statement .ampCmdComplete := fun _ h => nomatch h
theorem collSegment : Statement .collSegment := fun _ h => nomatch h
theorem collComplete : Statement .collComplete := fun _ h => nomatch h
theorem credPerform : Statement .credPerform := fun _ h => nomatch h
theorem credAck : Statement .credAck := fun _ h => nomatch h
theorem credFilterExpire : Statement .credFilterExpire := fun _ h => nomatch h
theorem scTokenVisit : Statement .scTokenVisit := fun _ h => nomatch h
theorem linkFrameReceive : Statement .linkFrameReceive := fun _ h => nomatch h
theorem linkRetry : Statement .linkRetry := fun _ h => nomatch h
theorem laneDegrade : Statement .laneDegrade := fun _ h => nomatch h
theorem portFailover : Statement .portFailover := fun _ h => nomatch h
theorem lkUnreach : Statement .lkUnreach := fun _ h => nomatch h
theorem cfgldComplete : Statement .cfgldComplete := fun _ h => nomatch h
theorem cfgswDrainEnd : Statement .cfgswDrainEnd := fun _ h => nomatch h
theorem planeExchange : Statement .planeExchange := fun _ h => nomatch h
theorem cfgswComplete : Statement .cfgswComplete := fun _ h => nomatch h
theorem launchEnd : Statement .launchEnd := fun _ h => nomatch h
theorem preemptRequest : Statement .preemptRequest := fun _ h => nomatch h
theorem preemptMarkerArrival : Statement .preemptMarkerArrival := fun _ h => nomatch h
theorem preemptDrainDone : Statement .preemptDrainDone := fun _ h => nomatch h
theorem saveComplete : Statement .saveComplete := fun _ h => nomatch h
theorem swapIn : Statement .swapIn := fun _ h => nomatch h
theorem restoreComplete : Statement .restoreComplete := fun _ h => nomatch h
theorem pswapComplete : Statement .pswapComplete := fun _ h => nomatch h
theorem coreRetire : Statement .coreRetire := fun _ h => nomatch h
theorem migrationComplete : Statement .migrationComplete := fun _ h => nomatch h
theorem softError : Statement .softError := fun _ h => nomatch h
theorem agingStep : Statement .agingStep := fun _ h => nomatch h
theorem recallThreshold : Statement .recallThreshold := fun _ h => nomatch h
theorem translationWalk : Statement .translationWalk := fun _ h => nomatch h
theorem tlbiComplete : Statement .tlbiComplete := fun _ h => nomatch h
theorem keyldComplete : Statement .keyldComplete := fun _ h => nomatch h
theorem timetableAttach : Statement .timetableAttach := fun _ h => nomatch h
theorem cinvComplete : Statement .cinvComplete := fun _ h => nomatch h
theorem swrRegionComplete : Statement .swrRegionComplete := fun _ h => nomatch h
theorem transportRetransmission : Statement .transportRetransmission := fun _ h => nomatch h

end Sys2Proof.Laws.Encoding
end

