-- ==== Sys2Proof/Laws/Step.lean ====
section
/-! SUPPORT. What the end of a step can do: the marks of waits touch slots alone, those of races tiles and commands alone. -/

namespace Sys2Proof.Machine

/-- Marking waits changes the slots and nothing else. -/
theorem Chip.markWaits_only_slots (c : Chip) (issue : Option Issue) :
    c.markWaits issue = { c with slots := (c.markWaits issue).slots } := rfl

/-- Marking waits changes of each slot what has waited alone. -/
theorem Chip.markWaits_slots (c : Chip) (issue : Option Issue) :
    (c.markWaits issue).slots.map (fun x => { x with waited := [] }) = c.slots.map fun x => { x with waited := [] } := by
  simp [Chip.markWaits]

/-- A chip differs from another in its slots alone. -/
def OnlySlots (c d : Chip) : Prop := d = { c with slots := d.slots }

theorem OnlySlots.refl (c : Chip) : OnlySlots c c := rfl

theorem OnlySlots.trans {c d e : Chip} (h : OnlySlots c d) (k : OnlySlots d e) : OnlySlots c e := by
  unfold OnlySlots at *
  rw [k, h]

theorem OnlySlots.modSlot (c : Chip) (core pid : Nat) (f : Slot → Slot) : OnlySlots c (c.modSlot core pid f) := rfl

/-- A fold whose steps change slots alone changes slots alone. -/
theorem OnlySlots.foldl {α : Type} (f : Chip → α → Chip) (hf : ∀ c a, OnlySlots c (f c a)) (l : List α) (c : Chip) :
    OnlySlots c (l.foldl f c) := by
  induction l generalizing c with
  | nil => exact .refl c
  | cons a l ih => exact (hf c a).trans (ih (f c a))

/-- Marking races changes slots, and forgets the writes of the step. -/
theorem Chip.markRaces_only_slots (c : Chip) :
    c.markRaces = { c with slots := c.markRaces.slots, mem := { c.mem with wrote := [] } } := by
  unfold Chip.markRaces
  split
  · rename_i h
    have : c.mem.wrote = [] := by simpa using h
    rw [← this]
  · have h := OnlySlots.foldl (fun c (s : Slot) => (s.eng 5).cmds.foldl (fun c q =>
        if c.raced s.core s.pid q then c.modSlot s.core s.pid fun s => s.taintRace q else c) c)
      (fun c s => .foldl _ (fun c q => by split; exacts [.modSlot .., .refl _]) _ c) c.slots c
    unfold OnlySlots at h
    simp only
    rw [h]

end Sys2Proof.Machine
end

