-- ==== Sys2Proof/Tests/Slice0.lean ====
section
/-! SUPPORT. The model's own tests: terms that the well-formedness check refuses, words of the manual and what they decode to, results that
the manual's examples state, and for every statement with hypotheses a state that meets them. -/

open Sys2Proof Sys2Proof.Machine Sys2Proof.Claims

set_option maxRecDepth 20000
set_option Elab.async false

namespace Sys2Proof.Tests

/-! ### The well-formedness check refuses each ill-formed term (R115) -/

/-- One ill-formed term for each check of `Instr.wf`. -/
def illFormed : List Instr := [
  .arg 4 none none,
  .shli .w8 8 none,
  .shri .w32 32 none,
  .sari .w64 64 none,
  .cvtsr .f32 .f64 none,
  .tlsig .core 9,
  .spawn 3 none,
  .iter 3,
  .cpy 0 0 none,
  .cpypl 2 0 none,
  .cpyun 1 0 none,
  .ttload 0 false 0,
  .tfetch 0 false 7 0,
  .tevict 0 false 0 7,
  .accz 0 false 1 2,
  .accld 0 false 0 3,
  .lvlld 0 false 0 3,
  .amap 3 none,
  .cred 0 false 9 false,
  .swr 0x035,
  .quotaWrite 0x010]

theorem test_wf_refuses_each_ill_formed_term : illFormed.all (fun i => !i.wf) = true := by decide +kernel

/-- The last value that each check lets through. -/
theorem test_wf_accepts_the_boundary : ([
  .arg 3 none none,
  .shli .w8 7 none,
  .sari .w64 63 none,
  .cvtsr .f64 .f32 none,
  .tlsig .core 10,
  .spawn 2 none,
  .iter 2,
  .cpy 2 0 none,
  .cpypl 0 0 none,
  .cpyun 6 0 none,
  .ttload 0 false 255,
  .tfetch 0 false 6 0,
  .accz 0 false 4 2,
  .lvlld 0 false 0 2,
  .amap 2 none,
  .cred 0 false 8 false,
  .swr 0x010,
  .quotaWrite 0x044] : List Instr).all Instr.wf = true := by decide +kernel

/-! ### Words of the manual (R137 and the chapters' examples), and words written out from the encoding tables -/

/-- A word from its fields: value and lowest bit. -/
def fields (l : List (Nat × Nat)) : Nat := (l.map fun x => x.1 * 2 ^ x.2).sum

theorem test_decode_manual_read : (decodeWord 0x00840103).toOption = some ⟨⟨.always, 0⟩, .read 1 none (some ⟨.a, 3⟩)⟩ := by decide +kernel
theorem test_decode_manual_const : (decodeWord 0x02FFF705).toOption = some ⟨⟨.always, 0⟩, .const 0x3FFB (some ⟨.a, 5⟩)⟩ := by decide +kernel
theorem test_decode_manual_write : (decodeWord 0x01080000).toOption = some ⟨⟨.always, 0⟩, .write 2⟩ := by decide +kernel
theorem test_decode_manual_addi : (decodeWord 0x2087FB05).toOption = some ⟨⟨.always, 0⟩, .addi .w32 0x1FD (some ⟨.a, 5⟩)⟩ := by decide +kernel
theorem test_decode_manual_tltn : (decodeWord 0x420E8DC4).toOption = some ⟨⟨.always, 0⟩, .tltn .w8 (some ⟨.b, 6⟩) (some ⟨.p, 4⟩)⟩ := by decide +kernel
theorem test_decode_manual_fma : (decodeWord 0x61840186).toOption = some ⟨⟨.always, 0⟩, .fma .f32 none (some ⟨.c, 6⟩)⟩ := by decide +kernel
theorem test_decode_manual_cvtff : (decodeWord 0x6A000504).toOption = some ⟨⟨.always, 0⟩, .cvtff .rne .f64 .bf16 (some ⟨.a, 4⟩)⟩ := by decide +kernel
theorem test_decode_manual_cvtsr : (decodeWord 0x6B829506).toOption = some ⟨⟨.always, 0⟩, .cvtsr .f32 .bf16 (some ⟨.a, 6⟩)⟩ := by decide +kernel
theorem test_decode_manual_rand : (decodeWord 0x6F000144).toOption = some ⟨⟨.always, 0⟩, .rand none (some ⟨.b, 4⟩)⟩ := by decide +kernel
theorem test_decode_manual_lda : (decodeWord 0x86808103).toOption = some ⟨⟨.always, 0⟩, .ldaD64 .pkg (some ⟨.a, 3⟩)⟩ := by decide +kernel
theorem test_decode_manual_aadd : (decodeWord 0x91022305).toOption = some ⟨⟨.always, 2⟩, .aadd .core true (some 5)⟩ := by decide +kernel
theorem test_decode_manual_fence : (decodeWord 0x9D038000).toOption = some ⟨⟨.always, 3⟩, .fence .pkg⟩ := by decide +kernel
theorem test_decode_manual_waittl : (decodeWord 0x9D804B03).toOption = some ⟨⟨.always, 0⟩, .waittl .clu 5 (some ⟨.a, 3⟩)⟩ := by decide +kernel
theorem test_decode_manual_br : (decodeWord 0xA0000004).toOption = some ⟨⟨.always, 0⟩, .br 4⟩ := by decide +kernel
theorem test_decode_manual_mark : (decodeWord 0xAA800103).toOption = some ⟨⟨.always, 0⟩, .mark (some ⟨.a, 3⟩)⟩ := by decide +kernel
theorem test_decode_manual_cpypl : (decodeWord 0xC082A907).toOption = some ⟨⟨.always, 2⟩, .cpypl 5 1 (some 7)⟩ := by decide +kernel
theorem test_decode_manual_gath_abn : (decodeWord 0xC1800400).toOption = some ⟨⟨.always, 0⟩, .gathAbn none⟩ := by decide +kernel
theorem test_decode_manual_wpwait : (decodeWord 0xC2804103).toOption = some ⟨⟨.always, 0⟩, .wpwait .clu false 0 (some ⟨.a, 3⟩)⟩ := by decide +kernel
theorem test_decode_manual_chkwait : (decodeWord 0xC3002745).toOption = some ⟨⟨.always, 0⟩, .chkwait .core 3 (some ⟨.b, 5⟩)⟩ := by decide +kernel
theorem test_decode_manual_tres : (decodeWord 0xC5000302).toOption = some ⟨⟨.always, 0⟩, .tres true (some ⟨.a, 2⟩)⟩ := by decide +kernel
theorem test_decode_manual_mma : (decodeWord 0xC5812B40).toOption = some ⟨⟨.always, 1⟩, .mma 21 true 2⟩ := by decide +kernel
theorem test_decode_manual_mma_res : (decodeWord 0xC5800001).toOption = some ⟨⟨.always, 0⟩, .mmaRes 0 false⟩ := by decide +kernel
theorem test_decode_manual_accz : (decodeWord 0xC6800088).toOption = some ⟨⟨.always, 0⟩, .accz 0 false 4 2⟩ := by decide +kernel
theorem test_decode_manual_ainit : (decodeWord 0xC9000B70).toOption = some ⟨⟨.always, 0⟩, .ainit 5 true 3 true⟩ := by decide +kernel
theorem test_decode_manual_agate_abn : (decodeWord 0xC9800002).toOption = some ⟨⟨.always, 0⟩, .agateAbn 0 false⟩ := by decide +kernel
theorem test_decode_manual_amap_p : (decodeWord 0xCA800303).toOption = some ⟨⟨.always, 0⟩, .amap 1 (some ⟨.a, 3⟩)⟩ := by decide +kernel
theorem test_decode_manual_eret_res : (decodeWord 0xE0800000).toOption = some ⟨⟨.always, 0⟩, .eretRes⟩ := by decide +kernel

theorem test_decode_fields_ld_d64 : (decodeWord (fields [(0x106, 23), (2, 21), (3, 16), (0x7F, 9), (0x100 + 9, 0)])).toOption = some ⟨⟨.onFalse, 3⟩, .ldD64 0x7F (some ⟨.a, 9⟩)⟩ := by decide +kernel
theorem test_decode_fields_st_n32 : (decodeWord (fields [(0x117, 23), (1, 21), (31, 16), (5, 9)])).toOption = some ⟨⟨.onTrue, 31⟩, .stN32 5⟩ := by decide +kernel
theorem test_decode_fields_send : (decodeWord (fields [(0x148, 23), (4, 16), (0x3FF, 6)])).toOption = some ⟨⟨.always, 4⟩, .send 0x3FF⟩ := by decide +kernel
theorem test_decode_fields_spawn : (decodeWord (fields [(0x147, 23), (6, 16), (2, 9), (0x100 + 31, 0)])).toOption = some ⟨⟨.always, 6⟩, .spawn 2 (some 31)⟩ := by decide +kernel
theorem test_decode_fields_launch : (decodeWord (fields [(0x14F, 23), (1, 16), (5, 13), (1, 11), (1, 9)])).toOption = some ⟨⟨.always, 1⟩, .launch .sys true false true none⟩ := by decide +kernel
theorem test_decode_fields_cfgld : (decodeWord (fields [(0x150, 23), (2, 16), (127, 9), (1, 8)])).toOption = some ⟨⟨.always, 2⟩, .cfgld 127 true⟩ := by decide +kernel
theorem test_decode_fields_tfetch : (decodeWord (fields [(0x188, 23), (1, 16), (9, 9), (1, 8), (3, 4)])).toOption = some ⟨⟨.always, 1⟩, .tfetch 9 true 3 0⟩ := by decide +kernel
theorem test_decode_fields_qst : (decodeWord (fields [(0x190, 23), (1, 16), (33, 9), (1, 8), (7, 5), (1, 4)])).toOption = some ⟨⟨.always, 1⟩, .qst 33 true 7 true⟩ := by decide +kernel
theorem test_decode_fields_coll : (decodeWord (fields [(0x198, 23), (2, 16), (64, 9), (1, 8)])).toOption = some ⟨⟨.always, 2⟩, .coll 64 true⟩ := by decide +kernel
theorem test_decode_fields_cred : (decodeWord (fields [(0x199, 23), (2, 16), (1, 9), (8, 4), (1, 3)])).toOption = some ⟨⟨.always, 2⟩, .cred 1 false 8 true⟩ := by decide +kernel
theorem test_decode_fields_srd : (decodeWord (fields [(0x1C2, 23), (1, 21), (0x100 + 64 + 3, 9), (0x100 + 128 + 5, 0)])).toOption = some ⟨⟨.onTrue, 0⟩, .srd (some ⟨.b, 3⟩) (some ⟨.c, 5⟩)⟩ := by decide +kernel
theorem test_decode_fields_swr : (decodeWord (fields [(0x1C3, 23), (7, 16), (0x010, 0)])).toOption = some ⟨⟨.always, 7⟩, .swr 0x010⟩ := by decide +kernel
theorem test_decode_fields_swr_fpc : (decodeWord (fields [(0x1C3, 23), (7, 16)])).toOption = some ⟨⟨.always, 7⟩, .swrFpc⟩ := by decide +kernel
theorem test_decode_fields_pswap_out : (decodeWord (fields [(0x1C7, 23), (3, 16), (2, 9)])).toOption = some ⟨⟨.always, 3⟩, .pswapOut 2 false⟩ := by decide +kernel
theorem test_decode_fields_trap : (decodeWord (fields [(0x1C0, 23), (3, 16), (0xFFFF, 0)])).toOption = some ⟨⟨.always, 3⟩, .trap 0xFFFF⟩ := by decide +kernel

theorem test_decode_nop : (decodeWord 0).toOption = some ⟨⟨.always, 0⟩, .nop⟩ := by decide +kernel
theorem test_decode_refuses_opcode : decodeWord (fields [(0x1FF, 23)]) = .error .opcode := by rfl
theorem test_decode_refuses_reserved_pm : decodeWord (fields [(0x148, 23), (3, 21)]) = .error .field := by rfl
theorem test_decode_refuses_nop_with_a_bit : decodeWord 1 = .error .opcode := by rfl
theorem test_decode_bytes : (decode [0x03, 0x01, 0x84, 0x00, 0xFF]).toOption = some (⟨⟨.always, 0⟩, .read 1 none (some ⟨.a, 3⟩)⟩, [0xFF]) := by decide +kernel
theorem test_encode_mma : encode ⟨⟨.always, 1⟩, .mma 21 true 2⟩ = some 0xC5812B40 := by decide +kernel

/-! ### States to try the statements on -/

/-- Partition 1 on core 0, which can deliver records and owns DRAM pages through a page table at 0, with one launch of one core. -/
def part1 : Part :=
  { pid := 1, part := 1, regs := [(0x030, 1), (0x031, 0x4000), (0x044, 0x4020)], launches := [{ lid := 0, ox := 0, oy := 0, lw := 0, lh := 0 }] }
def chip1 (l : List Inst) : Chip := { parts := [part1], slots := [{ core := 0, pid := 1 }], insts := l, nextIid := 8 }
/-- An instance of channel 5 on core 0 that runs a block. -/
def inst1 (f : Frame) : Inst := { iid := 1, core := 0, pid := 1, chan := 5, block := 0x1000, state := .running, frame := some f, args := [.val 9 true] }
def at1 (i : Inst) (ph : Phase) : State := { chip := chip1 [i], focus := { iid := 1, pid := 1, phase := ph } }
/-- A block of a word with its slots filled and of a `MOV` behind it. -/
def block1 (w : Nat) (a b c : Tok) : Frame :=
  { addr := 0x1000, hdr := oneHdr, words := [w, 0x02000000], cells := [{ a := some a, b := some b, c := some c, p := some (.val 1 false) }, {}] }
def num (n : Nat) : Tok := .val (BitVec.ofNat 64 n) false

theorem ok_of {α β ε : Type} {x : Except ε α × β} (h : x.1.toBool = true) : ∃ a c, x = (.ok a, c) := by
  rcases x with ⟨_ | a, c⟩
  · cases h
  · exact ⟨a, c, rfl⟩
theorem error_of {α β ε : Type} {x : Except ε α × β} (h : x.1.toBool = false) : ∃ e c, x = (.error e, c) := by
  rcases x with ⟨e | a, c⟩
  · exact ⟨e, c, rfl⟩
  · cases h
theorem fires_of {s : State} {i : Inst} {f : Frame} (h : s.chip.inst? s.focus.iid = some i ∧ i.frame = some f ∧ i.state = .running ∧
    i.clashDue f = none ∧ i.canFire f s.focus.idx = true ∧ s.focus.phase = .fire) : Fires s i f :=
  ⟨h.1, h.2.1, h.2.2.1, h.2.2.2.1, h.2.2.2.2.1, h.2.2.2.2.2⟩
theorem acts_of {s : State} {i : Inst} {f : Frame} {a : Act} (h : s.chip.inst? s.focus.iid = some i ∧ i.frame = some f ∧ i.state = .committing ∧
    f.acts.find? (fun x => x.idx == s.focus.idx) = some a ∧ s.focus.phase = .commit) : Acts s i f a := ⟨h.1, h.2.1, h.2.2.1, h.2.2.2.1, h.2.2.2.2⟩
theorem loads_of {s : State} {i : Inst} {f : Frame} {l : Load} (h : s.chip.inst? s.focus.iid = some i ∧ i.frame = some f ∧ i.state = .running ∧
    f.loads.find? (fun x => x.idx == s.focus.idx) = some l) : Loads s i f l := ⟨h.1, h.2.1, h.2.2.1, h.2.2.2⟩
theorem waits_of {s : State} {i : Inst} {f : Frame} {w : Wait} (h : s.chip.inst? s.focus.iid = some i ∧ i.frame = some f ∧ i.state = .running ∧
    f.waits.find? (fun x => x.idx == s.focus.idx) = some w) : Waits s i f w := ⟨h.1, h.2.1, h.2.2.1, h.2.2.2⟩

/-! ### Firing -/

/-- `add.i64 -> 1.a` on 3 and 16, and on a null. -/
def fAdd : Frame := block1 0x20000101 (num 3) (num 16) (num 0)
def sAdd : State := at1 (inst1 fAdd) .fire
def fNull : Frame := block1 0x20000101 .null (num 16) (num 0)
def sNull : State := at1 (inst1 fNull) .fire
/-- `add` beside a slot that a second token has reached. -/
def fTwice : Frame := { fAdd with cells := [{ a := some (num 3), b := some (num 16) }, { a := some (num 1) }], clash := [(0, 1)] }
def sTwice : State := at1 (inst1 fTwice) .fire
def target1 : Option Target := some ⟨.a, 1⟩

theorem witness_IntegerResults : ∃ ts r, integerResult (.add .w64 none target1) = some (ts, r) ∧ Fires sAdd (inst1 fAdd) fAdd ∧
    fAdd.onNull sAdd.focus.idx = false ∧
    ∃ g, (mark fAdd sAdd.focus.idx).sendAll ts (.val (r (operands sAdd fAdd)) (operands sAdd fAdd).taint) = g :=
  ⟨_, _, rfl, fires_of (by decide +kernel), by decide +kernel, ⟨_, rfl⟩⟩

theorem witness_BitPatternResults : ∃ ts r, patternResult (.fneg .f32 none target1) = some (ts, r) ∧ Fires sAdd (inst1 fAdd) fAdd ∧
    fAdd.onNull sAdd.focus.idx = false ∧
    ∃ g, (mark fAdd sAdd.focus.idx).sendAll ts (.val (r (operands sAdd fAdd)) (operands sAdd fAdd).taint) = g :=
  ⟨_, _, rfl, fires_of (by decide +kernel), by decide +kernel, ⟨_, rfl⟩⟩

theorem witness_FloatResults : ∃ ts r, floatResult (.fadd .f64 none target1) = some (ts, r) ∧ Fires sAdd (inst1 fAdd) fAdd ∧
    fAdd.onNull sAdd.focus.idx = false ∧
    (let o := operands sAdd fAdd
     let x := r (inst1 fAdd).fpc.rm o.a.toNat o.b.toNat o.c.toNat
     let h := { mark fAdd sAdd.focus.idx with flags := fAdd.flags.or x.2, fpTaint := fAdd.fpTaint || o.taint }
     ∃ g, h.sendAll ts (.val (BitVec.ofNat 64 x.1) o.taint) = g) :=
  ⟨_, _, rfl, fires_of (by decide +kernel), by decide +kernel, ⟨_, rfl⟩⟩

theorem witness_FloatResults_null : Fires sNull (inst1 fNull) fNull ∧ fNull.onNull sNull.focus.idx = true ∧
    ∃ g, Frame.sendAll { mark fNull sNull.focus.idx with fpTaint := fNull.fpTaint || (operands sNull fNull).taint } [none, target1] .null = g :=
  ⟨fires_of (by decide +kernel), by decide +kernel, ⟨_, rfl⟩⟩

theorem witness_StateReadingResults : ∃ ts r, readResult sAdd (inst1 fAdd) (operands sAdd fAdd) (.arg 0 none target1) = some (ts, r) ∧ Fires sAdd (inst1 fAdd) fAdd ∧
    fAdd.onNull sAdd.focus.idx = false ∧
    ∃ g, (mark fAdd sAdd.focus.idx).sendAll ts (.val r.1 r.2) = g :=
  ⟨_, _, rfl, fires_of (by decide +kernel), by decide +kernel, ⟨_, rfl⟩⟩

/-- The line of the instance's registers is poisoned. -/
def sSick : State := { sAdd with chip := { sAdd.chip with mem := { poison := [locSlice 1 0 / 64] } } }

theorem witness_StateReadingResults_fault : (readFault sSick (inst1 fAdd) (operands sSick fAdd) (.read 3 none none)).isSome = true ∧ Fires sAdd (inst1 fAdd) fAdd ∧ fAdd.onNull sAdd.focus.idx = false ∧
    readFault sAdd (inst1 fAdd) (operands sAdd fAdd) (.arg 1 none none) = some { cause := 0x16 } :=
  ⟨by decide +kernel, fires_of (by decide +kernel), by decide +kernel, by decide +kernel⟩

theorem witness_NullOperandSendsNull : ∃ ts, nullTargets sNull (inst1 fNull) (.add .w64 none target1) = some ts ∧
    Fires sNull (inst1 fNull) fNull ∧ fNull.onNull sNull.focus.idx = true ∧ ∃ g, (mark fNull sNull.focus.idx).sendAll ts .null = g :=
  ⟨_, rfl, fires_of (by decide +kernel), by decide +kernel, ⟨_, rfl⟩⟩

theorem witness_SentTokensFillTheirSlots : ∃ ts r, integerResult (.add .w64 none target1) = some (ts, r) ∧
    sTwice.chip.inst? sTwice.focus.iid = some (inst1 fTwice) ∧ (inst1 fTwice).frame = some fTwice ∧ (inst1 fTwice).state = .running ∧
    fTwice.isDone = false ∧ (0, 1) ∈ fTwice.clash ∧ (∀ x ∈ fTwice.clash, 0 < x.1 ∨ 0 = x.1 ∧ 1 ≤ x.2) ∧
    ∀ k < fTwice.words.length, (inst1 fTwice).canFire fTwice k = true → 0 ≤ fTwice.fireTime k :=
  ⟨_, _, rfl, by decide +kernel, rfl, rfl, by decide +kernel, by decide, by decide, fun _ _ _ => Nat.zero_le _⟩

/-- A receiver under a predicate: PM 01 with a false predicate token, an unfilled slot, one filled before and one to be filled after. -/
def fPred : Frame := { fAdd with words := [0x20000101, 0x02200000], cells := [{}, { p := some (num 0), cp := 6 }], arrival := 30 }
def fSlow : Frame := { fPred with cells := [{}, { a := some (num 1), ca := 40 }] }

theorem witness_SentTokensFillTheirSlots_each : (1 : BitVec 6).toNat < fPred.cells.length ∧ predFailed (fPred.word 1) (fPred.cell 1) = true ∧
    (fPred.cell 1).cp ≤ fPred.arrival ∧ predFailed (fTwice.word 1) (fTwice.cell 1) = false ∧ (fTwice.cell 1).at .a ≠ none ∧
    (fTwice.cell 1).when .a ≤ fTwice.arrival ∧ (fSlow.cell 1).at .a ≠ none ∧ fSlow.arrival < (fSlow.cell 1).when .a ∧
    predFailed (fAdd.word 1) (fAdd.cell 1) = false ∧ (fAdd.cell 1).at .a = none := by decide +kernel

/-- R105, R106, R108. A division's quotient, due in cycle 40, and a sum that comes in cycle 30 are for one slot: the sum fills it and the quotient will
reach a filled slot, unless a predicate that fails has come by then. -/
theorem test_slot_filled_twice : let f := fSlow.send ⟨.a, 1⟩ (num 2)
    (f.cell 1).a = some (num 2) ∧ f.clash = [(40, 1)] ∧ ({ f with arrival := 35 }.send ⟨.p, 1⟩ (num 0)).clash = [] ∧
    ({ f with arrival := 35 }.send ⟨.p, 1⟩ (num 1)).clash = [(40, 1)] := by decide +kernel

theorem witness_InstructionsThatSendNothing : Fires sAdd (inst1 fAdd) fAdd ∧ (fAdd.cell sAdd.focus.idx).a = some (num 3) ∧
    lsidOf (fAdd.word sAdd.focus.idx) ∉ fAdd.resolved ∧ sAdd.chip.mem.wf = true := ⟨fires_of (by decide +kernel), by decide +kernel⟩

/-! ### Loads, commit class, branches -/

/-- A load with store ID 1 of a block with two stores, its lower store resolved or not. -/
def fLoad (l : List Nat) : Frame :=
  { fAdd with words := [0x83010000, 0x02000000], hdr := 0xB7000080, resolved := l, loads := [{ idx := 0, lsid := 1, ea := 2 ^ 64 - 2 ^ 56, taint := false }] }
def theLoad : Load := { idx := 0, lsid := 1, ea := 2 ^ 64 - 2 ^ 56, taint := false }
def sLoad (l : List Nat) (ea : Nat) : State :=
  let f := { fLoad l with loads := [{ theLoad with ea }] }
  at1 (inst1 f) .perform

theorem witness_LoadsFireAndWait : ∃ t0 ea m, loadForm (.ldD64 0x7F target1) = some (t0, ea, m) ∧ Fires sAdd (inst1 fAdd) fAdd ∧
    fAdd.onNull sAdd.focus.idx = false := ⟨_, _, _, rfl, fires_of (by decide +kernel), by decide +kernel⟩

theorem witness_LoadsWaitForLowerStores : Loads (sLoad [0] theLoad.ea) (inst1 (fLoad [0])) (fLoad [0]) theLoad ∧
    (∀ k, k < theLoad.lsid → k < (fLoad [0]).hdr / 2 ^ 6 % 2 ^ 5 → k ∈ (fLoad [0]).resolved) ∧
    (∀ m ∈ (fLoad [0]).loads, m.lsid < theLoad.lsid → (sLoad [0] theLoad.ea).chip.loadsMeet (inst1 (fLoad [0])) (fLoad [0]) theLoad m = false) ∧
    Loads (sLoad [] theLoad.ea) (inst1 (fLoad [])) (fLoad []) theLoad ∧
    (0 < theLoad.lsid ∧ 0 < (fLoad []).hdr / 2 ^ 6 % 2 ^ 5 ∧ 0 ∉ (fLoad []).resolved) :=
  ⟨loads_of (by decide +kernel), by decide +kernel, by decide +kernel, loads_of (by decide +kernel), by decide +kernel⟩

/-! ### Loads delivered, forwarding, commit class -/

theorem ok_is {α β ε : Type} {x : Except ε α × β} (d : α) (h : x.1.toBool = true) : x = (.ok (x.1.toOption.getD d), x.2) := by
  rcases x with ⟨_ | a, c⟩
  · cases h
  · rfl

/-- Partition 1 with 64 KiB of scratchpad on each core; an own-scratchpad address. -/
def part2 : Part := { part1 with regs := [(0x030, 1), (0x031, 0x4000), (0x040, 0x100000000), (0x044, 0x4020)] }
def pad : Nat := 0xFFFF81 * 2 ^ 40
def chip2 (l : List Inst) : Chip := { chip1 l with parts := [part2] }
def at2 (i : Inst) (ph : Phase) : State := { chip := chip2 [i], focus := { iid := 1, pid := 1, phase := ph } }
/-- A load of the scratchpad behind a store of its block to the same bytes. -/
def fDeliver : Frame :=
  { fLoad [0] with words := [0x83010000, 0x23000000], loads := [{ theLoad with ea := pad + 16 }]
                   acts := [{ lsid := 0, idx := 1, ops := [num (pad + 16), num 7] }] }
def sDeliver : State := at2 (inst1 fDeliver) .perform

/-- Two loads of one place, of store IDs 0 and 1, neither performed. -/
def fTwoLoads : Frame :=
  { fLoad [0] with words := [0x83010000, 0x83000000]
                   loads := [{ theLoad with ea := pad + 16 }, { idx := 1, lsid := 0, ea := pad + 16, taint := false }] }
def sTwoLoads : State := at2 (inst1 fTwoLoads) .perform

theorem witness_LoadsWaitForLowerStores_meet : Loads sTwoLoads (inst1 fTwoLoads) fTwoLoads { theLoad with ea := pad + 16 } ∧
    ∃ m ∈ fTwoLoads.loads, m.lsid < 1 ∧ sTwoLoads.chip.loadsMeet (inst1 fTwoLoads) fTwoLoads { theLoad with ea := pad + 16 } m = true :=
  ⟨loads_of (by decide +kernel), by decide +kernel⟩

theorem witness_LoadsDeliver : ∃ c pl v t d w u, loadForm (.ldD64 0 target1) = some (target1, eaOff 8 0, { size := 8, signed := false }) ∧
    Loads sDeliver (inst1 fDeliver) fDeliver { theLoad with ea := pad + 16 } ∧ sDeliver.focus.phase = .perform ∧
    (unload sDeliver (inst1 fDeliver) fDeliver { theLoad with ea := pad + 16 }).access (inst1 fDeliver).actor .read false (pad + 16) 8 = (.ok pl, c) ∧
    c.loadBytes 0 1 pl { size := 8, signed := false } = (v, t, d) ∧ fDeliver.outrun 1 pl.loc (leBytes 8 v) = false ∧
    forward pl.loc 8 v t (c.storesBelow (inst1 fDeliver) fDeliver 1) = (w, u) ∧
    ∃ g, Frame.sendAll { fDeliver with
        loads := fDeliver.loads.filter fun x => x.idx != 0
        arrival := fDeliver.now
        seen := fDeliver.seen ++ [(1, pl.loc, leBytes 8 v)] } [target1]
      (.val (extended { size := 8, signed := false } w) (u || false)) = g := by
  exact ⟨_, _, _, _, _, _, _, rfl, loads_of (by decide +kernel), rfl, ok_is { loc := 0 } (by decide +kernel), rfl, by decide +kernel, rfl,
    ⟨_, rfl⟩⟩

/-- A load of store ID 2 has read a 9 where the load reads 0. -/
theorem witness_LoadsDeliver_outrun : Frame.outrun { fDeliver with seen := [(2, 64, [9])] } 1 60 (leBytes 8 0) = true ∧
    Frame.outrun { fDeliver with seen := [(2, 68, [9])] } 1 60 (leBytes 8 0) = false := by decide +kernel

theorem witness_LoadsDeliver_fault : Loads (sLoad [0] 3) (inst1 { fLoad [0] with loads := [{ theLoad with ea := 3 }] })
      { fLoad [0] with loads := [{ theLoad with ea := 3 }] } { theLoad with ea := 3 } ∧
    ∃ e c, (unload (sLoad [0] 3) (inst1 { fLoad [0] with loads := [{ theLoad with ea := 3 }] })
      { fLoad [0] with loads := [{ theLoad with ea := 3 }] } { theLoad with ea := 3 }).access (inst1 fAdd).actor .read false 3 8 = (.error e, c) :=
  ⟨loads_of (by decide +kernel), error_of (by decide +kernel)⟩

/-- Two stores of two bytes at 100 and 101 over a read of four at 100: bytes 0, 1 and 2 each come from another place. -/
def st0 : StoreOp × Nat := (⟨100, 2, 0x2211, false⟩, 100)
def st1 : StoreOp × Nat := (⟨101, 2, 0x4433, true⟩, 101)

theorem witness_ForwardingTakesTheHighestStore : coversByte (100 + 0) st0 = true ∧ (∀ x ∈ [st1], coversByte (100 + 0) x = false) ∧
    coversByte (100 + 1) st1 = true ∧ (∀ x ∈ [st0, st1], coversByte (100 + 3) x = false) ∧ (∀ x ∈ [st0, st1], 0 < x.1.size) := by
  decide +kernel

/-- On a supervisor's channel; a store ID resolved before; a block that has branched. -/
def instS (f : Frame) : Inst := { inst1 f with chan := 126 }
def fSeen : Frame := { fAdd with resolved := [1] }
def fGone : Frame := { fAdd with branch := some { idx := 1, target := 0x1000 } }

theorem witness_CommitAndBranchClassesFire : privFault sAdd (inst1 fAdd) (.stN8 0) = some none ∧
    privFault sAdd (inst1 fAdd) (.swr 0x010) = some (some { cause := 0x03, info0 := 0x10 }) ∧
    privFault sAdd (inst1 fAdd) .tlbiAll = some (some { cause := 0x03, info0 := 0x1C4 }) ∧
    privFault sAdd (instS fAdd) (.swr 0x010) = some none ∧ Fires sAdd (inst1 fAdd) fAdd ∧
    lsidOf (fAdd.word sAdd.focus.idx) = 0 ∧ 0 ∉ fAdd.resolved := by
  refine ⟨rfl, by decide +kernel, by decide +kernel, by decide +kernel, fires_of (by decide +kernel), ?_, ?_⟩ <;> decide +kernel

theorem witness_CommitAndBranchClassesFire_twice : Fires (at1 (inst1 { fAdd with resolved := [0] }) .fire) (inst1 { fAdd with resolved := [0] })
      { fAdd with resolved := [0] } ∧ lsidOf (({ fAdd with resolved := [0] } : Frame).word 0) ∈ ({ fAdd with resolved := [0] } : Frame).resolved :=
  ⟨fires_of (by decide +kernel), by decide +kernel⟩

theorem witness_CommitAndBranchClassesFire_branch : Fires sAdd (inst1 fAdd) fAdd ∧ fAdd.branch = none ∧
    (∃ b, branchOf sAdd (inst1 fAdd) (operands sAdd fAdd) (.br 2) = some (.ok b)) ∧
    (∃ e, branchOf sAdd (inst1 fAdd) (operands sAdd fAdd) .bri = some (.error e)) ∧
    isEret .eretRes = true ∧ (inst1 fAdd).supervisor = false ∧ (instS fAdd).supervisor = true ∧
    Fires (at1 (inst1 fGone) .fire) (inst1 fGone) fGone ∧ fGone.branch ≠ none ∧ Fires sNull (inst1 fNull) fNull ∧ fNull.onNull 0 = true := by
  refine ⟨fires_of (by decide +kernel), by decide +kernel, ⟨_, rfl⟩, ⟨_, rfl⟩, rfl, by decide +kernel, by decide +kernel,
    fires_of (by decide +kernel), by decide +kernel, fires_of (by decide +kernel), by decide +kernel⟩

/-! ### Actions at commit -/

/-- A committing block whose instruction 0, of a word, acts on operands and that has branched. -/
def fAct (w : Nat) (ops : List Tok) : Frame :=
  { fAdd with words := [w, 0x02000000], acts := [{ lsid := 0, idx := 0, ops }], branch := some { idx := 1, target := 0x1000 } }
def anAct (ops : List Tok) : Act := { lsid := 0, idx := 0, ops }
def iAct (w : Nat) (ops : List Tok) : Inst := { inst1 (fAct w ops) with state := .committing }
def sAct (w : Nat) (ops : List Tok) : State := at2 (iAct w ops) .commit
/-- The same of a null data token. -/
def fNullAct : Frame := { fAct 0 [] with acts := [{ lsid := 0, idx := 0, null := true }] }
def iNullAct : Inst := { inst1 fNullAct with state := .committing }

theorem witness_NullActionsPerformNothing : acting .squash = true ∧
    Acts (at2 iNullAct .commit) iNullAct fNullAct { lsid := 0, idx := 0, null := true } :=
  ⟨rfl, acts_of ⟨rfl, rfl, rfl, rfl, rfl⟩⟩

/-- Addresses and data of a store or an atomic. -/
def ops1 : List Tok := [num (pad + 16), num 0x0102, num 5]

theorem acts_sAct (w : Nat) (ops : List Tok) : Acts (sAct w ops) (iAct w ops) (fAct w ops) (anAct ops) := acts_of ⟨rfl, rfl, rfl, rfl, rfl⟩

theorem witness_StoresWriteTheirBytes : ∃ pl c, storeForm (.stN16 1) = some (2, eaOff 2 1, false) ∧
    Acts (sAct 0 ops1) (iAct 0 ops1) (fAct 0 ops1) (anAct ops1) ∧ (anAct ops1).null = false ∧ (sAct 0 ops1).chip.mem.wf = true ∧
    (before (sAct 0 ops1) (iAct 0 ops1) (fAct 0 ops1) (anAct ops1)).access (iAct 0 ops1).actor .write true
      (eaOff 2 1 (actOperands (anAct ops1)).a) 2 = (.ok pl, c) :=
  ⟨_, _, rfl, acts_sAct _ _, rfl, by decide +kernel, ok_is { loc := 0 } (by decide +kernel)⟩

theorem witness_TranslationTouchesOnlyAccessBits : (chip2 []).mem.wf = true ∧ 2 ^ 52 ≤ pad := by decide +kernel

theorem witness_AtomicsReadModifyWrite : ∃ op sc r pl c d old t v, atomicForm (.aadd .core false none) = some (op, sc, false, r) ∧
    Acts (sAct 0 ops1) (iAct 0 ops1) (fAct 0 ops1) (anAct ops1) ∧ (anAct ops1).null = false ∧
    (before (sAct 0 ops1) (iAct 0 ops1) (fAct 0 ops1) (anAct ops1)).access (iAct 0 ops1).actor .atomic false
      (actOperands (anAct ops1)).a.toNat 4 = (.ok pl, c) ∧
    (pl.home = .host → op.pcie = true) ∧ ((c.acquire 0 1 sc.code).dropLine 0 pl.loc).readPlace pl 4 = (old, t, d) ∧
    op.new 32 (BitVec.ofNat _ old) ((actOperands (anAct ops1)).b.setWidth _) ((actOperands (anAct ops1)).c.setWidth _) = some v ∧
    ∃ pl' e, d.access (iAct 0 ops1).actor .atomic true (actOperands (anAct ops1)).a.toNat 4 = (.ok pl', e) :=
  ⟨_, _, _, _, _, _, _, _, _, rfl, acts_sAct _ _, rfl, ok_is { loc := 0 } (by decide +kernel), fun _ => rfl, rfl, rfl, ok_of (by decide +kernel)⟩

/-- `ACAS` whose comparand differs from the location's 0. -/
theorem witness_AtomicsReadModifyWrite_none : ∃ op, atomicForm (.acas .core false none) = some (op, .core, false, none) ∧
    op.new 32 0 ((actOperands (anAct ops1)).b.setWidth _) ((actOperands (anAct ops1)).c.setWidth _) = none := ⟨_, rfl, by decide +kernel⟩

/-- A `.sc` atomic on a page of DRAM: tables of four levels at 0x10000, whose leaf maps page 0x8000 for reading and writing. -/
def rootPart : Part := { part2 with regs := (0x010, 0x10000) :: part2.regs }
def tables : List Host.Cell :=
  (((({} : Mem).write 0x10000 8 0x11001).write 0x11000 8 0x12001).write 0x12000 8 0x13001 |>.write 0x13040 8 0x8007).cells
def sPage (w : Nat) (ops : List Tok) : State := { sAct w ops with chip := { (sAct w ops).chip with parts := [rootPart], mem := { cells := tables } } }
def opsDram : List Tok := [num 0x8010, num 0x0102, num 5]
theorem acts_sPage (w : Nat) (ops : List Tok) : Acts (sPage w ops) (iAct w ops) (fAct w ops) (anAct ops) := acts_of ⟨rfl, rfl, rfl, rfl, rfl⟩

theorem witness_ScAtomicsWaitForTheToken : isSc (.aaddSc false none) = true ∧
    Acts (sPage 0x9D400000 opsDram) (iAct 0x9D400000 opsDram) (fAct 0x9D400000 opsDram) (anAct opsDram) ∧
    (anAct opsDram).null = false ∧ ∃ pl c, (before (sPage 0x9D400000 opsDram) (iAct 0x9D400000 opsDram) (fAct 0x9D400000 opsDram) (anAct opsDram)).access
      (iAct 0x9D400000 opsDram).actor .atomic false (actOperands (anAct opsDram)).a.toNat
      (if bits ((fAct 0x9D400000 opsDram).word (anAct opsDram).idx) 9 4 = 1 then 8 else 4) = (.ok pl, c) :=
  ⟨rfl, acts_sPage _ _, rfl, ok_of (by decide +kernel)⟩

/-- An atomic queued at the ordering point of the ring where the token stands. -/
def scOp1 : ScOp := { point := scRing.getD 0 0, iid := 1, idx := 0, word := 0x9D400000, ops := opsDram, taint := false, loc := 0x8010 }
def sQueued : State := { sPage 0x9D400000 opsDram with chip := { (sPage 0x9D400000 opsDram).chip with scq := [scOp1] } }

theorem witness_ScAtomicsWaitForTheToken_visit : (∀ q ∈ (sPage 0 []).chip.scq, q.point ≠ scRing.getD ((sPage 0 []).chip.scAt / 16 % 64) 0) ∧
    sQueued.chip.scq = [] ++ scOp1 :: [] ∧ scOp1.point = scRing.getD (sQueued.chip.scAt / 16 % 64) 0 ∧
    (∀ x ∈ ([] : List ScOp), x.point ≠ scRing.getD (sQueued.chip.scAt / 16 % 64) 0) := by
  refine ⟨?_, rfl, rfl, ?_⟩ <;> decide +kernel

theorem witness_TagAndTokenInstructions : ∃ c, Acts (sAct 0 ops1) (iAct 0 ops1) (fAct 0 ops1) (anAct ops1) ∧ (anAct ops1).null = false ∧
    sendEffect (before (sAct 0 ops1) (iAct 0 ops1) (fAct 0 ops1) (anAct ops1)) (iAct 0 ops1) (actOperands (anAct ops1)) (.tagnew (some 3)) = some c :=
  ⟨_, acts_sAct _ _, rfl, rfl⟩

/-- A core whose route 2 goes to itself, slot 1 of channel 5, in a launch of one core; a spawn descriptor for channel 5 of the same core. -/
def sRoute (ops : List Tok) : State :=
  { sAct 0 ops with chip := { (sAct 0 ops).chip with
      slots := [{ core := 0, pid := 1, cfg := { p0 := { routes := [0, 0, 0x4280] } } }] } }
theorem witness_TagAndTokenInstructions_each :
    (sendEffect (before (sRoute ops1) (iAct 0 ops1) (fAct 0 ops1) (anAct ops1)) (iAct 0 ops1) (actOperands (anAct ops1)) (.send 2)).isSome = true ∧
    (sendEffect (before (sRoute ops1) (iAct 0 ops1) (fAct 0 ops1) (anAct ops1)) (iAct 0 ops1) (actOperands (anAct ops1)) (.eos 2)).isSome = true ∧
    (sendEffect (before (sRoute ops1) (iAct 0 ops1) (fAct 0 ops1) (anAct ops1)) (iAct 0 ops1) (actOperands (anAct [num 5, num 4, num 0])) (.sendm 2)).isSome = true ∧
    (sendEffect (before (sRoute ops1) (iAct 0 ops1) (fAct 0 ops1) (anAct ops1)) (iAct 0 ops1) (actOperands (anAct [num 5, num 4, num 0])) (.spawn 2 none)).isSome = true ∧
    (sendEffect (before (sRoute ops1) (iAct 0 ops1) (fAct 0 ops1) (anAct ops1)) (iAct 0 ops1) (actOperands (anAct [num 0])) .tagfree).isSome = true := by
  decide +kernel

theorem witness_TokensLeaveInOrder : (1 < 2 ∧ 7 < 8 ∧ 3 < 4 ∧ 127 < 128 ∧ 2 ^ 48 - 1 < 2 ^ 48) ∧
    (∃ t ∈ [({ hdr := 0, payload := 0, dst := 1 } : Token)], t.dst ≠ 0) ∧ ∀ t ∈ [({ hdr := 0, payload := 0 } : Token)], t.dst = 0 := by
  decide +kernel

theorem witness_ControlInstructions : ∃ c, Acts (sAct 0 ops1) (iAct 0 ops1) (fAct 0 ops1) (anAct ops1) ∧ (anAct ops1).null = false ∧
    controlEffect (before (sAct 0 ops1) (iAct 0 ops1) (fAct 0 ops1) (anAct ops1)) (iAct 0 ops1) (actOperands (anAct ops1)) .swrFpc = some c :=
  ⟨_, acts_sAct _ _, rfl, rfl⟩

/-! ### Branches, faults, returns -/

theorem numbered_of {c : Chip} (h : (c.insts.map Inst.iid).Nodup ∧ (∀ i ∈ c.insts, i.iid < c.nextIid) ∧ ∀ i ∈ c.insts, i.creator = none) :
    Numbered c := ⟨h.1, h.2.1, fun i hi k hk => by rw [h.2.2 i hi] at hk; cases hk⟩
theorem branches_of {s : State} {i : Inst} {f : Frame} {b : Branch} (h : s.chip.inst? s.focus.iid = some i ∧ i.frame = some f ∧
    i.state = .committing ∧ f.branch = some b ∧ s.focus.phase = .commit)
    (n : (s.chip.insts.map Inst.iid).Nodup ∧ (∀ i ∈ s.chip.insts, i.iid < s.chip.nextIid) ∧ ∀ i ∈ s.chip.insts, i.creator = none) :
    Branches s i f b := ⟨h.1, h.2.1, h.2.2.1, h.2.2.2.1, h.2.2.2.2, numbered_of n⟩

/-- A block whose branch has its turn, of an instance beside one that is suspended under handle 9. -/
def aBranch (h : Nat) : Branch := { idx := 0, target := 0x2000, op := num h, op2 := num 0x3000 }
def fBr (h : Nat) : Frame := { fAdd with branch := some (aBranch h) }
def iBr (h : Nat) : Inst := { inst1 (fBr h) with state := .committing }
def iOther : Inst := { iid := 3, core := 0, pid := 1, chan := 5, state := .suspended, handle := 9, block := 0x1000 }
def sBr (i : Inst) : State := { chip := chip2 [i, iOther], focus := { iid := 1, pid := 1, phase := .commit } }
theorem branches_sBr (h : Nat) : Branches (sBr (iBr h)) (iBr h) (fBr h) (aBranch h) :=
  branches_of ⟨rfl, rfl, rfl, rfl, rfl⟩ (by refine ⟨?_, ?_, ?_⟩ <;> simp [sBr, chip2, chip1, iBr, iOther, inst1])

theorem witness_BranchesMoveTheInstance : goesOn (.br 4) = some false ∧ goesOn (.yield 4) = some true ∧
    Branches (sBr (iBr 9)) (iBr 9) (fBr 9) (aBranch 9) ∧ (iBr 9).handle = 0 ∧ (iBr 9).recalled = false := ⟨rfl, rfl, branches_sBr 9, rfl, rfl⟩

/-- The same after a `TRAP`, and with a return value that has yet to come. -/
def iBrTrap : Inst := { iBr 9 with handle := 4 }
def iBrPend : Inst := { iBr 9 with regs := (iBr 9).regs.set 3 { pend := true } }

theorem witness_BranchesMoveTheInstance_trap : Branches (sBr iBrTrap) iBrTrap (fBr 9) (aBranch 9) ∧ iBrTrap.handle ≠ 0 :=
  ⟨branches_of ⟨rfl, rfl, rfl, rfl, rfl⟩ (by refine ⟨?_, ?_, ?_⟩ <;> simp [sBr, chip2, chip1, iBrTrap, iBr, iOther, inst1]), by decide⟩

theorem witness_ExitEndsTheInstance : Branches (sBr (iBr 9)) (iBr 9) (fBr 9) (aBranch 9) ∧ (∀ r ∈ (iBr 9).regs.toList, r.pend = false) ∧
    (sBr (iBr 9)).chip.coreOfLin 1 0 0 = some 0 := ⟨branches_sBr 9, by decide +kernel, by decide +kernel⟩

theorem witness_ExitEndsTheInstance_pending : Branches (sBr iBrPend) iBrPend (fBr 9) (aBranch 9) ∧ ∃ r ∈ iBrPend.regs.toList, r.pend = true :=
  ⟨branches_of ⟨rfl, rfl, rfl, rfl, rfl⟩ (by refine ⟨?_, ?_, ?_⟩ <;> simp [sBr, chip2, chip1, iBrPend, iBr, iOther, inst1]), by decide +kernel⟩

theorem witness_EretDisposesOfTheInstance : isEret .eretRv = true ∧ Branches (sBr (iBr 9)) (iBr 9) (fBr 9) (aBranch 9) ∧
    (∀ r ∈ (iBr 9).regs.toList, r.pend = false) ∧ handleOf (aBranch 9) ≠ 0 ∧
    ((sBr (iBr 9)).chip.closeCommit 1).byHandle 0 1 (handleOf (aBranch 9)) = some iOther ∧ iOther.iid ≠ (iBr 9).iid ∧
    ((sBr (iBr 9)).chip.closeCommit 1).inst? iOther.iid = some iOther ∧ (∃ o, eretOutcome iOther (aBranch 9) .eretRv = some o) ∧
    Branches (sBr (iBr 0)) (iBr 0) (fBr 0) (aBranch 0) ∧ handleOf (aBranch 0) = 0 :=
  ⟨rfl, branches_sBr 9, by decide +kernel, by decide +kernel, by decide +kernel, by decide, by decide +kernel, ⟨_, rfl⟩, branches_sBr 0,
    by decide +kernel⟩

/-- An `ERET` with a return value of its own instance still to come. -/
theorem witness_EretDisposesOfTheInstance_pending : Branches (sBr iBrPend) iBrPend (fBr 9) (aBranch 9) ∧ (∃ r ∈ iBrPend.regs.toList, r.pend = true) ∧
    handleOf (aBranch 9) ≠ 0 ∧ ((sBr iBrPend).chip.closeCommit 1).byHandle 0 1 (handleOf (aBranch 9)) = some iOther ∧
    ((sBr iBrPend).chip.closeCommit 1).inst? iOther.iid = some iOther :=
  ⟨branches_of ⟨rfl, rfl, rfl, rfl, rfl⟩ (by refine ⟨?_, ?_, ?_⟩ <;> simp [sBr, chip2, chip1, iBrPend, iBr, iOther, inst1]), by decide +kernel,
    by decide +kernel, by decide +kernel, by decide +kernel⟩

/-- A supervisor's block that is complete, with an `ERET` of handle 8, which names no instance. -/
def fErr : Frame := { fBr 8 with words := [0xE0800000, 0x02000000] }
def iErr : Inst := { instS fErr with state := .complete }
def sErr : State := sBr iErr

theorem witness_EretDisposesOfTheInstance_handle : sErr.chip.inst? sErr.focus.iid = some iErr ∧ iErr.frame = some fErr ∧
    fErr.branch = some (aBranch 8) ∧ fErr.instrOf (aBranch 8).idx = some .eretRes ∧ handleOf (aBranch 8) ≠ 0 ∧
    sErr.chip.byHandle 0 1 (handleOf (aBranch 8)) = none ∧ sErr.chip.mayCommit iErr fErr = true ∧
    (∀ x ∈ (sErr.chip.checkAll iErr fErr).1, (aBranch 8).idx ≤ x.1 ∧ (x.1 = (aBranch 8).idx → x.2 = { cause := 0x05 })) ∧
    (sErr.chip.checkAll iErr fErr).1 ≠ [] := by decide +kernel

/-- A running instance, an iteration that it has created and that is speculative, a supervisor. -/
def iSpec : Inst := { inst1 fAdd with iid := 2, creator := some 1 }
def cFault : Chip := { chip2 [inst1 fAdd, iSpec] with nextIid := 3 }
def cSuper : Chip := chip2 [instS fAdd]

theorem witness_FaultsSuspendTheInstance : cFault.inst? 1 = some (inst1 fAdd) ∧ (inst1 fAdd).frame = some fAdd ∧ Numbered cFault ∧
    (inst1 fAdd).creator = none ∧ (inst1 fAdd).chan < 126 ∧ (cFault.part 1).canTrap = true ∧ cFault.inst? 2 = some iSpec ∧ iSpec.creator ≠ none := by
  refine ⟨rfl, rfl, ⟨by simp [cFault, chip2, chip1, inst1, iSpec], by simp [cFault, chip2, chip1, inst1, iSpec], ?_⟩, rfl, by decide, by decide +kernel, rfl, by decide⟩
  simp [cFault, chip2, chip1, inst1, iSpec]

theorem witness_FaultsSuspendTheInstance_supervisor : cSuper.inst? 1 = some (instS fAdd) ∧ Numbered cSuper ∧ 126 ≤ (instS fAdd).chan :=
  ⟨rfl, numbered_of (by simp [cSuper, chip2, chip1, instS, inst1]), by decide⟩

theorem witness_TrapQueuesItsRecord : ∃ b, Acts (sAct 0 ops1) (iAct 0 ops1) (fAct 0 ops1) (anAct ops1) ∧ (anAct ops1).null = false ∧
    (fAct 0 ops1).branch = some b ∧ (iAct 0 ops1).chan < 126 ∧ ((sAct 0 ops1).chip.part 1).canTrap = true :=
  ⟨_, acts_sAct _ _, rfl, rfl, by decide, by decide +kernel⟩

/-- A slot whose record 64 waits for place 0; one without scratchpad. -/
def aRec : FaultRec := { cause := 0x16, index := 63, handle := 5, block := 0x1000, chan := 127, tag := 2 ^ 48 - 1 }
def sRec (p : Part) : State :=
  { chip := { chip2 [] with parts := [p], slots := [{ core := 0, pid := 1, recs := { wait := [(64, aRec)], next := 65 } }] }, focus := { pid := 1 } }

theorem witness_RecordsAreDelivered : recordInRange aRec ∧ (sRec part2).chip.recordReady 0 1 = some (64, aRec) ∧
    ((sRec part2).chip.part 1).canTrap = true ∧
    (∃ d, (((sRec part2).chip.modSlot 0 1 fun sl => { sl with recs := { sl.recs with wait := sl.recs.wait.drop 1 } }).engineWrite
      { pid := 1, core := 0 } pad ((recordWords aRec 0 64).flatMap (leBytes 8)) false) = (.ok (), d)) ∧
    (sRec part1).chip.recordReady 0 1 = some (64, aRec) ∧ ((sRec part1).chip.part 1).canTrap = true ∧
    (∃ e d, (((sRec part1).chip.modSlot 0 1 fun sl => { sl with recs := { sl.recs with wait := sl.recs.wait.drop 1 } }).engineWrite
      { pid := 1, core := 0 } pad ((recordWords aRec 0 64).flatMap (leBytes 8)) false) = (.error e, d)) := by
  refine ⟨?_, by decide +kernel, by decide +kernel, ⟨_, ok_is () (by decide +kernel)⟩, by decide +kernel, by decide +kernel,
    error_of (by decide +kernel)⟩
  simp [recordInRange, aRec]

/-- Reading registers: FPC, CYCLE, PIDR as a supervisor and not, a number that is not assigned; counters. -/
def fReg (n : Nat) : Frame := block1 0x20000101 (num n) (num 0) (num 0)
def sReg (n : Nat) (c : Nat) : State := at1 { inst1 (fReg n) with chan := c } .fire

theorem witness_RegistersAndCountersAreRead : Fires (sReg 0 5) { inst1 (fReg 0) with chan := 5 } (fReg 0) ∧ (fReg 0).onNull 0 = false ∧
    readable false 0 = true ∧ assigned 0x002 = false ∧ assigned 0x050 = true ∧ readable false 0x050 = false ∧ readable true 0x050 = true ∧
    (∃ g, (mark (fReg 0) 0).sendAll [none, target1] (.val (registerValue (sReg 0 5).chip { inst1 (fReg 0) with chan := 5 } 0).1 false) = g) ∧
    (∃ g, (mark (fReg 1) 0).sendAll [none, target1] (.val (BitVec.ofNat 64
      (min (((sReg 1 5).chip.coreSt 0).cycle + 1 + (Config.freeWord (sReg 1 5).chip.free).toNat %
        (2 ^ 64 - 1 - ((sReg 1 5).chip.coreSt 0).cycle)) (2 ^ 64 - 1))) true) = g) :=
  ⟨fires_of (by decide +kernel), by decide +kernel, by decide +kernel, by decide +kernel, by decide +kernel, by decide +kernel, by decide +kernel,
    ⟨_, rfl⟩, ⟨_, rfl⟩⟩

theorem witness_RegistersAndCountersAreRead_counter : Fires (sReg 0x0100 5) { inst1 (fReg 0x0100) with chan := 5 } (fReg 0x0100) ∧
    (∃ n, counterGroup 1 = some n ∧ 0 < n) ∧ untimedCounter 1 0 = false ∧
    (∃ h, (mark (fReg 0x0100) 0).sendAll [none, target1] (.val (BitVec.ofNat 64 ((sReg 0x0100 5).chip.perfCounter 0 1 1 0).1) true) = h) ∧
    (∃ n, counterGroup 0x0A = some n ∧ 26 < n) ∧ untimedCounter 0x0A 26 = true ∧
    (∃ h, (mark (fReg 0x0A1A) 0).sendAll [none, target1] (.val (BitVec.ofNat 64 (min
      (lookupNat ((sReg 0x0A1A 5).chip.slot 0 1).counts (0x0A * 256 + 26) + (Config.freeWord 0).toNat % 2 ^ 32) (2 ^ 32 - 1))) true) = h) ∧
    (∀ n, counterGroup 0x0A = some n → n ≤ 29) ∧ ∀ n, counterGroup 4 = some n → n ≤ 0 := by
  refine ⟨fires_of (by decide +kernel), ⟨_, rfl, by decide⟩, rfl, ⟨_, rfl⟩, ⟨_, rfl, by decide⟩, rfl, ⟨_, rfl⟩, ?_, ?_⟩
  · intro n h; simp [counterGroup] at h; omega
  · intro n h; simp [counterGroup] at h

theorem witness_SystemOperationsAreUnderWay : Acts (sAct 0 ops1) (iAct 0 ops1) (fAct 0 ops1) (anAct ops1) ∧ (anAct ops1).null = false ∧
    (∃ kind, operationOf (actOperands (anAct ops1)) .tlbiVa = some kind) ∧ (∀ r, Instr.tlbiVa ≠ .quotaWrite r) ∧
    ∃ bs d, (before (sAct 0 [num 3, num pad]) (iAct 0 [num 3, num pad]) (fAct 0 [num 3, num pad]) (anAct [num 3, num pad])).keyImage
      (iAct 0 [num 3, num pad]) (actOperands (anAct [num 3, num pad])).b.toNat = (.ok bs, d) :=
  ⟨acts_sAct _ _, rfl, ⟨_, rfl⟩, fun _ => nofun, _, _, ok_is [] (by decide +kernel)⟩

/-- A partition with operations under way: 0 and 2 on one register, 1 a `TLBI`, 3 a `CINV`. -/
def pend (n : Nat) (k : PendKind) : Pend := { n, kind := k, who := { iid := 1, pid := 1 } }
def partPend : Part := { part2 with pends := [pend 0 (.swr 0x11 5 false), pend 1 (.tlbi 2 0 0), pend 2 (.swr 0x11 6 true), pend 3 (.cinv 0 0x1000)] }
def sPend (n : Nat) : State :=
  { chip := { chip2 [{ inst1 fAdd with frame := none, holds := [.op n] }] with parts := [partPend], cores := [{ id := 0, blocks := [⟨1, 0x1000, 0, []⟩] }] }
    focus := { pid := 1, n } }

/-- A slot whose plane engine is in a chunk. -/
def chunkEng : EngineQ := { cmds := [{ op := .mma, num := 1, started := true, held := [(1, {})] }] }
def slotChunk : Machine.Slot := { core := 0, pid := 1, engs := (Vector.replicate 10 {}).set 5 chunkEng }

/-- Operation 2 waits for operation 0 on its register; a `TLBI` waits while an engine is in a chunk, and a register while a `.sc` atomic waits. -/
theorem witness_SystemOperationsComplete_waiting :
    ((sPend 2).chip.part 1).pends.find? (fun x => x.n == 2) = some (pend 2 (.swr 0x11 6 true)) ∧ waiting (sPend 2) (pend 2 (.swr 0x11 6 true)) = true ∧
    (∃ c, completed (sPend 2).chip 1 (.swr 0x11 6 true) .swrRegionComplete = some c) ∧
    waiting { sPend 0 with chip := { (sPend 0).chip with scq := [scOp1] } } (pend 0 (.swr 0x11 5 false)) = true ∧
    waiting { sPend 0 with chip := { (sPend 0).chip with slots := [slotChunk] } } (pend 1 (.tlbi 2 0 0)) = true := by
  refine ⟨by decide +kernel, by decide +kernel, ⟨_, rfl⟩, by decide +kernel, by decide +kernel⟩

theorem witness_SystemOperationsComplete :
    ((sPend 0).chip.part 1).pends.find? (fun x => x.n == 0) = some (pend 0 (.swr 0x11 5 false)) ∧
    waiting (sPend 0) (pend 0 (.swr 0x11 5 false)) = false ∧
    (∃ c, completed (sPend 0).chip 1 (.swr 0x11 5 false) .swrRegionComplete = some c) ∧
    ((sPend 1).chip.part 1).pends.find? (fun x => x.n == 1) = some (pend 1 (.tlbi 2 0 0)) ∧
    waiting (sPend 1) (pend 1 (.tlbi 2 0 0)) = false ∧
    (∃ c, completed (sPend 1).chip 1 (.tlbi 2 0 0) .tlbiComplete = some c) ∧
    ((sPend 3).chip.part 1).pends.find? (fun x => x.n == 3) = some (pend 3 (.cinv 0 0x1000)) :=
  ⟨by decide +kernel, by decide +kernel, ⟨_, rfl⟩, by decide +kernel, by decide +kernel, ⟨_, rfl⟩, by decide +kernel⟩

/-! ### Engine commands and waits -/

theorem witness_EngineCommandsQueue : (∃ m, engineForm (.mma 3 true 0) = some m) ∧ Acts (sAct 0 ops1) (iAct 0 ops1) (fAct 0 ops1) (anAct ops1) ∧
    (anAct ops1).null = false ∧ (sAct 0 ops1).chip.mem.wf = true ∧ (∀ c d fn w, Instr.mma 3 true 0 ≠ .cred c d fn w) ∧
    (∃ m, engineForm (.cred 3 true 0 false) = some m) ∧ Acts (sPage 0 opsDram) (iAct 0 opsDram) (fAct 0 opsDram) (anAct opsDram) ∧
    (sPage 0 opsDram).chip.mem.wf = true ∧
    ∃ pl x, (before (sPage 0 opsDram) (iAct 0 opsDram) (fAct 0 opsDram) (anAct opsDram)).checkCred (iAct 0 opsDram).actor
      (actOperands (anAct opsDram)).a.toNat 4 = (.ok pl, x) :=
  ⟨⟨_, rfl⟩, acts_sAct _ _, rfl, by decide +kernel, fun _ _ _ _ => nofun, ⟨_, rfl⟩, acts_sPage _ _, by decide +kernel, ok_of (by decide +kernel)⟩

/-- Context 5 and copy channel 0 halted by the first of two commands, which may or may not be resumed. -/
def halted (only : Bool) : EngineQ :=
  { cmds := [{ op := .mma, num := 1, dn := true, dch := 9, len := 64, fail := some aRec, onlyAbandon := only }, { op := .mma, num := 2 }], halted := true, given := 2 }
def slotHalted (only : Bool) : Machine.Slot := { core := 0, pid := 1, engs := (Vector.replicate 10 {}).set 5 (halted only) |>.set 0 (halted only) }
def sHalted (only : Bool) : State := { sAct 0 ops1 with chip := { (sAct 0 ops1).chip with slots := [slotHalted only] } }

theorem witness_EngineContextsAreServed : (∃ m, serviceForm (.mmaRes 7 true) = some m) ∧ (∃ m, serviceForm (.cpyAbn 0 (some 4)) = some m) ∧
    Acts (sHalted false) (iAct 0 ops1) (fAct 0 ops1) (anAct ops1) ∧ (anAct ops1).null = false ∧
    ((sHalted false).chip.slot 0 1).eng 6 = {} ∧ ((sHalted false).chip.slot 0 1).eng 5 = halted false ∧ ((sHalted true).chip.slot 0 1).eng 0 = halted true ∧
    (∃ q back, (halted false).cmds = [] ++ q :: back ∧ q.fail = some aRec ∧ q.onlyAbandon = false ∧ ∀ x ∈ back, x.done = false) ∧
    (∃ q back, (halted true).cmds = [] ++ q :: back ∧ q.fail = some aRec ∧ q.onlyAbandon = true) :=
  ⟨⟨_, rfl⟩, ⟨_, rfl⟩, acts_of ⟨rfl, rfl, rfl, rfl, rfl⟩, rfl, by decide +kernel, by decide +kernel, by decide +kernel,
    ⟨_, _, rfl, rfl, rfl, by decide +kernel⟩, ⟨_, _, rfl, rfl, rfl⟩⟩

theorem witness_WaitsHold : Fires sAdd (inst1 fAdd) fAdd ∧ fAdd.onNull 0 = false ∧ (∃ v, waitHeld sAdd (inst1 fAdd) (operands sAdd fAdd) (.waittl .core 12 target1) = some (.ok v)) ∧
    (∃ v, waitHeld sAdd (inst1 fAdd) (operands sAdd fAdd) (.wpwait .core false 0 target1) = some (.ok v)) ∧
    (∃ e, waitHeld sAdd (inst1 fAdd) (operands sAdd fAdd) (.wpwait .core true 0 target1) = some (.error e)) := by
  refine ⟨fires_of (by decide +kernel), by decide +kernel, ⟨_, rfl⟩, ⟨_, rfl⟩, ⟨_, rfl⟩⟩

/-- `EXPECT` of two tokens of channel 5, of no token, and of two where 65534 are posted already. -/
def fExp (n : Nat) : Frame := fReg (n * 2 ^ 16 + 5)
def sExp (n posted : Nat) : State :=
  { chip := { chip1 [inst1 (fExp n)] with slots := [{ core := 0, pid := 1, cfg := { chans := [{ chan := 5, posts := [(7, 0, posted)] }] } }] }
    focus := { iid := 1, pid := 1 } }

theorem witness_WaitsHold_expect : Fires (sExp 2 65533) (inst1 (fExp 2)) (fExp 2) ∧ ((operands (sExp 2 65533) (fExp 2)).a.extractLsb' 16 16).toNat = 2 ∧
    (operands (sExp 2 65533) (fExp 2)).a.extractLsb' 7 9 = 0 ∧ (operands (sExp 2 65533) (fExp 2)).a.extractLsb' 32 32 = 0 ∧
    ((((sExp 2 65533).chip.slot 0 1).cfg.chan 5).posts.map fun p => p.2.2).sum + 2 = 65535 ∧
    Fires (sExp 0 3) (inst1 (fExp 0)) (fExp 0) ∧ ((operands (sExp 0 3) (fExp 0)).a.extractLsb' 16 16).toNat = 0 ∧
    Fires (sExp 2 65534) (inst1 (fExp 2)) (fExp 2) ∧ 65535 < ((((sExp 2 65534).chip.slot 0 1).cfg.chan 5).posts.map fun p => p.2.2).sum + 2 ∧
    ∃ g, (mark (fExp 0) 0).sendAll [target1] (.val (BitVec.allOnes 64) false) = g :=
  ⟨fires_of (by decide +kernel), by decide +kernel, by decide +kernel, by decide +kernel, by decide +kernel, fires_of (by decide +kernel),
    by decide +kernel, fires_of (by decide +kernel), by decide +kernel, ⟨_, rfl⟩⟩

/-- A launch with a timetable whose one entry, at marker 4, is at a stage. -/
def entry (stage : Nat) : TtEntry := { region := 0, src := 3, dst := 0, action := 0, marker := 4, length := 4096, offset := 0, stage }
def table (stage : Nat) : Timetable := { regions := [], entries := [entry stage], mapBase := 0, la := 0 }
def launchT (stage : Nat) (trap : Bool) : Launch := { lid := 0, ox := 0, oy := 0, lw := 0, lh := 0, trap, tt := some (table stage) }
def fMark : Frame := fReg 4
def sMark (stage : Nat) (trap : Bool) : State :=
  { chip := { chip1 [inst1 fMark] with parts := [{ part1 with launches := [launchT stage trap] }] }, focus := { iid := 1, pid := 1 } }

theorem witness_WaitsHold_mark : Fires (sMark 1 false) (inst1 fMark) fMark ∧ fMark.onNull 0 = false ∧
    (sMark 1 false).chip.ttAt 0 1 = some (launchT 1 false, table 1) ∧ (table 1).entries = [] ++ entry 1 :: [] ∧ (entry 1).marker ≤ 4 ∧
    (entry 1).stage ≠ 2 ∧ (entry 1).stage ≠ 3 ∧ (launchT 1 false).trap = false ∧ Fires (sMark 2 true) (inst1 fMark) fMark ∧
    (sMark 2 true).chip.ttAt 0 1 = some (launchT 2 true, table 2) ∧ (∀ e ∈ (table 2).entries, e.marker ≤ 4 → e.stage = 2) ∧
    Fires (sMark 3 true) (inst1 fMark) fMark ∧ (sMark 3 true).chip.ttAt 0 1 = some (launchT 3 true, table 3) ∧ (entry 3).stage = 3 ∧
    Fires sAdd (inst1 fAdd) fAdd ∧ sAdd.chip.ttAt 0 1 = none ∧
    ∃ g, Frame.sendAll { mark fMark 0 with marks := [4] } [target1] (.val (BitVec.ofNat 64 4) false) = g :=
  ⟨fires_of (by decide +kernel), by decide +kernel, by decide +kernel, rfl, by decide, by decide, by decide, rfl, fires_of (by decide +kernel),
    by decide +kernel, by decide +kernel, fires_of (by decide +kernel), by decide +kernel, rfl, fires_of (by decide +kernel), by decide +kernel,
    ⟨_, rfl⟩⟩

/-- A block that holds a wait for timeline 12 to reach 5, with the timeline at `v`; and a `MARK` at 4. -/
def fWait (w n : Nat) : Frame := { fAdd with words := [w, 0x02000000], waits := [{ idx := 0, n := BitVec.ofNat 64 n, taint := false }] }
def sWait (v : Nat) : State :=
  { chip := { chip1 [inst1 (fWait 0x9DA03801 5)] with slots := [{ core := 0, pid := 1, tls := (Vector.replicate 16 0).set 12 (BitVec.ofNat 64 v) }] }
    focus := { iid := 1, pid := 1 } }
def sHeldMark (stage : Nat) : State :=
  { chip := { chip1 [inst1 (fWait 0xAAA00001 4)] with parts := [{ part1 with launches := [launchT stage false] }] }, focus := { iid := 1, pid := 1 } }

theorem witness_WaitsAreReleased : ∃ p, released (sWait 5) (inst1 (fWait 0x9DA03801 5)) (fWait 0x9DA03801 5) { idx := 0, n := 5, taint := false } .waittlRelease = some p ∧
    Waits (sWait 5) (inst1 (fWait 0x9DA03801 5)) (fWait 0x9DA03801 5) { idx := 0, n := 5, taint := false } ∧ p ∧
    ∃ g, Frame.sendAll { fWait 0x9DA03801 5 with waits := (fWait 0x9DA03801 5).waits.filter fun x => x.idx != 0, arrival := (fWait 0x9DA03801 5).now } [t0Of ((fWait 0x9DA03801 5).word 0)]
      (.val 5 false) = g :=
  ⟨_, rfl, waits_of (by decide +kernel), by decide +kernel, ⟨_, rfl⟩⟩

theorem witness_WaitsAreReleased_not : ∃ p, released (sWait 4) (inst1 (fWait 0x9DA03801 5)) (fWait 0x9DA03801 5) { idx := 0, n := 5, taint := false } .waittlRelease = some p ∧
    Waits (sWait 4) (inst1 (fWait 0x9DA03801 5)) (fWait 0x9DA03801 5) { idx := 0, n := 5, taint := false } ∧ ¬p :=
  ⟨_, rfl, waits_of (by decide +kernel), by decide +kernel⟩

theorem witness_WaitsAreReleased_mark : ∀ stage ∈ [1, 3], opOf ((fWait 0xAAA00001 4).word 0) = 0x155 ∧
    (sHeldMark stage).chip.ttAt 0 1 = some (launchT stage false, table stage) ∧ (table stage).entries = [] ++ entry stage :: [] ∧
    (entry stage).marker ≤ (4 : Word).toNat := by decide +kernel

/-! ### Loops, launches, configurations, swaps -/

/-- Partition 1 with quotas and room for a launch on its one core. -/
def part3 : Part :=
  { part2 with launches := [], mgr := true, regs := [(0x030, 1), (0x031, 0x4000), (0x040, 0x100000000), (0x044, 0x0010001000080020)] }

/-- `ITER` with one argument in a loop body with window 8 or 1; in a block that writes FPC; with no argument in a body of none. -/
def fIter (hdr : Nat) (w : Nat) : Frame := { block1 0xA6800000 (num 3) (num 0) (num 0) with hdr := hdr, words := [0xA6800000, w] }
def loopHdr : Nat := 0xB7000000 + 2 ^ 18 + 7 * 2 ^ 19
def iIter (hdr : Nat) (w : Nat) : Inst := inst1 (fIter hdr w)
def sIter (hdr : Nat) (w : Nat) : State := { chip := { chip1 [iIter hdr w] with parts := [{ part3 with launches := part1.launches }] }, focus := { iid := 1, pid := 1 } }

theorem valid_iter : ∀ w ∈ [0x02000000, 0xE1800000], iterValid (sIter loopHdr w) (iIter loopHdr w) (fIter loopHdr w) := by
  have h : ∀ w ∈ [0x02000000, 0xE1800000], bitAt (fIter loopHdr w).hdr 18 = true ∧
      ((fIter loopHdr w).data 0).length = (iIter loopHdr w).args.length ∧ (iIter loopHdr w).tag % 2 ^ 26 ≠ 2 ^ 26 - 1 := by decide +kernel
  exact h
theorem ok_eq {α β ε : Type} {x : Except ε α × β} {a : α} (h : x.1.toOption = some a) : x = (.ok a, x.2) := by
  rcases x with ⟨_ | b, c⟩ <;> cases h
  rfl

theorem witness_IterationsAreCreated : Fires (sIter loopHdr 0x02000000) (iIter loopHdr 0x02000000) (fIter loopHdr 0x02000000) ∧
    (fIter loopHdr 0x02000000).onNull 0 = false ∧ iterValid (sIter loopHdr 0x02000000) (iIter loopHdr 0x02000000) (fIter loopHdr 0x02000000) ∧
    lsidOf ((fIter loopHdr 0x02000000).word 0) ∉ (fIter loopHdr 0x02000000).resolved ∧
    (∀ w ∈ (fIter loopHdr 0x02000000).words, ¬(opOf w = 0x1C3 ∧ bits w 0 12 = 0)) ∧
    (become (sIter loopHdr 0x02000000) (iIter loopHdr 0x02000000) (fIter loopHdr 0x02000000) (resolving (sIter loopHdr 0x02000000)
      (fIter loopHdr 0x02000000))).chip.iterRoom (iIter loopHdr 0x02000000) loopHdr = true ∧
    Fires (sIter loopHdr 0xE1800000) (iIter loopHdr 0xE1800000) (fIter loopHdr 0xE1800000) ∧
    iterValid (sIter loopHdr 0xE1800000) (iIter loopHdr 0xE1800000) (fIter loopHdr 0xE1800000) ∧
    (∃ w ∈ (fIter loopHdr 0xE1800000).words, opOf w = 0x1C3 ∧ bits w 0 12 = 0) ∧
    Fires (sIter 0xB7000000 0) (iIter 0xB7000000 0) (fIter 0xB7000000 0) ∧ ¬iterValid (sIter 0xB7000000 0) (iIter 0xB7000000 0) (fIter 0xB7000000 0) := by
  refine ⟨fires_of (by decide +kernel), by decide +kernel, valid_iter _ (by decide), by decide +kernel, by decide +kernel, by decide +kernel,
    fires_of (by decide +kernel), valid_iter _ (by decide), by decide +kernel, fires_of (by decide +kernel), fun h => absurd h.1 (by decide +kernel)⟩

/-- A deferred iteration in a window of 8 and of 1. -/
def iDefer (hdr : Nat) : Inst := { iIter hdr 0 with deferred := [{ args := [num 7], atCommit := false }] }
def sDefer (hdr : Nat) : State := { sIter hdr 0 with chip := { (sIter hdr 0).chip with insts := [iDefer hdr] } }

theorem witness_IterationsAreCreated_deferred : ∀ hdr ∈ [loopHdr, 0xB7000000 + 2 ^ 18], (sDefer hdr).chip.inst? 1 = some (iDefer hdr) ∧
    (iDefer hdr).frame = some (fIter hdr 0) ∧
    (iDefer hdr).deferred.find? (fun d => !d.atCommit) = some { args := [num 7], atCommit := false } ∧
    (sDefer hdr).chip.iterRoom (iDefer hdr) hdr = (hdr == loopHdr) := by decide +kernel

theorem witness_SquashDiscardsBeyond : Acts (sAct 0 ops1) (iAct 0 ops1) (fAct 0 ops1) (anAct ops1) ∧ (anAct ops1).null = false ∧
    beyondOf (sAct 0 ops1).chip (iAct 0 ops1) { iOther with tag := 3 } ∧ ¬beyondOf (sAct 0 ops1).chip (iAct 0 ops1) iOther := by
  refine ⟨acts_sAct _ _, rfl, ?_, ?_⟩
  · show _ ∧ _ ∧ _ ∧ _; decide +kernel
  · show ¬(_ ∧ _ ∧ _ ∧ _); decide +kernel

/-- A launch descriptor at byte 0x100 of the scratchpad, an image of one channel and no route at 0x200, one with a route and no format entry at 0x300. -/
def opsLaunch (desc rect : Nat) : List Tok := [num (pad + desc), num rect, num 77]
def imageMem : Mem :=
  ((((({} : Mem).write (locCore 0 0x100) 8 (pad + 0x200)).write (locCore 0 0x108) 8 5).write (locCore 0 0x200) 8 (2 ^ 24)).write
    (locCore 0 0x210) 8 0x1000).write (locCore 0 0x218) 8 (2 ^ 56 + 2 ^ 48 + 5)
def sLaunch (ops : List Tok) : State := { sAct 0 ops with chip := { (sAct 0 ops).chip with parts := [part3], mem := imageMem } }
def imageOf (r : Except AFault (Option Image) × Chip) : Image := (r.1.toOption.bind id).getD ⟨0, 0, 0, 0, 0, [], [], [], none⟩
theorem acts_sLaunch (ops : List Tok) : Acts (sLaunch ops) (iAct 0 ops) (fAct 0 ops) (anAct ops) := acts_of ⟨rfl, rfl, rfl, rfl, rfl⟩
def launchDesc : List Nat := [pad + 0x200, 5]

theorem witness_LaunchesPlaceAndStart : ∃ d c g c2, Acts (sLaunch (opsLaunch 0x100 0)) (iAct 0 (opsLaunch 0x100 0)) (fAct 0 (opsLaunch 0x100 0))
      (anAct (opsLaunch 0x100 0)) ∧ (anAct (opsLaunch 0x100 0)).null = false ∧
    (before (sLaunch (opsLaunch 0x100 0)) (iAct 0 (opsLaunch 0x100 0)) (fAct 0 (opsLaunch 0x100 0)) (anAct (opsLaunch 0x100 0))).readDesc
      (iAct 0 (opsLaunch 0x100 0)).actor (pad + 0x100) 2 = (.ok d, c) ∧ launchBad (d.getD 1 0) 0 = false ∧
    c.readImage (iAct 0 (opsLaunch 0x100 0)).actor (d.getD 0 0) 0 0 = (.ok (some g), c2) ∧ g.badRoute = none ∧
    ((sLaunch (opsLaunch 0x100 0)).chip.part 1).placeLaunch g 0 = .ok (0, 0) ∧ g.entryOk (bits (d.getD 1 0) 0 7) = true := by
  refine ⟨_, _, { lw := 0, lh := 0, mslot := 0, scr := 0, tiles := 0, handlers := [handlerOf 0x1000 (2 ^ 56 + 2 ^ 48 + 5)], routes := [], ports := [], badRoute := none }, _,
    acts_sLaunch _, rfl, ok_is [] (by decide +kernel), by decide +kernel, ok_eq (by decide +kernel), rfl, rfl, by decide +kernel⟩

theorem witness_LaunchesPlaceAndStart_bad : (∃ d c, (before (sLaunch (opsLaunch 0x100 0x1000000020)) (iAct 0 (opsLaunch 0x100 0x1000000020)) (fAct 0 (opsLaunch 0x100 0x1000000020))
      (anAct (opsLaunch 0x100 0x1000000020))).readDesc (iAct 0 (opsLaunch 0x100 0x1000000020)).actor (pad + 0x100) 2 = (.ok d, c) ∧
      launchBad (d.getD 1 0) 0x1000000020 = true) ∧
    (∃ e c, (before (sLaunch (opsLaunch 0x101 0)) (iAct 0 (opsLaunch 0x101 0)) (fAct 0 (opsLaunch 0x101 0)) (anAct (opsLaunch 0x101 0))).readDesc
      (iAct 0 (opsLaunch 0x101 0)).actor (pad + 0x101) 2 = (.error e, c)) :=
  ⟨⟨_, _, ok_is [] (by decide +kernel), by decide +kernel⟩, error_of (by decide +kernel)⟩

/-- Descriptors of a CO-RESIDENT launch of one instance and of 1024, and one with an entry channel that has no task. -/
theorem witness_LaunchesPlaceAndStart_resident :
    let g : Image := { lw := 0, lh := 0, mslot := 0, scr := 0, tiles := 0, handlers := [handlerOf 0x1000 (2 ^ 56 + 2 ^ 48 + 5)], routes := [], ports := [], badRoute := none }
    let p := (sLaunch []).chip.part 1
    p.placeLaunch g 0 = .ok (0, 0) ∧ bits 5 48 16 = 0 ∧
    (∀ x ∈ [2 ^ 48 + 5, 1024 * 2 ^ 48 + 5, 6], launchBad x 0 = false) ∧ bits (2 ^ 48 + 5) 48 16 = 1 ∧
    (∀ k ∈ rectCores 0 0 1 1, (sLaunch []).chip.residentRoom 1 1 g.bigSlice k = true) ∧ bits (1024 * 2 ^ 48 + 5) 48 16 = 1024 ∧
    (∃ k ∈ rectCores 0 0 1 1, (sLaunch []).chip.residentRoom 1 1024 g.bigSlice k = false) ∧ g.entryOk (bits 6 0 7) = false := by
  decide +kernel

/-- Every core of partition 1 is armed and active, or not; a range table with room; partition 2, which is out. -/
def sConf (armed : Bool) : State :=
  { sAct 0 [num 0, num 64] with chip := { (sAct 0 [num 0, num 64]).chip with
      parts := [part3, { part3 with pid := 2, slot := 1 }]
      slots := [{ core := 0, pid := 1, cfg := { armed } }, { core := 0, pid := 2, pstate := .out }] } }
theorem acts_sConf (armed : Bool) : Acts (sConf armed) (iAct 0 [num 0, num 64]) (fAct 0 [num 0, num 64]) (anAct [num 0, num 64]) :=
  acts_of ⟨rfl, rfl, rfl, rfl, rfl⟩

theorem witness_SequencerAndSwaps : ∀ armed ∈ [true, false], Acts (sConf armed) (iAct 0 [num 0, num 64]) (fAct 0 [num 0, num 64]) (anAct [num 0, num 64]) ∧
    (anAct [num 0, num 64]).null = false ∧ (sConf armed).chip.subRect (iAct 0 [num 0, num 64]) 0 = some [0] ∧
    (∀ q ∈ ((sConf armed).chip.part 1).cfgq, q.started = true) ∧ ((sConf armed).chip.slot 0 1).cfg.armed = armed ∧
    ((sConf armed).chip.slot 0 1).cfg.sw = .active := by
  intro armed h
  refine ⟨acts_sConf armed, rfl, ?_, ?_, ?_, ?_⟩ <;> revert armed <;> decide +kernel

theorem witness_SequencerAndSwaps_load : (sConf true).chip.subRect (iAct 0 [num 0, num 0]) 0 = some [0] ∧
    ∀ q k, nextInSequence ((sConf true).chip.part 1) q k → q.op ≠ .cfgsw :=
  ⟨by decide +kernel, fun q k h => by
    have e : ((sConf true).chip.part 1).cfgq = [] := by decide +kernel
    have := h.1
    rw [e] at this
    cases this⟩

theorem witness_SequencerAndSwaps_range : ∃ num c spans, ((sConf true).chip.part 1).freeRange = some num ∧
    (before (sConf true) (iAct 0 [Tests.num 0, Tests.num 64]) (fAct 0 [Tests.num 0, Tests.num 64]) (anAct [Tests.num 0, Tests.num 64])).spans
      (iAct 0 [Tests.num 0, Tests.num 64]).actor .read pad 64 = (.ok spans, c) :=
  ⟨_, _, _, rfl, ok_is [] (by decide +kernel)⟩

theorem witness_SequencerAndSwaps_swap : (∃ x, swapOf (actOperands (anAct [num 2])) (.pswapIn 3 true) = some x) ∧
    swapAllowed (sConf true).chip 1 none (some 2) ∧ ¬swapAllowed (sConf true).chip 1 none (some 1) := by
  refine ⟨⟨_, rfl⟩, ?_, ?_⟩
  · show _ ∧ (∀ k ∈ _, _) ∧ _; decide +kernel
  · show ¬(_ ∧ (∀ k ∈ _, _) ∧ _); decide +kernel

/-- A `CFGLD` of the image at 0x200 that is next in its sequencer; a core that drains, one that switches; a `CFGSW` whose last core has switched. -/
def cfgld1 : Cmd := { op := .cfgld, a := BitVec.ofNat 64 (pad + 0x200), dn := true, dch := 9, who := { iid := 1, pid := 1 }, extra := [0], desc2 := [0, 0, 0, 0] }
def sCfg (q : List Cmd) (sw : Switch) : State :=
  { chip := { chip1 [] with parts := [{ part3 with cfgq := q }], slots := [{ core := 0, pid := 1, cfg := { sw } }], mem := imageMem }, focus := { pid := 1 } }

theorem witness_ConfigurationEvents_load : nextInSequence ((sCfg [cfgld1] .active).chip.part 1) cfgld1 0 ∧ cfgld1.op = .cfgld ∧
    (∀ x ∈ cfgld1.extra, ((sCfg [cfgld1] .active).chip.slot x 1).cfg.sw = .active) ∧
    ∃ m c, ((sCfg [cfgld1] .active).chip.seqDrop 1 0).readImage (cfgld1.actor cfgld1.who.core 1) cfgld1.a.toNat 0 0 = (.ok (some m), c) ∧
      ((sCfg [cfgld1] .active).chip.part 1).holdsQuotas m = true ∧ m.badRoute = none := by
  refine ⟨⟨rfl, rfl, fun _ _ h => absurd h (Nat.not_lt_zero _)⟩, rfl, by decide +kernel, { lw := 0, lh := 0, mslot := 0, scr := 0, tiles := 0, handlers := [handlerOf 0x1000 (2 ^ 56 + 2 ^ 48 + 5)], routes := [], ports := [], badRoute := none }, _,
    ok_eq (by decide +kernel), by decide +kernel, rfl⟩

theorem witness_ConfigurationEvents : (((sCfg [] .draining).chip.slot 0 1).pstate = .run ∧ ((sCfg [] .draining).chip.slot 0 1).cfg.sw = .draining ∧
      (sCfg [] .draining).chip.planeTokens 0 1 = 0 ∧ (sCfg [] .draining).chip.planeInsts 0 1 = 0) ∧
    ((sCfg [] .active).chip.slot 0 1).cfg.sw ≠ .draining ∧ ((sCfg [] .switching).chip.slot 0 1).cfg.sw = .switching ∧
    ((sCfg [] .switching).chip.slot 0 1).cfg.act < 2 ∧
    ((sCfg [{ cfgld1 with op := .cfgsw, started := true }] .active).chip.part 1).cfgq[0]? = some { cfgld1 with op := .cfgsw, started := true } ∧
    ({ cfgld1 with op := .cfgsw, started := true } : Cmd).parts = [] := by decide +kernel

/-- A launch with nothing left, with a timetable, with an instance of it. -/
def sEnd (l : Launch) (insts : List Inst) : State := { chip := { chip1 insts with parts := [{ part3 with launches := [l] }] }, focus := { pid := 1 } }
def launch1 : Launch := { lid := 0, ox := 0, oy := 0, lw := 0, lh := 0, nt := true, nch := 9 }

theorem witness_ConfigurationEvents_end : ((sEnd launch1 []).chip.part 1).launch 0 = some launch1 ∧
    (∀ c ∈ launch1.coreList, (sEnd launch1 []).chip.holdsLaunch 1 c = false) ∧ launch1.tt = none ∧
    ((sEnd (launchT 2 false) []).chip.part 1).launch 0 = some (launchT 2 false) ∧
    (∀ c ∈ (launchT 2 false).coreList, (sEnd (launchT 2 false) []).chip.holdsLaunch 1 c = false) ∧ (launchT 2 false).tt ≠ none ∧
    (launchT 2 false).ending = false ∧
    (∃ c ∈ launch1.coreList, (sEnd launch1 [inst1 fAdd]).chip.holdsLaunch 1 c = true) := by decide +kernel

/-! ### Blocks and tokens -/

/-- An instance at block 0x8000 (or another) that holds no frame; the page of 0x8000 is code and holds `EXIT`, or a header that is wrong. -/
def iWant (block : Nat) : Inst := { inst1 fAdd with block, frame := none }
def codeMem (hdr : Nat) : Mem := ((({ cells := tables } : Mem).write 0x13040 8 0x8009).write 0x8000 4 hdr).write 0x8004 4 0xA2800000
def sWant (block hdr : Nat) (mapped : List Mapped) : State :=
  { chip := { chip1 [iWant block] with parts := [rootPart], cores := [{ id := 0, blocks := mapped }], mem := codeMem hdr }, focus := { iid := 1, pid := 1 } }
def exitBlock : Mapped := { pid := 1, addr := 0x8000, hdr := 0xB7020000, words := [0xA2800000] }

theorem wants_sWant (block hdr : Nat) (m : List Mapped) : Wants (sWant block hdr m) (iWant block) := ⟨rfl, rfl, rfl, rfl⟩

theorem witness_BlocksLiveAndCommit_map : Wants (sWant 0x8000 0 [exitBlock]) (iWant 0x8000) ∧
    mappedBlock (sWant 0x8000 0 [exitBlock]).chip (iWant 0x8000) = some exitBlock ∧ mappedBlock (sWant 0x8001 0 []).chip (iWant 0x8001) = none ∧
    mappedBlock (sWant pad 0 []).chip (iWant pad) = none ∧ pad % 8 = 0 ∧ inWindow pad = true ∧ (2 ^ 52 % 8 = 0 ∧ inWindow (2 ^ 52) = false) ∧
    mappedBlock (sWant (2 ^ 52) 0 []).chip (iWant (2 ^ 52)) = none ∧ mappedBlock (sWant 0x8000 0xB7020000 []).chip (iWant 0x8000) = none ∧
    (∃ e c, (sWant 0x9000 0 []).chip.fetchBlock (iWant 0x9000) 0x9000 = (.error e, c)) ∧
    (∃ c, (sWant 0x8000 0xB7020000 []).chip.fetchBlock (iWant 0x8000) 0x8000 = (.ok (0xB7020000, 0, [0xA2800000]), c)) ∧
    checkBlock 0xB7020000 0 [0xA2800000] = none ∧
    (∃ c, (sWant 0x8000 0xB6020000 []).chip.fetchBlock (iWant 0x8000) 0x8000 = (.ok (0xB6020000, 0, [0xA2800000]), c)) ∧
    (∃ m, checkBlock 0xB6020000 0 [0xA2800000] = some m) :=
  ⟨wants_sWant _ _ _, by decide +kernel, by decide +kernel, by decide +kernel, by decide, by decide +kernel, by decide +kernel,
    by decide +kernel, by decide +kernel, error_of (by decide +kernel),
    ⟨_, ok_eq (by decide +kernel)⟩, by decide +kernel, ⟨_, ok_eq (by decide +kernel)⟩, ⟨_, rfl⟩⟩

/-- A block with its branch taken; one in which nothing can fire any more. -/
def fDone : Frame := { block1 0x20000101 (num 3) (num 16) (num 0) with branch := some (aBranch 0), hdr := 0xB7000000 }
def fStuck : Frame := { fDone with branch := none, words := [0x20000101], cells := [{ a := some (num 3) }] }

theorem witness_BlocksLiveAndCommit_end : (at1 (inst1 fDone) .fire).chip.inst? 1 = some (inst1 fDone) ∧ done fDone ∧
    (at1 (inst1 fStuck) .fire).chip.inst? 1 = some (inst1 fStuck) ∧ ¬done fStuck ∧ stuck (inst1 fStuck) fStuck := by
  refine ⟨rfl, ?_, rfl, ?_, ?_⟩
  · show _ ∧ _ ∧ _; decide +kernel
  · show ¬(_ ∧ _ ∧ _); decide +kernel
  · show _ ∧ _ ∧ _ ∧ _; decide +kernel

/-- A complete block with a register write and a store to an address, which is right or misaligned. -/
def fComp (ea : Nat) : Frame :=
  { fDone with hdr := 0xB7000840, words := [0x8C000000, 0xA2800000], writes := [(3, num 9)], resolved := [0], branch := some { idx := 1 }
               acts := [{ lsid := 0, idx := 0, ops := [num ea, num 7] }] }
def iComp (ea : Nat) : Inst := { inst1 (fComp ea) with state := .complete }
def sComp (ea : Nat) : State := at2 (iComp ea) .fire

theorem witness_BlocksLiveAndCommit : commits (sComp (pad + 8)) (iComp (pad + 8)) (fComp (pad + 8)) ∧
    ((sComp (pad + 8)).chip.checkAll (iComp (pad + 8)) (fComp (pad + 8))).1 = [] ∧ (sComp (pad + 8)).chip.mem.wf = true ∧
    commits (sComp (pad + 9)) (iComp (pad + 9)) (fComp (pad + 9)) ∧
    (∃ e, ((sComp (pad + 9)).chip.checkAll (iComp (pad + 9)) (fComp (pad + 9))).1 = [] ++ (0, e) :: []) ∧
    ¬commits (sComp (pad + 8)) (inst1 fAdd) (fComp (pad + 8)) ∧
    (fComp (pad + 8)).writes ++ (fComp (pad + 8)).linkWrite = [] ++ (3, .val 9 false) :: [] := by
  refine ⟨?_, by decide +kernel, by decide +kernel, ?_, ⟨{ cause := 0x23, addr := pad + 9 }, by decide +kernel⟩, ?_, by decide +kernel⟩
  · show _ ∧ _ ∧ _ ∧ _ ∧ _ ∧ _; decide +kernel
  · show _ ∧ _ ∧ _ ∧ _ ∧ _ ∧ _; decide +kernel
  · exact fun h => absurd h.1 (by decide)

/-- A return value that arrives. -/
def sVal : State := { chip := { chip1 [inst1 fAdd] with vals := [{ iid := 1, reg := 31, v := 5, taint := true }] }, focus := {} }
theorem witness_BlocksLiveAndCommit_value : sVal.chip.vals[sVal.focus.n]? = some { iid := 1, reg := 31, v := 5, taint := true } ∧
    sVal.chip.inst? 1 = some (inst1 fAdd) ∧ (inst1 fAdd).state ≠ .ended ∧ 31 < 32 := by decide +kernel

/-- A token of format RAW for slot 0 of channel 5 (or another), tag 7, at core 0, whose channel 5 has a task of arity 1. -/
def token (chan fmt : Nat) : Token := { hdr := mkHdr 0 false fmt 0 chan 7, payload := 42, pid := 1 }
def task5 : Handler := { chan := 5, entry := 0x8000, accept := 1, slice := 1, prio := 3, age := true, um := false, arity := 1 }
def slot5 : Machine.Slot := { core := 0, pid := 1, cfg := { p0 := { handlers := [task5] } } }
def sTok (t : Token) (sl : Machine.Slot) : State :=
  { chip := { chip1 [] with parts := [{ part3 with launches := part1.launches }], slots := [sl], flights := [t] }, focus := { pid := 1 } }

theorem witness_TokensArrive : arriving (sTok (token 5 0) slot5) (token 5 0) ∧ arriving (sTok (token 5 1) slot5) (token 5 1) ∧
    arriving (sTok (token 6 0) slot5) (token 6 0) ∧ arriving (sTok (token 126 0) slot5) (token 126 0) := by
  refine ⟨?_, ?_, ?_, ?_⟩ <;> (show _ ∧ _ ∧ _ ∧ _; decide +kernel)

/-- A token that waits for core 1, which has room or none. -/
def sOut (q : Word) : State :=
  { chip := { chip1 [] with parts := [{ part3 with regs := [(0x044, q)] }]
                            slots := [{ core := 0, pid := 1, outq := [{ tokens := [{ hdr := 0, payload := 0, pid := 1, dst := 1 }] }] }] }
    focus := { pid := 1, n := 1 } }
def far1 : Token := { hdr := 0, payload := 0, pid := 1, dst := 1 }
theorem witness_TokensArrive_credit : ((sOut 32).chip.slot 0 1).outq = [] ++ { tokens := [] ++ far1 :: [] } :: [] ∧ far1.dst = 1 ∧
    (sOut 32).chip.creditFree 1 1 = true ∧ ((sOut 0).chip.slot 0 1).outq = [] ++ { tokens := [] ++ far1 :: [] } :: [] ∧
    (sOut 0).chip.creditFree 1 1 = false := by decide +kernel

/-- A complete entry of channel 5; a READY instance of class 3, one that runs. -/
def entry5 : Entry := { chan := 5, tag := 7, plane := 0, slots := [[(42, true)], [], [], []], done := some 0 }
def sForm : State := sTok (token 5 0) { slot5 with mat := { entries := [entry5] } }
def iReady : Inst := { inst1 fAdd with state := .ready, frame := none, cls := 3, aging := true, block := 0x8000 }
def iRuns (steps : Nat) (age : Bool) : Inst := { inst1 fAdd with iid := 2, cls := 3, steps, aging := age }
def sRun (l : List Inst) : State :=
  { chip := { chip1 l with parts := [{ part3 with launches := part1.launches, regs := part3.regs.map fun r => if r.1 = 0x044 then (0x044, 0x0010001000080020) else r }]
                           slots := [slot5], cores := [{ id := 0, blocks := [exitBlock] }] }, focus := { iid := 2, pid := 1 } }

theorem witness_InstancesFormAndRun : sForm.chip.formReady 0 1 = some (entry5, task5) ∧ (sRun [iReady]).chip.nextForFrame 0 1 = some iReady ∧
    (sRun [iReady]).chip.inst? 1 = some iReady ∧ iReady.frame = none ∧ iReady.holds = [] ∧
    (∀ j ∈ (sRun [iRuns 0 true]).chip.insts, j.state ≠ .ready) ∧ (sRun [iRuns 0 true]).chip.inst? 2 = some (iRuns 0 true) ∧
    (iRuns 0 true).effClass < 7 ∧ (iRuns 0 false).aging = false ∧ (sRun [iReady, iRuns 0 true]).chip.inst? 2 = some (iRuns 0 true) ∧
    (∃ j ∈ (sRun [iReady, iRuns 0 true]).chip.insts, j.core = 0 ∧ j.pid = 1 ∧ j.state = .ready ∧ (iRuns 0 true).effClass ≤ j.effClass) := by
  decide +kernel

/-! ### Engines at work -/

/-- A slot whose context `k` holds the command `q` first. -/
def slotWith (k : Nat) (q : Cmd) : Machine.Slot := { core := 0, pid := 1, engs := (Vector.replicate 10 {}).setIfInBounds k { cmds := [q], given := q.num } }
def sEng (k : Nat) (q : Cmd) : State :=
  { chip := { chip2 [] with slots := [slotWith k q], cores := [{ id := 0, portq := [(6, 1, k, 1)] }] }, focus := { pid := 1, n := k } }
/-- A word copy of one doubleword within the scratchpad, from 0x100 to `dst`. -/
def copyWords : List Nat := [2 ^ 32 + 1, 2 ^ 32 + 1, 0, 0, 0, 0, 0x77, 0, 0, 0]
def copy1 (dst : Nat) (started : Bool) (pos : Nat) : Cmd :=
  { op := .cpy, num := 1, port := 6, b := BitVec.ofNat 64 (pad + 0x100), c := BitVec.ofNat 64 (pad + dst), dn := true, desc := copyWords, len := 8, started, pos }
def copyBad1 : Cmd := { copy1 0x200 false 0 with err := some { cause := 0x48 }, desc := [] }

theorem running_of {s : State} {core pid k : Nat} {q : Cmd} (h : ((s.chip.slot core pid).eng k).cmds.head? = some q ∧ q.started = true ∧
    ((s.chip.slot core pid).eng k).halted = false ∧ (s.chip.slot core pid).pstate = .run) : Claims.running s.chip core pid k q := h
theorem startable_of {s : State} {core pid k : Nat} {q : Cmd} (h : ((s.chip.slot core pid).eng k).cmds.head? = some q ∧ q.started = false ∧
    ((s.chip.slot core pid).eng k).halted = false ∧ (s.chip.slot core pid).pstate = .run) : startable s.chip core pid k q := h

def sStart (q : Cmd) : State := { sEng 0 q with focus := { pid := 1, n := 6 } }
theorem witness_CopiesMove_start : (sStart (copy1 0x200 false 0)).chip.copyHead 0 6 = some (1, 0, copy1 0x200 false 0) ∧
    startable (sStart (copy1 0x200 false 0)).chip 0 1 0 (copy1 0x200 false 0) ∧ (copy1 0x200 false 0).err = none ∧
    (sStart copyBad1).chip.copyHead 0 6 = some (1, 0, copyBad1) ∧ startable (sStart copyBad1).chip 0 1 0 copyBad1 ∧ copyBad1.err ≠ none :=
  ⟨by decide +kernel, startable_of (by decide +kernel), rfl, by decide +kernel, startable_of (by decide +kernel), by decide⟩

theorem none_of {α β : Type} {x : Option α × β} (h : x.1 = none) : ∃ c, x = (none, c) := ⟨x.2, by rw [← h]⟩
theorem none_is {α β : Type} {x : Option α × β} (h : x.1 = none) : x = (none, x.2) := by rw [← h]

theorem run_copy1 : (copy1 0x200 true 0).run = [0] := by decide +kernel

theorem witness_CopiesMove : Claims.running (sEng 0 (copy1 0x200 true 0)).chip 0 1 0 (copy1 0x200 true 0) ∧ (copy1 0x200 true 0).ready = true ∧
    (copyDesc (copy1 0x200 true 0).desc).mc = 0 ∧
    ∃ c r d, (sEng 0 (copy1 0x200 true 0)).chip.checkUnits 0 1 (copy1 0x200 true 0) (copy1 0x200 true 0).due = (none, c) ∧
      (∀ x ∈ c.foreign 0 1 (copy1 0x200 true 0) (copy1 0x200 true 0).run, (c.coreSt x).sp7run = some { core := 0, pid := 1, cp := 0, num := 1 }) ∧
      moved 0 1 0 (copy1 0x200 true 0).run (copy1 0x200 true 0) c r d := by
  have m : ∃ r d, moved 0 1 0 (copy1 0x200 true 0).run (copy1 0x200 true 0) ((sEng 0 (copy1 0x200 true 0)).chip.checkUnits 0 1 (copy1 0x200 true 0)
      (copy1 0x200 true 0).due).2 r d := by
    rw [run_copy1]
    exact ⟨_, _, _, _, _, _, ok_is { writes := [] } (by decide +kernel), ok_is [] (by decide +kernel), rfl, rfl⟩
  obtain ⟨r, d, m⟩ := m
  exact ⟨running_of (by decide +kernel), by decide +kernel, by decide +kernel, _, r, d, none_is (by decide +kernel), by decide +kernel, m⟩

/-- A copy to the scratchpad of the next core of its launch, where its stream does not run. -/
def copyPeer : Cmd := { copy1 0x200 true 0 with c := BitVec.ofNat 64 (0xFFFF82 * 2 ^ 40 + 2 ^ 21 + 0x200) }
def part2x1 : Part := { part2 with w := 2, launches := [{ lid := 0, ox := 0, oy := 0, lw := 1, lh := 0 }] }
def sPeer : State := { sEng 0 copyPeer with chip := { (sEng 0 copyPeer).chip with parts := [part2x1] } }

theorem witness_CopiesMove_peer : Claims.running sPeer.chip 0 1 0 copyPeer ∧ copyPeer.ready = true ∧ (copyDesc copyPeer.desc).mc = 0 ∧
    ∃ c, sPeer.chip.checkUnits 0 1 copyPeer copyPeer.due = (none, c) ∧
      ∃ x ∈ c.foreign 0 1 copyPeer copyPeer.run, (c.coreSt x).sp7run ≠ some { core := 0, pid := 1, cp := 0, num := 1 } :=
  ⟨running_of (by decide +kernel), by decide +kernel, by decide +kernel, _, none_is (by decide +kernel), by decide +kernel⟩

theorem witness_CopiesMove_fault : Claims.running (sEng 0 (copy1 0x203 true 0)).chip 0 1 0 (copy1 0x203 true 0) ∧
    (copy1 0x203 true 0).buf = [] ∧ (copy1 0x203 true 0).ready = true ∧
    (∃ f, ((sEng 0 (copy1 0x203 true 0)).chip.checkUnits 0 1 (copy1 0x203 true 0) (copy1 0x203 true 0).due).1 = some f) ∧
    ((copy1 0x200 true 0).err = none ∧ ((sEng 0 (copy1 0x200 true 0)).chip.checkUnits 0 1 (copy1 0x200 true 0) (copy1 0x200 true 0).due).1 = none) ∧
    Claims.running (sEng 0 { copyBad1 with started := true }).chip 0 1 0 { copyBad1 with started := true } ∧ copyBad1.buf = [] ∧ copyBad1.err ≠ none ∧
    Claims.running (sEng 0 (copy1 0x200 true 1)).chip 0 1 0 (copy1 0x200 true 1) ∧ (copy1 0x200 true 1).ready = false ∧
    (copy1 0x200 true 1).pos = (copy1 0x200 true 1).units ∧ (copy1 0x200 true 1).lowest = (copy1 0x200 true 1).units :=
  ⟨running_of (by decide +kernel), by decide +kernel, by decide +kernel, Option.isSome_iff_exists.1 (by decide +kernel), by decide +kernel,
    running_of (by decide +kernel), rfl, by decide, running_of (by decide +kernel), by decide +kernel, by decide +kernel, by decide +kernel⟩

theorem witness_CopiesMove_words : ∃ bs tt c, (copy1 0x200 true 0).op = .cpy ∧
    (sEng 0 (copy1 0x200 true 0)).chip.engineRead { pid := 1, core := 0 } (elementAt (copy1 0x200 true 0).b (copyDesc copyWords).sstr [0, 0, 0, 0]) 8
      = (.ok (bs, tt), c) ∧ bs.length = 8 ∧ wordSize (copyDesc copyWords).sfmt = 8 ∧ (copyDesc copyWords).sfmt = (copyDesc copyWords).dfmt ∧
    elementAt (copy1 0x200 true 0).b (copyDesc copyWords).sstr [0, 0, 0, 0] % 8 = 0 ∧
    elementAt (copy1 0x200 true 0).c (copyDesc copyWords).dstr [0, 0, 0, 0] % 8 = 0 :=
  ⟨_, _, _, rfl, ok_is ([], false) (by decide +kernel), by decide +kernel, by decide +kernel, by decide +kernel, by decide +kernel, by decide +kernel⟩

/-- A port binding that waits; an inbound stream; a multicast of one branch, with its unit to send, or with a beat to write at `dst`. -/
def inbound1 : Inbound := { core := 0, pid := 1, cp := 0, num := 1 }
def mcast0 : Cmd := { copy1 0x200 true 0 with desc := [2 ^ 32 + 1, 2 ^ 32 + 1, 0, 0, 0, 0, 0x77, 0, 0, 2 ^ 63 + 8 * 2 ^ 16], parts := [0], bpos := [0] }
def beat1 (dst : Nat) : Beat := { unit := 0, ends := 1, writes := [(pad + dst, [1, 2, 3], false)] }
def mcast1 (dst : Nat) : Cmd := { mcast0 with pos := 1, buf := [beat1 dst] }
def sMore (q : Cmd) (k : Core) : State := { sEng 0 q with chip := { (sEng 0 q).chip with cores := [k] } }

theorem witness_CopiesMove_multicast : Claims.running (sMore mcast0 { id := 0 }).chip 0 1 0 mcast0 ∧ mcast0.ready = true ∧
    (∃ c, (sMore mcast0 { id := 0 }).chip.checkUnits 0 1 mcast0 mcast0.due = (none, c)) ∧ (copyDesc mcast0.desc).mc ≠ 0 ∧
    Claims.running (sMore (mcast1 (2 ^ 20)) { id := 0, sp7run := some inbound1 }).chip 0 1 0 (mcast1 (2 ^ 20)) ∧ (mcast1 (2 ^ 20)).buf ≠ [] ∧
    ∃ x, (sMore (mcast1 (2 ^ 20)) { id := 0, sp7run := some inbound1 }).chip.branchFault 0 1 0 (mcast1 (2 ^ 20)) = some x :=
  ⟨running_of (by decide +kernel), by decide +kernel, none_of (by decide +kernel), by decide +kernel, running_of (by decide +kernel), by decide +kernel,
    Option.isSome_iff_exists.1 (by decide +kernel)⟩

theorem witness_CopiesMove_more : (sMore copyBad1 { id := 0, binds := [(1, copyBad1)] }).chip.bindingNext 0 1 = some copyBad1 ∧ copyBad1.sel < 4 ∧
    (sMore copyBad1 { id := 0 }).chip.bindingNext 0 1 = none ∧
    ((sMore (mcast1 0x200) { id := 0, sp7 := [inbound1] }).chip.coreSt 0).sp7run = none ∧
    ((sMore (mcast1 0x200) { id := 0, sp7 := [inbound1] }).chip.coreSt 0).sp7 = inbound1 :: [] ∧
    Claims.running (sMore (mcast1 0x200) { id := 0, sp7run := some inbound1 }).chip 0 1 0 (mcast1 0x200) ∧
    ((sMore (mcast1 0x200) { id := 0, sp7run := some inbound1 }).chip.copyCores 0 1 (mcast1 0x200)).findIdx? (fun x => x == 0) = some 0 ∧
    0 < (mcast1 0x200).parts.length ∧ ((sMore (mcast1 0x200) { id := 0, sp7run := some inbound1 }).chip.coreSt 0).sp7run = some inbound1 ∧
    (mcast1 0x200).buf[(mcast1 0x200).bpos.getD 0 0]? = some (beat1 0x200) ∧
    ∃ cover c, (sMore (mcast1 0x200) { id := 0, sp7run := some inbound1 }).chip.putUnit 0 1 0 (mcast1 0x200) (mcast1 0x200).cover (beat1 0x200).writes =
      (.ok cover, c) :=
  ⟨by decide +kernel, by decide +kernel, by decide +kernel, by decide +kernel, by decide +kernel, running_of (by decide +kernel), by decide +kernel,
    by decide +kernel, by decide +kernel, by decide +kernel, ok_of (by decide +kernel)⟩

/-- A gather of two rows of 8 bytes from a table of four, of which some are done; its index tokens. -/
def gath1 (started : Bool) (pos : Nat) (extra : List Nat) : Cmd :=
  { op := .gath, num := 1, b := BitVec.ofNat 64 (pad + 0x100), c := BitVec.ofNat 64 (pad + 0x400), dn := true, desc := [4 * 2 ^ 32 + 8, 8 * 2 ^ 32 + 8, 5 * 2 ^ 24 + 2]
    started, pos, extra }
def gathBad : Cmd := { gath1 false 0 [] with err := some { cause := 0x48 } }
def indexTok (fmt p row : Nat) : Token := { hdr := mkHdr 0 false fmt 0 5 0, payload := BitVec.ofNat 64 (p * 2 ^ 40 + row), pid := 1 }
def sGath (q : Cmd) (l : List Token) : State := { chip := { chip2 [] with slots := [{ slotWith 4 q with mat := { index := l } }] }, focus := { pid := 1 } }

theorem witness_GathersMove : startable (sGath (gath1 false 0 []) []).chip 0 1 4 (gath1 false 0 []) ∧ startable (sGath gathBad []).chip 0 1 4 gathBad ∧
    Claims.running (sGath (gath1 true 0 []) [indexTok 1 1 3]).chip 0 1 4 (gath1 true 0 []) ∧
    (∀ t ∈ [indexTok 1 1 3, indexTok 6 0 0, indexTok 1 2 0], 0 ∈ ((sGath (gath1 true 0 []) [t]).chip.slot 0 1).indexChoices (gath1 true 0 [])) ∧
    (∃ c d, (sGath (gath1 true 0 []) []).chip.moveRow 0 1 (gath1 true 0 []) 1 3 false = (.ok c, d)) ∧
    Claims.running (sGath (gath1 true 2 [0, 2 ^ 24 + 1]) []).chip 0 1 4 (gath1 true 2 [0, 2 ^ 24 + 1]) :=
  ⟨startable_of (by decide +kernel), startable_of (by decide +kernel), running_of (by decide +kernel), by decide +kernel, ok_of (by decide +kernel),
    running_of (by decide +kernel)⟩

theorem witness_GathersMove_fault : ∃ f c, (sGath (gath1 true 0 []) []).chip.moveRow 0 1 { gath1 true 0 [] with c := BitVec.ofNat 64 (pad + 2 ^ 20) } 1 3 false
    = (.error f, c) := error_of (by decide +kernel)

/-- An index out of range at position 1, with position 0 to come or done; an EOS. -/
theorem witness_GathersMove_lowest : 0 ∈ ((sGath (gath1 true 0 []) [indexTok 1 1 4]).chip.slot 0 1).indexChoices (gath1 true 0 []) ∧
    ((sGath (gath1 true 0 []) [indexTok 1 1 4]).chip.slot 0 1).lowestFault (gath1 true 0 []) 1 = false ∧
    ((sGath (gath1 true 1 [0]) [indexTok 1 1 4]).chip.slot 0 1).lowestFault (gath1 true 1 [0]) 1 = true ∧
    hdrFmt (indexTok 1 1 4).hdr = 1 ∧ hdrFmt (indexTok 6 0 0).hdr ≠ 1 := by decide +kernel

/-- Partition 1 with eight tiles; a slot whose plane or drain queue holds `q`. -/
def part8 : Part := { part2 with regs := (0x043, 8) :: part2.regs }
def sTile (k : Nat) (q : Cmd) : State := { sEng k q with chip := { (sEng k q).chip with parts := [part8] } }
/-- A product of one chunk of 1-bit integers at `base`. -/
def planeWords (base : Nat) : List Nat := [base, 0, 1, 2 ^ 55 + 2 ^ 48 + 2 ^ 43 + 512]
def mma1 (base : Nat) (started : Bool) (pos : Nat) : Cmd :=
  { op := .mma, num := 1, dn := true, c := BitVec.ofNat 64 (2 ^ 48), desc := planeWords base, desc2 := planeWords (pad + 2048), started, pos, parts := [0, 0, 0, 0] }
def accz1 (tile mode : Nat) : Cmd := { op := .accz, num := 1, dn := true, sel := tile, port := mode }

theorem witness_PlaneEngineWorks_start : ((sTile 5 (mma1 pad false 0)).chip.slot 0 1).planeHead = some (mma1 pad false 0) ∧
    ((sTile 5 (mma1 pad false 0)).chip.slot 0 1).tileOk ((sTile 5 (mma1 pad false 0)).chip.part 1).tileQuota 0 0 = true ∧
    (mma1 pad false 0).modeRefused (((sTile 5 (mma1 pad false 0)).chip.slot 0 1).tile 0) = false ∧ (mma1 pad false 0).err = none ∧
    (mma1 pad false 0).modeRefused { idx := 0, scale := some 5 } = true ∧
    ((sEng 5 (mma1 pad false 0)).chip.slot 0 1).tileOk ((sEng 5 (mma1 pad false 0)).chip.part 1).tileQuota 0 0 = false ∧
    ((sTile 5 (accz1 4 2)).chip.slot 0 1).planeHead = some (accz1 4 2) ∧
    ((sTile 5 (accz1 4 2)).chip.slot 0 1).tileOk ((sTile 5 (accz1 4 2)).chip.part 1).tileQuota 4 2 = true ∧
    ((sTile 5 (accz1 5 2)).chip.slot 0 1).tileOk ((sTile 5 (accz1 5 2)).chip.part 1).tileQuota 5 2 = false ∧
    ((sTile 5 { accz1 0 0 with err := some { cause := 0x58 } }).chip.slot 0 1).planeHead = some { accz1 0 0 with err := some { cause := 0x58 } } := by
  decide +kernel

/-- A second product may start behind one that column group 0 has finished; a third is refused its turn. -/
def mma2 (tile : Nat) : Cmd := { mma1 pad false 0 with num := 2, sel := tile }
def sTwo (tile : Nat) : State :=
  let e : EngineQ := { cmds := [{ mma1 pad true 0 with extra := [1, 0, 0, 0] }, mma2 tile], given := 2 }
  { sTile 5 (mma2 0) with chip := (sTile 5 (mma2 0)).chip.modSlot 0 1 fun sl => sl.setEng 5 e }

theorem witness_PlaneEngineWorks_ahead : ((sTwo 1).chip.slot 0 1).planeHead = none ∧ ((sTwo 1).chip.slot 0 1).planeAhead 8 = some (mma2 1) ∧
    ((sTwo 8).chip.slot 0 1).planeHead = none ∧ ((sTwo 8).chip.slot 0 1).planeAhead 8 = none := by decide +kernel

/-- A running product of `nc` chunks, its column groups at `extra`; its core; its tile. -/
def mmaAt (base nc : Nat) (extra : List Nat) : Cmd := { mma1 base true 0 with c := BitVec.ofNat 64 (nc * 2 ^ 48), extra }
def sMma (q : Cmd) (k : Core) (t : Tile) : State :=
  { chip := { (sTile 5 q).chip.modSlot 0 1 (fun sl => { sl with tiles := [t] }) with cores := [k] }, focus := { pid := 1 } }
def steps (q : Cmd) : Nat := stepsOf (sMma q { id := 0 } { idx := 0 }).chip 1 q ((sMma q { id := 0 } { idx := 0 }).chip.chunkData 0 1 q 0).2.1
theorem read_of {x : Option AFault × ChunkData × Chip} (h : x.1 = none) : ∃ d c, x = (none, d, c) := ⟨x.2.1, x.2.2, by rw [← h]⟩
theorem readF_of {x : Option AFault × ChunkData × Chip} (h : x.1.isSome = true) : ∃ f d c, x = (some f, d, c) := by
  rcases x with ⟨_ | f, d, c⟩
  · cases h
  · exact ⟨f, d, c, rfl⟩

/-- With every other group still to verify; with none; with a poisoned line of the tile. -/
theorem witness_PlaneEngineWorks : ∀ x ∈ [(([0, 0, 0, 0] : List Nat), ([] : List Nat)), ([0, 1, 1, 1], []), ([0, 1, 1, 1], [3])],
    Claims.running (sMma (mmaAt pad 1 x.1) { id := 0 } { idx := 0, poison := x.2 }).chip 0 1 5 (mmaAt pad 1 x.1) ∧
    (mmaAt pad 1 x.1).pos < (mmaAt pad 1 x.1).planeEnd ∧
    (sMma (mmaAt pad 1 x.1) { id := 0 } { idx := 0, poison := x.2 }).chip.planeTurn 0 0 = some 1 ∧
    ((sMma (mmaAt pad 1 x.1) { id := 0 } { idx := 0, poison := x.2 }).chip.slot 0 1).planeWork 0 = some (mmaAt pad 1 x.1) ∧
    ((sMma (mmaAt pad 1 x.1) { id := 0 } { idx := 0, poison := x.2 }).chip.slot 0 1).isPlaneHead (mmaAt pad 1 x.1) = true ∧
    (mmaAt pad 1 x.1).pos = (mmaAt pad 1 x.1).groupAt 0 ∧
    (∃ d c, (sMma (mmaAt pad 1 x.1) { id := 0 } { idx := 0, poison := x.2 }).chip.chunkData 0 1 (mmaAt pad 1 x.1) 0 = (none, d, c)) := by
  intro x h
  refine ⟨running_of ?_, ?_, ?_, ?_, ?_, ?_, read_of ?_⟩ <;> revert x <;> decide +kernel

theorem witness_PlaneEngineWorks_steps : 0 < steps (mmaAt pad 1 [0, 0, 0, 0]) ∧ steps (mmaAt pad 1 [0, 0, 0, 0]) ≤ 64 ∧
    steps (mmaAt pad 1 [0, 0, 0, 0]) * 3 ≤ 64 ∧ ((mmaAt pad 1 [0, 0, 0, 0]).parts.length = 4 ∧ (mmaAt pad 1 [0, 0, 0, 0]).extra.length = 4) ∧
    ((sMma (mmaAt pad 1 [0, 0, 0, 0]) { id := 0, heat := [0, 9, 9, 9] } { idx := 0 }).chip.coreSt 0).heat.getD 0 0 = 0 ∧
    (((sMma (mmaAt pad 1 [0, 0, 0, 0]) { id := 0, mism := [0, 0, 0] } { idx := 0 }).chip.coreSt 0).mism.filter (· == 0)).length = 3 ∧
    ({ idx := 0, poison := [3] } : Tile).poisonF (fun _ => true) ≠ none := by decide +kernel

/-- Operands that cannot be read, at the next chunk to add and beyond it; a product that has added its last chunk. -/
theorem witness_PlaneEngineWorks_fault :
    (∃ f d c, (sMma (mmaAt (2 ^ 53) 2 [0, 0, 0, 0]) { id := 0 } { idx := 0 }).chip.chunkData 0 1 (mmaAt (2 ^ 53) 2 [0, 0, 0, 0]) 0 = (some f, d, c)) ∧
    (sMma (mmaAt (2 ^ 53) 2 [0, 0, 0, 0]) { id := 0 } { idx := 0 }).chip.planeTurn 0 0 = some 1 ∧
    (∃ f d c, (sMma (mmaAt (2 ^ 53) 2 [1, 0, 0, 0]) { id := 0 } { idx := 0 }).chip.chunkData 0 1 (mmaAt (2 ^ 53) 2 [1, 0, 0, 0]) 1 = (some f, d, c)) ∧
    (sMma (mmaAt (2 ^ 53) 2 [1, 0, 0, 0]) { id := 0 } { idx := 0 }).chip.planeTurn 0 0 = some 1 ∧
    ((sMma (mmaAt (2 ^ 53) 2 [1, 0, 0, 0]) { id := 0 } { idx := 0 }).chip.slot 0 1).planeWork 0 = some (mmaAt (2 ^ 53) 2 [1, 0, 0, 0]) ∧
    (mmaAt (2 ^ 53) 2 [1, 0, 0, 0]).groupAt 0 = 1 ∧
    (sMma (mmaAt pad 1 [1, 0, 0, 0]) { id := 0 } { idx := 0 }).chip.planeTurn 0 0 ≠ some 1 ∧
    ({ mmaAt pad 1 [1, 1, 1, 1] with pos := 1 } : Cmd).planeEnd ≤ 1 :=
  ⟨readF_of (by decide +kernel), by decide +kernel, readF_of (by decide +kernel), by decide +kernel, by decide +kernel, by decide +kernel,
    by decide +kernel, by decide +kernel⟩

/-- A tile image of zeros; one whose first element has bit 127; one that cannot be read. -/
def accld1 (va : Nat) : Cmd := { op := .accld, num := 1, dn := true, a := BitVec.ofNat 64 va, started := true }
def sAccld (va : Nat) (m : Mem) : State := { sTile 5 (accld1 va) with chip := { (sTile 5 (accld1 va)).chip with mem := m }, focus := { pid := 1 } }
def badMem : Mem := ({} : Mem).write (locCore 0 8) 8 (2 ^ 63)

theorem witness_PlaneEngineWorks_image : (∀ m, Claims.running (sAccld pad m).chip 0 1 5 (accld1 pad)) ∧
    (accld1 pad).pos < (accld1 pad).planeEnd ∧
    (∃ c, (sAccld pad {}).chip.engineRead ((accld1 pad).actor 0 1) (wrap ((accld1 pad).a.toNat + 4096 * 0 : Nat) 64) 4096 =
      (.ok (List.replicate 4096 0, false), c)) ∧
    (∀ j < 256, A80.ofImage (leNat (((List.replicate 4096 (0 : Byte)).drop (16 * j)).take 16)) = some .zero) ∧
    (((sAccld pad {}).chip.slot 0 1).tile 0).elems = [] ∧ (((sAccld pad {}).chip.slot 0 1).tile 0).mode = 0 ∧
    (∃ r c, (sAccld pad badMem).chip.engineRead ((accld1 pad).actor 0 1) pad 4096 = (.ok r, c) ∧ A80.ofImage (leNat (r.1.take 16)) = none) ∧
    ∃ f c, (sAccld (2 ^ 53) {}).chip.engineRead ((accld1 (2 ^ 53)).actor 0 1) (2 ^ 53) 4096 = (.error f, c) :=
  ⟨fun _ => running_of ⟨rfl, rfl, rfl, rfl⟩, by decide +kernel, ⟨_, ok_eq (by decide +kernel)⟩, by decide +kernel, by decide +kernel, by decide +kernel,
    ⟨_, _, ok_is ([], false) (by decide +kernel), by decide +kernel⟩, error_of (by decide +kernel)⟩

/-- A drain of tile 0 to words at `base`; a level table's load. -/
def accst1 (base : Nat) (started : Bool) (pos : Nat) (cz : Bool) : Cmd :=
  { op := .accst, num := 1, dn := true, flag := cz, desc := [base, 8 * 2 ^ 32 + 256, 11], started, pos, parts := [0], extra := [0, 0] }
def lvlld1 (va : Nat) : Cmd := { op := .lvlld, num := 1, dn := true, port := 4, sel := 1, a := BitVec.ofNat 64 va, started := true }

theorem witness_DrainWorks_start : ((sTile 6 (accst1 pad false 0 false)).chip.slot 0 1).drainHead = some (accst1 pad false 0 false) ∧
    ((sTile 6 (accst1 pad false 0 false)).chip.slot 0 1).drainBad ((sTile 6 (accst1 pad false 0 false)).chip.part 1).tileQuota (accst1 pad false 0 false) = none ∧
    (((sEng 6 (accst1 pad false 0 false)).chip.slot 0 1).drainBad ((sEng 6 (accst1 pad false 0 false)).chip.part 1).tileQuota (accst1 pad false 0 false)).isSome = true := by
  decide +kernel

theorem some_of {α β : Type} {x : Option α × β} (h : x.1.isSome = true) : ∃ f c, x = (some f, c) := by
  rcases x with ⟨_ | a, c⟩
  · cases h
  · exact ⟨a, c, rfl⟩

/-- The chip as the row leaves its turn, and what the row writes. -/
def turned (s : State) : Chip := s.chip.modCore 0 fun x => { x with drLast := (s.chip.part 1).slot }
def rowOf (s : State) (q : Cmd) : List (Nat × List Byte × Bool) :=
  (if q.op = .accst then accstRow q ((s.chip.slot 0 1).tile q.sel) q.pos else qstRow (s.chip.slot 0 1) q q.pos).writes.map fun w => (w.1, w.2, q.taint)

theorem witness_DrainWorks : Claims.running (sTile 6 (accst1 pad true 0 false)).chip 0 1 6 (accst1 pad true 0 false) ∧
    (sTile 6 (accst1 pad true 0 false)).chip.drainTurn 0 = some 1 ∧
    ((sTile 6 (accst1 pad true 0 false)).chip.slot 0 1).rowPoison (accst1 pad true 0 false) 0 = none ∧
    (∃ c, (turned (sTile 6 (accst1 pad true 0 false))).writable ((accst1 pad true 0 false).actor 0 1)
      (rowOf (sTile 6 (accst1 pad true 0 false)) (accst1 pad true 0 false)) = (none, c)) ∧
    (∃ f c, (turned (sTile 6 (accst1 (2 ^ 53) true 0 false))).writable ((accst1 (2 ^ 53) true 0 false).actor 0 1)
      (rowOf (sTile 6 (accst1 (2 ^ 53) true 0 false)) (accst1 (2 ^ 53) true 0 false)) = (some f, c)) ∧
    Claims.running (sTile 6 (accst1 pad true 32 true)).chip 0 1 6 (accst1 pad true 32 true) :=
  ⟨running_of (by decide +kernel), by decide +kernel, by decide +kernel, none_of (by decide +kernel), some_of (by decide +kernel), running_of (by decide +kernel)⟩

/-- Line 2 of tile 0 holds elements of row 0 and is poisoned; a second slot of the core was not served last. -/
def sRowSick : State :=
  { sTile 6 (accst1 pad true 0 false) with
    chip := (sTile 6 (accst1 pad true 0 false)).chip.modSlot 0 1 fun sl => { sl with tiles := [{ idx := 0, poison := [2] }] } }
def sTwoSlots : State :=
  { sTile 6 (accst1 pad true 0 false) with
    chip := { (sTile 6 (accst1 pad true 0 false)).chip with
      parts := [part8, { part8 with pid := 2, slot := 1 }]
      slots := [slotWith 6 (accst1 pad true 0 false), { slotWith 6 (accst1 pad true 0 false) with pid := 2 }]
      cores := [{ id := 0, drLast := 0 }] } }

theorem witness_DrainWorks_turn : sRowSick.chip.drainTurn 0 = some 1 ∧ (sRowSick.chip.slot 0 1).rowPoison (accst1 pad true 0 false) 0 ≠ none ∧
    Claims.running sTwoSlots.chip 0 1 6 (accst1 pad true 0 false) ∧ sTwoSlots.chip.drainTurn 0 ≠ some 1 :=
  ⟨by decide +kernel, by decide +kernel, running_of (by decide +kernel), by decide +kernel⟩

/-- A `QST` with THR 1 of a row whose one valid element is infinite with INFSAT, so that its group clamps. -/
def qst1 : Cmd :=
  { op := .qst, num := 1, dn := true, started := true, parts := [0], extra := [0, 0]
    desc := [pad, pad + 0x8000, 0x7F800000 * 2 ^ 32 + 2 ^ 16, 1, 2 ^ 32 + 2 ^ 24 + 2 ^ 19 + 4 * 2 ^ 10] }
def tileOne : Tile := { idx := 0, elems := [A80.zero.add 1 0] }
def sQst : State := { sTile 6 qst1 with chip := (sTile 6 qst1).chip.modSlot 0 1 fun sl => { sl with tiles := [tileOne] } }

theorem witness_DrainWorks_range : Claims.running sQst.chip 0 1 6 qst1 ∧ (qstRow (sQst.chip.slot 0 1) qst1 0).ranged = true ∧
    sQst.chip.drainTurn 0 = some 1 ∧ (sQst.chip.slot 0 1).rowPoison qst1 0 = none ∧
    (∃ c, (turned sQst).writable (qst1.actor 0 1) (rowOf sQst qst1) = (none, c)) ∧
    qst1.extra.getD 1 0 = 0 ∧ qst1.qsThr ≠ 0 ∧ qst1.qsThr ≤ qst1.extra.getD 0 0 + 1 :=
  ⟨running_of (by decide +kernel), by decide +kernel, by decide +kernel, by decide +kernel, none_of (by decide +kernel), by decide +kernel,
    by decide +kernel, by decide +kernel⟩

/-- The image of a level table as it is read: levels 1 and -1, or none but 0; a table that a running product holds. -/
def levels (m : Mem) : List Nat :=
  match ({ (sTile 6 (lvlld1 pad)).chip with mem := m }.engineRead ((lvlld1 pad).actor 0 1) (lvlld1 pad).a.toNat (levelImageLen 4)).1 with
  | .ok r => r.1.map BitVec.toNat
  | .error _ => []
def sLvl (va : Nat) : State := sTile 6 (lvlld1 va)
def mmal1 : Cmd := { mma1 pad true 0 with op := .mmal, desc := [pad, 0, 1, 2 * 2 ^ 55 + 4 * 2 ^ 48 + 2 ^ 43 + 512] }
def sHeldTable : State :=
  { sLvl pad with chip := (sLvl pad).chip.modSlot 0 1 fun sl => sl.setEng 5 { cmds := [mmal1], given := 1 } }

theorem witness_DrainWorks_table : Claims.running (sLvl pad).chip 0 1 6 (lvlld1 pad) ∧ ((sLvl pad).chip.slot 0 1).tableHeld (lvlld1 pad) = false ∧
    (∃ bs tt c, (sLvl pad).chip.engineRead ((lvlld1 pad).actor 0 1) (lvlld1 pad).a.toNat (levelImageLen 4) = (.ok (bs, tt), c)) ∧
    (∃ f c, (sLvl (2 ^ 53)).chip.engineRead ((lvlld1 (2 ^ 53)).actor 0 1) (lvlld1 (2 ^ 53)).a.toNat (levelImageLen 4) = (.error f, c)) ∧
    (sHeldTable.chip.slot 0 1).tableHeld (lvlld1 pad) = true := by
  refine ⟨running_of (by decide +kernel), by decide +kernel, ⟨_, _, _, ok_is ([], false) (by decide +kernel)⟩, error_of (by decide +kernel),
    by decide +kernel⟩

theorem witness_DrainWorks_levels : (∃ tab, parseLevels 4 (levels (({} : Mem).write (locCore 0 0) 8 0xFFFF0001)) = .inr tab) ∧
    parseLevels 4 (levels {}) = .inl 40 := ⟨⟨⟨[1, -1] ++ List.replicate 14 0, 0⟩, by decide +kernel⟩, by decide +kernel⟩

/-- A launch whose timetable has one region of one page, resident at tier 3 in state byte 0x20000, and one entry. -/
def region1 : Region := { vbase := 0x100000, home := 3, npg := 1, t0str := 12, t0off := 0, t2off := 0, t2twr := 0, t1off := 0 }
def ttEnt (action src dst stage : Nat) : TtEntry := { region := 0, src, dst, action, marker := 0, length := if action = 6 then 0 else 4096, offset := 0, stage }
def ttOf (e : TtEntry) : Timetable := { regions := [region1], entries := [e], mapBase := 0, la := 0, before := [(0, 0, [3]), (1, 1, [3])] }
def launchOf (tt : Option Timetable) (ending : Bool) : Launch := { lid := 0, ox := 0, oy := 0, lw := 0, lh := 0, tt, ending }
def partTier (l : List Launch) : Part := { part8 with launches := l, ranges := [{ num := 0, owner := .map 0, spans := [(0x20000, 4096)] }] }
def sTier (l : List Launch) (st k n : Nat) (cmds : List Cmd) : State :=
  { chip := { chip2 [] with parts := [partTier l], mem := ({} : Mem).write 0x20000 1 st
                            slots := [{ core := 0, pid := 1, engs := (Vector.replicate 10 {}).set 7 { cmds, given := 1 } }] }
    focus := { pid := 1, n, k } }
def sEnt (action src dst stage st : Nat) : State := sTier [launchOf (some (ttOf (ttEnt action src dst stage))) false] st 0 0 []

theorem timed_of {s : State} {l : Launch} {tt : Timetable} (h : s.chip.ttAt s.focus.core s.focus.pid = some (l, tt) ∧
    (s.chip.slot s.focus.core s.focus.pid).pstate = .run) : timed s l tt := h

/-- A pin that may start, one whose page is elsewhere, a barrier, an entry that has started. -/
theorem witness_TierEngineWorks :
    timed (sEnt 2 3 3 0 3) (launchOf (some (ttOf (ttEnt 2 3 3 0))) false) (ttOf (ttEnt 2 3 3 0)) ∧
    (sEnt 2 3 3 0 3).chip.entryMayStart 1 (launchOf (some (ttOf (ttEnt 2 3 3 0))) false) (ttOf (ttEnt 2 3 3 0)) 0 = true ∧
    (sEnt 2 3 3 0 3).chip.preOk 1 (launchOf (some (ttOf (ttEnt 2 3 3 0))) false) (ttOf (ttEnt 2 3 3 0)) (ttEnt 2 3 3 0) = true ∧
    pagesApart (sEnt 2 3 3 0 3).chip 1 (launchOf (some (ttOf (ttEnt 2 3 3 0))) false) (ttOf (ttEnt 2 3 3 0)) (ttEnt 2 3 3 0) ∧
    (sEnt 2 3 3 0 4).chip.preOk 1 (launchOf (some (ttOf (ttEnt 2 3 3 0))) false) (ttOf (ttEnt 2 3 3 0)) (ttEnt 2 3 3 0) = false ∧
    (sEnt 6 0 0 0 3).chip.entryMayStart 1 (launchOf (some (ttOf (ttEnt 6 0 0 0))) false) (ttOf (ttEnt 6 0 0 0)) 0 = true ∧
    (sEnt 2 3 3 1 3).chip.entryMayStart 1 (launchOf (some (ttOf (ttEnt 2 3 3 1))) false) (ttOf (ttEnt 2 3 3 1)) 0 = false ∧
    (sEnt 2 3 3 0 3).chip.mem.wf = true ∧ (sEnt 2 3 3 0 3).chip.pagesFree 1 = true ∧
    ¬{ (sEnt 2 3 3 0 3).chip with scq := [scOp1], insts := [inst1 fAdd] }.pagesFree 1 = true := by
  refine ⟨timed_of (by decide +kernel), by decide +kernel, by decide +kernel, ⟨by decide +kernel, by decide +kernel⟩, by decide +kernel, by decide +kernel,
    by decide +kernel, by decide +kernel, by decide +kernel, by decide +kernel⟩

/-- A fetch of the page to where it is, with a timetable, with the page elsewhere, with none attached. -/
def fetch1 (started : Bool) (dst : Nat) : Cmd :=
  { op := .tfetch, num := 1, dn := true, sel := 3 * 16 + dst, b := 4096, who := { core := 0, pid := 1 }, started }
def sFetch (l : List Launch) (st : Nat) : State := sTier l st 1 1 [fetch1 false 3]
def pinned (stage : Nat) : List Launch := [launchOf (some (ttOf (ttEnt 2 3 3 stage))) false]

theorem witness_TierEngineWorks_command : ((sFetch (pinned 2) 3).chip.slot 0 1).cmd? 7 1 = some (fetch1 false 3) ∧
    ((sFetch (pinned 2) 3).chip.slot 0 1).tierFirst 1 = true ∧ (sFetch (pinned 2) 3).chip.moveFree 0 1 (fetch1 false 3) = true ∧
    (sFetch (pinned 2) 3).chip.checkMove 0 1 (fetch1 false 3) = none ∧
    (sFetch (pinned 2) 3).chip.preOk 1 (launchOf (some (ttOf (ttEnt 2 3 3 2))) false) (ttOf (ttEnt 2 3 3 2)) (fetch1 false 3).entryOf = true ∧
    (sFetch (pinned 2) 4).chip.preOk 1 (launchOf (some (ttOf (ttEnt 2 3 3 2))) false) (ttOf (ttEnt 2 3 3 2)) (fetch1 false 3).entryOf = false ∧
    (sFetch [] 3).chip.ttAt 0 1 = none ∧ (sFetch [] 3).chip.moveFree 0 1 (fetch1 false 3) = true := by decide +kernel

/-- Movements in flight: one with nothing to transfer, one whose home page is not mapped; of an entry and of a command. -/
def sMoving (dst : Nat) : State := sTier (pinned 2) 19 1 1 [fetch1 true dst]
theorem witness_TierEngineWorks_moving :
    (sEnt 2 3 3 1 3).chip.movingAt (sEnt 2 3 3 1 3).focus = some (launchOf (some (ttOf (ttEnt 2 3 3 1))) false, ttOf (ttEnt 2 3 3 1), ttEnt 2 3 3 1, 0, 0) ∧
    (∃ c, (sEnt 2 3 3 1 3).chip.transferAll 1 (launchOf (some (ttOf (ttEnt 2 3 3 1))) false) (ttOf (ttEnt 2 3 3 1)) (ttEnt 2 3 3 1) = .ok c ∧ c.mem.wf = true) ∧
    ((ttOf (ttEnt 2 3 3 1)).kept (0, 0)).length = (ttEnt 2 3 3 1).pages.length ∧
    (sEnt 0 3 0 1 19).chip.movingAt (sEnt 0 3 0 1 19).focus = some (launchOf (some (ttOf (ttEnt 0 3 0 1))) false, ttOf (ttEnt 0 3 0 1), ttEnt 0 3 0 1, 0, 0) ∧
    (sEnt 0 3 0 1 19).chip.transferAll 1 (launchOf (some (ttOf (ttEnt 0 3 0 1))) false) (ttOf (ttEnt 0 3 0 1)) (ttEnt 0 3 0 1) = .error none ∧
    (sEnt 2 3 3 1 3).chip.pagesFree 1 = true ∧ (sEnt 0 3 0 1 19).chip.pagesFree 1 = true ∧
    ((sMoving 3).chip.movingAt (sMoving 3).focus).isSome = true ∧ ((sMoving 0).chip.movingAt (sMoving 0).focus).isSome = true ∧
    ((sMoving 3).chip.slot 0 1).cmd? 7 1 = some (fetch1 true 3) := by
  refine ⟨by decide +kernel, ⟨_, rfl, by decide +kernel⟩, ?_⟩
  decide +kernel

/-- `TTLOAD` with no launch, with no timetable, with one, to detach and to attach. -/
def ttload1 (a : Nat) : Cmd := { op := .ttload, num := 1, dn := true, sel := 2, a := BitVec.ofNat 64 a, who := { core := 0, pid := 1 } }
def sTtl (a : Nat) (l : List Launch) : State := sTier l 3 1 1 [ttload1 a]
/-- Timetable at 0x200 of the scratchpad (a barrier), region table at 0x300, map area at 0x8000 of a page table. -/
def ttload2 : Cmd := { ttload1 (pad + 0x100) with desc := [pad + 0x200, 1, pad + 0x300, 1, 0x8000] }
def sAttach : State :=
  let s := sTier [launchOf none false] 3 1 1 [ttload2]
  let m := [(0x200, 6 * 2 ^ 32), (0x300, 0x100000), (0x308, 3 * 2 ^ 32 + 1),
    (0x310, 12 * 2 ^ 32)].foldl (fun m x => m.write (locCore 0 x.1) 8 x.2) ({ cells := tables } : Mem)
  { s with chip := { s.chip with parts := [{ partTier [launchOf none false] with ranges := [], regs := (0x010, 0x10000) :: part8.regs }], mem := m } }
theorem okc_of {α β ε : Type} {x : Except ε α × β} (h : x.1.toBool = true) : ∃ a c, x = (.ok a, c) := ok_of h

theorem witness_TierEngineWorks_attach : (∀ x ∈ [sTtl 0 [], sTtl 5 [], sTtl 0 [launchOf none false], sTtl 0 (pinned 2), sTtl 5 (pinned 2), sAttach],
      (x.chip.slot 0 1).tierFirst 1 = true ∧ (x.chip.slot 0 1).pstate = .run ∧ x.chip.mem.wf = true ∧ x.chip.pagesFree 1 = true) ∧
    ((sTtl 0 []).chip.slot 0 1).cmd? 7 1 = some (ttload1 0) ∧ ((sTtl 5 []).chip.part 1).launchAt 0 = none ∧
    ((sTtl 0 [launchOf none false]).chip.part 1).launchAt 0 = some (launchOf none false) ∧
    (∃ f c, (sTtl 5 [launchOf none false]).chip.attach 0 1 (ttload1 5) (launchOf none false) = (.error f, c)) ∧
    (sAttach.chip.slot 0 1).cmd? 7 1 = some ttload2 ∧
    (∃ c d, sAttach.chip.attach 0 1 ttload2 (launchOf none false) = (.ok c, d)) :=
  ⟨by decide +kernel, by decide +kernel, by decide +kernel, by decide +kernel, error_of (by decide +kernel), by decide +kernel, ok_of (by decide +kernel)⟩

/-- A timetable being detached, ready or with an entry in flight. -/
def detach (stage : Nat) : State :=
  sTier [launchOf (some (ttOf (ttEnt 2 3 3 stage))) true] 3 0 0 [{ ttload1 0 with started := true }]
theorem witness_TierEngineWorks_detach : timed (detach 2) (launchOf (some (ttOf (ttEnt 2 3 3 2))) true) (ttOf (ttEnt 2 3 3 2)) ∧
    (detach 2).chip.detachReady 1 (launchOf (some (ttOf (ttEnt 2 3 3 2))) true) (ttOf (ttEnt 2 3 3 2)) = true ∧
    timed (detach 1) (launchOf (some (ttOf (ttEnt 2 3 3 1))) true) (ttOf (ttEnt 2 3 3 1)) ∧
    (detach 1).chip.detachReady 1 (launchOf (some (ttOf (ttEnt 2 3 3 1))) true) (ttOf (ttEnt 2 3 3 1)) = false :=
  ⟨timed_of (by decide +kernel), by decide +kernel, timed_of (by decide +kernel), by decide +kernel⟩

/-- One region of one page has its state byte at a place of its own. -/
theorem witness_TierEngineWorks_map : mapApart (detach 2).chip 1 (launchOf (some (ttOf (ttEnt 2 3 3 2))) true) (ttOf (ttEnt 2 3 3 2)) := by
  have all : ∀ q < 1, ∀ g < 1, ((detach 2).chip.part 1).stateLoc (launchOf (some (ttOf (ttEnt 2 3 3 2))) true) (ttOf (ttEnt 2 3 3 2)) q g ≠ none := by
    decide +kernel
  have one : ∀ q r g, [region1][q]? = some r → g < r.npg → q = 0 ∧ g = 0 := by
    intro q r g h hg
    rcases q with _ | q
    · cases h; exact ⟨rfl, Nat.lt_one_iff.1 hg⟩
    · cases h
  intro q r g h hg
  obtain ⟨rfl, rfl⟩ := one q r g h hg
  refine ⟨all 0 (by decide) 0 (by decide), fun q' r' g' h' hg' _ => ?_⟩
  obtain ⟨rfl, rfl⟩ := one q' r' g' h' hg'
  exact ⟨rfl, rfl⟩

/-- A state of 256 FP32 amplitudes on the page at 0x8000, alone or in a box of two packages; commands on it. -/
def amp1 (pb : Nat) : AmpSt := { sid := 2, prec := 1, loc := 8, pb, base := 0x8000, map := List.range (8 + pb) }
def ampCmd (op : CmdOp) (flag : Bool) (a : Nat) (desc : List Nat) (started : Bool) : Cmd :=
  { op, num := 1, dn := true, sel := 2, flag, a := BitVec.ofNat 64 a, desc, started, cover := [(0x8000, 0, true)] }
def ainit1 (started : Bool) : Cmd := ampCmd .ainit false 0 [0x8000, 2 ^ 13 + 8, 0] started
def aswap1 (started : Bool) : Cmd := ampCmd .aswap false (5 * 256 + 1) [] started
def sAmp (l : List AmpSt) (m : List Contrib) (q : Cmd) : State :=
  { chip := { chip2 [] with parts := [rootPart], slots := [{ slotWith 8 q with amps := l }], contribs := m, mem := { cells := tables } }, focus := { pid := 1 } }
def contrib1 (agree : List Nat) : Contrib := { key := [8, 1, 0, 2, 0, 1], agree }

theorem okd_of {α ε : Type} {x : Except ε α} {a : α} (h : x.toOption = some a) : x = .ok a := by
  rcases x with _ | b <;> cases h
  rfl

theorem witness_AmplitudeEngineWorks_start :
    (∀ q ∈ [ainit1 false, aswap1 false, ampCmd .agate false 0 [0, 2 ^ 62] false, { ainit1 false with err := some { cause := 0x68 } }],
      ∀ l ∈ [[], [amp1 0]], ((sAmp l [] q).chip.slot 0 1).ampHead = some q) ∧
    ((sAmp [amp1 0] [] (ainit1 false)).chip.slot 0 1).amp? 2 ≠ none ∧ ((sAmp [] [] (aswap1 false)).chip.slot 0 1).amp? 2 = none ∧
    (ampBad (((sAmp [amp1 0] [] (ampCmd .agate false 0 [0, 2 ^ 62] false)).chip.slot 0 1).amp? 2) (ampCmd .agate false 0 [0, 2 ^ 62] false)).isSome = true ∧
    ampBad (((sAmp [] [] (ainit1 false)).chip.slot 0 1).amp? 2) (ainit1 false) = none ∧
    (sAmp [] [] (ainit1 false)).chip.ampDesc 2 (ainit1 false).desc = .ok (amp1 0) ∧
    (∃ m c, (sAmp [] [] (ainit1 false)).chip.checkAmp 0 1 (ainit1 false) (amp1 0) = (.ok m, c)) ∧
    ((sAmp [] [] (ainit1 false)).chip.part 1).freeRange = some 1 ∧ (sAmp [] [] (ainit1 false)).chip.scWaits 1 = false ∧
    (∃ f c, (sAmp [] [] (ainit1 false)).chip.checkAmp 0 1 (ainit1 false) { amp1 0 with base := 0x9000 } = (.error f, c)) :=
  ⟨by decide +kernel, by decide +kernel, by decide +kernel, by decide +kernel, by decide +kernel, okd_of (by decide +kernel), ok_of (by decide +kernel),
    by decide +kernel, by decide +kernel, error_of (by decide +kernel)⟩

/-- A `.sc` atomic of the partition waits; every entry of the range table is in use. -/
def allRanges : List RangeEntry := (List.range 64).map fun n => { num := n + 1, owner := .coll 0 0, spans := [] }
theorem witness_AmplitudeEngineWorks_held :
    { (sAmp [] [] (ainit1 false)).chip with scq := [scOp1], insts := [inst1 fAdd] }.scWaits 1 = true ∧
    ({ (sAmp [] [] (ainit1 false)).chip with parts := [{ rootPart with ranges := allRanges }] }.part 1).freeRange = none := by decide +kernel

/-- No partner has issued; one disagrees; one agrees; one package alone. -/
theorem witness_AmplitudeEngineWorks :
    (∀ q ∈ [ainit1 true, aswap1 true], ∀ m ∈ [[], [contrib1 [9]], [contrib1 q.ampAgree]],
      ((sAmp [amp1 1] m q).chip.slot 0 1).ampRunning = some q ∧ (sAmp [amp1 1] m q).chip.ampState 0 1 q = some (amp1 1)) ∧
    (amp1 1).others = [1] ∧ (sAmp [amp1 1] [] (aswap1 true)).chip.ampPeer 0 1 (amp1 1) 1 = none ∧
    (∀ g ∈ [[9], (aswap1 true).ampAgree], (sAmp [amp1 1] [contrib1 g] (aswap1 true)).chip.ampPeer 0 1 (amp1 1) 1 = some (contrib1 g) ∧
      pairedWith (sAmp [amp1 1] [contrib1 g] (aswap1 true)).chip 0 1 (amp1 1) = [contrib1 g]) ∧
    (contrib1 [9]).agree ≠ (aswap1 true).ampAgree ∧ (contrib1 (aswap1 true).ampAgree).failed = false ∧
    (∃ ps c, (sAmp [amp1 1] [contrib1 (aswap1 true).ampAgree] (aswap1 true)).chip.ampRecord 0 1 (aswap1 true) (amp1 1) = (.ok ps, c)) ∧
    (∃ f c, { (sAmp [amp1 1] [contrib1 (aswap1 true).ampAgree] (aswap1 true)).chip with
      mem := { cells := tables, poison := [0x8000 / 64] } }.ampRecord 0 1 (aswap1 true) (amp1 1) = (.error f, c)) :=
  ⟨by decide +kernel, by decide +kernel, by decide +kernel, by decide +kernel, by decide +kernel, by decide +kernel, ok_of (by decide +kernel),
    error_of (by decide +kernel)⟩

/-- Two amplitudes of four qubits' worth: a gate of one qubit's place changes, a measurement of nothing left. -/
def amps4 : Amps := (List.range 4).map fun i => ((i, 0), false)
theorem witness_AmplitudeEngineWorks_effect :
    (ampEffect { amp1 0 with loc := 2 } (aswap1 true) (fun _ => []) amps4).toBool = true ∧
    (ampEffect { amp1 0 with loc := 2 } (ampCmd .ameas true 0 [] true) (fun _ => []) (amps4.map fun x => ((0, 0), x.2))).toBool = false ∧
    (amp1 0).phys ((aswap1 true).a.toNat % 64) = 1 ∧ (amp1 0).phys ((aswap1 true).a.toNat / 256 % 64) = 5 ∧
    (ampCmd .ameas false 0 [] true).flag = false ∧ (ainit1 true).flag = false ∧ (amp1 0).phys 1 < (amp1 0).loc := by decide +kernel

/-- A gate on qubit 0 of a state of two local qubits, and on qubit 2 of one with a package qubit more; a measurement of a 1 and three 0s. -/
def amp2 (pb : Nat) : AmpSt := { amp1 pb with loc := 2, map := List.range (2 + pb) }
def agate1 (target : Nat) : Cmd := ampCmd .agate false 0 [0, 2 ^ 56 + target] true
theorem witness_AmplitudeEngineWorks_gate : gateBad (amp2 0) (agate1 0) = none ∧ gateBad (amp2 1) (agate1 2) = none ∧
    (∀ pb ∈ [0, 1], (amp2 pb).map.Nodup ∧ (amp2 pb).map.length = (amp2 pb).n ∧ (∀ x ∈ (amp2 pb).map, x < (amp2 pb).n) ∧ amps4.length = (amp2 pb).held) ∧
    (∀ p ∈ (agate1 0).targets.map (amp2 0).phys, p < (amp2 0).loc) ∧ (agate1 0).targets = [0] ∧ spread [0] 2 1 = 3 ∧
    ((agate1 2).targets.map (amp2 1).phys).getD 0 0 = 2 ∧ (amp2 1).loc = 2 ∧ (agate1 2).controls = [] := by decide +kernel

theorem witness_AmplitudeEngineWorks_measure :
    (ampEffect (amp2 0) (ampCmd .ameas true 0 [] true) (fun _ => []) [((0x3F800000, 0), false), noAmp, noAmp, noAmp]).toBool = true ∧
    weight (amp2 0) (0x3F800000, 0) = 0x3FF0000000000000 ∧ (fmtOf .f64).decode 0x3FF0000000000000 = .fin false (2 ^ 52) (-52) ∧
    recipRoot (fmtOf .f32) 0x3FF0000000000000 < (fmtOf .f32).infBits := by decide +kernel

/-- A `COLL` of 16 doublewords over one package, or over two, whose first segment is at hand or done. -/
def coll1 (lx dst : Nat) (started : Bool) (pos : Nat) : Cmd :=
  { op := .coll, num := 1, dn := true, started, pos, desc := [pad + 0x100, pad + dst, 16 * 2 ^ 32 + 7 * 256, lx * 2 ^ 19] }
def sLink (q : Cmd) (m : List Contrib) : State := { sEng 9 q with chip := { (sEng 9 q).chip with contribs := m }, focus := { pid := 1, n := 1 } }
def part9 (agree : List Nat) : Contrib := { key := [9, 1, 0, 0, 1], agree, words := [7, 8] }

theorem witness_LinkCommandsWork_segment :
    (∀ q ∈ [coll1 0 0x400 false 0, coll1 1 0x400 false 0, coll1 0 0x400 true 1, { coll1 0 0x400 false 0 with err := some { cause := 0x70 } }],
      ∀ m ∈ [[], [part9 [9]], [part9 q.clAgree]], ((sLink q m).chip.slot 0 1).collAt 1 = some q) ∧
    (sLink (coll1 1 0x400 false 0) [part9 [9]]).chip.collOthers (coll1 1 0x400 false 0) = [1] ∧
    (sLink (coll1 1 0x400 false 0) [part9 [9]]).chip.collPeer 1 (coll1 1 0x400 false 0) 1 = some (part9 [9]) ∧
    (part9 [9]).agree ≠ (coll1 1 0x400 false 0).clAgree ∧
    (sLink (coll1 0 0x400 false 0) []).chip.collOthers (coll1 0 0x400 false 0) = [] ∧ (sLink (coll1 0 0x400 false 0) []).chip.collSegs (coll1 0 0x400 false 0) = 1 := by
  decide +kernel

/-- Its source read, its destination at hand or beyond the scratchpad, its segment computed. -/
def begun1 (q : Cmd) : Chip := (sLink q []).chip.modSlot 0 1 fun y => y.modCmd 9 1 fun z => { z with started := true }
theorem witness_LinkCommandsWork_bytes : let q := coll1 0 0x400 false 0
    let x := q.actor 0 1 (some (.coll 0 1))
    (∃ b c, (begun1 q).engineRead x ((q.desc.getD 0 0 + 4096 * q.pos) % 2 ^ 64) (min 4096 (q.clSrcLen ((sLink q []).chip.clBox q) - 4096 * q.pos)) = (.ok b, c)) ∧
    (∃ b c, ((begun1 q).engineRead x (pad + 0x100) 64).2.enginePlaces x ((q.desc.getD 1 0 + 4096 * q.pos) % 2 ^ 64) (min 4096 (q.clDstLen - 4096 * q.pos)) = (.ok b, c)) ∧
    (∃ b c, (begun1 q).collSegment x 1 q 0 = (.ok b, c)) ∧ (∃ f c, (begun1 q).engineRead x (pad + 2 ^ 20) 8 = (.error f, c)) :=
  ⟨ok_of (by decide +kernel), ok_of (by decide +kernel), ok_of (by decide +kernel), error_of (by decide +kernel)⟩

/-- A reduce-scatter of 512 doublewords on the second of two packages, whose own block is the second 4 KiB of a source that ends there. -/
def collTail : Cmd :=
  { op := .coll, num := 1, started := true, desc := [pad + 0xF000, pad + 0x400, 512 * 2 ^ 32 + 2 ^ 16 + 7 * 256, 2 ^ 19] }
def sTail : State :=
  { sLink collTail [] with chip := { (sLink collTail []).chip with tx := 1, contribs := [{ key := [9, 1, 0, 0, 0], agree := collTail.clAgree }] } }
theorem witness_LinkCommandsWork_lowest : (sTail.chip.slot 0 1).collAt 1 = some collTail ∧ sTail.chip.collOthers collTail = [0] ∧
    (sTail.chip.collPeer 1 collTail 0).isSome = true ∧ collTail.pos < sTail.chip.collSegs collTail ∧
    (sTail.chip.segFault (collTail.actor 0 1 (some (.coll 0 1))) collTail 0).1.toBool = true ∧
    (∃ f c, sTail.chip.collSegment (collTail.actor 0 1 (some (.coll 0 1))) 1 collTail 0 = (.error f, c)) :=
  ⟨by decide +kernel, by decide +kernel, by decide +kernel, by decide +kernel, by decide +kernel, error_of (by decide +kernel)⟩

/-- A range entry that holds the place of a frame. -/
theorem witness_LinkCommandsWork_range : lowestRefusing [{ num := 3, owner := .amp 0 2, va := 0x8000, len := 4096, spans := [(0x8000, 4096)] }]
    { pid := 1, core := 0 } .atomic 0x8010 8 ≠ none := by decide +kernel

/-- A `CRED` of a doubleword at 0x8010; a frame resent; keys of the filter. -/
def cred1 (started : Bool) (pos : Nat) : Cmd :=
  { op := .cred, num := 1, dn := true, flag := true, a := 0x8010, b := 3, w0 := 0x8010, who := { core := 0, pid := 1 }, started, pos }
def sCred (q : Cmd) (seen : List (List Nat)) (resent : List CredOp) (l : List Nat) (n k : Nat) : State :=
  { sLink q [] with chip := { (sLink q []).chip with credSeen := seen, creds := resent, mem := { cells := tables, poison := l } }, focus := { pid := 1, n, k } }
def frame1 : CredOp := (cred1 true 0).frame 1
def key1 : List Nat := (cred1 true 0).credKey

theorem witness_LinkCommandsWork_cred : (sCred (cred1 false 0) [] [frame1] [] 1 0).chip.mem.wf = true ∧ frame1.key ∉ ([] : List (List Nat)) ∧ frame1.key ∈ [key1] ∧
    frame1.loc % 8 = 0 ∧ frame1.loc < 2 ^ 56 ∧ frame1.wide = true ∧ underKey (sCred (cred1 false 0) [] [frame1] [] 1 0).chip frame1.loc 8 frame1.mkey ∧
    (sCred (cred1 true 0) [] [frame1] [] 0 1).chip.creds[0]? = some frame1 ∧ (sCred (cred1 true 0) [] [frame1] [] 0 1).chip.mem.poisoned frame1.loc 4 = none ∧
    lowestRefusing ((sCred (cred1 true 0) [] [frame1] [] 0 1).chip.part frame1.pid).ranges { pid := frame1.pid, core := 0 } .atomic frame1.loc 8 = none ∧
    (sCred (cred1 true 0) [] [frame1] [] 0 1).chip.credRefused frame1 0 0 = none ∧
    (sCred (cred1 true 0) [] [frame1] [512] 0 1).chip.credRefused frame1 0 0 ≠ none ∧
    (∀ q ∈ [cred1 false 0, cred1 true 0, cred1 true 1], ((sCred q [] [] [] 1 0).chip.slot 0 1).credAt 1 = some q) ∧
    (sCred (cred1 false 0) [] [] [512] 1 0).chip.mem.poisoned (cred1 false 0).w0 4 ≠ none ∧
    (sCred (cred1 true 1) [key1] [] [] 0 0).chip.credSeen[0]? = some key1 ∧ (cred1 true 0).credKey ∉ (sCred (cred1 true 0) [] [] [] 1 0).chip.credSeen := by
  refine ⟨by decide +kernel, by decide +kernel, by decide +kernel, by decide +kernel, by decide +kernel, by decide +kernel, fun _ => by decide +kernel, ?_⟩
  decide +kernel

/-! ### Links, sensors, pre-emption -/

/-- Frames for partition 1: one token, one line, one of a KIND that there is not. -/
def tokenFrame : List Nat := [2 ^ 60 + 2 ^ 48 + 2 ^ 32, 0, 2 ^ 60 + 5, 42]
def lineFrame : List Nat := [2 ^ 60 + 2 ^ 56 + 2 ^ 48 + 2 ^ 32, 1, 1, 2, 3, 4, 5, 6, 7, 8]
def badFrame : List Nat := [2 ^ 60 + 7 * 2 ^ 56 + 2 ^ 48 + 2 ^ 32, 0]
/-- A load of a running block, a copy that runs, and what the outside world brings. -/
def sIn (l : List Input) : State :=
  { chip := { chip2 [inst1 (fLoad [])] with slots := [slotWith 0 (copy1 0x200 true 0)] }, inputs := l }

theorem witness_LinksAndSensorsWork : (sIn []).chip.mem.wf = true ∧ (sIn []).chip.frameBad badFrame = true ∧
    (sIn []).chip.frameBad tokenFrame = false ∧ bits (tokenFrame.getD 0 0) 56 4 = 0 ∧
    (sIn []).chip.parts.find? (fun p => p.part == bits (tokenFrame.getD 0 0) 32 16) = some part2 ∧
    (sIn []).chip.frameBad lineFrame = false ∧ bits (lineFrame.getD 0 0) 56 4 = 1 ∧ (∀ j < bits (lineFrame.getD 0 0) 48 8, isDram (0x4000 + 64 * j) = true) ∧
    (sIn []).chip.inst? 1 = some (inst1 (fLoad [])) ∧ (∃ l ∈ (fLoad []).loads, l.idx = 0) ∧
    ((sIn []).chip.slot 0 1).headCmd 0 = some (copy1 0x200 true 0) ∧ (copy1 0x200 true 0).started = true ∧ (((sIn []).chip.slot 0 1).eng 0).halted = false ∧
    3 < (sIn []).chip.lanes.length ∧ (sIn []).chip.hasPart (sIn []).focus.pid = false := by
  decide +kernel

/-- A reduce-store of another package with a good header and with one of KIND 3; commands of every context that a link fails. -/
def credFrame (kind : Nat) : List Nat := [2 ^ 60 + kind * 2 ^ 56 + 2 ^ 48 + 2 ^ 32, 0]
def started (op : CmdOp) : Cmd := { op, num := 1, started := true }

theorem witness_LinksAndSensorsWork_cred : bits ((credFrame 4).getD 0 0) 56 4 = 4 ∧ (sIn []).chip.frameBad (credFrame 4 ++ List.replicate 8 0) = false ∧
    isDram 0x8010 = true ∧ bits ((credFrame 3).getD 0 0) 56 4 ≠ 4 ∧ (sIn []).chip.scq = [] ∧ { (sIn []).chip with scq := [scOp1] }.scq ≠ [] ∧
    ((sIn []).chip.slot 0 1).inResidue 0 = false := by decide +kernel

theorem witness_LinksAndSensorsWork_fails :
    (∀ x ∈ [(0, started .cpy), (4, started .gath), (5, started .mma), (6, started .accst), (8, started .aswap), (9, started .coll), (9, started .cred)],
      ((sEng x.1 x.2).chip.slot 0 1).cmd? x.1 1 = some x.2 ∧ x.2.started = true ∧ x.2.done = false ∧ (((sEng x.1 x.2).chip.slot 0 1).eng x.1).halted = false ∧
      x.2.buf = []) ∧
    ((sEng 0 (mcast1 0x200)).chip.slot 0 1).cmd? 0 1 = some (mcast1 0x200) ∧ (mcast1 0x200).buf ≠ [] ∧
    ((sEng 5 (started .mma)).chip.slot 0 1).isPlaneHead (started .mma) = true ∧
    ((sTwo 1).chip.slot 0 1).cmd? 5 2 = some (mma2 1) ∧ ((sTwo 1).chip.slot 0 1).isPlaneHead (mma2 1) = false ∧
    ((sEnt 2 3 3 1 3).chip.movingAt { pid := 1, k := 0 }).isSome = true ∧ ((sMoving 3).chip.movingAt { pid := 1, n := 1, k := 1 }).isSome = true := by
  decide +kernel

theorem witness_LinksAndSensorsWork_walk : (sPage 0 []).focus.n < 2 ^ 52 ∧ (sPage 0 []).chip.hasPart (sPage 0 []).focus.pid = true ∧
    (sPage 0 []).chip.mem.wf = true := by decide +kernel

/-- Partition 1 on cores 0 and 1, with a request of its own that wants partition `a` out or `b` in; its slots. -/
def partSwap (out inn : Option Nat) : Part := { part2 with w := 2, pends := [pend 0 (.pswap out inn true 4)], nextPend := 1 }
def slotIn (core : Nat) (st : PState) (marks : List Nat) : Machine.Slot := { core, pid := 1, pstate := st, marks }
def sSwap (out inn : Option Nat) (a b : Machine.Slot) (l : List Inst) (n : Nat) : State :=
  { chip := { chip2 l with parts := [partSwap out inn], slots := [a, b] }, focus := { pid := 1, n } }

theorem witness_PreemptionMoves_out :
    ((sSwap (some 1) none (slotIn 0 .run []) (slotIn 1 .run []) [inst1 fTwice] 0).chip.slot 0 1).pstate = .run ∧
    (sSwap (some 1) none (slotIn 0 .run []) (slotIn 1 .run []) [inst1 fTwice] 0).chip.wantedOut 1 = true ∧
    Numbered (sSwap (some 1) none (slotIn 0 .run []) (slotIn 1 .run []) [inst1 fTwice] 0).chip ∧
    (inst1 fTwice).creator = none ∧ (sIn []).chip.wantedOut 0 = false ∧
    (∀ l ∈ [[], [1]], ((sSwap (some 1) none (slotIn 0 .drain l) (slotIn 1 .drain []) [] 1).chip.part 1).neighbour 0 1 = some 1 ∧
      ((sSwap (some 1) none (slotIn 0 .drain l) (slotIn 1 .drain []) [] 1).chip.slot 0 1).marks = l) ∧
    (sSwap (some 1) none (slotIn 0 .drain []) (slotIn 1 .drain []) [] 1).chip.markerSent 1 1 (facing 1) = true ∧
    (sSwap (some 1) none (slotIn 0 .drain []) (slotIn 1 .run []) [] 1).chip.markerSent 1 1 (facing 1) = false ∧
    (sSwap (some 1) none (slotIn 0 .drain [1]) (slotIn 1 .drain []) [] 0).chip.quiet 0 1 = true :=
  ⟨by decide +kernel, by decide +kernel, numbered_of (by decide +kernel), by decide +kernel, by decide +kernel, by decide +kernel, by decide +kernel,
    by decide +kernel, by decide +kernel⟩

/-- Every side of core 0 but the first is the region's edge. -/
theorem witness_PreemptionMoves_rest : ∀ d, 1 ≤ d → d ≤ 4 → sideDone (sSwap (some 1) none (slotIn 0 .drain [1]) (slotIn 1 .drain []) [] 0).chip 0 1 d := by
  intro d h1 h4
  have h : d = 1 ∨ d = 2 ∨ d = 3 ∨ d = 4 := by omega
  rcases h with rfl | rfl | rfl | rfl
  · exact .inl (by decide +kernel)
  · exact .inr (by decide +kernel)
  · exact .inr (by decide +kernel)
  · exact .inr (by decide +kernel)

theorem witness_PreemptionMoves_in :
    (∀ st ∈ [PState.save, .out, .restore], ((sSwap none (some 1) (slotIn 0 st []) (slotIn 1 .run []) [] 0).chip.slot 0 1).pstate = st) ∧
    (sSwap none (some 1) (slotIn 0 .out []) (slotIn 1 .run []) [] 0).chip.wantedIn 0 1 = true ∧
    (sSwap (some 1) none (slotIn 0 .out []) (slotIn 1 .run []) [] 0).chip.wantedIn 0 1 = false ∧
    (sSwap none (some 1) (slotIn 0 .run []) (slotIn 1 .run []) [] 0).chip.pendAt 1 0 = some (pend 0 (.pswap none (some 1) true 4)) ∧
    (sSwap none (some 1) (slotIn 0 .run []) (slotIn 1 .run []) [] 0).chip.wholly 1 .run = true ∧
    (sSwap none (some 1) (slotIn 0 .out []) (slotIn 1 .run []) [] 0).chip.wholly 1 .run = false := by decide +kernel

/-- An image of more than 256 KiB, and one of nothing whose size the manual gives; a core whose clock is its own. -/
def sBig (slice : Nat) : State := sSwap none none (slotIn 0 .save []) (slotIn 1 .run []) [{ inst1 fAdd with slice }] 0
theorem witness_PreemptionMoves_image : ((sBig 2000).chip.slot 0 1).pstate = .save ∧ 2 ^ 18 < (sBig 2000).chip.imageKnown 0 1 ∧
    ((sBig 0).chip.slot 0 1).pstate = .save ∧ (sBig 0).chip.imageKnown 0 1 = 0 ∧
    (∀ x ∈ (sBig 0).chip.slots, x.core = 0 → x.pid ≠ 1 → x.image ≠ 1) := by decide +kernel

/-- A core to be retired, with spares left or with none in its tower; one whose slots have come to rest for the spare, or have not. -/
def sRetire (k : Core) (t : List Tower) (st : PState) : State :=
  { chip := { chip2 [] with slots := [slotIn 0 st []], cores := [k], towers := t }, focus := { pid := 1 } }
theorem witness_PreemptionMoves_retire : ((sRetire { id := 0, retire := true } [] .run).chip.coreSt 0).retire = true ∧
    ((sRetire { id := 0, retire := true } [] .run).chip.coreSt 0).spare = none ∧
    ((sRetire { id := 0, spare := some 16 } [] .drain).chip.coreSt 0).spare = some 16 ∧
    (∀ x ∈ (sRetire { id := 0, spare := some 16 } [] .drain).chip.slots, x.core = 0 → (sRetire { id := 0, spare := some 16 } [] .drain).chip.mayMove x = true) ∧
    ((sRetire { id := 0, spare := some 16 } [] .drain).chip.slot 0 1).pstate = .drain ∧ (sRetire { id := 0, spare := some 16 } [] .drain).chip.wantedOut 1 = false ∧
    (∃ x ∈ (sRetire { id := 0, spare := some 16 } [] .run).chip.slots, x.core = 0 ∧ (sRetire { id := 0, spare := some 16 } [] .run).chip.mayMove x = false) := by
  decide +kernel

/-- With the tower's 272 physical cores all taken no spare is left, whichever of them passed self-test. -/
theorem spareOf_mem (k : Nat) : spareOf k ∈ (List.range 17).map (rowBase k + ·) := by
  unfold spareOf
  cases h : ((List.range 17).map (rowBase k + ·)).find? fun x => !((rowPassed k).take 16).contains x with
  | none => exact List.mem_map.mpr ⟨16, by decide, rfl⟩
  | some x => exact List.mem_of_find?_eq_some h
theorem witness_PreemptionMoves_none :
    (sRetire { id := 0, retire := true } [{ id := 0, spares := List.range 272 }] .run).chip.pickSpare 0 = none := by
  have h : ∀ r ∈ ([0, 1, 2, 3, 4, 5, 6, 7, 8, 9, 10, 11, 12, 13, 14, 15] : List Nat), spareOf (coreAt (coreX 0) (coreY 0 / 16 * 16 + r)) ∈ List.range 272 := by
    intro r hr
    obtain ⟨i, hi, e⟩ := List.mem_map.mp (spareOf_mem (coreAt (coreX 0) (coreY 0 / 16 * 16 + r)))
    rw [← e]
    exact List.mem_range.mpr ((by decide +kernel : ∀ r ∈ ([0, 1, 2, 3, 4, 5, 6, 7, 8, 9, 10, 11, 12, 13, 14, 15] : List Nat), ∀ i ∈ List.range 17,
      rowBase (coreAt (coreX 0) (coreY 0 / 16 * 16 + r)) + i < 272) r hr i hi)
  refine List.find?_eq_none.mpr fun x hx => ?_
  obtain ⟨r, hr, rfl⟩ := List.mem_map.mp hx
  have hr' : r ∈ ([0, 1, 2, 3, 4, 5, 6, 7, 8, 9, 10, 11, 12, 13, 14, 15] : List Nat) := hr
  have := h r hr'
  show ¬(!(List.range 272).contains (spareOf (coreAt (coreX 0) (coreY 0 / 16 * 16 + r))) && Config.corePasses (spareOf (coreAt (coreX 0) (coreY 0 / 16 * 16 + r)))) = true
  simp only [List.contains_iff_mem.mpr this, Bool.not_true, Bool.false_and, Bool.false_eq_true, not_false_eq_true]

/-- Ebgokai's own requests. -/
def sAsk (x : Input) (st : PState) : State :=
  { chip := { chip2 [] with slots := [slotIn 0 st []] }, focus := { k := 1 }, inputs := [x] }
theorem witness_PreemptionMoves_inputs : (sAsk (.preempt 1) .run).focus.k = 1 ∧ (sAsk (.preempt 1) .run).chip.hasPart 1 = true ∧
    allIn (sAsk (.preempt 1) .run).chip 1 .run ∧ (sAsk (.preempt 2) .run).chip.hasPart 2 = false ∧ allIn (sAsk (.swapIn 1) .out).chip 1 .out ∧
    (sAsk (.swapIn 1) .out).chip.slotTaken ((sAsk (.swapIn 1) .out).chip.part 1) = false ∧ ((sAsk (.retire 0) .run).chip.coreSt 0).spare = none :=
  ⟨by decide +kernel, by decide +kernel, by show ∀ k ∈ _, _; decide +kernel, by decide +kernel, by show ∀ k ∈ _, _; decide +kernel, by decide +kernel,
    by decide +kernel⟩

/-! ### Host, management window, bring-up -/

/-- A machine that is up, its command window 3 partition 1's with the packets `l`. -/
def sHost (l : List (List Word)) (inputs : List Input) : State :=
  { chip := { chip1 [] with parts := [part3] }, sys := { stage := 5, windows := [{ id := 3, pid := some 1, wait := l }] }, focus := { n := 3 }, inputs }
/-- A packet of another type; a `LAUNCH` of the image in the scratchpad. -/
def badPacket : List Word := [5, 0, 0, 0, 0, 0, 0, 0]
def goodPacket : List Word := [2 ^ 56 + 7, BitVec.ofNat 64 (pad + 0x100), 0, 77, 0, 0, 0, 0]

theorem witness_HostPacketsLaunch : (sHost [] []).sys.window 4 = { id := 4 } ∧ ((sHost [] []).sys.window 3).pid ≠ none ∧
    16 ≤ ((sHost (List.replicate 16 badPacket) []).sys.window 3).wait.length ∧ ((sHost [] []).sys.window 3).wait.length < 16 ∧
    (sHost [] []).chip.mem.wf = true ∧
    (∀ l ∈ linesOf (locHost 0x40) 2, lookupNat (sHost [] []).chip.mem.keyed l = 0 ∨ lookupNat (sHost [] []).chip.mem.keyed l = hostMark) ∧
    (sHost [] []).chip.isBridge = true ∧ ((sHost [] []).sys.window 4).pid = none ∧ 0x4040 / 4096 = 4 ∧ 0x3048 / 4096 = 3 ∧ 0x3048 % 4096 = 0x48 ∧
    0x3058 % 4096 ∉ [0x40, 0x48, 0x50] ∧ (1 ≠ hostMark) ∧ { (sHost [] []).chip with ty := 1 }.isBridge = false ∧
    (∀ l ∈ [badPacket, goodPacket], (sHost [l] []).sys.packetReady (sHost [l] []).chip 3 = some (1, l)) ∧ packetBad badPacket = true ∧
    packetBad goodPacket = false ∧ (sHost [] []).sys.packetReady (sHost [] []).chip 3 = none := by decide +kernel

theorem witness_HostPacketsLaunch_inputs : (sHost [] [.hostPacket 3 goodPacket]).inputs = .hostPacket 3 goodPacket :: [] ∧
    (sHost [] [.hostWrite 0x40 [1, 2]]).inputs = .hostWrite 0x40 [1, 2] :: [] ∧ (sHost [] [.hostClr 3]).inputs = .hostClr 3 :: [] ∧
    (sHost [] [.hostWord 3 6 9]).inputs = .hostWord 3 6 9 :: [] ∧ ((sHost [] []).sys.window 3).pkt.length ≤ 8 ∧
    (sHost [] [.place 0x40 [1]]).inputs = .place 0x40 [1] :: [] := by decide +kernel

/-- A machine that is up, with partition 1's slot in a state, and a request at its window. -/
def sMgmt (r : Request) (st : PState) (m : Mgmt) (stage : Nat) : State :=
  { chip := { chip1 [] with parts := [part3], slots := [{ core := 0, pid := 1, pstate := st }] }, sys := { stage, mgmt := m, fuse := 0 }, inputs := [.mgmt 0 0 0 r] }
theorem asked_of {s : State} {r : Request} {rest : List Input} (h : s.inputs = .mgmt (s.chip.tx % 2) (s.chip.ty % 2) (s.chip.tz % 2) r :: rest ∧ s.sys.stage = 5 ∧
    s.sys.mgmt.busy = false ∧ s.sys.mgmt.outcome = none) : Asked s r rest := ⟨h.1, h.2.1, h.2.2.1, h.2.2.2⟩
/-- Requests for a partition on core 1 with the quotas of the registers 040H and 044H, and for one of a size that there is not. -/
def newPart (w : Nat) : NewPart :=
  { part := 9, slot := 0, ox := 1, oy := 0, w, h := 1, qscope := 0x111111, quotas := [(0x040, 0x100000000), (0x044, 0x20)], keys := [], mgr := false, wrapKey := 0 }

theorem witness_ManagementServices_window : serviceOf (.endPart 1) = some .endPartition ∧ Instr.endPartition ≠ .mgmtServiceComplete ∧
    (sMgmt (.endPart 1) .run { busy := true, outcome := some (0, .none) } 5).sys.mgmt.outcome ≠ none ∧
    (∀ x, (sMgmt (.endPart 1) .run { busy := true, request := some (.events 1) } 5).sys.mgmt.request = some x → serviceOf x ≠ some .endPartition) ∧
    (sMgmt (.endPart 1) .run {} 4).sys.stage ≠ 5 ∧ (sMgmt (.endPart 1) .run {} 4).sys.mgmt.busy = false := by
  refine ⟨rfl, by decide, by decide +kernel, fun x h => ?_, by decide +kernel, by decide +kernel⟩
  cases h
  decide +kernel

/-- A request for the other package of a node; service 2 waiting, before and after it has asked the partition out. -/
def sEnding (l : List Pend) (x : List Input) : State :=
  { sMgmt (.endPart 3) .run { busy := true, request := some (.endPart 1) } 5 with
    chip := { (sMgmt (.endPart 3) .run {} 5).chip with parts := [{ part3 with pends := l }] }, inputs := x }
theorem witness_ManagementServices_waiting : (0, 0, 1) ≠ ((sMgmt (.endPart 1) .run {} 5).chip.tx % 2, (sMgmt (.endPart 1) .run {} 5).chip.ty % 2,
      (sMgmt (.endPart 1) .run {} 5).chip.tz % 2) ∧ (sMgmt (.endPart 1) .run {} 5).sys.mgmt.busy = false ∧
    (∀ l ∈ [[pend 0 (.pswap (some 1) none true 4)], []], (sEnding l [.mgmt 0 0 0 (.endPart 3)]).inputs = .mgmt 0 0 0 (.endPart 3) :: [] ∧
      (sEnding l []).chip.hasPart 1 = true ∧ (sEnding l []).sys.mgmt.outcome = none ∧ (sEnding l []).chip.wantedOut 1 = !l.isEmpty) ∧
    ¬allIn (sEnding [] []).chip 1 .out := by
  refine ⟨by decide +kernel, by decide +kernel, by decide +kernel, by show ¬∀ k ∈ _, _; decide +kernel⟩

/-- An object of three sections in host memory. The point whose abscissa is its digest is the sum of the curve's base point and of the point
`signer`, so that under `signer` the digest itself, twice, is its signature (R135). -/
def bodyBytes : List Byte :=
  [0x47, 0x52, 0x4F, 0x31, 1, 0] ++ leBytes 2 3 ++ leBytes 8 208 ++
    ([(1, 88, 8), (10, 96, 8), (11, 104, 104)].flatMap fun x => leBytes 8 x.1 ++ leBytes 8 x.2.1 ++ leBytes 8 x.2.2) ++ leBytes 8 2 ++ leBytes 8 0
def bodyDigest : Nat := 0x53235ffca71b87862252a7384765341294ef7e64c9adf806dafceab01cb35942943d9b797ff4ca90a5207c6841622fa5
def signer : Nat × Nat :=
  (0x4a0b927c35d8883ae0f6940aa8716303321fff02b6b14e85f5cf1f2d31ce15904a7f3913515f5fa0106fec38cac1e31b,
   0x6bd3c1814275d89424ad64d2b0ecfa4cbe145e840426489dbff49f56c22828a4b0a32e86404f34deef1ccc963906346e)
def objectBytes : List Byte := bodyBytes ++ leBytes 8 0 ++ ((Crypto.beBytes 48 bodyDigest ++ Crypto.beBytes 48 bodyDigest).map (BitVec.ofNat 8))
def signedMem : Mem := { cells := objectBytes.zipIdx.filterMap fun (b, k) => if b = 0 then none else some (locHost 0 + k, b) }
def sSigned : State :=
  { sMgmt (.verify 1 0) .run {} 5 with chip := { (sMgmt (.verify 1 0) .run {} 5).chip with mem := signedMem } }

theorem test_signature : Crypto.verify signer.1 signer.2 (Crypto.beBytes 48 bodyDigest) bodyDigest bodyDigest = true := by decide +kernel

/-- What a check that passes has found, part by part. -/
theorem checkObject_of {c : Chip} {a n off k r t : Nat} {es : List (List Nat)} {l : List (Nat × Nat × Nat)} {d : List Nat}
    (hn : leOf (((c.hostBytes a 16).drop 6).take 2) = n)
    (h0 : ((c.hostBytes a 16).take 6 != [0x47, 0x52, 0x4F, 0x31, 1, 0] || n < 3 || 11 < n) = false)
    (he : (List.range n).map (fun k => c.hostBytes (a + 16 + 24 * k) 24) = es)
    (hl : es.map (fun b => (leOf (b.take 4), leOf ((b.drop 8).take 8), leOf (b.drop 16))) = l)
    (h1 : (!sectionsOk (leOf ((c.hostBytes a 16).drop 8)) l ||
      1 < ((l.find? fun e => e.1 == 10).map fun e => leOf (c.hostBytes (a + e.2.1) 8)).getD 0 ||
      es.any fun b => leOf ((b.drop 4).take 4) != 0) = false)
    (ho : (l.getLast?.map fun e => e.2.1).getD 0 = off) (hk : leOf ((c.hostBytes (a + off) 104).take 4) = k)
    (hd : Crypto.sha384 (c.hostBytes a off) = d) (hz : leOf (((c.hostBytes (a + off) 104).drop 4).take 4) = 0)
    (hr : Crypto.beNat (((c.hostBytes (a + off) 104).drop 8).take 48) = r) (ht : Crypto.beNat ((c.hostBytes (a + off) 104).drop 56) = t)
    (hv : Crypto.verify (Config.signerX k) (Config.signerY k) d r t = true) : c.checkObject a = some (Crypto.beNat d) := by
  subst hn he hl ho hk hd hr ht
  simp only [Chip.checkObject, h0, h1, hz, hv, decide_true, Bool.and_self, if_true, Bool.false_eq_true, if_false]

/-- Where Ebgokai holds that signer under number 0, the object passes. -/
theorem witness_ManagementServices_signed (hx : Config.signerX 0 = signer.1) (hy : Config.signerY 0 = signer.2) :
    Asked sSigned (.verify 1 0) [] ∧ sSigned.chip.hasPart 1 = true ∧ ∃ d, sSigned.chip.checkObject 0 = some d := by
  refine ⟨asked_of (by decide +kernel), by decide +kernel, _, checkObject_of (n := 3) (off := 104) (k := 0) (r := bodyDigest) (t := bodyDigest)
    (d := Crypto.beBytes 48 bodyDigest) (by decide +kernel) (by decide +kernel) rfl rfl (by decide +kernel) (by decide +kernel) (by decide +kernel)
    (by decide +kernel) (by decide +kernel) (by decide +kernel) (by decide +kernel) ?_⟩
  rw [hx, hy]
  exact test_signature

theorem witness_ManagementServices_create : Asked (sMgmt (.create (newPart 1)) .run {} 5) (.create (newPart 1)) [] ∧
    (sMgmt (.create (newPart 1)) .run {} 5).chip.freePid = some 2 ∧
    (sMgmt (.create (newPart 1)) .run {} 5).chip.createOk (newPart 1) ((newPart 1).part' 2) = true ∧
    Asked (sMgmt (.create (newPart 3)) .run {} 5) (.create (newPart 3)) [] ∧
    (sMgmt (.create (newPart 3)) .run {} 5).chip.createOk (newPart 3) ((newPart 3).part' 2) = false :=
  ⟨asked_of (by decide +kernel), by decide +kernel, by decide +kernel, asked_of (by decide +kernel), by decide +kernel⟩

theorem witness_ManagementServices_end : Asked (sMgmt (.endPart 2) .run {} 5) (.endPart 2) [] ∧ (sMgmt (.endPart 2) .run {} 5).chip.hasPart 2 = false ∧
    Asked (sMgmt (.endPart 1) .out {} 5) (.endPart 1) [] ∧ (sMgmt (.endPart 1) .out {} 5).chip.hasPart 1 = true ∧
    allIn (sMgmt (.endPart 1) .out {} 5).chip 1 .out ∧ Asked (sMgmt (.endPart 1) .run {} 5) (.endPart 1) [] ∧
    ¬allIn (sMgmt (.endPart 1) .run {} 5).chip 1 .out :=
  ⟨asked_of (by decide +kernel), by decide +kernel, asked_of (by decide +kernel), by decide +kernel, by show ∀ k ∈ _, _; decide +kernel,
    asked_of (by decide +kernel), by show ¬∀ k ∈ _, _; decide +kernel⟩

theorem witness_ManagementServices_others : (∀ n ∈ [0, 5], Asked (sMgmt (.attest 1 n) .run {} 5) (.attest 1 n) []) ∧
    Asked (sMgmt (.attest 2 5) .run {} 5) (.attest 2 5) [] ∧ (sMgmt (.attest 2 5) .run {} 5).chip.hasPart 2 = false ∧
    Asked (sMgmt (.verify 1 0x40) .run {} 5) (.verify 1 0x40) [] ∧ (sMgmt (.verify 1 0x40) .run {} 5).chip.checkObject 0x40 = none ∧
    (∀ k ∈ [4, 6], Asked (sMgmt (.extend 1 k 3) .run {} 5) (.extend 1 k 3) []) ∧ Asked (sMgmt (.firmware 8) .run {} 5) (.firmware 8) [] ∧
    (sMgmt (.firmware 8) .run {} 5).sys.fuse = 0 ∧ Asked (sMgmt (.sumac 2 1 0xFF true) .run {} 5) (.sumac 2 1 0xFF true) [] ∧
    Asked (sMgmt (.events 2) .run {} 5) (.events 2) [] ∧
    (sMgmt (.events 2) .run { busy := true, outcome := some (0, .none) } 5).sys.mgmt.outcome = some (0, .none) := by
  refine ⟨fun n h => ?_, asked_of (by decide +kernel), by decide +kernel, asked_of (by decide +kernel), by decide +kernel, fun n h => ?_,
    asked_of (by decide +kernel), by decide +kernel, asked_of (by decide +kernel), asked_of (by decide +kernel), by decide +kernel⟩
  · rcases (by simpa using h : n = 0 ∨ n = 5) with rfl | rfl <;> exact asked_of (by decide +kernel)
  · rcases (by simpa using h : n = 4 ∨ n = 6) with rfl | rfl <;> exact asked_of (by decide +kernel)

/-- A version below the rollback counter, whatever the image's version is. -/
theorem witness_ManagementServices_rollback : let s := sMgmt (.firmware 8) .run {} 5
    let image := s.chip.hostBytes 8 (Config.imageSize (s.chip.hostBytes 8 64))
    let t : State := { s with sys := { s.sys with fuse := Config.imageVersion image + 1 } }
    Asked t (.firmware 8) [] ∧ Config.imageVersion (t.chip.hostBytes 8 (Config.imageSize (t.chip.hostBytes 8 64))) < t.sys.fuse :=
  ⟨⟨rfl, rfl, rfl, rfl⟩, Nat.lt_succ_self _⟩

/-- Bring-up at each of its stages; whether one passes is the configuration's to say, so one of the two outcomes stands. -/
theorem witness_BringUpFollowsItsStages : (∀ n < 5, ({ sys := { stage := n, powered := true } } : State).sys.stage < 5) ∧
    ({ sys := { stage := 0, powered := true } } : State).sys.failed = false ∧
    (({ sys := { stage := 0, powered := true } } : State).sys.stageOk 1 = true ∨ ({ sys := { stage := 0, powered := true } } : State).sys.stageOk 1 = false) ∧
    State.reset.sys.powered = false ∧ (({ sys := { powered := true }, inputs := [.powerOn] } : State).inputs = .powerOn :: []) := by
  refine ⟨by decide, rfl, ?_, rfl, rfl⟩
  cases ({ sys := { stage := 0, powered := true } } : State).sys.stageOk 1 <;> decide

/-! ### The step, the encoding, the invariants -/

/-- A word due to be stepped, fetched from the block at hand; an event due; nothing to do; one step enabled; a choice. -/
def sDue : State := { sAdd with turn := some (.word { iid := 1, pid := 1 }) }
def sUp : State := { sys := { powered := true, stage := 5 } }

theorem witness_StepRunsDecoded : sDue.turn = some (.word { iid := 1, pid := 1 }) ∧ fetchWord sDue { iid := 1, pid := 1 } = some 0x20000101 ∧
    (∃ d, decodeWord 0x20000101 = .ok d) ∧ sDue.chip.inst? 1 = some (inst1 fAdd) ∧ (inst1 fAdd).frame = some fAdd ∧
    ({ sUp with turn := some (.event .linkRetry {}) } : State).turn = some (.event .linkRetry {}) :=
  ⟨rfl, by decide +kernel, ⟨_, rfl⟩, by decide +kernel, by decide +kernel, rfl⟩

theorem witness_StepRunsDecoded_choice : sUp.turn = none ∧ enabled sUp = [] ∧ (enabled State.reset).length = 1 ∧
    (enabled { State.reset with inputs := [.linkRetry 0], oracle := [1] }).length = 2 ∧ State.reset.oracle = [] := by decide +kernel

theorem witness_DecodingInvertsEncoding : (⟨⟨.always, 0⟩, .fma .f32 none (some ⟨.c, 6⟩)⟩ : Decoded).wf = true ∧
    0x61840186 < 2 ^ 32 ∧ decodeWord 0x61840186 = .ok ⟨⟨.always, 0⟩, .fma .f32 none (some ⟨.c, 6⟩)⟩ := ⟨by decide +kernel, by decide, rfl⟩

theorem witness_EveryStepKeepsSoundness : Sound sDue ∧ ∃ t, step sDue = .next t :=
  ⟨⟨by decide +kernel, numbered_of (by decide +kernel), by decide +kernel, by decide +kernel, by decide +kernel, by decide +kernel⟩, _, rfl⟩

/-- A step has written four bytes of the first segment of a running product's operand. -/
def sRace : State :=
  { sMma (mmaAt pad 1 [0, 0, 0, 0]) { id := 0 } { idx := 0 } with
    chip := { (sMma (mmaAt pad 1 [0, 0, 0, 0]) { id := 0 } { idx := 0 }).chip with mem := { wrote := [(locCore 0 8, 4)] } } }
theorem witness_StepRunsDecoded_race : mmaAt pad 1 [0, 0, 0, 0] ∈ ((sRace.chip.slot 0 1).eng 5).cmds ∧ ((sRace.chip.slot 0 1).eng 5).halted = false ∧
    (mmaAt pad 1 [0, 0, 0, 0]).started = true ∧ sRace.chip.raced 0 1 (mmaAt pad 1 [0, 0, 0, 0]) = true ∧
    { sRace.chip with mem := { wrote := [(locCore 0 0x8000, 4)] } }.raced 0 1 (mmaAt pad 1 [0, 0, 0, 0]) = false := by decide +kernel

/-- FP16 patterns: a signalling NaN, two infinities, two zeros, the least subnormal; what R63 and R244 make of three of them. -/
theorem witness_FloatSpecialValues : isNan .f16 0x7C01 = true ∧ isSignalling .f16 0x7C01 = true ∧ isNan .f16 0x7E00 = true ∧
    isSignalling .f16 0x7E00 = false ∧ isInfinite .f16 0x7C00 = true ∧ isInfinite .f16 0xFC00 = true ∧ negative .f16 0x7C00 ≠ negative .f16 0xFC00 ∧
    isZero .f16 0 = true ∧ isZero .f16 0x8000 = true ∧ (isNan .f16 1 = false ∧ isInfinite .f16 1 = false ∧ isZero .f16 1 = false) := by
  decide +kernel
theorem test_float_special : Sys2Proof.Machine.fDiv (fmtOf .f16) .rne 0x8001 0 = (0xFC00, { dz := true }) ∧ Sys2Proof.Machine.fAdd (fmtOf .f16) .rne 0x7C00 0xFC00 = (0x7E00, { nv := true }) ∧
    Sys2Proof.Machine.fSub (fmtOf .f16) .rdn 1 1 = (0x8000, {}) := by decide +kernel

/-! ### Where an access goes -/

/-- Partition 1 with one 64 KiB unit of scratchpad, two of cluster memory at base 3, one MiB of each tower at base 5; instance 1 has a slice of
512 bytes. -/
def cWin : Chip := { chip2 [{ inst1 fAdd with slice := 2 }] with
  parts := [{ part2 with regs := (0x041, 2 * 2 ^ 32 + 3) :: (0x042, 2 ^ 32 + 5) :: part2.regs }] }
def me : Actor := { pid := 1, core := 0, iid := 1 }
/-- The boundaries of each window (R29 to R32, R36 to R39), with the worked example of R38: core (0, 2) of the cluster. -/
theorem witness_TranslationTouchesOnlyAccessBits_window :
    windowRule cWin me .read (0xFFFF800000000000 + 511) = .ok (locSlice 1 511) ∧ windowRule cWin me .read (0xFFFF800000000000 + 512) = .error 0x21 ∧
    windowRule cWin me .write (0xFFFF800000000000 + 255) = .error 0x24 ∧ windowRule cWin me .write (0xFFFF800000000000 + 256) = .ok (locSlice 1 256) ∧
    windowRule cWin me .read 0xFFFF800000001000 = .error 0x20 ∧ windowRule cWin me .read (2 ^ 52) = .error 0x20 ∧
    windowRule cWin me .read (pad + 65535) = .ok (locCore 0 65535) ∧ windowRule cWin me .read (pad + 65536) = .error 0x21 ∧
    windowRule cWin me .read (pad + 2 ^ 21) = .error 0x20 ∧ windowRule cWin me .read (0xFFFF820000000000 + 7) = .ok (locCore 0 7) ∧
    windowRule cWin me .read (0xFFFF820000000000 + 2 ^ 21) = .error 0x22 ∧ windowRule cWin me .read (0xFFFF820000000000 + 2 ^ 26) = .error 0x22 ∧
    windowRule cWin me .read (0xFFFF820000000000 + 2 ^ 31) = .error 0x20 ∧
    windowRule cWin me .read (0xFFFF830000000000 + 0x123456) = .ok (locCore 64 (2 ^ 21 + 3 * 65536 + 0x12356)) ∧
    windowRule cWin me .read (0xFFFF830000000000 + 2 ^ 21) = .error 0x21 ∧ windowRule cWin me .read (0xFFFF830000000000 + 2 ^ 24) = .error 0x20 ∧
    windowRule cWin me .read (0xFFFF840000000000 + 3 * 2 ^ 28 + 9) = .ok (locTower 3 (5 * 2 ^ 20 + 9)) ∧
    windowRule cWin me .read (0xFFFF840000000000 + 2 ^ 20) = .error 0x21 ∧ windowRule cWin me .read (0xFFFF840000000000 + 2 ^ 27) = .error 0x20 ∧
    windowRule cWin me .read (0xFFFF840000000000 + 4 * 2 ^ 28) = .error 0x20 ∧ cWin.mem.wf = true := by decide +kernel

/-- A range entry over the word at 16 of the scratchpad; poison at its line. -/
theorem witness_TranslationTouchesOnlyAccessBits_guarded :
    (∃ e ∈ [({ num := 1, owner := .coll 0 0, va := pad, len := 64, spans := [(locCore 0 0, 64)] } : RangeEntry)], e.refuses me .read (locCore 0 16) 4 = true) ∧
    (∀ e ∈ (cWin.part 1).ranges, ¬(e.refuses me .read (locCore 0 16) 4 = true)) ∧ (∀ l ∈ linesOf (locCore 0 16) 4, l ∉ cWin.mem.poison) := by
  refine ⟨⟨_, List.mem_singleton.mpr rfl, by decide +kernel⟩, by decide +kernel, by decide +kernel⟩
theorem test_access_window : (cWin.access me .write true (pad + 16) 8).1 = .ok { loc := locCore 0 16 } ∧
    (cWin.access me .write true (pad + 17) 8).1 = .error { cause := 0x23, addr := pad + 17 } := by decide +kernel

/-- The tables of `sPage`: the walk for 0x8010 comes down through the four levels, and for 2^39 and for 0x9000 meets an invalid entry. -/
def walked : Chip := (sPage 0 []).chip
theorem walksTo_sPage (va : Nat) (h : va < 2 ^ 21) : WalksTo walked.mem 0x10000 va 0 0x13000 false := by
  have e3 : tableEntry 3 0x10000 va false = 0x10000 := by show 0x10000 + 8 * (va / 2 ^ 39 % 8192) = _; omega
  have e2 : tableEntry 2 0x11000 va false = 0x11000 := by show 0x11000 + 8 * (va / 2 ^ 30 % 512) = _; omega
  have e1 : tableEntry 1 0x12000 va false = 0x12000 := by show 0x12000 + 8 * (va / 2 ^ 21 % 512) = _; omega
  have s2 : WalksTo walked.mem 0x10000 va 2 0x11000 false :=
    .down 0x11001 .root (by decide) (by rw [e3]; exact ⟨by decide +kernel, by decide +kernel⟩) (by rw [e3]; decide +kernel)
      (by show _ ∧ _ ∧ _ ∧ _ ∧ _ ∧ _; decide) (by decide)
  have s1 : WalksTo walked.mem 0x10000 va 1 0x12000 false :=
    .down 0x12001 s2 (by decide) (by rw [e2]; exact ⟨by decide +kernel, by decide +kernel⟩) (by rw [e2]; decide +kernel)
      (by show _ ∧ _ ∧ _ ∧ _ ∧ _ ∧ _; decide) (by decide)
  exact .down 0x13001 s1 (by decide) (by rw [e1]; exact ⟨by decide +kernel, by decide +kernel⟩) (by rw [e1]; decide +kernel)
    (by show _ ∧ _ ∧ _ ∧ _ ∧ _ ∧ _; decide) (by decide)
theorem witness_TranslationTouchesOnlyAccessBits_walk :
    (∀ va ∈ [0x8010, 0x9000], WalksTo walked.mem 0x10000 va 0 0x13000 false) ∧ uncached walked 1 0x8010 ∧ (walked.part 1).reg 0x010 = 0x10000 ∧
    inDram 0x13000 ∧ legible walked.mem (tableEntry 0 0x13000 0x8010 false) ∧ walked.mem.read (tableEntry 0 0x13000 0x9000 false) 8 % 2 = 0 ∧
    walked.mem.read (tableEntry 0 0x13000 0x8010 false) 8 = 0x8007 ∧ leafOk 0 false 0x8007 ∧ ¬leafOk 0 false 0x8005 ∧ 0x13001 % 2 = 1 ∧
    ¬inDram 0x1800000000 ∧ pointerOk 1 0x13141 ∧ ¬pointerOk 1 0x13101 ∧ walked.mem.wf = true ∧
    (∃ f, leafRule walked 1 .fetch 0x8010 0 0x8007 0x10 = .error f) ∧ leafRule walked 1 .read 0x8010 0 0x8007 0x10 = .ok { loc := 0x8010, home := .dram, cacheable := true } := by
  refine ⟨fun va h => walksTo_sPage va ?_, fun u h => ?_, by decide +kernel, by decide, ⟨by decide +kernel, by decide +kernel⟩, by decide +kernel,
    by decide +kernel, ?_, ?_, by decide, by decide, ?_, ?_, by decide +kernel, ⟨_, rfl⟩, by decide +kernel⟩
  · simp only [List.mem_cons, List.not_mem_nil, or_false] at h
    omega
  · cases h
  · show _ ∧ _ ∧ _ ∧ _ ∧ _; decide
  · show ¬(_ ∧ _ ∧ _ ∧ _ ∧ _); decide
  · show _ ∧ _ ∧ _ ∧ _ ∧ _ ∧ _; decide
  · show ¬(_ ∧ _ ∧ _ ∧ _ ∧ _ ∧ _); decide
/-- A page mapped as in `sPage`: written, it has A and D; an invalid entry is refused at its level. -/
theorem test_access_page : (walked.access me .write true 0x8010 8).1 = .ok { loc := 0x8010, home := .dram, cacheable := true } ∧
    (walked.access me .write true 0x8010 8).2.mem.read 0x13040 8 = 0x8067 ∧
    (walked.access me .read false 0x9000 8).1 = .error { cause := 0x28, sub := 0, addr := 0x9000, info0 := 0 } := by decide +kernel

/-! ### What refuses a block at its commit -/

/-- A complete block of one commit-class word with its operands. -/
def fCheck (w : Nat) (ops : List Tok) : Frame := { fAct w ops with acts := [anAct ops] }
def refusal (w : Nat) (ops : List Tok) : Option AFault := ((sRoute ops).chip.checkAll (inst1 (fCheck w ops)) (fCheck w ops)).1.head?.map (·.2)
def tkDest : Option AFault := some { cause := 0x7A }
def enc1 (i : Instr) : Nat := (encode ⟨⟨.always, 0⟩, i⟩).getD 0
theorem witness_BlocksLiveAndCommit_refused :
    (∀ w ∈ [enc1 (.send 2), enc1 .tagfree, enc1 .keyldClr, enc1 .crange], (fCheck w ops1).doings.length = 1) ∧
    storeForm (.stD64 0) ≠ none ∧ atomicForm (.aadd .core true none) ≠ none ∧ isSc (.aaddSc true none) = true ∧
    ((sRoute ops1).chip.access (inst1 fAdd).actor .atomic true (pad + 1) 4).1.toBool = false ∧
    ((sRoute ops1).chip.access (inst1 fAdd).actor .atomic true pad 4).1.toBool = true ∧ windowRule cWin me .write (2 ^ 52) = .error 0x20 ∧
    (∃ e x, (chip2 []).translate 0 1 0x8010 = (.error e, x)) ∧ (∃ u x, walked.translate 0 1 0x8010 = (.ok u, x) ∧ u.base ≤ 0x8010) ∧
    (∃ e x, (sRoute ops1).chip.keyImage (inst1 fAdd) 1 = (.error e, x)) ∧ (∃ b x, (sRoute ops1).chip.keyImage (inst1 fAdd) pad = (.ok b, x)) := by
  refine ⟨by decide +kernel, by decide, by decide, rfl, by decide +kernel, by decide +kernel, by decide +kernel, error_of (by decide +kernel), ?_,
    error_of (by decide +kernel), ok_of (by decide +kernel)⟩
  exact ⟨_, _, rfl, by decide +kernel⟩
/-- R363, R387, R388, R390: routes, tags, sub-rectangles and destination words, each within its rule and just beyond. -/
theorem test_refusals_tokens :
    refusal (enc1 (.send 2)) [num 5, num (2 ^ 48 - 1)] = none ∧ refusal (enc1 (.send 2)) [num 5, num (2 ^ 48)] = tkDest ∧
    refusal (enc1 (.send 3)) [num 5, num 0] = tkDest ∧ refusal (enc1 (.sendm 2)) [num 5, num 0, num 0] = none ∧
    refusal (enc1 (.sendm 2)) [num 5, num 0, num 0x10000] = tkDest ∧ refusal (enc1 (.eos 2)) [num 0] = none ∧
    refusal (enc1 (.spawn 0 none)) [num 125] = none ∧ refusal (enc1 (.spawn 0 none)) [num 126] = tkDest ∧
    refusal (enc1 (.spawn 0 none)) [num 0x10000] = tkDest ∧ refusal (enc1 .tagfree) [num (2 ^ 26)] = none ∧
    refusal (enc1 .tagfree) [num 0] = some { cause := 0x7B } ∧ refusal (enc1 .tagfree) [num (2 ^ 38 + 2 ^ 26)] = some { cause := 0x7B } := by decide +kernel
/-- R353, R433, R434, R437: what the system's instructions refuse. -/
theorem test_refusals_system :
    refusal (enc1 .pclrClear) [num 0x00FF] = none ∧ refusal (enc1 .pclrClear) [num 0x0806] = none ∧
    refusal (enc1 .pclrClear) [num 0x0809] = some { cause := 0x04, info0 := 0x090 } ∧
    refusal (enc1 (.quotaWrite 0x043)) [num 4] = some { cause := 0x06 } ∧ refusal (enc1 .keyldClr) [num 5] = some { cause := 0x07, info0 := 5 } ∧
    refusal (enc1 .crange) [num pad, num 64] = none ∧ refusal (enc1 .crange) [num pad, num 0] = some { cause := 0x70 } ∧
    refusal (enc1 .crange) [num (2 ^ 52), num 1] = some { cause := 0x20, addr := 2 ^ 52 } := by decide +kernel

/-! ### The host's atomic operations and the management window -/

theorem witness_HostPacketsLaunch_atomic :
    (sHost [] [.hostAtomic 3 0x38 .cas true 7 0]).inputs = .hostAtomic 3 0x38 .cas true 7 0 :: [] ∧ ((sHost [] []).sys.window 3).pid ≠ none ∧
    (0x38 % 8 = 0 ∧ 0x38 < 0x40) ∧ (0x3C % 4 = 0 ∧ 0x3C < 0x40) := by decide +kernel
theorem witness_ManagementServices_elsewhere : let s := sMgmt (.endPart 1) .run { busy := true } 5
    { s with inputs := [.answer 3 .none] }.inputs = .answer 3 .none :: [] ∧ s.sys.mgmt.outcome = none ∧ s.sys.mgmt.busy = true ∧ s.sys.mgmt.request = none ∧
    Asked (sMgmt (.trace 2 1 9) .run {} 5) (.trace 2 1 9) [] :=
  ⟨rfl, rfl, rfl, rfl, asked_of (by decide +kernel)⟩

/-! ### The values of chapter 08 -/

/-- Numbers of each kind, and two results that the manual works out: 3.0 and its reciprocal in 14 bits (R257), 1 + 2^−8 to BF16 (R256). -/
theorem witness_FloatSpecialValues_numbers :
    isFinite .f32 0x40400000 = true ∧ isZero .f32 0x40400000 = false ∧ negative .f32 0x40400000 = false ∧ isFinite .bf16 0x8001 = true ∧
    negative .bf16 0x8001 = true ∧ isNan .bf16 0x7FC1 = true ∧ (fmtOf .bf16).frac < (fmtOf .f32).frac ∧ isFinite .f64 0 = true ∧
    magnitude (fmtOf .f32) 0x40400000 = 3 ∧ magnitude (fmtOf .f32) (infCode (fmtOf .f32)) = 2 ^ 128 ∧ number .bf16 0x8001 = -(2 ^ (-133 : Int)) := by
  refine ⟨by decide +kernel, by decide +kernel, by decide +kernel, by decide +kernel, by decide +kernel, by decide +kernel, by decide +kernel,
    by decide +kernel, ?_, ?_, ?_⟩ <;> (norm_num [magnitude, infCode, fmtOf, number, negative, Fmt.width]; try decide +kernel)
theorem test_float_reduced : Sys2Proof.Machine.fRcpa (fmtOf .f32) 0x40400000 = (0x3EAAAC00, {}) ∧
    Sys2Proof.Machine.cvtSR (fmtOf .f32) (fmtOf .bf16) 0x3F808000 0x7FFF = (0x3F80, { nx := true }) ∧
    Sys2Proof.Machine.cvtSR (fmtOf .f32) (fmtOf .bf16) 0x7F7F8000 0x8000 = (0x7F7F, { ovf := true, nx := true }) := by decide +kernel
theorem witness_FloatSpecialValues_steps : spacingIs (fmtOf .bf16) 1 (2 ^ (-7 : Int)) ∧ roundsInt .rna true (5 / 2) 3 ∧ roundsInt .rne false (5 / 2) 2 ∧
    (∃ n : Int, (2 : ℚ) = n ∧ -147 ≤ n ∧ n ≤ 127) ∧ (∃ l : Int, (2 : ℚ) = 2 ^ l) ∧ ∃ j : Int, (4 : ℚ) * 2 = j := by
  refine ⟨⟨0, by norm_num, by norm_num, by norm_num [fmtOf]⟩, ?_, ?_, ⟨2, by norm_num, by decide, by decide⟩, ⟨1, by norm_num⟩, ⟨8, by norm_num⟩⟩ <;>
    norm_num [roundsInt, inward, outward, abs_of_nonneg, abs_of_neg] <;> decide

/-! ### States for the clauses that name poison, links and credits -/

theorem witness_CopiesMove_clear : (∀ q ∈ [copy1 0x200 true 0], ((sEng 0 q).chip.checkUnits 0 1 q q.due).2.clearRun 0 1 q = q.run) ∧
    (sPeer.chip.checkUnits 0 1 copyPeer copyPeer.due).2.clearRun 0 1 copyPeer = copyPeer.run := by decide +kernel

theorem witness_BlocksLiveAndCommit_poisoned : sVal.chip.mem.poison.contains (locSlice 1 (8 * 31) / 64) = false ∧
    { sVal.chip.mem with poison := [locSlice 1 (8 * 31) / 64] }.poison.contains (locSlice 1 (8 * 31) / 64) = true := by decide +kernel

/-- Tokens of another package that wait for core 1, which has room, or has none, or whose older token waits. -/
def sWaiting (q : Word) (n : Nat) : State :=
  { sOut q with chip := { (sOut q).chip with waiting := [{ far1 with hdr := mkHdr 0 false 0 0 5 7, src := 9 }, { far1 with hdr := mkHdr 0 false 0 0 5 8, src := 9 }] }
                focus := { pid := 1, n, k := 1 } }
theorem witness_TokensArrive_waiting : (∀ n ∈ [0, 1], (sWaiting 32 n).chip.waiting[n]? ≠ none) ∧ (sWaiting 32 0).chip.creditFree 1 1 = true ∧
    (sWaiting 0 0).chip.creditFree 1 1 = false ∧ ((sWaiting 32 0).chip.slot 1 1).pstate = .run := by decide +kernel

theorem witness_RegistersAndCountersAreRead_waited : untimedCounter 0x0A 24 = true ∧
    0x0A * 256 + 24 ∈ ({ core := 0, pid := 1, waited := [0x0A18] } : Machine.Slot).waited := by decide +kernel

/-- A switch whose last core exchanges its planes. -/
def cfgsw1 : Cmd := { op := .cfgsw, num := 1, dn := true, started := true, parts := [0], who := { iid := 1, pid := 1 } }
theorem witness_ConfigurationEvents_last : ((sCfg [cfgsw1] .switching).chip.part 1).cfgq[0]? = some cfgsw1 ∧ cfgsw1.parts ≠ [] ∧
    (∀ x ∈ cfgsw1.parts, x = 0) ∧ ((sCfg [cfgsw1] .switching).chip.slot 0 1).cfg.sw = .switching := by decide +kernel

/-- An entry that runs and was abandoned; one whose page's state byte lies on a poisoned line. -/
def sEntSick : State := { sEnt 2 3 3 0 3 with chip := { (sEnt 2 3 3 0 3).chip with mem := { (sEnt 2 3 3 0 3).chip.mem with poison := [0x20000 / 64] } } }
theorem witness_TierEngineWorks_restart : (ttEnt 2 3 3 1).stage = 1 ∧ (ttOf (ttEnt 2 3 3 1)).keeps (0, 1) = false ∧
    (sEnt 2 3 3 0 3).chip.statesBad 1 (launchOf (some (ttOf (ttEnt 2 3 3 0))) false) (ttOf (ttEnt 2 3 3 0)) (ttEnt 2 3 3 0) = none ∧
    (sEntSick.chip.statesBad 1 (launchOf (some (ttOf (ttEnt 2 3 3 0))) false) (ttOf (ttEnt 2 3 3 0)) (ttEnt 2 3 3 0)).isSome = true := by decide +kernel

theorem witness_LinkCommandsWork_unloaded : (sCred (cred1 true 0) [] [frame1] [] 0 1).chip.credMark { frame1 with kid := 5 } = none ∧
    (sCred (cred1 true 0) [] [frame1] [] 0 1).chip.credMark frame1 ≠ none := by decide +kernel

/-- A complete block with a store to a page of another package, and an instance whose block lies there. -/
def farPart : Part := { rootPart with regs := (0x020, BitVec.ofNat 64 (2 ^ 63 + 2 ^ 9)) :: rootPart.regs }
def farMem : Mem := ({ cells := tables } : Mem).write 0x13048 8 0x80000000000F
def sFar (i : Inst) : State := { sComp 0 with chip := { (sComp 0).chip with insts := [i], parts := [farPart], mem := farMem } }
theorem witness_LinksAndSensorsWork_far :
    ((sFar (iComp 0x9010)).chip.accessPlace (iComp 0x9010) (fComp 0x9010) { lsid := 0, idx := 0, ops := [num 0x9010, num 7] }).map (·.home) = some .remote ∧
    (sFar (iComp 0x9010)).chip.inst? 1 = some (iComp 0x9010) ∧ (iComp 0x9010).state = .complete ∧
    ((sFar (iWant 0x9000)).chip.resolve (iWant 0x9000).actor .fetch false 0x9000 4).1.toOption.map (·.home) = some .remote ∧
    mappedBlock (sFar (iWant 0x9000)).chip (iWant 0x9000) = none ∧ (iWant 0x9000).holds = [] ∧ (sIn []).chip.hasPart 1 = true ∧
    (sIn []).chip.hasPart 9 = false := by decide +kernel

end Sys2Proof.Tests
end

section
/-! When an instruction may fire: `Inst.canFire` read off part by part, its class, its predicate, its data slots and the register that a
`READ` names. -/

namespace Sys2Proof.Machine

/-- R117. Opcode 0 alone has class `nop`. -/
theorem classOf_eq_nop_iff (w : Nat) : classOf w = .nop ↔ opOf w = 0 := by
  refine ⟨fun h => ?_, fun h => by simp [classOf, h]⟩
  by_contra h0
  simp only [classOf, if_neg h0] at h
  split_ifs at h

/-- R105. A predicate token is true when its bit 0 is set. -/
theorem toNat_mod_two_eq_one_iff (v : Word) : v.toNat % 2 = 1 ↔ v.getLsbD 0 = true := by
  simp [BitVec.getLsbD]

theorem toNat_mod_two_eq_zero_iff (v : Word) : v.toNat % 2 = 0 ↔ v.getLsbD 0 = false := by
  simp [BitVec.getLsbD]

/-- R101, R105, R107. A token matches PM when it is not null and its bit 0 has the value that PM names. -/
theorem pmMatches_iff (pm : Nat) (t : Tok) :
    pmMatches pm t = true ↔ ∃ v x, t = .val v x ∧ if pm = 1 then v.getLsbD 0 = true else v.getLsbD 0 = false := by
  cases t with
  | null => simp [pmMatches]
  | val v x =>
    by_cases h : pm = 1
    · simp [pmMatches, h, toNat_mod_two_eq_one_iff, and_assoc]
    · simp [pmMatches, h, toNat_mod_two_eq_zero_iff, and_assoc]

/-- R101, R105, R107. The predicate allows firing when PM asks for none, or when slot p holds a value whose bit 0 is as PM names. -/
theorem predOk_iff (w : Nat) (c : Cell) :
    predOk w c = true ↔
      pmOf w = 0 ∨ ∃ v x, c.p = some (.val v x) ∧ if pmOf w = 1 then v.getLsbD 0 = true else v.getLsbD 0 = false := by
  unfold predOk
  cases c.p with
  | none => simp
  | some t => simp [pmMatches_iff]

/-- One data slot, the one of index `m`: filled, if the instruction has it. -/
theorem slotFilled_iff (n m : Nat) (o : Option Tok) : (decide (n < m + 1) || o.isSome) = true ↔ (m < n → o ≠ none) := by
  rw [Bool.or_eq_true, decide_eq_true_eq, Option.isSome_iff_ne_none, Nat.lt_succ_iff, ← not_lt, imp_iff_not_or]

/-- The data slots that an instruction has hold tokens. -/
theorem dataFull_iff (n : Nat) (c : Cell) :
    dataFull n c = true ↔ (0 < n → c.a ≠ none) ∧ (1 < n → c.b ≠ none) ∧ (2 < n → c.c ≠ none) := by
  simp only [dataFull, Bool.and_eq_true, slotFilled_iff, and_assoc]

/-- R104. Readiness as five conditions. -/
theorem Frame.ready_iff (f : Frame) (k : Nat) :
    f.ready k = true ↔
      k < f.words.length ∧ (f.cell k).fired = false ∧ classOf (f.word k) ≠ .nop ∧
        predOk (f.word k) (f.cell k) = true ∧ dataFull (slotCount (f.word k)) (f.cell k) = true := by
  simp [Frame.ready, and_assoc]

theorem bits_lt (w lo n : Nat) : bits w lo n < 2 ^ n := Nat.mod_lt _ (Nat.two_pow_pos n)

theorem regs_getD_eq_get (r : Vector Reg 32) {g : Nat} (hg : g < 32) : r.toList.getD g {} = r.get ⟨g, hg⟩ := by
  simp [Vector.get, List.getD_eq_getElem?_getD, hg]

/-- R112. A ready instruction may fire unless it is a `READ` of a pending register. -/
theorem Inst.canFire_iff (i : Inst) (f : Frame) (k : Nat) :
    i.canFire f k = true ↔
      f.ready k = true ∧ (opOf (f.word k) = 1 → (i.regs.get ⟨bits (f.word k) 18 5, bits_lt _ 18 5⟩).pend = false) := by
  unfold Inst.canFire
  rw [regs_getD_eq_get i.regs (bits_lt _ 18 5)]
  simp [imp_iff_not_or]

end Sys2Proof.Machine

namespace Sys2Proof.Proofs
open Sys2Proof.Machine

/-- Settles O7: it holds, as the parts of `Inst.canFire` say one by one. -/
theorem instructionsFireWhenReady : Obligations.InstructionsFireWhenReady := by
  unfold Obligations.InstructionsFireWhenReady
  intro i f k
  rw [Inst.canFire_iff, Frame.ready_iff, predOk_iff, dataFull_iff, Ne, classOf_eq_nop_iff]
  simp only [and_assoc]

end Sys2Proof.Proofs
end

section
/-! The operations of `IntOps` in the arithmetic of bit vectors: each is the value of the vector operation that its rule names, on the low `n`
bits of its operands. -/

namespace Sys2Proof.Machine

/-! ### Reading numbers as bit vectors (R220, R221) -/

theorem low_eq_toNat (n a : Nat) : low n a = (BitVec.ofNat n a).toNat := (BitVec.toNat_ofNat a n).symm

theorem low_lt (n a : Nat) : low n a < 2 ^ n := Nat.mod_lt _ (Nat.two_pow_pos n)

theorem wrap_eq_toNat (v : Int) (n : Nat) : wrap v n = (BitVec.ofInt n v).toNat := by
  rw [BitVec.toNat_ofInt, wrap]
  push_cast
  rfl

theorem two_mul_lt_two_pow_iff {n m : Nat} (h : m < 2 ^ n) : 2 * m < 2 ^ n ↔ m < 2 ^ (n - 1) := by
  cases n with
  | zero => simp only [Nat.pow_zero, Nat.zero_sub] at h ⊢; omega
  | succ n => rw [Nat.add_sub_cancel, Nat.pow_succ]; omega

theorem sgn_eq_toInt (a n : Nat) : sgn a n = (BitVec.ofNat n a).toInt := by
  have h := two_mul_lt_two_pow_iff (Nat.mod_lt a (Nat.two_pow_pos n))
  rw [BitVec.toInt_eq_toNat_cond, BitVec.toNat_ofNat]
  simp only [h, sgn, ← Nat.not_lt, ite_not]
  push_cast
  rfl

/-- I of R221. -/
theorem ofNat_immOf (imm : BitVec 9) (n : Nat) : BitVec.ofNat n (immOf imm n) = imm.signExtend n := by
  rw [immOf, wrap_eq_toNat, BitVec.ofNat_toNat, BitVec.setWidth_eq]
  rfl

/-! ### Facts of bit vectors -/

theorem ofInt_toNat_sub {n : Nat} (x y : BitVec n) : BitVec.ofInt n ((x.toNat : Int) - y.toNat) = x - y := by
  rw [Int.sub_eq_add_neg, BitVec.ofInt_add, BitVec.ofInt_neg, BitVec.ofInt_natCast, BitVec.ofInt_natCast, BitVec.ofNat_toNat,
    BitVec.ofNat_toNat, BitVec.setWidth_eq, BitVec.setWidth_eq, BitVec.sub_eq_add_neg]

/-- The bits from `n` upward of an integer of `2n` bits are those of its floor by `2^n`. -/
theorem extractLsb'_ofInt (n : Nat) (v : Int) : (BitVec.ofInt (2 * n) v).extractLsb' n n = BitVec.ofInt n (v / 2 ^ n) := by
  apply BitVec.eq_of_toNat_eq
  have hp : (0 : Int) < 2 ^ n := by positivity
  have hsq : ((2 ^ (2 * n) : Nat) : Int) = 2 ^ n * 2 ^ n := by push_cast; ring
  have hv : v % (2 ^ n * 2 ^ n) = v + 2 ^ n * (-(2 ^ n * (v / (2 ^ n * 2 ^ n)))) := by
    rw [Int.emod_def]; ring
  zify
  rw [BitVec.extractLsb'_toNat, Nat.shiftRight_eq_div_pow]
  push_cast
  rw [BitVec.toNat_ofInt, BitVec.toNat_ofInt, hsq, Int.toNat_of_nonneg (Int.emod_nonneg _ (by positivity)),
    Int.toNat_of_nonneg (Int.emod_nonneg _ (by positivity)), hv, Int.add_mul_ediv_left _ _ hp.ne', ← mul_neg]
  push_cast
  rw [Int.add_mul_emod_self_left]

theorem ofInt_tdiv {n : Nat} (x y : BitVec n) : BitVec.ofInt n (x.toInt.tdiv y.toInt) = x.sdiv y := by
  apply BitVec.eq_of_toInt_eq
  rw [BitVec.toInt_ofInt, BitVec.toInt_sdiv]

theorem ofInt_tmod {n : Nat} (x y : BitVec n) : BitVec.ofInt n (x.toInt.tmod y.toInt) = x.srem y := by
  rw [← BitVec.toInt_srem, BitVec.ofInt_toInt]

/-- The two parts of a rotation by `j` lie beside each other: the low `n - j` bits moved up, the high `j` bits moved down. -/
theorem rotate_parts {n j x : Nat} (hj : j ≤ n) (hx : x < 2 ^ n) :
    x * 2 ^ j % 2 ^ n + x / 2 ^ (n - j) = x <<< j % 2 ^ n ||| x >>> (n - j) := by
  have hn : 2 ^ n = 2 ^ (n - j) * 2 ^ j := by rw [← Nat.pow_add, Nat.sub_add_cancel hj]
  have hlow : x / 2 ^ (n - j) < 2 ^ j := Nat.div_lt_of_lt_mul (hn ▸ hx)
  rw [Nat.shiftLeft_eq, Nat.shiftRight_eq_div_pow, hn, Nat.mul_mod_mul_right, ← Nat.shiftLeft_eq,
    Nat.shiftLeft_add_eq_or_of_lt hlow]

/-! ### Runs of zero bits, the highest one bit, bytes -/

theorem zeroRun_succ (n : Nat) (f : Nat → Bool) :
    Claims.zeroRun (n + 1) f = if f 0 then 0 else Claims.zeroRun n (fun k => f (k + 1)) + 1 := by
  unfold Claims.zeroRun
  rw [List.range_succ_eq_map, List.takeWhile_cons, List.takeWhile_map]
  cases f 0 <;> simp [Function.comp_def]

/-- The run of zeros is known from the place where it ends. -/
theorem zeroRun_eq {n m : Nat} {f : Nat → Bool} (hm : m ≤ n) (hlow : ∀ k < m, f k = false) (hend : m < n → f m = true) :
    Claims.zeroRun n f = m := by
  induction m generalizing n f with
  | zero =>
    cases n with
    | zero => rfl
    | succ n => rw [zeroRun_succ, if_pos (hend n.succ_pos)]
  | succ m ih =>
    obtain ⟨n, rfl⟩ := Nat.exists_eq_succ_of_ne_zero (Nat.ne_zero_of_lt hm)
    rw [zeroRun_succ, hlow 0 m.succ_pos, if_neg Bool.false_ne_true,
      ih (Nat.le_of_succ_le_succ hm) (fun k hk => hlow (k + 1) (Nat.succ_lt_succ hk)) fun h => hend (Nat.succ_lt_succ h)]

theorem bitLen_le {n x : Nat} (h : x < 2 ^ n) : bitLen x ≤ n := by
  unfold bitLen
  split
  next => exact Nat.zero_le n
  next hx => exact (Nat.log2_lt hx).mpr h

theorem testBit_of_bitLen_le {x k : Nat} (h : bitLen x ≤ k) : x.testBit k = false := by
  unfold bitLen at h
  split at h
  next hx => rw [hx, Nat.zero_testBit]
  next hx => exact Nat.testBit_lt_two_pow ((Nat.log2_lt hx).mp h)

theorem testBit_bitLen_sub_one {x : Nat} (h : 0 < bitLen x) : x.testBit (bitLen x - 1) = true := by
  unfold bitLen at h ⊢
  split at h
  next => cases h
  next hx => rw [if_neg hx]; exact Nat.testBit_log2 hx

theorem leNat_append (l m : List Byte) : leNat (l ++ m) = leNat l + 256 ^ l.length * leNat m := by
  induction l with
  | nil => simp [leNat]
  | cons b t ih => rw [List.cons_append, leNat, leNat, ih, List.length_cons]; ring

theorem leNat_lt (l : List Byte) : leNat l < 256 ^ l.length := by
  induction l with
  | nil => exact Nat.one_pos
  | cons b t ih =>
    have hb := b.isLt
    rw [leNat, List.length_cons, Nat.pow_succ]
    omega

/-! ### R225 -/

section
variable (n a b c : Nat)

theorem iAdd_eq_toNat : iAdd n a b = (BitVec.ofNat n a + BitVec.ofNat n b).toNat := by
  rw [iAdd, low_eq_toNat, low_eq_toNat, BitVec.toNat_add]

theorem iSub_eq_toNat : iSub n a b = (BitVec.ofNat n a - BitVec.ofNat n b).toNat := by
  rw [iSub, low_eq_toNat, low_eq_toNat, wrap_eq_toNat, ofInt_toNat_sub]

theorem iMul_eq_toNat : iMul n a b = (BitVec.ofNat n a * BitVec.ofNat n b).toNat := by
  rw [iMul, low_eq_toNat, low_eq_toNat, BitVec.toNat_mul]

theorem iMadd_eq_toNat : iMadd n a b c = (BitVec.ofNat n a * BitVec.ofNat n b + BitVec.ofNat n c).toNat := by
  rw [iMadd, low_eq_toNat, low_eq_toNat, low_eq_toNat, BitVec.toNat_add, BitVec.toNat_mul, Nat.mod_add_mod]

theorem iMulh_eq_toNat : iMulh n a b =
    (((BitVec.ofNat n a).signExtend (2 * n) * (BitVec.ofNat n b).signExtend (2 * n)).extractLsb' n n).toNat := by
  rw [iMulh, sgn_eq_toInt, sgn_eq_toInt, wrap_eq_toNat, Int.fdiv_eq_ediv_of_nonneg _ (by positivity), ← extractLsb'_ofInt,
    BitVec.ofInt_mul]
  rfl

theorem iMulhn_eq_toNat : iMulhn n a b =
    (((BitVec.ofNat n a).setWidth (2 * n) * (BitVec.ofNat n b).setWidth (2 * n)).extractLsb' n n).toNat := by
  have hsq : 2 ^ (2 * n) = 2 ^ n * 2 ^ n := by rw [Nat.two_mul, Nat.pow_add]
  have hx : ∀ x, low n x < 2 ^ n * 2 ^ n := fun x => (low_lt n x).trans_le (Nat.le_mul_of_pos_right _ (Nat.two_pow_pos n))
  have hp : low n a * low n b < 2 ^ n * 2 ^ n := Nat.mul_lt_mul'' (low_lt n a) (low_lt n b)
  rw [BitVec.extractLsb'_toNat, BitVec.toNat_mul, BitVec.toNat_setWidth, BitVec.toNat_setWidth, ← low_eq_toNat, ← low_eq_toNat, hsq,
    Nat.mod_eq_of_lt (hx a), Nat.mod_eq_of_lt (hx b), Nat.shiftRight_eq_div_pow, Nat.mod_eq_of_lt hp,
    Nat.mod_eq_of_lt (Nat.div_lt_of_lt_mul hp), iMulhn]

theorem iNeg_eq_toNat : iNeg n a = (-BitVec.ofNat n a).toNat := by
  rw [iNeg, low_eq_toNat, wrap_eq_toNat, BitVec.ofInt_neg, BitVec.ofInt_natCast, BitVec.ofNat_toNat, BitVec.setWidth_eq]

theorem iAbs_eq_toNat : iAbs n a = (if (BitVec.ofNat n a).msb then -BitVec.ofNat n a else BitVec.ofNat n a).toNat := by
  rw [iAbs, sgn_eq_toInt, BitVec.toInt_eq_msb_cond]
  have hlt := (BitVec.ofNat n a).isLt
  split
  · rw [BitVec.toNat_neg]
    congr 1
    omega
  · rw [Int.natAbs_natCast, Nat.mod_eq_of_lt hlt]

theorem iMin_eq_toNat : iMin n a b =
    (if (BitVec.ofNat n a).sle (BitVec.ofNat n b) then BitVec.ofNat n a else BitVec.ofNat n b).toNat := by
  rw [iMin, sgn_eq_toInt, sgn_eq_toInt, low_eq_toNat, low_eq_toNat, apply_ite BitVec.toNat]
  simp only [BitVec.sle_iff_toInt_le]

theorem iMax_eq_toNat : iMax n a b =
    (if (BitVec.ofNat n b).sle (BitVec.ofNat n a) then BitVec.ofNat n a else BitVec.ofNat n b).toNat := by
  rw [iMax, sgn_eq_toInt, sgn_eq_toInt, low_eq_toNat, low_eq_toNat, apply_ite BitVec.toNat]
  simp only [BitVec.sle_iff_toInt_le]

theorem iMinn_eq_toNat : iMinn n a b =
    (if (BitVec.ofNat n a).ule (BitVec.ofNat n b) then BitVec.ofNat n a else BitVec.ofNat n b).toNat := by
  rw [iMinn, low_eq_toNat, low_eq_toNat, apply_ite BitVec.toNat]
  simp only [BitVec.ule_iff_toNat_le]

theorem iMaxn_eq_toNat : iMaxn n a b =
    (if (BitVec.ofNat n b).ule (BitVec.ofNat n a) then BitVec.ofNat n a else BitVec.ofNat n b).toNat := by
  rw [iMaxn, low_eq_toNat, low_eq_toNat, apply_ite BitVec.toNat]
  simp only [BitVec.ule_iff_toNat_le]

theorem clampInt_eq_max {v lo hi : Int} (h : lo ≤ hi) : clampInt v lo hi = max lo (min v hi) := by
  unfold clampInt
  split_ifs <;> omega

/-- Saturation of R225. -/
theorem wrap_clampInt (v : Int) : wrap (clampInt v (-2 ^ (n - 1)) (2 ^ (n - 1) - 1)) n = (Claims.saturate n v).toNat := by
  have hp : (0 : Int) < 2 ^ (n - 1) := by positivity
  rw [wrap_eq_toNat, clampInt_eq_max (by omega)]
  rfl

theorem iAddsat_eq_toNat : iAddsat n a b = (Claims.saturate n ((BitVec.ofNat n a).toInt + (BitVec.ofNat n b).toInt)).toNat := by
  rw [iAddsat, sgn_eq_toInt, sgn_eq_toInt, wrap_clampInt]

theorem iSubsat_eq_toNat : iSubsat n a b = (Claims.saturate n ((BitVec.ofNat n a).toInt - (BitVec.ofNat n b).toInt)).toNat := by
  rw [iSubsat, sgn_eq_toInt, sgn_eq_toInt, wrap_clampInt]

/-! ### R226 -/

theorem low_eq_zero_iff : low n a = 0 ↔ BitVec.ofNat n a = 0 := by
  rw [low_eq_toNat, BitVec.toNat_eq]
  simp

theorem iDiv_eq_toNat : iDiv n a b =
    (if BitVec.ofNat n b = 0 then BitVec.allOnes n else (BitVec.ofNat n a).sdiv (BitVec.ofNat n b)).toNat := by
  rw [iDiv, sgn_eq_toInt, sgn_eq_toInt, wrap_eq_toNat, ofInt_tdiv, ← BitVec.toNat_allOnes, apply_ite BitVec.toNat]
  simp only [low_eq_zero_iff]

theorem iDivn_eq_toNat : iDivn n a b =
    (if BitVec.ofNat n b = 0 then BitVec.allOnes n else (BitVec.ofNat n a).udiv (BitVec.ofNat n b)).toNat := by
  rw [apply_ite BitVec.toNat, BitVec.toNat_allOnes, BitVec.udiv_eq, BitVec.toNat_udiv, ← low_eq_toNat, ← low_eq_toNat, iDivn]
  simp only [low_eq_zero_iff]

theorem iRem_eq_toNat : iRem n a b =
    (if BitVec.ofNat n b = 0 then BitVec.ofNat n a else (BitVec.ofNat n a).srem (BitVec.ofNat n b)).toNat := by
  rw [iRem, sgn_eq_toInt, sgn_eq_toInt, wrap_eq_toNat, ofInt_tmod, low_eq_toNat n a, apply_ite BitVec.toNat]
  simp only [low_eq_zero_iff]

theorem iRemn_eq_toNat : iRemn n a b =
    (if BitVec.ofNat n b = 0 then BitVec.ofNat n a else (BitVec.ofNat n a).umod (BitVec.ofNat n b)).toNat := by
  rw [apply_ite BitVec.toNat, BitVec.umod_eq, BitVec.toNat_umod, ← low_eq_toNat, ← low_eq_toNat, iRemn]
  simp only [low_eq_zero_iff]

/-! ### R227 -/

theorem iAnd_eq_toNat : iAnd n a b = (BitVec.ofNat n a &&& BitVec.ofNat n b).toNat := by
  rw [iAnd, low_eq_toNat, low_eq_toNat, BitVec.toNat_and]

theorem iOr_eq_toNat : iOr n a b = (BitVec.ofNat n a ||| BitVec.ofNat n b).toNat := by
  rw [iOr, low_eq_toNat, low_eq_toNat, BitVec.toNat_or]

theorem iXor_eq_toNat : iXor n a b = (BitVec.ofNat n a ^^^ BitVec.ofNat n b).toNat := by
  rw [iXor, low_eq_toNat, low_eq_toNat, BitVec.toNat_xor]

theorem iNot_eq_toNat : iNot n a = (~~~BitVec.ofNat n a).toNat := by
  rw [iNot, low_eq_toNat, BitVec.toNat_not]

theorem iAndn_eq_toNat : iAndn n a b = (BitVec.ofNat n a &&& ~~~BitVec.ofNat n b).toNat := by
  rw [iAndn, low_eq_toNat, iNot_eq_toNat, BitVec.toNat_and]

theorem iShl_eq_toNat (k : Nat) : iShl n a k = (if n ≤ k then 0 else BitVec.ofNat n a <<< k).toNat := by
  rw [apply_ite BitVec.toNat, BitVec.toNat_shiftLeft, Nat.shiftLeft_eq, ← low_eq_toNat]
  rfl

theorem iShr_eq_toNat (k : Nat) : iShr n a k = (if n ≤ k then 0 else BitVec.ofNat n a >>> k).toNat := by
  rw [apply_ite BitVec.toNat, BitVec.toNat_ushiftRight, Nat.shiftRight_eq_div_pow, ← low_eq_toNat]
  rfl

theorem iSar_eq_toNat (k : Nat) : iSar n a k = ((BitVec.ofNat n a).sshiftRight (min k (n - 1))).toNat := by
  rw [iSar, sgn_eq_toInt, wrap_eq_toNat, Int.fdiv_eq_ediv_of_nonneg _ (by positivity), BitVec.sshiftRight, Int.shiftRight_eq_div_pow]
  push_cast
  rfl

theorem iRol_eq_toNat {n : Nat} (hn : 0 < n) (k : Nat) : iRol n a k = ((BitVec.ofNat n a).rotateLeft k).toNat := by
  rw [iRol, low_eq_toNat, BitVec.toNat_rotateLeft, rotate_parts (Nat.mod_lt k hn).le (BitVec.isLt _)]

theorem iRor_eq_toNat {n : Nat} (hn : 0 < n) (k : Nat) : iRor n a k = ((BitVec.ofNat n a).rotateRight k).toNat := by
  have h := rotate_parts (Nat.sub_le n (k % n)) (BitVec.ofNat n a).isLt
  rw [Nat.sub_sub_self (Nat.mod_lt k hn).le] at h
  rw [iRor, low_eq_toNat, BitVec.toNat_rotateRight, Nat.add_comm, h, Nat.or_comm]

/-! ### R228 to R231, R234 -/

theorem ofNat_iLea (sc : Scale) (x y : Word) : BitVec.ofNat 64 (iLea sc x.toNat y.toNat) = x + y <<< sc.code := by
  apply BitVec.eq_of_toNat_eq
  rw [iLea, BitVec.toNat_ofNat, BitVec.toNat_add, BitVec.toNat_shiftLeft, Nat.shiftLeft_eq, Nat.mod_mod, Nat.add_mod_mod]

theorem ofNat_iSext (x : Word) : BitVec.ofNat 64 (iSext n x.toNat) = (x.setWidth n).signExtend 64 := by
  rw [iSext, sgn_eq_toInt, wrap_eq_toNat, BitVec.ofNat_toNat, BitVec.setWidth_eq, BitVec.ofNat_toNat]
  rfl

theorem ofNat_iSel (x y z : Word) : BitVec.ofNat 64 (iSel x.toNat y.toNat z.toNat) = if z.getLsbD 0 then x else y := by
  rw [iSel, apply_ite (BitVec.ofNat 64), BitVec.ofNat_toNat, BitVec.ofNat_toNat, BitVec.setWidth_eq, BitVec.setWidth_eq]
  simp only [toNat_mod_two_eq_one_iff]

theorem low_beq_low : (low n a == low n b) = (BitVec.ofNat n a == BitVec.ofNat n b) := by
  rw [low_eq_toNat, low_eq_toNat, Bool.eq_iff_iff, beq_iff_eq, beq_iff_eq, BitVec.toNat_inj]

theorem iTeq_eq_b2n : iTeq n a b = b2n (BitVec.ofNat n a == BitVec.ofNat n b) := by
  rw [iTeq, low_beq_low]

theorem iTne_eq_b2n : iTne n a b = b2n (BitVec.ofNat n a != BitVec.ofNat n b) := by
  rw [iTne, bne, low_beq_low]
  rfl

theorem iTlt_eq_b2n : iTlt n a b = b2n ((BitVec.ofNat n a).slt (BitVec.ofNat n b)) := by
  rw [iTlt, sgn_eq_toInt, sgn_eq_toInt, BitVec.slt_eq_decide]

theorem iTle_eq_b2n : iTle n a b = b2n ((BitVec.ofNat n a).sle (BitVec.ofNat n b)) := by
  rw [iTle, sgn_eq_toInt, sgn_eq_toInt, BitVec.sle_eq_decide]

theorem iTltn_eq_b2n : iTltn n a b = b2n ((BitVec.ofNat n a).ult (BitVec.ofNat n b)) := by
  rw [iTltn, low_eq_toNat, low_eq_toNat, BitVec.ult_eq_decide]

theorem iTlen_eq_b2n : iTlen n a b = b2n ((BitVec.ofNat n a).ule (BitVec.ofNat n b)) := by
  rw [iTlen, low_eq_toNat, low_eq_toNat, BitVec.ule_eq_decide]

theorem iBitt_eq_b2n (k : Nat) : iBitt n a k = b2n ((BitVec.ofNat n a).getLsbD k) := by
  unfold iBitt
  split
  next h => rw [BitVec.getLsbD_of_ge _ _ h]; rfl
  next h =>
    rw [low_eq_toNat, ← Nat.shiftRight_eq_div_pow, BitVec.getLsbD, Nat.testBit, Nat.and_comm, Nat.and_one_is_mod]
    rcases Nat.mod_two_eq_zero_or_one ((BitVec.ofNat n a).toNat >>> k) with hb | hb <;> rw [hb] <;> rfl

/-! ### R232 -/

theorem iClz_eq_zeroRun : iClz n a = Claims.zeroRun n (BitVec.ofNat n a).getMsbD := by
  have hle : bitLen (low n a) ≤ n := bitLen_le (low_lt n a)
  have hbit : ∀ k < n, (BitVec.ofNat n a).getMsbD k = (low n a).testBit (n - 1 - k) := fun k hk => by
    rw [BitVec.getMsbD, BitVec.getLsbD, decide_eq_true hk, Bool.true_and, ← low_eq_toNat]
  refine (zeroRun_eq (Nat.sub_le _ _) (fun k hk => ?_) fun hk => ?_).symm
  · rw [hbit k (by omega)]
    exact testBit_of_bitLen_le (by omega)
  · rw [hbit _ hk, show n - 1 - (n - bitLen (low n a)) = bitLen (low n a) - 1 by omega]
    exact testBit_bitLen_sub_one (by omega)

theorem trailZeros_eq_zeroRun (x : Nat) : trailZeros n x = Claims.zeroRun n x.testBit := by
  induction n generalizing x with
  | zero => rfl
  | succ n ih =>
    rw [zeroRun_succ, trailZeros, ih, Nat.testBit_zero, Nat.add_comm]
    simp only [Nat.testBit_succ, decide_eq_true_eq]

theorem iCtz_eq_zeroRun : iCtz n a = Claims.zeroRun n (BitVec.ofNat n a).getLsbD := by
  rw [iCtz, trailZeros_eq_zeroRun, low_eq_toNat]
  rfl

theorem popCount_eq_length (x : Nat) : popCount n x = ((List.range n).filter x.testBit).length := by
  induction n generalizing x with
  | zero => rfl
  | succ n ih =>
    have hs : (x.testBit ∘ Nat.succ) = (x / 2).testBit := funext fun k => Nat.testBit_succ x k
    rw [List.range_succ_eq_map, List.filter_cons, List.filter_map, hs, popCount, ih, Nat.testBit_zero]
    rcases Nat.mod_two_eq_zero_or_one x with h | h <;> simp [h, Nat.add_comm]

theorem iPopc_eq_length : iPopc n a = ((List.range n).filter (BitVec.ofNat n a).getLsbD).length := by
  rw [iPopc, popCount_eq_length, low_eq_toNat]
  rfl

theorem bitReverse_lt (x : Nat) : bitReverse n x < 2 ^ n := by
  induction n generalizing x with
  | zero => exact Nat.one_pos
  | succ n ih =>
    have h := ih (x / 2)
    rw [bitReverse, Nat.pow_succ]
    rcases Nat.mod_two_eq_zero_or_one x with hb | hb <;> rw [hb] <;> omega

theorem testBit_bitReverse (x k : Nat) : (bitReverse n x).testBit k = (decide (k < n) && x.testBit (n - 1 - k)) := by
  induction n generalizing x with
  | zero => simp [bitReverse]
  | succ n ih =>
    rw [bitReverse, Nat.mul_comm, Nat.testBit_two_pow_mul_add _ (bitReverse_lt n _), ih]
    rcases Nat.lt_trichotomy k n with h | rfl | h
    · rw [if_pos h, ← Nat.testBit_succ, show (n - 1 - k).succ = n + 1 - 1 - k by omega]
      simp [h, Nat.lt_succ_of_lt h]
    · simp [Nat.testBit_zero]
    · have h1 : k - n ≠ 0 := by omega
      have h2 : ¬ k < n + 1 := by omega
      have h3 : x % 2 < 2 ^ (k - n) := (Nat.mod_lt x two_pos).trans_le (Nat.le_self_pow h1 2)
      rw [if_neg h.not_gt, Nat.testBit_lt_two_pow h3, decide_eq_false h2, Bool.false_and]

theorem iBrev_eq_toNat : iBrev n a = (BitVec.ofNat n a).reverse.toNat := by
  refine Nat.eq_of_testBit_eq fun k => ?_
  rw [iBrev, testBit_bitReverse, low_eq_toNat, BitVec.testBit_toNat, BitVec.testBit_toNat, BitVec.getLsbD_reverse, BitVec.getMsbD]

theorem byteReverse_eq_leNat (m x : Nat) : byteReverse m x = leNat (leBytes m x).reverse := by
  induction m generalizing x with
  | zero => rfl
  | succ m ih =>
    rw [byteReverse, leBytes, List.reverse_cons, leNat_append, List.length_reverse, leBytes_length, ih, leNat, leNat,
      BitVec.toNat_ofNat]
    ring

theorem iBswap_eq_toNat {n : Nat} (hn : 8 ∣ n) :
    iBswap n a = (BitVec.ofNat n (leNat (leBytes (n / 8) (BitVec.ofNat n a).toNat).reverse)).toNat := by
  obtain ⟨m, rfl⟩ := hn
  have h := leNat_lt (leBytes m (BitVec.ofNat (8 * m) a).toNat).reverse
  rw [List.length_reverse, leBytes_length, show 256 = 2 ^ 8 from rfl, ← Nat.pow_mul] at h
  rw [iBswap, byteReverse_eq_leNat, low_eq_toNat, Nat.mul_div_cancel_left m (by decide), BitVec.toNat_ofNat (leNat _), Nat.mod_eq_of_lt h]

/-! ### R233 -/

theorem bits_eq_extractLsb' (x : Word) (lo m : Nat) : bits x.toNat lo m = (x.extractLsb' lo m).toNat := by
  rw [BitVec.extractLsb'_toNat, Nat.shiftRight_eq_div_pow, bits]

theorem bits_eq_pos (fw : Word) : bits fw.toNat 0 6 = Claims.pos fw := bits_eq_extractLsb' fw 0 6

theorem bits_eq_len (fw : Word) : bits fw.toNat 8 7 = Claims.len fw := bits_eq_extractLsb' fw 8 7

/-- A field that starts at or beyond bit `n` is empty, as its cut length says. -/
theorem fieldLen_eq_min (fw : Word) : fieldLen n fw.toNat = min (Claims.len fw) (n - Claims.pos fw) := by
  rw [fieldLen, bits_eq_pos, bits_eq_len]
  split_ifs <;> omega

theorem getLsbD_ones (l k : Nat) : (Claims.ones n l).getLsbD k = (decide (k < n) && decide (k < l)) := by
  rw [Claims.ones, BitVec.getLsbD_ofNat, Nat.testBit_two_pow_sub_one]

theorem fieldOf_eq (fw : Word) : fieldOf n a fw.toNat = ((BitVec.ofNat n a >>> Claims.pos fw).setWidth (fieldLen n fw.toNat)).toNat := by
  rw [fieldOf, bits_eq_pos, BitVec.toNat_setWidth, BitVec.toNat_ushiftRight, ← low_eq_toNat, Nat.shiftRight_eq_div_pow]

theorem iBfx_eq_toNat (fw : Word) :
    iBfx n a fw.toNat = ((BitVec.ofNat n a >>> Claims.pos fw) &&& Claims.ones n (Claims.len fw)).toNat := by
  refine Nat.eq_of_testBit_eq fun k => ?_
  rw [iBfx, fieldOf_eq, BitVec.testBit_toNat, BitVec.testBit_toNat, BitVec.getLsbD_setWidth, BitVec.getLsbD_and, getLsbD_ones,
    BitVec.getLsbD_ushiftRight, fieldLen_eq_min]
  by_cases h : Claims.pos fw + k < n
  · have hk : k < n - Claims.pos fw := by omega
    have hn : k < n := by omega
    simp [hk, hn, Bool.and_comm]
  · rw [BitVec.getLsbD_of_ge _ _ (Nat.not_lt.mp h), Bool.and_false, Bool.false_and]

theorem iBfxs_eq_toNat (fw : Word) : iBfxs n a fw.toNat =
    (((BitVec.ofNat n a >>> Claims.pos fw).setWidth (min (Claims.len fw) (n - Claims.pos fw))).signExtend n).toNat := by
  rw [← fieldLen_eq_min, iBfxs, sgn_eq_toInt, wrap_eq_toNat, fieldOf_eq, BitVec.ofNat_toNat, BitVec.setWidth_eq]
  split
  next h => rw [h, BitVec.eq_nil (BitVec.setWidth 0 _)]; simp [BitVec.signExtend]
  next => rfl

/-- `BFI` on numbers: the bits of `a` above the field, the low bits of `b` in it, the bits of `a` below it. -/
theorem iBfi_eq (fw : Word) : iBfi n a b fw.toNat =
    2 ^ Claims.pos fw * (2 ^ fieldLen n fw.toNat * (low n a / 2 ^ Claims.pos fw / 2 ^ fieldLen n fw.toNat) +
      low n b % 2 ^ fieldLen n fw.toNat) + low n a % 2 ^ Claims.pos fw := by
  rw [iBfi, fieldOf, bits_eq_pos]
  generalize fieldLen n fw.toNat = l, Claims.pos fw = p
  have ha := Nat.div_add_mod (low n a) (2 ^ p)
  split
  next h => rw [h, Nat.pow_zero, Nat.mod_one, Nat.div_one, Nat.one_mul, Nat.add_zero, ha]
  next =>
    have hq := congrArg (2 ^ p * ·) (Nat.div_add_mod (low n a / 2 ^ p) (2 ^ l))
    simp only [Nat.mul_add] at hq ⊢
    rw [Nat.mul_comm _ (2 ^ p), Nat.mul_comm _ (2 ^ p)]
    omega

theorem iBfi_eq_toNat (fw : Word) : iBfi n a b fw.toNat =
    ((BitVec.ofNat n a &&& ~~~(Claims.ones n (Claims.len fw) <<< Claims.pos fw)) |||
      ((BitVec.ofNat n b &&& Claims.ones n (Claims.len fw)) <<< Claims.pos fw)).toNat := by
  refine Nat.eq_of_testBit_eq fun k => ?_
  rw [iBfi_eq, Nat.testBit_two_pow_mul_add _ (Nat.mod_lt _ (Nat.two_pow_pos _)),
    Nat.testBit_two_pow_mul_add _ (Nat.mod_lt _ (Nat.two_pow_pos _)), Nat.testBit_mod_two_pow, Nat.testBit_mod_two_pow,
    Nat.testBit_div_two_pow, Nat.testBit_div_two_pow, low_eq_toNat, low_eq_toNat, fieldLen_eq_min]
  simp only [BitVec.testBit_toNat, BitVec.getLsbD_or, BitVec.getLsbD_and, BitVec.getLsbD_not, BitVec.getLsbD_shiftLeft, getLsbD_ones]
  generalize Claims.pos fw = p, Claims.len fw = l
  rcases Nat.lt_or_ge k p with hp | hp
  · simpa [hp] using BitVec.lt_of_getLsbD
  obtain ⟨j, rfl⟩ := Nat.exists_eq_add_of_le hp
  rw [if_neg hp.not_gt, Nat.add_sub_cancel_left]
  by_cases hj : j < min l (n - p)
  · have hl : j < l := by omega
    have hn : p + j < n := by omega
    have hjn : j < n := by omega
    simp [hj, hl, hn, hjn]
  · rw [if_neg hj, show j - min l (n - p) + min l (n - p) + p = p + j by omega]
    rcases Nat.lt_or_ge (p + j) n with hn | hn
    · have hl : ¬ j < l := by omega
      simp [hn, hl]
    · rw [BitVec.getLsbD_of_ge _ _ hn]; simp [hn.not_gt]

end

end Sys2Proof.Machine
end

section
/-! Every instruction of chapter 07 sends the value of the numeric operation that its meaning names, and that value is its rule's. -/

namespace Sys2Proof

theorem Width.bits_pos (w : Width) : 0 < w.bits := by cases w <;> decide

theorem Width.eight_dvd_bits (w : Width) : 8 ∣ w.bits := by cases w <;> decide

end Sys2Proof

namespace Sys2Proof.Proofs
open Sys2Proof.Machine

/-- The meaning of `ins` fires and sends to `ts` what `g` makes of its operands read as numbers (R220). -/
def SendsNat (ins : Instr) (ts : Claims.Targets) (g : Nat → Nat → Nat → Nat) : Prop :=
  ∀ s, exec ins s = onChip (fun c fo => c.fireNat fo ts g) s

/-- The meaning of `ins` is an operation on numbers whose value is `r`. -/
def MeansNat (ins : Instr) (ts : Claims.Targets) (r : Operands → Word) : Prop :=
  ∃ g, SendsNat ins ts g ∧ ∀ o : Operands, BitVec.ofNat 64 (g o.a.toNat o.b.toNat o.c.toNat) = r o

theorem ofNat_b2n (b : Bool) : BitVec.ofNat 64 (b2n b) = Claims.truth b := by cases b <;> rfl

section
variable {ins : Instr} {ts us : Claims.Targets} {r q : Operands → Word} {w : Width} {imm : BitVec 9} {t1 t0 : Option Target}
  {g : Nat → Nat → Nat → Nat}

theorem MeansNat.of_eq (h : some (us, q) = some (ts, r)) (hx : SendsNat ins us g)
    (hg : ∀ o : Operands, BitVec.ofNat 64 (g o.a.toNat o.b.toNat o.c.toNat) = q o) : MeansNat ins ts r := by
  cases h
  exact ⟨g, hx, hg⟩

theorem MeansNat.of_toNat {x : Operands → BitVec w.bits} (h : some (us, fun o => Claims.token (x o)) = some (ts, r))
    (hx : SendsNat ins us g)
    (hg : ∀ o : Operands, g o.a.toNat o.b.toNat o.c.toNat = (x o).toNat) : MeansNat ins ts r :=
  .of_eq h hx fun o => by rw [hg, BitVec.ofNat_toNat]; rfl

theorem MeansNat.of_b2n {p : Operands → Bool} (h : some (us, fun o => Claims.truth (p o)) = some (ts, r))
    (hx : SendsNat ins us g)
    (hg : ∀ o : Operands, g o.a.toNat o.b.toNat o.c.toNat = b2n (p o)) : MeansNat ins ts r :=
  .of_eq h hx fun o => by rw [hg, ofNat_b2n]

/-! The shapes of `integerResult`. An operand's low bits are those of its number. -/

theorem low_eq_ofNat (x : Word) : Claims.low w x = BitVec.ofNat w.bits x.toNat := (BitVec.ofNat_toNat _ x).symm

theorem unary_meansNat {F : Nat → Nat} {G : (n : Nat) → BitVec n → BitVec n} (h : Claims.unary w t1 t0 G = some (ts, r))
    (hx : SendsNat ins [t1, t0] fun a _ _ => F a)
    (hF : ∀ a, F a = (G w.bits (BitVec.ofNat w.bits a)).toNat) : MeansNat ins ts r :=
  .of_toNat h hx fun o => by rw [hF, low_eq_ofNat]

theorem binary_meansNat {F : Nat → Nat → Nat} {G : (n : Nat) → BitVec n → BitVec n → BitVec n}
    (h : Claims.binary w t1 t0 G = some (ts, r)) (hx : SendsNat ins [t1, t0] fun a b _ => F a b)
    (hF : ∀ a b, F a b = (G w.bits (BitVec.ofNat w.bits a) (BitVec.ofNat w.bits b)).toNat) : MeansNat ins ts r :=
  .of_toNat h hx fun o => by rw [hF, low_eq_ofNat, low_eq_ofNat]

theorem immediate_meansNat {F : Nat → Nat → Nat} {G : (n : Nat) → BitVec n → BitVec n → BitVec n}
    (h : Claims.immediate w imm t0 G = some (ts, r))
    (hx : SendsNat ins [t0] fun a _ _ => F a (immOf imm w.bits))
    (hF : ∀ a b, F a b = (G w.bits (BitVec.ofNat w.bits a) (BitVec.ofNat w.bits b)).toNat) : MeansNat ins ts r :=
  .of_toNat h hx fun o => by rw [hF, low_eq_ofNat, ofNat_immOf]; rfl

theorem shift_meansNat {F : Nat → Nat → Nat} {G : (n : Nat) → BitVec n → Nat → BitVec n}
    (h : Claims.shift w t1 t0 G = some (ts, r))
    (hx : SendsNat ins [t1, t0] fun a b _ => F a b)
    (hF : ∀ a k, F a k = (G w.bits (BitVec.ofNat w.bits a) k).toNat) : MeansNat ins ts r :=
  .of_toNat h hx fun o => by rw [hF, low_eq_ofNat]

theorem shiftImm_meansNat {F : Nat → Nat → Nat} {G : (n : Nat) → BitVec n → Nat → BitVec n}
    (h : Claims.shiftImm w imm t0 G = some (ts, r))
    (hx : SendsNat ins [t0] fun a _ _ => F a imm.toNat)
    (hF : ∀ a k, F a k = (G w.bits (BitVec.ofNat w.bits a) k).toNat) : MeansNat ins ts r :=
  .of_toNat h hx fun o => by rw [hF, low_eq_ofNat]

theorem compare_meansNat {F : Nat → Nat → Nat} {G : (n : Nat) → BitVec n → BitVec n → Bool}
    (h : Claims.compare w t1 t0 G = some (ts, r))
    (hx : SendsNat ins [t1, t0] fun a b _ => F a b)
    (hF : ∀ a b, F a b = b2n (G w.bits (BitVec.ofNat w.bits a) (BitVec.ofNat w.bits b))) : MeansNat ins ts r :=
  .of_b2n h hx fun o => by rw [hF, low_eq_ofNat, low_eq_ofNat]

theorem compareImm_meansNat {F : Nat → Nat → Nat} {G : (n : Nat) → BitVec n → BitVec n → Bool}
    (h : Claims.compareImm w imm t0 G = some (ts, r))
    (hx : SendsNat ins [t0] fun a _ _ => F a (immOf imm w.bits))
    (hF : ∀ a b, F a b = b2n (G w.bits (BitVec.ofNat w.bits a) (BitVec.ofNat w.bits b))) : MeansNat ins ts r :=
  .of_b2n h hx fun o => by rw [hF, low_eq_ofNat, ofNat_immOf]; rfl

theorem count_meansNat {F : Nat → Nat} {G : (n : Nat) → BitVec n → Nat} (h : Claims.count w t1 t0 G = some (ts, r))
    (hx : SendsNat ins [t1, t0] fun a _ _ => F a)
    (hF : ∀ a, F a = G w.bits (BitVec.ofNat w.bits a)) : MeansNat ins ts r :=
  .of_eq h hx fun o => by rw [hF, low_eq_ofNat]

/-- The results of chapter 07 are those of the meanings, instruction by instruction. -/
theorem integerResult_meansNat (h : Claims.integerResult ins = some (ts, r)) : MeansNat ins ts r := by
  cases ins with dsimp only [Claims.integerResult] at h
  | add w t1 t0 => exact binary_meansNat h (fun _ => rfl) (iAdd_eq_toNat w.bits)
  | addi w imm t0 => exact immediate_meansNat h (fun _ => rfl) (iAdd_eq_toNat w.bits)
  | sub w t1 t0 => exact binary_meansNat h (fun _ => rfl) (iSub_eq_toNat w.bits)
  | mul w t1 t0 => exact binary_meansNat h (fun _ => rfl) (iMul_eq_toNat w.bits)
  | muli w imm t0 => exact immediate_meansNat h (fun _ => rfl) (iMul_eq_toNat w.bits)
  | mulh w t1 t0 => exact binary_meansNat h (fun _ => rfl) (iMulh_eq_toNat w.bits)
  | mulhn w t1 t0 => exact binary_meansNat h (fun _ => rfl) (iMulhn_eq_toNat w.bits)
  | madd w t1 t0 => exact .of_toNat h (fun _ => rfl) fun o => by simp only [iMadd_eq_toNat, low_eq_ofNat]
  | div w t1 t0 => exact binary_meansNat h (fun _ => rfl) (iDiv_eq_toNat w.bits)
  | divn w t1 t0 => exact binary_meansNat h (fun _ => rfl) (iDivn_eq_toNat w.bits)
  | rem w t1 t0 => exact binary_meansNat h (fun _ => rfl) (iRem_eq_toNat w.bits)
  | remn w t1 t0 => exact binary_meansNat h (fun _ => rfl) (iRemn_eq_toNat w.bits)
  | neg w t1 t0 => exact unary_meansNat h (fun _ => rfl) (iNeg_eq_toNat w.bits)
  | abs w t1 t0 => exact unary_meansNat h (fun _ => rfl) (iAbs_eq_toNat w.bits)
  | min w t1 t0 => exact binary_meansNat h (fun _ => rfl) (iMin_eq_toNat w.bits)
  | max w t1 t0 => exact binary_meansNat h (fun _ => rfl) (iMax_eq_toNat w.bits)
  | minn w t1 t0 => exact binary_meansNat h (fun _ => rfl) (iMinn_eq_toNat w.bits)
  | maxn w t1 t0 => exact binary_meansNat h (fun _ => rfl) (iMaxn_eq_toNat w.bits)
  | addsat w t1 t0 => exact binary_meansNat h (fun _ => rfl) (iAddsat_eq_toNat w.bits)
  | subsat w t1 t0 => exact binary_meansNat h (fun _ => rfl) (iSubsat_eq_toNat w.bits)
  | and w t1 t0 => exact binary_meansNat h (fun _ => rfl) (iAnd_eq_toNat w.bits)
  | andi w imm t0 => exact immediate_meansNat h (fun _ => rfl) (iAnd_eq_toNat w.bits)
  | or w t1 t0 => exact binary_meansNat h (fun _ => rfl) (iOr_eq_toNat w.bits)
  | ori w imm t0 => exact immediate_meansNat h (fun _ => rfl) (iOr_eq_toNat w.bits)
  | xor w t1 t0 => exact binary_meansNat h (fun _ => rfl) (iXor_eq_toNat w.bits)
  | xori w imm t0 => exact immediate_meansNat h (fun _ => rfl) (iXor_eq_toNat w.bits)
  | andn w t1 t0 => exact binary_meansNat h (fun _ => rfl) (iAndn_eq_toNat w.bits)
  | not w t1 t0 => exact unary_meansNat h (fun _ => rfl) (iNot_eq_toNat w.bits)
  | shl w t1 t0 => exact shift_meansNat h (fun _ => rfl) (iShl_eq_toNat w.bits)
  | shli w imm t0 => exact shiftImm_meansNat h (fun _ => rfl) (iShl_eq_toNat w.bits)
  | shr w t1 t0 => exact shift_meansNat h (fun _ => rfl) (iShr_eq_toNat w.bits)
  | shri w imm t0 => exact shiftImm_meansNat h (fun _ => rfl) (iShr_eq_toNat w.bits)
  | sar w t1 t0 => exact shift_meansNat h (fun _ => rfl) (iSar_eq_toNat w.bits)
  | sari w imm t0 => exact shiftImm_meansNat h (fun _ => rfl) (iSar_eq_toNat w.bits)
  | rol w t1 t0 => exact shift_meansNat h (fun _ => rfl) fun a => iRol_eq_toNat a w.bits_pos
  | ror w t1 t0 => exact shift_meansNat h (fun _ => rfl) fun a => iRor_eq_toNat a w.bits_pos
  | lea sc t1 t0 => exact .of_eq h (fun _ => rfl) fun o => ofNat_iLea sc o.a o.b
  | sext w t1 t0 => exact .of_eq h (fun _ => rfl) fun o => ofNat_iSext w.bits o.a
  | zext w t1 t0 => exact .of_toNat h (fun _ => rfl) fun o => by simp only [low_eq_toNat, low_eq_ofNat]
  | teq w t1 t0 => exact compare_meansNat h (fun _ => rfl) (iTeq_eq_b2n w.bits)
  | tne w t1 t0 => exact compare_meansNat h (fun _ => rfl) (iTne_eq_b2n w.bits)
  | tlt w t1 t0 => exact compare_meansNat h (fun _ => rfl) (iTlt_eq_b2n w.bits)
  | tle w t1 t0 => exact compare_meansNat h (fun _ => rfl) (iTle_eq_b2n w.bits)
  | tltn w t1 t0 => exact compare_meansNat h (fun _ => rfl) (iTltn_eq_b2n w.bits)
  | tlen w t1 t0 => exact compare_meansNat h (fun _ => rfl) (iTlen_eq_b2n w.bits)
  | teqi w imm t0 => exact compareImm_meansNat h (fun _ => rfl) (iTeq_eq_b2n w.bits)
  | tnei w imm t0 => exact compareImm_meansNat h (fun _ => rfl) (iTne_eq_b2n w.bits)
  | tlti w imm t0 => exact compareImm_meansNat h (fun _ => rfl) (iTlt_eq_b2n w.bits)
  | tlei w imm t0 => exact compareImm_meansNat h (fun _ => rfl) (iTle_eq_b2n w.bits)
  | tltni w imm t0 => exact compareImm_meansNat h (fun _ => rfl) (iTltn_eq_b2n w.bits)
  | tleni w imm t0 => exact compareImm_meansNat h (fun _ => rfl) (iTlen_eq_b2n w.bits)
  | sel t1 t0 => exact .of_eq h (fun _ => rfl) fun o => ofNat_iSel o.a o.b o.c
  | clz w t1 t0 => exact count_meansNat h (fun _ => rfl) (iClz_eq_zeroRun w.bits)
  | ctz w t1 t0 => exact count_meansNat h (fun _ => rfl) (iCtz_eq_zeroRun w.bits)
  | popc w t1 t0 => exact count_meansNat h (fun _ => rfl) (iPopc_eq_length w.bits)
  | brev w t1 t0 => exact unary_meansNat h (fun _ => rfl) (iBrev_eq_toNat w.bits)
  | bswap w t1 t0 => exact unary_meansNat h (fun _ => rfl) fun a => iBswap_eq_toNat a w.eight_dvd_bits
  | bfx w t1 t0 => exact .of_toNat h (fun _ => rfl) fun o => by simp only [iBfx_eq_toNat, low_eq_ofNat]
  | bfxs w t1 t0 => exact .of_toNat h (fun _ => rfl) fun o => by simp only [iBfxs_eq_toNat, low_eq_ofNat]
  | bfi w t1 t0 => exact .of_toNat h (fun _ => rfl) fun o => by simp only [iBfi_eq_toNat, low_eq_ofNat]
  | bitt w t1 t0 => exact .of_b2n h (fun _ => rfl) fun o => by simp only [iBitt_eq_b2n, low_eq_ofNat]
  | _ => cases h
end

/-- What a meaning on numbers does as it fires on data: it sends its value, with the OR of the operands' taints, and changes nothing else. -/
theorem MeansNat.exec_eq {s : State} {i : Inst} {f : Frame} {ins : Instr} {ts : Claims.Targets} {r : Operands → Word}
    (h : MeansNat ins ts r) (hf : Claims.Fires s i f) (hn : f.onNull s.focus.idx = false) :
    exec ins s = .next (Claims.become s i f
      ((Claims.mark f s.focus.idx).sendAll ts (.val (r (Claims.operands s f)) (Claims.operands s f).taint))) := by
  obtain ⟨g, hx, hg⟩ := h
  rw [hx, onChip, Chip.fireNat_ok hf.here hf.block hf.runs hf.clear hf.may hn rfl (hg (Claims.operands s f))]
  rfl

/-- Settles O1: it holds. Each meaning is an operation on numbers whose value is the rule's in bit-vector arithmetic. -/
theorem integerResults : Obligations.IntegerResults := by
  unfold Obligations.IntegerResults
  intro s i f g ins ts r h hf hn hg
  subst hg
  exact (integerResult_meansNat h).exec_eq hf hn

end Sys2Proof.Proofs
end

section
/-! The sign operations, the class word and the random word of chapter 08 in the arithmetic of bit vectors: each is the value that its rule
names, of its operands' patterns. -/

namespace Sys2Proof.Machine

/-! ### R63: the fields of a pattern -/

theorem bitAt_eq_testBit (x k : Nat) : bitAt x k = x.testBit k := by
  rw [Nat.testBit_eq_decide_div_mod_eq, bitAt]
  rfl

/-- The sign's place lies above the exponent's and the fraction's. -/
theorem width_sub_one (f : Fmt) : f.width - 1 = f.ebits + f.frac := by rw [Fmt.width]; omega

theorem width_pred_lt (f : Fmt) : f.width - 1 < f.width := by rw [Fmt.width]; omega

section
variable (f : FFmt) (a b : Nat) (x : Word)

theorem signMask_eq_twoPow : Claims.signMask f = BitVec.twoPow _ ((fmtOf f).width - 1) := rfl

/-- A pattern without its sign bit. -/
theorem toNat_and_not_signMask : (BitVec.ofNat (fmtOf f).width a &&& ~~~Claims.signMask f).toNat = a % 2 ^ ((fmtOf f).width - 1) := by
  have hw := width_pred_lt (fmtOf f)
  refine Nat.eq_of_testBit_eq fun k => ?_
  rw [Nat.testBit_mod_two_pow, BitVec.testBit_toNat, BitVec.getLsbD_and, BitVec.getLsbD_not, BitVec.getLsbD_ofNat, signMask_eq_twoPow,
    BitVec.getLsbD_twoPow]
  rcases Nat.lt_trichotomy k ((fmtOf f).width - 1) with h | h | h
  · simp [h, h.trans hw, h.ne']
  · simp [h]
  · simp [h.not_gt, show ¬ k < (fmtOf f).width by omega]

/-- A pattern's sign bit alone. -/
theorem toNat_and_signMask : (BitVec.ofNat (fmtOf f).width b &&& Claims.signMask f).toNat =
    b2n (bitAt b ((fmtOf f).width - 1)) * 2 ^ ((fmtOf f).width - 1) := by
  have hw := width_pred_lt (fmtOf f)
  rw [signMask_eq_twoPow, BitVec.and_twoPow, BitVec.getLsbD_ofNat, decide_eq_true hw, Bool.true_and, bitAt_eq_testBit]
  cases b.testBit ((fmtOf f).width - 1) with
  | false => rw [b2n, if_neg Bool.false_ne_true, if_neg Bool.false_ne_true, Nat.zero_mul]; rfl
  | true => rw [b2n, if_pos rfl, if_pos rfl, Nat.one_mul, BitVec.toNat_twoPow_of_lt hw]

/-- Dec of R246 by the fields of the pattern. -/
theorem decode_toNat : (fmtOf f).decode x.toNat =
    if Claims.expOf f x = Claims.topExp f then
      if Claims.fracOf f x = 0 then .inf (Claims.negative f x) else .nan (Claims.negative f x) (!x.getLsbD ((fmtOf f).frac - 1))
    else if Claims.expOf f x = 0 then .fin (Claims.negative f x) (Claims.fracOf f x) ((fmtOf f).emin - (fmtOf f).frac)
    else .fin (Claims.negative f x) (2 ^ (fmtOf f).frac + Claims.fracOf f x)
      (Claims.expOf f x - (fmtOf f).bias - (fmtOf f).frac) := by
  have hneg : bitAt x.toNat ((fmtOf f).ebits + (fmtOf f).frac) = Claims.negative f x := by
    rw [bitAt_eq_testBit, ← width_sub_one]; rfl
  have hfrac : bits x.toNat 0 (fmtOf f).frac = Claims.fracOf f x := by
    rw [bits, Nat.pow_zero, Nat.div_one]; rfl
  have hquiet : bitAt (Claims.fracOf f x) ((fmtOf f).frac - 1) = x.getLsbD ((fmtOf f).frac - 1) := by
    have hpos : (fmtOf f).frac - 1 < (fmtOf f).frac := by cases f <;> decide
    rw [bitAt_eq_testBit, Claims.fracOf, Nat.testBit_mod_two_pow, decide_eq_true hpos, Bool.true_and]; rfl
  rw [Fmt.decode, hneg, hfrac, hquiet]
  rfl

/-! ### R247: the sign operations -/

theorem fAbs_eq_toNat : fAbs (fmtOf f) a = (BitVec.ofNat (fmtOf f).width a &&& ~~~Claims.signMask f).toNat := by
  rw [toNat_and_not_signMask, fAbs]

theorem fNeg_eq_toNat : fNeg (fmtOf f) a = (BitVec.ofNat (fmtOf f).width a ^^^ Claims.signMask f).toNat := by
  rw [fNeg, BitVec.toNat_xor, signMask_eq_twoPow, BitVec.toNat_twoPow_of_lt (width_pred_lt _), BitVec.toNat_ofNat, Fmt.low]

theorem fCpys_eq_toNat : fCpys (fmtOf f) a b =
    ((BitVec.ofNat (fmtOf f).width a &&& ~~~Claims.signMask f) ||| (BitVec.ofNat (fmtOf f).width b &&& Claims.signMask f)).toNat := by
  rw [BitVec.toNat_or, toNat_and_not_signMask, toNat_and_signMask, fCpys, Nat.or_comm, ← Nat.shiftLeft_eq,
    ← Nat.shiftLeft_add_eq_or_of_lt (Nat.mod_lt _ (Nat.two_pow_pos _)), Nat.add_comm]

/-! ### R249: the class word -/

theorem fracOf_lt : Claims.fracOf f x < 2 ^ (fmtOf f).frac := Nat.mod_lt _ (Nat.two_pow_pos _)

/-- Each kind of value has its bit, for NaNs by quietness and for the others by sign. -/
theorem ofNat_fClass : BitVec.ofNat 64 (fClass (fmtOf f) x.toNat) = Claims.classWord f x := by
  have hlt := fracOf_lt f x
  rw [fClass, decode_toNat, Claims.classWord]
  by_cases htop : Claims.expOf f x = Claims.topExp f
  · rw [if_pos htop, if_pos htop]
    by_cases hm : Claims.fracOf f x = 0
    · rw [if_pos hm, if_pos hm]
      cases Claims.negative f x <;> rfl
    · rw [if_neg hm, if_neg hm]
      cases x.getLsbD ((fmtOf f).frac - 1) <;> rfl
  rw [if_neg htop, if_neg htop]
  by_cases hsub : Claims.expOf f x = 0
  · rw [if_pos hsub, if_pos hsub]
    by_cases hm : Claims.fracOf f x = 0
    · simp only [hm, if_true]
      cases Claims.negative f x <;> rfl
    · simp only [hm, hlt, if_true, if_false]
      cases Claims.negative f x <;> rfl
  · have hone : 2 ^ (fmtOf f).frac + Claims.fracOf f x ≠ 0 := (Nat.add_pos_left (Nat.two_pow_pos _) _).ne'
    rw [if_neg hsub, if_neg hsub]
    simp only [hone, Nat.not_lt.mpr (Nat.le_add_right _ _), if_false]
    cases Claims.negative f x <;> rfl

end

/-! ### R259: the random word -/

/-- The high bits of a word folded onto its low ones. -/
theorem fold_toNat (z : Word) (k : Nat) : z.toNat ^^^ (z.toNat / 2 ^ k) = (z ^^^ (z >>> k)).toNat := by
  rw [BitVec.toNat_xor, BitVec.toNat_ushiftRight, Nat.shiftRight_eq_div_pow]

theorem mul_mod_toNat (z : Word) (m : Nat) : z.toNat * m % 2 ^ 64 = (z * BitVec.ofNat 64 m).toNat := by
  rw [BitVec.toNat_mul, BitVec.toNat_ofNat, Nat.mul_mod_mod]

theorem add_mul_mod_toNat (c k : Word) (m : Nat) : (c.toNat + k.toNat * m) % 2 ^ 64 = (c + k * BitVec.ofNat 64 m).toNat := by
  rw [BitVec.toNat_add, ← mul_mod_toNat, Nat.add_mod_mod]

theorem ofNat_randWord (k c : Word) : BitVec.ofNat 64 (randWord k.toNat c.toNat) =
    let z0 := c + k * 0x9E3779B97F4A7C15
    let z1 := (z0 ^^^ (z0 >>> 30)) * 0xBF58476D1CE4E5B9
    let z2 := (z1 ^^^ (z1 >>> 27)) * 0x94D049BB133111EB
    z2 ^^^ (z2 >>> 31) := by
  simp only [randWord, add_mul_mod_toNat, fold_toNat, mul_mod_toNat, BitVec.ofNat_toNat, BitVec.setWidth_eq,
    BitVec.ofNat_eq_ofNat]

end Sys2Proof.Machine
end

section
/-! Every instruction of chapter 08 that raises no flag sends the value of the numeric operation that its meaning names, and that value is its
rule's. -/

namespace Sys2Proof.Proofs
open Sys2Proof.Machine

section
variable {ins : Instr} {ts : Claims.Targets} {r : Operands → Word}

theorem pattern_eq_ofNat (f : FFmt) (x : Word) : Claims.pattern f x = BitVec.ofNat (fmtOf f).width x.toNat :=
  (BitVec.ofNat_toNat _ x).symm

/-- The value as a pattern in its 64-bit token (R65). -/
theorem MeansNat.of_pattern {us : Claims.Targets} {g : Nat → Nat → Nat → Nat} {n : Nat} {p : Operands → BitVec n}
    (h : some (us, fun o => Claims.token (p o)) = some (ts, r)) (hx : SendsNat ins us g)
    (hg : ∀ o : Operands, g o.a.toNat o.b.toNat o.c.toNat = (p o).toNat) : MeansNat ins ts r :=
  .of_eq h hx fun o => by rw [hg, BitVec.ofNat_toNat]; rfl

/-- The flagless results of chapter 08 are those of the meanings, instruction by instruction. -/
theorem patternResult_meansNat (h : Claims.patternResult ins = some (ts, r)) : MeansNat ins ts r := by
  cases ins with dsimp only [Claims.patternResult] at h
  | fabs f t1 t0 => exact .of_pattern h (fun _ => rfl) fun o => by rw [fAbs_eq_toNat, pattern_eq_ofNat]
  | fneg f t1 t0 => exact .of_pattern h (fun _ => rfl) fun o => by rw [fNeg_eq_toNat, pattern_eq_ofNat]
  | fcpys f t1 t0 => exact .of_pattern h (fun _ => rfl) fun o => by rw [fCpys_eq_toNat, pattern_eq_ofNat, pattern_eq_ofNat]
  | fclass f t1 t0 => exact .of_eq h (fun _ => rfl) fun o => ofNat_fClass f o.a
  | rand t1 t0 => exact .of_eq h (fun _ => rfl) fun o => ofNat_randWord o.a o.b
  | _ => cases h

end

/-- Settles O2: it holds. Each meaning is an operation on numbers whose value is the rule's in bit-vector arithmetic. -/
theorem bitPatternResults : Obligations.BitPatternResults := by
  unfold Obligations.BitPatternResults
  intro s i f g ins ts r h hf hn hg
  subst hg
  exact (patternResult_meansNat h).exec_eq hf hn

end Sys2Proof.Proofs
end
